-- ==== Sys2Proof/Word.lean ====
section
/-! DEFINITION. The word types of the 80386 and the two size types: the width of an operand (byte,
word, double word) and the value of a size attribute (16 or 32).
Rules: 00_scope.md R8, R9; 30_encoding.md R175, R176. -/

namespace Sys2Proof

/-- A byte, bits 7..0 (R8). -/
abbrev Byte := BitVec 8

/-- A word, always 16 bits (R8). -/
abbrev Word16 := BitVec 16

/-- A double word, always 32 bits (R8). -/
abbrev Word32 := BitVec 32

/-- The width of an operand (R8, R178): byte, word or double word. -/
inductive Width where
  | b8
  | w16
  | d32
  deriving DecidableEq, Repr

/-- The number of bits of an operand: the `N` of 41_arithmetic.md. -/
@[reducible] def Width.bits : Width → Nat
  | .b8 => 8
  | .w16 => 16
  | .d32 => 32

/-- The number of bytes of an operand: the `n` of 41_arithmetic.md. -/
def Width.bytes : Width → Nat
  | .b8 => 1
  | .w16 => 2
  | .d32 => 4

/-- The value of an operand-size or address-size attribute (R175, R176). -/
inductive Size where
  | s16
  | s32
  deriving DecidableEq, Repr

/-- The operand width an operand-size attribute selects for a word/double-word form (R175). -/
@[reducible] def Size.width : Size → Width
  | .s16 => .w16
  | .s32 => .d32

/-- The other of the two sizes: what a 66 or 67 prefix selects (R175, R176). -/
def Size.other : Size → Size
  | .s16 => .s32
  | .s32 => .s16

end Sys2Proof
end

