-- ==== Sys2Proof/Syntax.lean ====
section
/-! DEFINITION. The syntax of the 80386: register names, condition codes, memory-operand forms and the
one inductive of instructions, one constructor per row of spec/opcode_table.json (prefix rows
among them). Rules: 10_state.md R20 to R22, R41; 30_encoding.md R170 to R196; 44_control_transfer.md
R460. -/

namespace Sys2Proof

/-- The eight general registers, in the order of their numbers (R178). The same number names a
32-bit register, its low word, or one of the bytes AL CL DL BL AH CH DH BH, by the width of the
operand. -/
inductive Reg where
  | eax | ecx | edx | ebx | esp | ebp | esi | edi
  deriving DecidableEq, Repr

/-- The byte register AL is number 0 (R178). -/
abbrev Reg.al : Reg := .eax
/-- The byte register CL is number 1 (R178). -/
abbrev Reg.cl : Reg := .ecx
/-- The byte register DL is number 2 (R178). -/
abbrev Reg.dl : Reg := .edx
/-- The byte register BL is number 3 (R178). -/
abbrev Reg.bl : Reg := .ebx
/-- The byte register AH is number 4 (R178). -/
abbrev Reg.ah : Reg := .esp
/-- The byte register CH is number 5 (R178). -/
abbrev Reg.ch : Reg := .ebp
/-- The byte register DH is number 6 (R178). -/
abbrev Reg.dh : Reg := .esi
/-- The byte register BH is number 7 (R178). -/
abbrev Reg.bh : Reg := .edi

/-- The six segment registers, in the order of their numbers (R41, R179). -/
inductive SReg where
  | es | cs | ss | ds | fs | gs
  deriving DecidableEq, Repr

/-- The sixteen condition codes, in the order of their numbers (R460). -/
inductive Cond where
  | o | no | b | ae | e | ne | be | a | s | ns | p | np | l | ge | le | g
  deriving DecidableEq, Repr

/-- The base column of the 16-bit addressing forms, r/m 0 to 7 (R182). -/
inductive Base16 where
  | bxSi | bxDi | bpSi | bpDi | si | di | bp | bx
  deriving DecidableEq, Repr

/-- The displacement of a 16-bit addressing form: mod 00, 01, 10 (R182). -/
inductive Disp16 where
  | none
  | d8 (d : Byte)
  | d16 (d : Word16)
  deriving DecidableEq, Repr

/-- The displacement of a 32-bit addressing form: mod 00, 01, 10 (R184). -/
inductive Disp32 where
  | none
  | d8 (d : Byte)
  | d32 (d : Word32)
  deriving DecidableEq, Repr

/-- A memory operand as its ModRM, SIB and displacement bytes give it (R182 to R185). -/
inductive EA where
  /-- A 16-bit form with a base column (R182). -/
  | m16 (base : Base16) (disp : Disp16)
  /-- The 16-bit direct form, mod 00 r/m 6 (R182). -/
  | dir16 (disp : Word16)
  /-- A 32-bit form without SIB (R184). -/
  | m32 (base : Reg) (disp : Disp32)
  /-- The 32-bit direct form, mod 00 r/m 5 (R184). -/
  | dir32 (disp : Word32)
  /-- A form with a SIB byte: scale bits, index (none: field 4), base (none: field 5 with mod 00) (R185). -/
  | sib (scale : BitVec 2) (index : Option Reg) (base : Option Reg) (disp : Disp32)
  deriving DecidableEq, Repr

/-- The r/m operand: a register (mod 3) or memory (R180, R181). -/
inductive RM where
  | reg (r : Reg)
  | mem (m : EA)
  deriving DecidableEq, Repr

/-- A field of 16 or 32 bits, as the operand size (`iw/id`, `dw/dd`, `pd/pp`) or the address size
(`d`) chose when the instruction was decoded (R186 to R190). -/
inductive Sized where
  | w (v : Word16)
  | d (v : Word32)
  deriving DecidableEq, Repr

/-- The instructions and prefixes: one constructor per row of spec/opcode_table.json: first the
rows with operands, in the table's order, then the rows without. -/
inductive Instr where
  /-- MOV rb,ib, `B0+r ib` (R250) -/
  | movRbIb (r : Reg) (imm : Byte)
  /-- MOV rw,iw / rd,id, `B8+r iw/id` (R250) -/
  | movRvIv (r : Reg) (imm : Sized)
  /-- MOV r/mb,ib, `C6 [0] ib` (R250) -/
  | movRmbIb (rm : RM) (imm : Byte)
  /-- MOV r/mw,iw / r/md,id, `C7 [0] iw/id` (R250) -/
  | movRmvIv (rm : RM) (imm : Sized)
  /-- MOV AL,[d], `A0 d(asz)` (R250) -/
  | movAlOff (off : Sized)
  /-- MOV AX,[d] / EAX,[d], `A1 d(asz)` (R250) -/
  | movAxOff (off : Sized)
  /-- MOV [d],AL, `A2 d(asz)` (R250) -/
  | movOffAl (off : Sized)
  /-- MOV [d],AX / [d],EAX, `A3 d(asz)` (R250) -/
  | movOffAx (off : Sized)
  /-- MOV r/mb,rb, `88 [r]` (R250) -/
  | movRmbRb (rm : RM) (r : Reg)
  /-- MOV r/mw,rw / r/md,rd, `89 [r]` (R250) -/
  | movRmvRv (rm : RM) (r : Reg)
  /-- MOV rb,r/mb, `8A [r]` (R250) -/
  | movRbRmb (r : Reg) (rm : RM)
  /-- MOV rw,r/mw / rd,r/md, `8B [r]` (R250) -/
  | movRvRmv (r : Reg) (rm : RM)
  /-- MOV r/mw,sreg, `8C [s]` (R262) -/
  | movRmwSreg (rm : RM) (sr : SReg)
  /-- MOV sreg,r/mw, `8E [s]` (R262) -/
  | movSregRmw (sr : SReg) (rm : RM)
  /-- MOVSX rw,r/mb / rd,r/mb, `0F BE [r]` (R263) -/
  | movsxRvRmb (r : Reg) (rm : RM)
  /-- MOVSX rd,r/mw, `0F BF [r]` (R263) -/
  | movsxRdRmw (r : Reg) (rm : RM)
  /-- MOVZX rw,r/mb / rd,r/mb, `0F B6 [r]` (R264) -/
  | movzxRvRmb (r : Reg) (rm : RM)
  /-- MOVZX rd,r/mw, `0F B7 [r]` (R264) -/
  | movzxRdRmw (r : Reg) (rm : RM)
  /-- XCHG AX,rw / EAX,rd, `90+r` (R265) -/
  | xchgAxRv (r : Reg)
  /-- XCHG rb,r/mb, `86 [r]` (R265) -/
  | xchgRbRmb (r : Reg) (rm : RM)
  /-- XCHG rw,r/mw / rd,r/md, `87 [r]` (R265) -/
  | xchgRvRmv (r : Reg) (rm : RM)
  /-- PUSH mw / md, `FF [6]` (R270) -/
  | pushRmv (rm : RM)
  /-- PUSH rw / rd, `50+r` (R270) -/
  | pushRv (r : Reg)
  /-- PUSH ib (sign-extended), `6A ib` (R270) -/
  | pushIb (imm : Byte)
  /-- PUSH iw / id, `68 iw/id` (R270) -/
  | pushIv (imm : Sized)
  /-- POP mw / md, `8F [0]`, memory only (R181, R275) -/
  | popRmv (m : EA)
  /-- POP rw / rd, `58+r` (R275) -/
  | popRv (r : Reg)
  /-- LEA rw,m / rd,m, `8D [r]` (R286) -/
  | lea (r : Reg) (m : EA)
  /-- LDS rw,mw:w / rd,mw:d, `C5 [r]` (R288) -/
  | lds (r : Reg) (m : EA)
  /-- LES rw,mw:w / rd,mw:d, `C4 [r]` (R289) -/
  | les (r : Reg) (m : EA)
  /-- LFS rw,mw:w / rd,mw:d, `0F B4 [r]` (R290) -/
  | lfs (r : Reg) (m : EA)
  /-- LGS rw,mw:w / rd,mw:d, `0F B5 [r]` (R291) -/
  | lgs (r : Reg) (m : EA)
  /-- LSS rw,mw:w / rd,mw:d, `0F B2 [r]` (R292) -/
  | lss (r : Reg) (m : EA)
  /-- IN AL,ib, `E4 ib` (R295) -/
  | inAlIb (port : Byte)
  /-- IN AX,ib / EAX,ib, `E5 ib` (R295) -/
  | inAxIb (port : Byte)
  /-- OUT ib,AL, `E6 ib` (R296) -/
  | outIbAl (port : Byte)
  /-- OUT ib,AX / ib,EAX, `E7 ib` (R296) -/
  | outIbAx (port : Byte)
  /-- AAD , `D5 0A` (R314) -/
  | aad (base : Byte)
  /-- AAM , `D4 0A` (R315) -/
  | aam (base : Byte)
  /-- ADD r/mb,rb, `00 [r]` (R320) -/
  | addRmbRb (rm : RM) (r : Reg)
  /-- ADD r/mw,rw / r/md,rd, `01 [r]` (R320) -/
  | addRmvRv (rm : RM) (r : Reg)
  /-- ADD rb,r/mb, `02 [r]` (R320) -/
  | addRbRmb (r : Reg) (rm : RM)
  /-- ADD rw,r/mw / rd,r/md, `03 [r]` (R320) -/
  | addRvRmv (r : Reg) (rm : RM)
  /-- ADD AL,ib, `04 ib` (R320) -/
  | addAlIb (imm : Byte)
  /-- ADD AX,iw / EAX,id, `05 iw/id` (R320) -/
  | addAxIv (imm : Sized)
  /-- ADD r/mb,ib, `80 [0] ib` (R320) -/
  | addRmbIb (rm : RM) (imm : Byte)
  /-- ADD r/mw,iw / r/md,id, `81 [0] iw/id` (R320) -/
  | addRmvIv (rm : RM) (imm : Sized)
  /-- ADD r/mw,ib / r/md,ib (ib sign-extended), `83 [0] ib` (R320) -/
  | addRmvIb (rm : RM) (imm : Byte)
  /-- OR r/mb,rb, `08 [r]` (R362) -/
  | orRmbRb (rm : RM) (r : Reg)
  /-- OR r/mw,rw / r/md,rd, `09 [r]` (R362) -/
  | orRmvRv (rm : RM) (r : Reg)
  /-- OR rb,r/mb, `0A [r]` (R362) -/
  | orRbRmb (r : Reg) (rm : RM)
  /-- OR rw,r/mw / rd,r/md, `0B [r]` (R362) -/
  | orRvRmv (r : Reg) (rm : RM)
  /-- OR AL,ib, `0C ib` (R362) -/
  | orAlIb (imm : Byte)
  /-- OR AX,iw / EAX,id, `0D iw/id` (R362) -/
  | orAxIv (imm : Sized)
  /-- OR r/mb,ib, `80 [1] ib` (R362) -/
  | orRmbIb (rm : RM) (imm : Byte)
  /-- OR r/mw,iw / r/md,id, `81 [1] iw/id` (R362) -/
  | orRmvIv (rm : RM) (imm : Sized)
  /-- OR r/mw,ib / r/md,ib (ib sign-extended), `83 [1] ib` (R362) -/
  | orRmvIb (rm : RM) (imm : Byte)
  /-- ADC r/mb,rb, `10 [r]` (R321) -/
  | adcRmbRb (rm : RM) (r : Reg)
  /-- ADC r/mw,rw / r/md,rd, `11 [r]` (R321) -/
  | adcRmvRv (rm : RM) (r : Reg)
  /-- ADC rb,r/mb, `12 [r]` (R321) -/
  | adcRbRmb (r : Reg) (rm : RM)
  /-- ADC rw,r/mw / rd,r/md, `13 [r]` (R321) -/
  | adcRvRmv (r : Reg) (rm : RM)
  /-- ADC AL,ib, `14 ib` (R321) -/
  | adcAlIb (imm : Byte)
  /-- ADC AX,iw / EAX,id, `15 iw/id` (R321) -/
  | adcAxIv (imm : Sized)
  /-- ADC r/mb,ib, `80 [2] ib` (R321) -/
  | adcRmbIb (rm : RM) (imm : Byte)
  /-- ADC r/mw,iw / r/md,id, `81 [2] iw/id` (R321) -/
  | adcRmvIv (rm : RM) (imm : Sized)
  /-- ADC r/mw,ib / r/md,ib (ib sign-extended), `83 [2] ib` (R321) -/
  | adcRmvIb (rm : RM) (imm : Byte)
  /-- SBB r/mb,rb, `18 [r]` (R323) -/
  | sbbRmbRb (rm : RM) (r : Reg)
  /-- SBB r/mw,rw / r/md,rd, `19 [r]` (R323) -/
  | sbbRmvRv (rm : RM) (r : Reg)
  /-- SBB rb,r/mb, `1A [r]` (R323) -/
  | sbbRbRmb (r : Reg) (rm : RM)
  /-- SBB rw,r/mw / rd,r/md, `1B [r]` (R323) -/
  | sbbRvRmv (r : Reg) (rm : RM)
  /-- SBB AL,ib, `1C ib` (R323) -/
  | sbbAlIb (imm : Byte)
  /-- SBB AX,iw / EAX,id, `1D iw/id` (R323) -/
  | sbbAxIv (imm : Sized)
  /-- SBB r/mb,ib, `80 [3] ib` (R323) -/
  | sbbRmbIb (rm : RM) (imm : Byte)
  /-- SBB r/mw,iw / r/md,id, `81 [3] iw/id` (R323) -/
  | sbbRmvIv (rm : RM) (imm : Sized)
  /-- SBB r/mw,ib / r/md,ib (ib sign-extended), `83 [3] ib` (R323) -/
  | sbbRmvIb (rm : RM) (imm : Byte)
  /-- AND r/mb,rb, `20 [r]` (R361) -/
  | andRmbRb (rm : RM) (r : Reg)
  /-- AND r/mw,rw / r/md,rd, `21 [r]` (R361) -/
  | andRmvRv (rm : RM) (r : Reg)
  /-- AND rb,r/mb, `22 [r]` (R361) -/
  | andRbRmb (r : Reg) (rm : RM)
  /-- AND rw,r/mw / rd,r/md, `23 [r]` (R361) -/
  | andRvRmv (r : Reg) (rm : RM)
  /-- AND AL,ib, `24 ib` (R361) -/
  | andAlIb (imm : Byte)
  /-- AND AX,iw / EAX,id, `25 iw/id` (R361) -/
  | andAxIv (imm : Sized)
  /-- AND r/mb,ib, `80 [4] ib` (R361) -/
  | andRmbIb (rm : RM) (imm : Byte)
  /-- AND r/mw,iw / r/md,id, `81 [4] iw/id` (R361) -/
  | andRmvIv (rm : RM) (imm : Sized)
  /-- AND r/mw,ib / r/md,ib (ib sign-extended), `83 [4] ib` (R361) -/
  | andRmvIb (rm : RM) (imm : Byte)
  /-- SUB r/mb,rb, `28 [r]` (R322) -/
  | subRmbRb (rm : RM) (r : Reg)
  /-- SUB r/mw,rw / r/md,rd, `29 [r]` (R322) -/
  | subRmvRv (rm : RM) (r : Reg)
  /-- SUB rb,r/mb, `2A [r]` (R322) -/
  | subRbRmb (r : Reg) (rm : RM)
  /-- SUB rw,r/mw / rd,r/md, `2B [r]` (R322) -/
  | subRvRmv (r : Reg) (rm : RM)
  /-- SUB AL,ib, `2C ib` (R322) -/
  | subAlIb (imm : Byte)
  /-- SUB AX,iw / EAX,id, `2D iw/id` (R322) -/
  | subAxIv (imm : Sized)
  /-- SUB r/mb,ib, `80 [5] ib` (R322) -/
  | subRmbIb (rm : RM) (imm : Byte)
  /-- SUB r/mw,iw / r/md,id, `81 [5] iw/id` (R322) -/
  | subRmvIv (rm : RM) (imm : Sized)
  /-- SUB r/mw,ib / r/md,ib (ib sign-extended), `83 [5] ib` (R322) -/
  | subRmvIb (rm : RM) (imm : Byte)
  /-- XOR r/mb,rb, `30 [r]` (R363) -/
  | xorRmbRb (rm : RM) (r : Reg)
  /-- XOR r/mw,rw / r/md,rd, `31 [r]` (R363) -/
  | xorRmvRv (rm : RM) (r : Reg)
  /-- XOR rb,r/mb, `32 [r]` (R363) -/
  | xorRbRmb (r : Reg) (rm : RM)
  /-- XOR rw,r/mw / rd,r/md, `33 [r]` (R363) -/
  | xorRvRmv (r : Reg) (rm : RM)
  /-- XOR AL,ib, `34 ib` (R363) -/
  | xorAlIb (imm : Byte)
  /-- XOR AX,iw / EAX,id, `35 iw/id` (R363) -/
  | xorAxIv (imm : Sized)
  /-- XOR r/mb,ib, `80 [6] ib` (R363) -/
  | xorRmbIb (rm : RM) (imm : Byte)
  /-- XOR r/mw,iw / r/md,id, `81 [6] iw/id` (R363) -/
  | xorRmvIv (rm : RM) (imm : Sized)
  /-- XOR r/mw,ib / r/md,ib (ib sign-extended), `83 [6] ib` (R363) -/
  | xorRmvIb (rm : RM) (imm : Byte)
  /-- CMP r/mb,rb, `38 [r]` (R324) -/
  | cmpRmbRb (rm : RM) (r : Reg)
  /-- CMP r/mw,rw / r/md,rd, `39 [r]` (R324) -/
  | cmpRmvRv (rm : RM) (r : Reg)
  /-- CMP rb,r/mb, `3A [r]` (R324) -/
  | cmpRbRmb (r : Reg) (rm : RM)
  /-- CMP rw,r/mw / rd,r/md, `3B [r]` (R324) -/
  | cmpRvRmv (r : Reg) (rm : RM)
  /-- CMP AL,ib, `3C ib` (R324) -/
  | cmpAlIb (imm : Byte)
  /-- CMP AX,iw / EAX,id, `3D iw/id` (R324) -/
  | cmpAxIv (imm : Sized)
  /-- CMP r/mb,ib, `80 [7] ib` (R324) -/
  | cmpRmbIb (rm : RM) (imm : Byte)
  /-- CMP r/mw,iw / r/md,id, `81 [7] iw/id` (R324) -/
  | cmpRmvIv (rm : RM) (imm : Sized)
  /-- CMP r/mw,ib / r/md,ib (ib sign-extended), `83 [7] ib` (R324) -/
  | cmpRmvIb (rm : RM) (imm : Byte)
  /-- INC r/mb, `FE [0]` (R325) -/
  | incRmb (rm : RM)
  /-- INC r/mw / r/md, `FF [0]` (R325) -/
  | incRmv (rm : RM)
  /-- INC rw / rd, `40+r` (R325) -/
  | incRv (r : Reg)
  /-- DEC r/mb, `FE [1]` (R326) -/
  | decRmb (rm : RM)
  /-- DEC r/mw / r/md, `FF [1]` (R326) -/
  | decRmv (rm : RM)
  /-- DEC rw / rd, `48+r` (R326) -/
  | decRv (r : Reg)
  /-- TEST r/mb,ib, `F6 [0] ib` (R365) -/
  | testRmbIb (rm : RM) (imm : Byte)
  /-- TEST r/mw,iw / r/md,id, `F7 [0] iw/id` (R365) -/
  | testRmvIv (rm : RM) (imm : Sized)
  /-- NOT r/mb, `F6 [2]` (R364) -/
  | notRmb (rm : RM)
  /-- NOT r/mw / r/md, `F7 [2]` (R364) -/
  | notRmv (rm : RM)
  /-- NEG r/mb, `F6 [3]` (R327) -/
  | negRmb (rm : RM)
  /-- NEG r/mw / r/md, `F7 [3]` (R327) -/
  | negRmv (rm : RM)
  /-- MUL r/mb, `F6 [4]` (R330) -/
  | mulRmb (rm : RM)
  /-- MUL r/mw / r/md, `F7 [4]` (R330) -/
  | mulRmv (rm : RM)
  /-- IMUL r/mb, `F6 [5]` (R331) -/
  | imulRmb (rm : RM)
  /-- IMUL r/mw / r/md, `F7 [5]` (R331) -/
  | imulRmv (rm : RM)
  /-- DIV r/mb, `F6 [6]` (R332) -/
  | divRmb (rm : RM)
  /-- DIV r/mw / r/md, `F7 [6]` (R332) -/
  | divRmv (rm : RM)
  /-- IDIV r/mb, `F6 [7]` (R333) -/
  | idivRmb (rm : RM)
  /-- IDIV r/mw / r/md, `F7 [7]` (R333) -/
  | idivRmv (rm : RM)
  /-- IMUL rw,r/mw / rd,r/md, `0F AF [r]` (R331) -/
  | imulRvRmv (r : Reg) (rm : RM)
  /-- IMUL rw,r/mw,ib / rd,r/md,ib, `6B [r] ib` (R331) -/
  | imulRvRmvIb (r : Reg) (rm : RM) (imm : Byte)
  /-- IMUL rw,r/mw,iw / rd,r/md,id, `69 [r] iw/id` (R331) -/
  | imulRvRmvIv (r : Reg) (rm : RM) (imm : Sized)
  /-- TEST AL,ib, `A8 ib` (R365) -/
  | testAlIb (imm : Byte)
  /-- TEST AX,iw / EAX,id, `A9 iw/id` (R365) -/
  | testAxIv (imm : Sized)
  /-- TEST r/mb,rb, `84 [r]` (R365) -/
  | testRmbRb (rm : RM) (r : Reg)
  /-- TEST r/mw,rw / r/md,rd, `85 [r]` (R365) -/
  | testRmvRv (rm : RM) (r : Reg)
  /-- ROL r/mb,1, `D0 [0]` (R376) -/
  | rolRmbOne (rm : RM)
  /-- ROL r/mb,CL, `D2 [0]` (R376) -/
  | rolRmbCl (rm : RM)
  /-- ROL r/mb,ib, `C0 [0] ib` (R376) -/
  | rolRmbIb (rm : RM) (imm : Byte)
  /-- ROL r/mw,1 / r/md,1, `D1 [0]` (R376) -/
  | rolRmvOne (rm : RM)
  /-- ROL r/mw,CL / r/md,CL, `D3 [0]` (R376) -/
  | rolRmvCl (rm : RM)
  /-- ROL r/mw,ib / r/md,ib, `C1 [0] ib` (R376) -/
  | rolRmvIb (rm : RM) (imm : Byte)
  /-- ROR r/mb,1, `D0 [1]` (R377) -/
  | rorRmbOne (rm : RM)
  /-- ROR r/mb,CL, `D2 [1]` (R377) -/
  | rorRmbCl (rm : RM)
  /-- ROR r/mb,ib, `C0 [1] ib` (R377) -/
  | rorRmbIb (rm : RM) (imm : Byte)
  /-- ROR r/mw,1 / r/md,1, `D1 [1]` (R377) -/
  | rorRmvOne (rm : RM)
  /-- ROR r/mw,CL / r/md,CL, `D3 [1]` (R377) -/
  | rorRmvCl (rm : RM)
  /-- ROR r/mw,ib / r/md,ib, `C1 [1] ib` (R377) -/
  | rorRmvIb (rm : RM) (imm : Byte)
  /-- RCL r/mb,1, `D0 [2]` (R378) -/
  | rclRmbOne (rm : RM)
  /-- RCL r/mb,CL, `D2 [2]` (R378) -/
  | rclRmbCl (rm : RM)
  /-- RCL r/mb,ib, `C0 [2] ib` (R378) -/
  | rclRmbIb (rm : RM) (imm : Byte)
  /-- RCL r/mw,1 / r/md,1, `D1 [2]` (R378) -/
  | rclRmvOne (rm : RM)
  /-- RCL r/mw,CL / r/md,CL, `D3 [2]` (R378) -/
  | rclRmvCl (rm : RM)
  /-- RCL r/mw,ib / r/md,ib, `C1 [2] ib` (R378) -/
  | rclRmvIb (rm : RM) (imm : Byte)
  /-- RCR r/mb,1, `D0 [3]` (R379) -/
  | rcrRmbOne (rm : RM)
  /-- RCR r/mb,CL, `D2 [3]` (R379) -/
  | rcrRmbCl (rm : RM)
  /-- RCR r/mb,ib, `C0 [3] ib` (R379) -/
  | rcrRmbIb (rm : RM) (imm : Byte)
  /-- RCR r/mw,1 / r/md,1, `D1 [3]` (R379) -/
  | rcrRmvOne (rm : RM)
  /-- RCR r/mw,CL / r/md,CL, `D3 [3]` (R379) -/
  | rcrRmvCl (rm : RM)
  /-- RCR r/mw,ib / r/md,ib, `C1 [3] ib` (R379) -/
  | rcrRmvIb (rm : RM) (imm : Byte)
  /-- SHL_SAL r/mb,1, `D0 [4]` (R371) -/
  | shlRmbOne (rm : RM)
  /-- SHL_SAL r/mb,CL, `D2 [4]` (R371) -/
  | shlRmbCl (rm : RM)
  /-- SHL_SAL r/mb,ib, `C0 [4] ib` (R371) -/
  | shlRmbIb (rm : RM) (imm : Byte)
  /-- SHL_SAL r/mw,1 / r/md,1, `D1 [4]` (R371) -/
  | shlRmvOne (rm : RM)
  /-- SHL_SAL r/mw,CL / r/md,CL, `D3 [4]` (R371) -/
  | shlRmvCl (rm : RM)
  /-- SHL_SAL r/mw,ib / r/md,ib, `C1 [4] ib` (R371) -/
  | shlRmvIb (rm : RM) (imm : Byte)
  /-- SHR r/mb,1, `D0 [5]` (R372) -/
  | shrRmbOne (rm : RM)
  /-- SHR r/mb,CL, `D2 [5]` (R372) -/
  | shrRmbCl (rm : RM)
  /-- SHR r/mb,ib, `C0 [5] ib` (R372) -/
  | shrRmbIb (rm : RM) (imm : Byte)
  /-- SHR r/mw,1 / r/md,1, `D1 [5]` (R372) -/
  | shrRmvOne (rm : RM)
  /-- SHR r/mw,CL / r/md,CL, `D3 [5]` (R372) -/
  | shrRmvCl (rm : RM)
  /-- SHR r/mw,ib / r/md,ib, `C1 [5] ib` (R372) -/
  | shrRmvIb (rm : RM) (imm : Byte)
  /-- SAR r/mb,1, `D0 [7]` (R373) -/
  | sarRmbOne (rm : RM)
  /-- SAR r/mb,CL, `D2 [7]` (R373) -/
  | sarRmbCl (rm : RM)
  /-- SAR r/mb,ib, `C0 [7] ib` (R373) -/
  | sarRmbIb (rm : RM) (imm : Byte)
  /-- SAR r/mw,1 / r/md,1, `D1 [7]` (R373) -/
  | sarRmvOne (rm : RM)
  /-- SAR r/mw,CL / r/md,CL, `D3 [7]` (R373) -/
  | sarRmvCl (rm : RM)
  /-- SAR r/mw,ib / r/md,ib, `C1 [7] ib` (R373) -/
  | sarRmvIb (rm : RM) (imm : Byte)
  /-- SHLD r/mw,rw,ib / r/md,rd,ib, `0F A4 [r] ib` (R385) -/
  | shldIb (rm : RM) (r : Reg) (imm : Byte)
  /-- SHLD r/mw,rw,CL / r/md,rd,CL, `0F A5 [r]` (R385) -/
  | shldCl (rm : RM) (r : Reg)
  /-- SHRD r/mw,rw,ib / r/md,rd,ib, `0F AC [r] ib` (R386) -/
  | shrdIb (rm : RM) (r : Reg) (imm : Byte)
  /-- SHRD r/mw,rw,CL / r/md,rd,CL, `0F AD [r]` (R386) -/
  | shrdCl (rm : RM) (r : Reg)
  /-- BT r/mw,rw / r/md,rd, `0F A3 [r]` (R401) -/
  | btRmvRv (rm : RM) (r : Reg)
  /-- BT r/mw,ib / r/md,ib, `0F BA [4] ib` (R401) -/
  | btRmvIb (rm : RM) (imm : Byte)
  /-- BTS r/mw,rw / r/md,rd, `0F AB [r]` (R404) -/
  | btsRmvRv (rm : RM) (r : Reg)
  /-- BTS r/mw,ib / r/md,ib, `0F BA [5] ib` (R404) -/
  | btsRmvIb (rm : RM) (imm : Byte)
  /-- BTR r/mw,rw / r/md,rd, `0F B3 [r]` (R403) -/
  | btrRmvRv (rm : RM) (r : Reg)
  /-- BTR r/mw,ib / r/md,ib, `0F BA [6] ib` (R403) -/
  | btrRmvIb (rm : RM) (imm : Byte)
  /-- BTC r/mw,rw / r/md,rd, `0F BB [r]` (R402) -/
  | btcRmvRv (rm : RM) (r : Reg)
  /-- BTC r/mw,ib / r/md,ib, `0F BA [7] ib` (R402) -/
  | btcRmvIb (rm : RM) (imm : Byte)
  /-- BSF rw,r/mw / rd,r/md, `0F BC [r]` (R410) -/
  | bsf (r : Reg) (rm : RM)
  /-- BSR rw,r/mw / rd,r/md, `0F BD [r]` (R411) -/
  | bsr (r : Reg) (rm : RM)
  /-- SETcc r/mb, `0F 90+cc [x]` (R415) -/
  | setcc (c : Cond) (rm : RM)
  /-- JMP db (short), `EB db` (R471) -/
  | jmpShort (disp : Byte)
  /-- JMP dw / dd (near), `E9 dw/dd` (R471) -/
  | jmpNear (disp : Sized)
  /-- JMP r/mw / r/md (near indirect), `FF [4]` (R471) -/
  | jmpRmv (rm : RM)
  /-- JMP pd / pp (far direct), `EA pd/pp` (R472) -/
  | jmpFar (off : Sized) (sel : Word16)
  /-- JMP mw:w / mw:d (far indirect), `FF [5]` (R472) -/
  | jmpFarMem (m : EA)
  /-- Jcc db (short), `70+cc db` (R473) -/
  | jccShort (c : Cond) (disp : Byte)
  /-- Jcc dw / dd (near), `0F 80+cc dw/dd` (R473) -/
  | jccNear (c : Cond) (disp : Sized)
  /-- JCXZ_JECXZ db, `E3 db` (R474) -/
  | jcxz (disp : Byte)
  /-- LOOP db, `E2 db` (R475) -/
  | loop (disp : Byte)
  /-- LOOPE_LOOPZ db, `E1 db` (R476) -/
  | loope (disp : Byte)
  /-- LOOPNE_LOOPNZ db, `E0 db` (R477) -/
  | loopne (disp : Byte)
  /-- CALL dw / dd (near), `E8 dw/dd` (R478) -/
  | callNear (disp : Sized)
  /-- CALL r/mw / r/md (near indirect), `FF [2]` (R478) -/
  | callRmv (rm : RM)
  /-- CALL pd / pp (far direct), `9A pd/pp` (R479) -/
  | callFar (off : Sized) (sel : Word16)
  /-- CALL mw:w / mw:d (far indirect), `FF [3]` (R479) -/
  | callFarMem (m : EA)
  /-- RET iw (near), `C2 iw` (R480) -/
  | retNearIw (n : Word16)
  /-- RET iw (far), `CA iw` (R480) -/
  | retFarIw (n : Word16)
  /-- INT ib, `CD ib` (R495) -/
  | intIb (v : Byte)
  /-- ENTER iw,ib, `C8 iw ib` (R505) -/
  | enter (n : Word16) (level : Byte)
  /-- BOUND rw,mw / rd,md, `62 [r]` (R510) -/
  | bound (r : Reg) (m : EA)
  /-- ESC r/m (coprocessor escape), `D8..DF [r]` (R539) -/
  | esc (op : BitVec 3) (ext : BitVec 3) (rm : RM)
  /-- LOCK prefix, `F0` (R530) -/
  | lock
  /-- REPNE_REPNZ prefix, `F2` (R440) -/
  | repne
  /-- REP_REPE_REPZ prefix, `F3` (R440) -/
  | rep
  /-- ES: segment-override prefix, `26` (R174) -/
  | segEs
  /-- CS: segment-override prefix, `2E` (R174) -/
  | segCs
  /-- SS: segment-override prefix, `36` (R174) -/
  | segSs
  /-- DS: segment-override prefix, `3E` (R174) -/
  | segDs
  /-- FS: segment-override prefix, `64` (R174) -/
  | segFs
  /-- GS: segment-override prefix, `65` (R174) -/
  | segGs
  /-- OPSIZE operand-size prefix, `66` (R175) -/
  | opSize
  /-- ADDRSIZE address-size prefix, `67` (R176) -/
  | addrSize
  /-- PUSH CS, `0E` (R270) -/
  | pushCs
  /-- PUSH DS, `1E` (R270) -/
  | pushDs
  /-- PUSH ES, `06` (R270) -/
  | pushEs
  /-- PUSH SS, `16` (R270) -/
  | pushSs
  /-- PUSH FS, `0F A0` (R270) -/
  | pushFs
  /-- PUSH GS, `0F A8` (R270) -/
  | pushGs
  /-- POP DS, `1F` (R278) -/
  | popDs
  /-- POP ES, `07` (R278) -/
  | popEs
  /-- POP SS, `17` (R278) -/
  | popSs
  /-- POP FS, `0F A1` (R278) -/
  | popFs
  /-- POP GS, `0F A9` (R278) -/
  | popGs
  /-- PUSHA_PUSHAD , `60` (R280) -/
  | pusha
  /-- POPA_POPAD , `61` (R281) -/
  | popa
  /-- PUSHF_PUSHFD , `9C` (R283) -/
  | pushf
  /-- POPF_POPFD , `9D` (R284) -/
  | popf
  /-- XLAT_XLATB , `D7` (R293) -/
  | xlat
  /-- IN AL,DX, `EC` (R295) -/
  | inAlDx
  /-- IN AX,DX / EAX,DX, `ED` (R295) -/
  | inAxDx
  /-- OUT DX,AL, `EE` (R296) -/
  | outDxAl
  /-- OUT DX,AX / DX,EAX, `EF` (R296) -/
  | outDxAx
  /-- LAHF , `9F` (R298) -/
  | lahf
  /-- SAHF , `9E` (R299) -/
  | sahf
  /-- CBW_CWDE , `98` (R300) -/
  | cbw
  /-- CWD_CDQ , `99` (R301) -/
  | cwd
  /-- AAA , `37` (R313) -/
  | aaa
  /-- AAS , `3F` (R316) -/
  | aas
  /-- DAA , `27` (R317) -/
  | daa
  /-- DAS , `2F` (R318) -/
  | das
  /-- MOVSB , `A4` (R431) -/
  | movsb
  /-- MOVSW_MOVSD , `A5` (R431) -/
  | movsv
  /-- CMPSB , `A6` (R432) -/
  | cmpsb
  /-- CMPSW_CMPSD , `A7` (R432) -/
  | cmpsv
  /-- STOSB , `AA` (R435) -/
  | stosb
  /-- STOSW_STOSD , `AB` (R435) -/
  | stosv
  /-- LODSB , `AC` (R434) -/
  | lodsb
  /-- LODSW_LODSD , `AD` (R434) -/
  | lodsv
  /-- SCASB , `AE` (R433) -/
  | scasb
  /-- SCASW_SCASD , `AF` (R433) -/
  | scasv
  /-- INSB , `6C` (R436) -/
  | insb
  /-- INSW_INSD , `6D` (R436) -/
  | insv
  /-- OUTSB , `6E` (R437) -/
  | outsb
  /-- OUTSW_OUTSD , `6F` (R437) -/
  | outsv
  /-- RET (near), `C3` (R480) -/
  | retNear
  /-- RET (far), `CB` (R480) -/
  | retFar
  /-- INT 3, `CC` (R495) -/
  | int3
  /-- INTO , `CE` (R496) -/
  | into
  /-- IRET_IRETD , `CF` (R500) -/
  | iret
  /-- LEAVE , `C9` (R506) -/
  | leave
  /-- CLC , `F8` (R520) -/
  | clc
  /-- STC , `F9` (R521) -/
  | stc
  /-- CMC , `F5` (R522) -/
  | cmc
  /-- CLD , `FC` (R523) -/
  | cld
  /-- STD , `FD` (R524) -/
  | std
  /-- CLI , `FA` (R525) -/
  | cli
  /-- STI , `FB` (R526) -/
  | sti
  /-- HLT , `F4` (R528) -/
  | hlt
  /-- WAIT , `9B` (R529) -/
  | wait
  /-- NOP , `90` (R533) -/
  | nop
  deriving DecidableEq, Repr

end Sys2Proof
end

