-- ==== Sys2Proof/Machine/Bits.lean ====
section
/-! DEFINITION. Byte order, bit fields and the numbers of names in encodings.
Rules: 00_scope.md R8, R9; 20_memory.md R101; 30_encoding.md R178, R179; 44_control_transfer.md R460. -/

namespace Sys2Proof

/-- Byte `k` of a value, byte 0 the least significant (R101). -/
def byteOf {w : Nat} (k : Nat) (v : BitVec w) : Byte := v.extractLsb' (8 * k) 8

/-- A word from its two bytes, lowest address first (R101). -/
def word16 (b0 b1 : Byte) : Word16 := b1 ++ b0

/-- A double word from its four bytes, lowest address first (R101). -/
def word32 (b0 b1 b2 b3 : Byte) : Word32 := b3 ++ (b2 ++ (b1 ++ b0))

/-- The bytes of a word, lowest address first (R101). -/
def bytes16 (v : Word16) : List Byte := [byteOf 0 v, byteOf 1 v]

/-- The bytes of a double word, lowest address first (R101). -/
def bytes32 (v : Word32) : List Byte := [byteOf 0 v, byteOf 1 v, byteOf 2 v, byteOf 3 v]

/-- The number little-endian bytes stand for (R101). -/
def leNat : List Byte → Nat
  | [] => 0
  | b :: bs => b.toNat + 256 * leNat bs

/-- The low `n` bytes of a value, lowest address first (R101). -/
def leBytes {w : Nat} (n : Nat) (v : BitVec w) : List Byte :=
  (List.range n).map fun k => byteOf k v

/-- `sext_N` (R9). -/
def sext {w : Nat} (n : Nat) (v : BitVec w) : BitVec n := v.signExtend n

/-- `zext_N` (R9); to a smaller width, the low bits. -/
def zext {w : Nat} (n : Nat) (v : BitVec w) : BitVec n := v.setWidth n

/-- The most significant bit of an operand. -/
def msbOf {w : Nat} (v : BitVec w) : Bool := v.msb

/-- One bit as a word, for building images. -/
def bit (w : Nat) (k : Nat) (b : Bool) : BitVec w := if b then BitVec.twoPow w k else 0

/-- The number of a general register (R178). -/
def Reg.num : Reg → BitVec 3
  | .eax => 0
  | .ecx => 1
  | .edx => 2
  | .ebx => 3
  | .esp => 4
  | .ebp => 5
  | .esi => 6
  | .edi => 7

/-- The general register a 3-bit field names (R178). -/
def Reg.ofNum (k : BitVec 3) : Reg :=
  match k.toNat with
  | 0 => .eax
  | 1 => .ecx
  | 2 => .edx
  | 3 => .ebx
  | 4 => .esp
  | 5 => .ebp
  | 6 => .esi
  | _ => .edi

/-- The number of a segment register (R179). -/
def SReg.num : SReg → BitVec 3
  | .es => 0
  | .cs => 1
  | .ss => 2
  | .ds => 3
  | .fs => 4
  | .gs => 5

/-- The segment register a 3-bit field names; 6 and 7 name none (R179). -/
def SReg.ofNum? (k : BitVec 3) : Option SReg :=
  match k.toNat with
  | 0 => some .es
  | 1 => some .cs
  | 2 => some .ss
  | 3 => some .ds
  | 4 => some .fs
  | 5 => some .gs
  | _ => none

/-- The number of a condition code (R460). -/
def Cond.num : Cond → BitVec 4
  | .o => 0x0
  | .no => 0x1
  | .b => 0x2
  | .ae => 0x3
  | .e => 0x4
  | .ne => 0x5
  | .be => 0x6
  | .a => 0x7
  | .s => 0x8
  | .ns => 0x9
  | .p => 0xA
  | .np => 0xB
  | .l => 0xC
  | .ge => 0xD
  | .le => 0xE
  | .g => 0xF

/-- The condition a 4-bit field names (R460). -/
def Cond.ofNum (k : BitVec 4) : Cond :=
  match k.toNat with
  | 0 => .o
  | 1 => .no
  | 2 => .b
  | 3 => .ae
  | 4 => .e
  | 5 => .ne
  | 6 => .be
  | 7 => .a
  | 8 => .s
  | 9 => .ns
  | 10 => .p
  | 11 => .np
  | 12 => .l
  | 13 => .ge
  | 14 => .le
  | _ => .g

/-- The r/m number of a 16-bit base column (R182). -/
def Base16.num : Base16 → BitVec 3
  | .bxSi => 0
  | .bxDi => 1
  | .bpSi => 2
  | .bpDi => 3
  | .si => 4
  | .di => 5
  | .bp => 6
  | .bx => 7

/-- The 16-bit base column an r/m field names (R182). -/
def Base16.ofNum (k : BitVec 3) : Base16 :=
  match k.toNat with
  | 0 => .bxSi
  | 1 => .bxDi
  | 2 => .bpSi
  | 3 => .bpDi
  | 4 => .si
  | 5 => .di
  | 6 => .bp
  | _ => .bx

end Sys2Proof
end

