-- ==== Sys2Proof/WellFormed.lean ====
section
/-! DEFINITION. Which terms of Instr an encoding can give, under an operand size and an address size.
Rules: 30_encoding.md R175, R176, R182 to R190, R205; 40_data_transfer.md R262; 45_flag_processor_control.md
R533. -/

namespace Sys2Proof

/-- The field has the size the attribute chose (R186 to R190). -/
def Sized.has (z : Size) : Sized → Bool
  | .w _ => z == .s16
  | .d _ => z == .s32

/-- A memory operand an encoding under address size `a` can give (R182, R184, R185): the direct forms
take the places of BP and EBP without displacement, ESP is no index and is a base only through SIB,
and a SIB byte without base has a 32-bit displacement. -/
def EA.wf (a : Size) : EA → Bool
  | .m16 b d => a == .s16 && !(b == .bp && d == .none)
  | .dir16 _ => a == .s16
  | .m32 b d => a == .s32 && b != .esp && !(b == .ebp && d == .none)
  | .dir32 _ => a == .s32
  | .sib _ i b d =>
    a == .s32 && i != some .esp &&
      match b with
      | none => match d with
        | .d32 _ => true
        | _ => false
      | some r => !(r == .ebp && d == .none)

/-- An r/m operand an encoding under address size `a` can give. -/
def RM.wf (a : Size) : RM → Bool
  | .reg _ => true
  | .mem m => m.wf a

/-- The instructions an encoding under operand size `o` and address size `a` can give. -/
def Instr.wf (o a : Size) : Instr → Bool
  | .lock => true
  | .repne => true
  | .rep => true
  | .segEs => true
  | .segCs => true
  | .segSs => true
  | .segDs => true
  | .segFs => true
  | .segGs => true
  | .opSize => true
  | .addrSize => true
  | .movRbIb _ _ => true
  | .movRvIv _ imm => imm.has o
  | .movRmbIb rm _ => rm.wf a
  | .movRmvIv rm imm => rm.wf a && imm.has o
  | .movAlOff off => off.has a
  | .movAxOff off => off.has a
  | .movOffAl off => off.has a
  | .movOffAx off => off.has a
  | .movRmbRb rm _ => rm.wf a
  | .movRmvRv rm _ => rm.wf a
  | .movRbRmb _ rm => rm.wf a
  | .movRvRmv _ rm => rm.wf a
  | .movRmwSreg rm _ => rm.wf a
  | .movSregRmw sr rm => sr != .cs && rm.wf a
  | .movsxRvRmb _ rm => rm.wf a
  | .movsxRdRmw _ rm => rm.wf a
  | .movzxRvRmb _ rm => rm.wf a
  | .movzxRdRmw _ rm => rm.wf a
  | .xchgAxRv r => r != .eax
  | .xchgRbRmb _ rm => rm.wf a
  | .xchgRvRmv _ rm => rm.wf a
  | .pushRmv rm => rm.wf a
  | .pushRv _ => true
  | .pushIb _ => true
  | .pushIv imm => imm.has o
  | .pushCs => true
  | .pushDs => true
  | .pushEs => true
  | .pushSs => true
  | .pushFs => true
  | .pushGs => true
  | .popRmv m => m.wf a
  | .popRv _ => true
  | .popDs => true
  | .popEs => true
  | .popSs => true
  | .popFs => true
  | .popGs => true
  | .pusha => true
  | .popa => true
  | .pushf => true
  | .popf => true
  | .lea _ m => m.wf a
  | .lds _ m => m.wf a
  | .les _ m => m.wf a
  | .lfs _ m => m.wf a
  | .lgs _ m => m.wf a
  | .lss _ m => m.wf a
  | .xlat => true
  | .inAlIb _ => true
  | .inAxIb _ => true
  | .inAlDx => true
  | .inAxDx => true
  | .outIbAl _ => true
  | .outIbAx _ => true
  | .outDxAl => true
  | .outDxAx => true
  | .lahf => true
  | .sahf => true
  | .cbw => true
  | .cwd => true
  | .aaa => true
  | .aad _ => true
  | .aam _ => true
  | .aas => true
  | .daa => true
  | .das => true
  | .addRmbRb rm _ => rm.wf a
  | .addRmvRv rm _ => rm.wf a
  | .addRbRmb _ rm => rm.wf a
  | .addRvRmv _ rm => rm.wf a
  | .addAlIb _ => true
  | .addAxIv imm => imm.has o
  | .addRmbIb rm _ => rm.wf a
  | .addRmvIv rm imm => rm.wf a && imm.has o
  | .addRmvIb rm _ => rm.wf a
  | .orRmbRb rm _ => rm.wf a
  | .orRmvRv rm _ => rm.wf a
  | .orRbRmb _ rm => rm.wf a
  | .orRvRmv _ rm => rm.wf a
  | .orAlIb _ => true
  | .orAxIv imm => imm.has o
  | .orRmbIb rm _ => rm.wf a
  | .orRmvIv rm imm => rm.wf a && imm.has o
  | .orRmvIb rm _ => rm.wf a
  | .adcRmbRb rm _ => rm.wf a
  | .adcRmvRv rm _ => rm.wf a
  | .adcRbRmb _ rm => rm.wf a
  | .adcRvRmv _ rm => rm.wf a
  | .adcAlIb _ => true
  | .adcAxIv imm => imm.has o
  | .adcRmbIb rm _ => rm.wf a
  | .adcRmvIv rm imm => rm.wf a && imm.has o
  | .adcRmvIb rm _ => rm.wf a
  | .sbbRmbRb rm _ => rm.wf a
  | .sbbRmvRv rm _ => rm.wf a
  | .sbbRbRmb _ rm => rm.wf a
  | .sbbRvRmv _ rm => rm.wf a
  | .sbbAlIb _ => true
  | .sbbAxIv imm => imm.has o
  | .sbbRmbIb rm _ => rm.wf a
  | .sbbRmvIv rm imm => rm.wf a && imm.has o
  | .sbbRmvIb rm _ => rm.wf a
  | .andRmbRb rm _ => rm.wf a
  | .andRmvRv rm _ => rm.wf a
  | .andRbRmb _ rm => rm.wf a
  | .andRvRmv _ rm => rm.wf a
  | .andAlIb _ => true
  | .andAxIv imm => imm.has o
  | .andRmbIb rm _ => rm.wf a
  | .andRmvIv rm imm => rm.wf a && imm.has o
  | .andRmvIb rm _ => rm.wf a
  | .subRmbRb rm _ => rm.wf a
  | .subRmvRv rm _ => rm.wf a
  | .subRbRmb _ rm => rm.wf a
  | .subRvRmv _ rm => rm.wf a
  | .subAlIb _ => true
  | .subAxIv imm => imm.has o
  | .subRmbIb rm _ => rm.wf a
  | .subRmvIv rm imm => rm.wf a && imm.has o
  | .subRmvIb rm _ => rm.wf a
  | .xorRmbRb rm _ => rm.wf a
  | .xorRmvRv rm _ => rm.wf a
  | .xorRbRmb _ rm => rm.wf a
  | .xorRvRmv _ rm => rm.wf a
  | .xorAlIb _ => true
  | .xorAxIv imm => imm.has o
  | .xorRmbIb rm _ => rm.wf a
  | .xorRmvIv rm imm => rm.wf a && imm.has o
  | .xorRmvIb rm _ => rm.wf a
  | .cmpRmbRb rm _ => rm.wf a
  | .cmpRmvRv rm _ => rm.wf a
  | .cmpRbRmb _ rm => rm.wf a
  | .cmpRvRmv _ rm => rm.wf a
  | .cmpAlIb _ => true
  | .cmpAxIv imm => imm.has o
  | .cmpRmbIb rm _ => rm.wf a
  | .cmpRmvIv rm imm => rm.wf a && imm.has o
  | .cmpRmvIb rm _ => rm.wf a
  | .incRmb rm => rm.wf a
  | .incRmv rm => rm.wf a
  | .incRv _ => true
  | .decRmb rm => rm.wf a
  | .decRmv rm => rm.wf a
  | .decRv _ => true
  | .testRmbIb rm _ => rm.wf a
  | .testRmvIv rm imm => rm.wf a && imm.has o
  | .notRmb rm => rm.wf a
  | .notRmv rm => rm.wf a
  | .negRmb rm => rm.wf a
  | .negRmv rm => rm.wf a
  | .mulRmb rm => rm.wf a
  | .mulRmv rm => rm.wf a
  | .imulRmb rm => rm.wf a
  | .imulRmv rm => rm.wf a
  | .divRmb rm => rm.wf a
  | .divRmv rm => rm.wf a
  | .idivRmb rm => rm.wf a
  | .idivRmv rm => rm.wf a
  | .imulRvRmv _ rm => rm.wf a
  | .imulRvRmvIb _ rm _ => rm.wf a
  | .imulRvRmvIv _ rm imm => rm.wf a && imm.has o
  | .testAlIb _ => true
  | .testAxIv imm => imm.has o
  | .testRmbRb rm _ => rm.wf a
  | .testRmvRv rm _ => rm.wf a
  | .rolRmbOne rm => rm.wf a
  | .rolRmbCl rm => rm.wf a
  | .rolRmbIb rm _ => rm.wf a
  | .rolRmvOne rm => rm.wf a
  | .rolRmvCl rm => rm.wf a
  | .rolRmvIb rm _ => rm.wf a
  | .rorRmbOne rm => rm.wf a
  | .rorRmbCl rm => rm.wf a
  | .rorRmbIb rm _ => rm.wf a
  | .rorRmvOne rm => rm.wf a
  | .rorRmvCl rm => rm.wf a
  | .rorRmvIb rm _ => rm.wf a
  | .rclRmbOne rm => rm.wf a
  | .rclRmbCl rm => rm.wf a
  | .rclRmbIb rm _ => rm.wf a
  | .rclRmvOne rm => rm.wf a
  | .rclRmvCl rm => rm.wf a
  | .rclRmvIb rm _ => rm.wf a
  | .rcrRmbOne rm => rm.wf a
  | .rcrRmbCl rm => rm.wf a
  | .rcrRmbIb rm _ => rm.wf a
  | .rcrRmvOne rm => rm.wf a
  | .rcrRmvCl rm => rm.wf a
  | .rcrRmvIb rm _ => rm.wf a
  | .shlRmbOne rm => rm.wf a
  | .shlRmbCl rm => rm.wf a
  | .shlRmbIb rm _ => rm.wf a
  | .shlRmvOne rm => rm.wf a
  | .shlRmvCl rm => rm.wf a
  | .shlRmvIb rm _ => rm.wf a
  | .shrRmbOne rm => rm.wf a
  | .shrRmbCl rm => rm.wf a
  | .shrRmbIb rm _ => rm.wf a
  | .shrRmvOne rm => rm.wf a
  | .shrRmvCl rm => rm.wf a
  | .shrRmvIb rm _ => rm.wf a
  | .sarRmbOne rm => rm.wf a
  | .sarRmbCl rm => rm.wf a
  | .sarRmbIb rm _ => rm.wf a
  | .sarRmvOne rm => rm.wf a
  | .sarRmvCl rm => rm.wf a
  | .sarRmvIb rm _ => rm.wf a
  | .shldIb rm _ _ => rm.wf a
  | .shldCl rm _ => rm.wf a
  | .shrdIb rm _ _ => rm.wf a
  | .shrdCl rm _ => rm.wf a
  | .btRmvRv rm _ => rm.wf a
  | .btRmvIb rm _ => rm.wf a
  | .btsRmvRv rm _ => rm.wf a
  | .btsRmvIb rm _ => rm.wf a
  | .btrRmvRv rm _ => rm.wf a
  | .btrRmvIb rm _ => rm.wf a
  | .btcRmvRv rm _ => rm.wf a
  | .btcRmvIb rm _ => rm.wf a
  | .bsf _ rm => rm.wf a
  | .bsr _ rm => rm.wf a
  | .setcc _ rm => rm.wf a
  | .movsb => true
  | .movsv => true
  | .cmpsb => true
  | .cmpsv => true
  | .stosb => true
  | .stosv => true
  | .lodsb => true
  | .lodsv => true
  | .scasb => true
  | .scasv => true
  | .insb => true
  | .insv => true
  | .outsb => true
  | .outsv => true
  | .jmpShort _ => true
  | .jmpNear disp => disp.has o
  | .jmpRmv rm => rm.wf a
  | .jmpFar off _ => off.has o
  | .jmpFarMem m => m.wf a
  | .jccShort _ _ => true
  | .jccNear _ disp => disp.has o
  | .jcxz _ => true
  | .loop _ => true
  | .loope _ => true
  | .loopne _ => true
  | .callNear disp => disp.has o
  | .callRmv rm => rm.wf a
  | .callFar off _ => off.has o
  | .callFarMem m => m.wf a
  | .retNear => true
  | .retNearIw _ => true
  | .retFar => true
  | .retFarIw _ => true
  | .int3 => true
  | .intIb _ => true
  | .into => true
  | .iret => true
  | .enter _ _ => true
  | .leave => true
  | .bound _ m => m.wf a
  | .clc => true
  | .stc => true
  | .cmc => true
  | .cld => true
  | .std => true
  | .cli => true
  | .sti => true
  | .hlt => true
  | .wait => true
  | .nop => true
  | .esc _ _ rm => rm.wf a

end Sys2Proof
end

