-- ==== Sys2Proof/Decode.lean ====
section
/-! DEFINITION. The decoder, total on any bytes, rejecting by name, and after it the encoder, both read
from the encoding column of spec/opcode_table.json.
Rules: 30_encoding.md R170 to R196, R205, R206; 93_implementation_defined.md U40, U41, U44 to U49. -/

namespace Sys2Proof

/-- Why no instruction could be read. -/
inductive DecodeError where
  /-- The bytes ended before the instruction did: the rest must be fetched, or the length limit is met (R173). -/
  | truncated
  /-- The bytes match no row of the opcode table: exception 6 (R205). -/
  | invalidOpcode
  deriving DecidableEq, Repr

/-- A reader of instruction bytes. -/
abbrev Parser := EStateM DecodeError (List Byte)

/-- The next byte of the instruction (R195). -/
def nextByte : Parser Byte := fun bs =>
  match bs with
  | [] => .error .truncated []
  | b :: rest => .ok b rest

/-- A field of two bytes, least significant first (R170). -/
def nextWord : Parser Word16 := do
  let b0 ← nextByte
  let b1 ← nextByte
  pure (word16 b0 b1)

/-- A field of four bytes, least significant first (R170). -/
def nextDword : Parser Word32 := do
  let b0 ← nextByte
  let b1 ← nextByte
  let b2 ← nextByte
  let b3 ← nextByte
  pure (word32 b0 b1 b2 b3)

/-- A field whose size an attribute chooses (R186, R187, R188, R190). -/
def nextSized (z : Size) : Parser Sized :=
  match z with
  | .s16 => do let v ← nextWord; pure (.w v)
  | .s32 => do let v ← nextDword; pure (.d v)

/-- No row of the table matches (R205). -/
def invalidOpcode {α : Type} : Parser α := throw .invalidOpcode

/-- The ModRM byte by its fields (R180). -/
structure ModRM where
  md : BitVec 2
  reg : BitVec 3
  rm : BitVec 3
  deriving DecidableEq, Repr

/-- The general register ModRM.reg names (R178). -/
def ModRM.regName (m : ModRM) : Reg := Reg.ofNum m.reg

/-- Read a ModRM byte (R180). -/
def nextModRM : Parser ModRM := do
  let b ← nextByte
  pure ⟨b.extractLsb' 6 2, b.extractLsb' 3 3, b.extractLsb' 0 3⟩

/-- The low three bits of an opcode byte (R191). -/
def lowBits (b : Byte) : BitVec 3 := b.extractLsb' 0 3

/-- The general register in the low three bits of an opcode byte (R191). -/
def regOf (b : Byte) : Reg := Reg.ofNum (lowBits b)

/-- The condition in the low four bits of an opcode byte (R460). -/
def condOf (b : Byte) : Cond := Cond.ofNum (b.extractLsb' 0 4)

/-- The displacement of a 16-bit form by mod 00, 01, 10 (R182). -/
def nextDisp16 (md : BitVec 2) : Parser Disp16 :=
  match md.toNat with
  | 0 => pure .none
  | 1 => do let d ← nextByte; pure (.d8 d)
  | _ => do let d ← nextWord; pure (.d16 d)

/-- The displacement of a 32-bit form by mod 00, 01, 10 (R184). -/
def nextDisp32 (md : BitVec 2) : Parser Disp32 :=
  match md.toNat with
  | 0 => pure .none
  | 1 => do let d ← nextByte; pure (.d8 d)
  | _ => do let d ← nextDword; pure (.d32 d)

/-- A memory operand under 16-bit addressing (R182). -/
def nextEA16 (m : ModRM) : Parser EA :=
  if m.md = 0 ∧ m.rm = 6 then do let d ← nextWord; pure (.dir16 d)
  else do let d ← nextDisp16 m.md; pure (.m16 (Base16.ofNum m.rm) d)

/-- The index a SIB byte names; 4 names none (R185). -/
def sibIndex (k : BitVec 3) : Option Reg := if k = 4 then none else some (Reg.ofNum k)

/-- A memory operand with a SIB byte (R185). -/
def nextSib (md : BitVec 2) : Parser EA := do
  let b ← nextByte
  let scale := b.extractLsb' 6 2
  let index := sibIndex (b.extractLsb' 3 3)
  let base := b.extractLsb' 0 3
  if base = 5 ∧ md = 0 then
    let d ← nextDword
    pure (.sib scale index none (.d32 d))
  else
    let d ← nextDisp32 md
    pure (.sib scale index (some (Reg.ofNum base)) d)

/-- A memory operand under 32-bit addressing (R184). -/
def nextEA32 (m : ModRM) : Parser EA :=
  if m.rm = 4 then nextSib m.md
  else if m.md = 0 ∧ m.rm = 5 then do let d ← nextDword; pure (.dir32 d)
  else do let d ← nextDisp32 m.md; pure (.m32 (Reg.ofNum m.rm) d)

/-- The memory operand ModRM designates; a register here is an invalid opcode (R205, U47). -/
def memOperand (a : Size) (m : ModRM) : Parser EA :=
  if m.md = 3 then invalidOpcode
  else match a with
    | .s16 => nextEA16 m
    | .s32 => nextEA32 m

/-- The operand ModRM designates (R180, R181). -/
def operand (a : Size) (m : ModRM) : Parser RM :=
  if m.md = 3 then pure (.reg (Reg.ofNum m.rm))
  else do let ea ← memOperand a m; pure (.mem ea)

/-- The segment register a field names; 6 and 7 are invalid opcodes (R179). The row's constraint is tested when
the instruction has been read (R195). -/
def segReg (k : BitVec 3) : Parser SReg :=
  match SReg.ofNum? k with
  | some sr => pure sr
  | none => invalidOpcode

/-- The segment register MOV may load: not CS (R262, D22). -/
def segRegNotCs (k : BitVec 3) : Parser SReg := do
  let sr ← segReg k
  if sr = .cs then invalidOpcode else pure sr

/-- The rows of opcode 80, by ModRM.reg (R196, R205). -/
def group80 (a : Size) (m : ModRM) : Parser Instr :=
  match m.reg.toNat with
  | 0 => do let rm ← operand a m; let imm ← nextByte; pure (.addRmbIb rm imm)
  | 1 => do let rm ← operand a m; let imm ← nextByte; pure (.orRmbIb rm imm)
  | 2 => do let rm ← operand a m; let imm ← nextByte; pure (.adcRmbIb rm imm)
  | 3 => do let rm ← operand a m; let imm ← nextByte; pure (.sbbRmbIb rm imm)
  | 4 => do let rm ← operand a m; let imm ← nextByte; pure (.andRmbIb rm imm)
  | 5 => do let rm ← operand a m; let imm ← nextByte; pure (.subRmbIb rm imm)
  | 6 => do let rm ← operand a m; let imm ← nextByte; pure (.xorRmbIb rm imm)
  | _ => do let rm ← operand a m; let imm ← nextByte; pure (.cmpRmbIb rm imm)

/-- The rows of opcode 81, by ModRM.reg (R196, R205). -/
def group81 (o a : Size) (m : ModRM) : Parser Instr :=
  match m.reg.toNat with
  | 0 => do let rm ← operand a m; let imm ← nextSized o; pure (.addRmvIv rm imm)
  | 1 => do let rm ← operand a m; let imm ← nextSized o; pure (.orRmvIv rm imm)
  | 2 => do let rm ← operand a m; let imm ← nextSized o; pure (.adcRmvIv rm imm)
  | 3 => do let rm ← operand a m; let imm ← nextSized o; pure (.sbbRmvIv rm imm)
  | 4 => do let rm ← operand a m; let imm ← nextSized o; pure (.andRmvIv rm imm)
  | 5 => do let rm ← operand a m; let imm ← nextSized o; pure (.subRmvIv rm imm)
  | 6 => do let rm ← operand a m; let imm ← nextSized o; pure (.xorRmvIv rm imm)
  | _ => do let rm ← operand a m; let imm ← nextSized o; pure (.cmpRmvIv rm imm)

/-- The rows of opcode 83, by ModRM.reg (R196, R205). -/
def group83 (a : Size) (m : ModRM) : Parser Instr :=
  match m.reg.toNat with
  | 0 => do let rm ← operand a m; let imm ← nextByte; pure (.addRmvIb rm imm)
  | 1 => do let rm ← operand a m; let imm ← nextByte; pure (.orRmvIb rm imm)
  | 2 => do let rm ← operand a m; let imm ← nextByte; pure (.adcRmvIb rm imm)
  | 3 => do let rm ← operand a m; let imm ← nextByte; pure (.sbbRmvIb rm imm)
  | 4 => do let rm ← operand a m; let imm ← nextByte; pure (.andRmvIb rm imm)
  | 5 => do let rm ← operand a m; let imm ← nextByte; pure (.subRmvIb rm imm)
  | 6 => do let rm ← operand a m; let imm ← nextByte; pure (.xorRmvIb rm imm)
  | _ => do let rm ← operand a m; let imm ← nextByte; pure (.cmpRmvIb rm imm)

/-- The rows of opcode 8F, by ModRM.reg (R196, R205). The operand is `mw` or `md`: a register is an invalid opcode (R181;
log entry 54). -/
def group8F (a : Size) (m : ModRM) : Parser Instr :=
  match m.reg.toNat with
  | 0 => do let ea ← memOperand a m; pure (.popRmv ea)
  | _ => invalidOpcode

/-- The rows of opcode C0, by ModRM.reg (R196, R205). -/
def groupC0 (a : Size) (m : ModRM) : Parser Instr :=
  match m.reg.toNat with
  | 0 => do let rm ← operand a m; let imm ← nextByte; pure (.rolRmbIb rm imm)
  | 1 => do let rm ← operand a m; let imm ← nextByte; pure (.rorRmbIb rm imm)
  | 2 => do let rm ← operand a m; let imm ← nextByte; pure (.rclRmbIb rm imm)
  | 3 => do let rm ← operand a m; let imm ← nextByte; pure (.rcrRmbIb rm imm)
  | 4 => do let rm ← operand a m; let imm ← nextByte; pure (.shlRmbIb rm imm)
  | 5 => do let rm ← operand a m; let imm ← nextByte; pure (.shrRmbIb rm imm)
  | 7 => do let rm ← operand a m; let imm ← nextByte; pure (.sarRmbIb rm imm)
  | _ => invalidOpcode

/-- The rows of opcode C1, by ModRM.reg (R196, R205). -/
def groupC1 (a : Size) (m : ModRM) : Parser Instr :=
  match m.reg.toNat with
  | 0 => do let rm ← operand a m; let imm ← nextByte; pure (.rolRmvIb rm imm)
  | 1 => do let rm ← operand a m; let imm ← nextByte; pure (.rorRmvIb rm imm)
  | 2 => do let rm ← operand a m; let imm ← nextByte; pure (.rclRmvIb rm imm)
  | 3 => do let rm ← operand a m; let imm ← nextByte; pure (.rcrRmvIb rm imm)
  | 4 => do let rm ← operand a m; let imm ← nextByte; pure (.shlRmvIb rm imm)
  | 5 => do let rm ← operand a m; let imm ← nextByte; pure (.shrRmvIb rm imm)
  | 7 => do let rm ← operand a m; let imm ← nextByte; pure (.sarRmvIb rm imm)
  | _ => invalidOpcode

/-- The rows of opcode C6, by ModRM.reg (R196, R205). -/
def groupC6 (a : Size) (m : ModRM) : Parser Instr :=
  match m.reg.toNat with
  | 0 => do let rm ← operand a m; let imm ← nextByte; pure (.movRmbIb rm imm)
  | _ => invalidOpcode

/-- The rows of opcode C7, by ModRM.reg (R196, R205). -/
def groupC7 (o a : Size) (m : ModRM) : Parser Instr :=
  match m.reg.toNat with
  | 0 => do let rm ← operand a m; let imm ← nextSized o; pure (.movRmvIv rm imm)
  | _ => invalidOpcode

/-- The rows of opcode D0, by ModRM.reg (R196, R205). -/
def groupD0 (a : Size) (m : ModRM) : Parser Instr :=
  match m.reg.toNat with
  | 0 => do let rm ← operand a m; pure (.rolRmbOne rm)
  | 1 => do let rm ← operand a m; pure (.rorRmbOne rm)
  | 2 => do let rm ← operand a m; pure (.rclRmbOne rm)
  | 3 => do let rm ← operand a m; pure (.rcrRmbOne rm)
  | 4 => do let rm ← operand a m; pure (.shlRmbOne rm)
  | 5 => do let rm ← operand a m; pure (.shrRmbOne rm)
  | 7 => do let rm ← operand a m; pure (.sarRmbOne rm)
  | _ => invalidOpcode

/-- The rows of opcode D1, by ModRM.reg (R196, R205). -/
def groupD1 (a : Size) (m : ModRM) : Parser Instr :=
  match m.reg.toNat with
  | 0 => do let rm ← operand a m; pure (.rolRmvOne rm)
  | 1 => do let rm ← operand a m; pure (.rorRmvOne rm)
  | 2 => do let rm ← operand a m; pure (.rclRmvOne rm)
  | 3 => do let rm ← operand a m; pure (.rcrRmvOne rm)
  | 4 => do let rm ← operand a m; pure (.shlRmvOne rm)
  | 5 => do let rm ← operand a m; pure (.shrRmvOne rm)
  | 7 => do let rm ← operand a m; pure (.sarRmvOne rm)
  | _ => invalidOpcode

/-- The rows of opcode D2, by ModRM.reg (R196, R205). -/
def groupD2 (a : Size) (m : ModRM) : Parser Instr :=
  match m.reg.toNat with
  | 0 => do let rm ← operand a m; pure (.rolRmbCl rm)
  | 1 => do let rm ← operand a m; pure (.rorRmbCl rm)
  | 2 => do let rm ← operand a m; pure (.rclRmbCl rm)
  | 3 => do let rm ← operand a m; pure (.rcrRmbCl rm)
  | 4 => do let rm ← operand a m; pure (.shlRmbCl rm)
  | 5 => do let rm ← operand a m; pure (.shrRmbCl rm)
  | 7 => do let rm ← operand a m; pure (.sarRmbCl rm)
  | _ => invalidOpcode

/-- The rows of opcode D3, by ModRM.reg (R196, R205). -/
def groupD3 (a : Size) (m : ModRM) : Parser Instr :=
  match m.reg.toNat with
  | 0 => do let rm ← operand a m; pure (.rolRmvCl rm)
  | 1 => do let rm ← operand a m; pure (.rorRmvCl rm)
  | 2 => do let rm ← operand a m; pure (.rclRmvCl rm)
  | 3 => do let rm ← operand a m; pure (.rcrRmvCl rm)
  | 4 => do let rm ← operand a m; pure (.shlRmvCl rm)
  | 5 => do let rm ← operand a m; pure (.shrRmvCl rm)
  | 7 => do let rm ← operand a m; pure (.sarRmvCl rm)
  | _ => invalidOpcode

/-- The rows of opcode F6, by ModRM.reg (R196, R205). -/
def groupF6 (a : Size) (m : ModRM) : Parser Instr :=
  match m.reg.toNat with
  | 0 => do let rm ← operand a m; let imm ← nextByte; pure (.testRmbIb rm imm)
  | 2 => do let rm ← operand a m; pure (.notRmb rm)
  | 3 => do let rm ← operand a m; pure (.negRmb rm)
  | 4 => do let rm ← operand a m; pure (.mulRmb rm)
  | 5 => do let rm ← operand a m; pure (.imulRmb rm)
  | 6 => do let rm ← operand a m; pure (.divRmb rm)
  | 7 => do let rm ← operand a m; pure (.idivRmb rm)
  | _ => invalidOpcode

/-- The rows of opcode F7, by ModRM.reg (R196, R205). -/
def groupF7 (o a : Size) (m : ModRM) : Parser Instr :=
  match m.reg.toNat with
  | 0 => do let rm ← operand a m; let imm ← nextSized o; pure (.testRmvIv rm imm)
  | 2 => do let rm ← operand a m; pure (.notRmv rm)
  | 3 => do let rm ← operand a m; pure (.negRmv rm)
  | 4 => do let rm ← operand a m; pure (.mulRmv rm)
  | 5 => do let rm ← operand a m; pure (.imulRmv rm)
  | 6 => do let rm ← operand a m; pure (.divRmv rm)
  | 7 => do let rm ← operand a m; pure (.idivRmv rm)
  | _ => invalidOpcode

/-- The rows of opcode FE, by ModRM.reg (R196, R205). -/
def groupFE (a : Size) (m : ModRM) : Parser Instr :=
  match m.reg.toNat with
  | 0 => do let rm ← operand a m; pure (.incRmb rm)
  | 1 => do let rm ← operand a m; pure (.decRmb rm)
  | _ => invalidOpcode

/-- The rows of opcode FF, by ModRM.reg (R196, R205). -/
def groupFF (a : Size) (m : ModRM) : Parser Instr :=
  match m.reg.toNat with
  | 0 => do let rm ← operand a m; pure (.incRmv rm)
  | 1 => do let rm ← operand a m; pure (.decRmv rm)
  | 2 => do let rm ← operand a m; pure (.callRmv rm)
  | 3 => do let ea ← memOperand a m; pure (.callFarMem ea)
  | 4 => do let rm ← operand a m; pure (.jmpRmv rm)
  | 5 => do let ea ← memOperand a m; pure (.jmpFarMem ea)
  | 6 => do let rm ← operand a m; pure (.pushRmv rm)
  | _ => invalidOpcode

/-- The rows of opcode 0FBA, by ModRM.reg (R196, R205). -/
def group0FBA (a : Size) (m : ModRM) : Parser Instr :=
  match m.reg.toNat with
  | 4 => do let rm ← operand a m; let imm ← nextByte; pure (.btRmvIb rm imm)
  | 5 => do let rm ← operand a m; let imm ← nextByte; pure (.btsRmvIb rm imm)
  | 6 => do let rm ← operand a m; let imm ← nextByte; pure (.btrRmvIb rm imm)
  | 7 => do let rm ← operand a m; let imm ← nextByte; pure (.btcRmvIb rm imm)
  | _ => invalidOpcode

/-- Opcodes 0F 80 to 0F 8F. -/
def row0F8 (o : Size) (b : Byte) : Parser Instr := do
  let disp ← nextSized o
  pure (.jccNear (condOf b) disp)

/-- Opcodes 0F 90 to 0F 9F. -/
def row0F9 (a : Size) (b : Byte) : Parser Instr := do
  let m ← nextModRM
  let rm ← operand a m
  pure (.setcc (condOf b) rm)

/-- Opcodes 0F A0 to 0F AF. -/
def row0FA (a : Size) (b : Byte) : Parser Instr :=
  match (b.toNat % 16) with
  | 0x0 => pure .pushFs
  | 0x1 => pure .popFs
  | 0x3 => do let m ← nextModRM; let rm ← operand a m; pure (.btRmvRv rm m.regName)
  | 0x4 => do let m ← nextModRM; let rm ← operand a m; let imm ← nextByte; pure (.shldIb rm m.regName imm)
  | 0x5 => do let m ← nextModRM; let rm ← operand a m; pure (.shldCl rm m.regName)
  | 0x8 => pure .pushGs
  | 0x9 => pure .popGs
  | 0xB => do let m ← nextModRM; let rm ← operand a m; pure (.btsRmvRv rm m.regName)
  | 0xC => do let m ← nextModRM; let rm ← operand a m; let imm ← nextByte; pure (.shrdIb rm m.regName imm)
  | 0xD => do let m ← nextModRM; let rm ← operand a m; pure (.shrdCl rm m.regName)
  | 0xF => do let m ← nextModRM; let rm ← operand a m; pure (.imulRvRmv m.regName rm)
  | _ => invalidOpcode

/-- Opcodes 0F B0 to 0F BF. -/
def row0FB (a : Size) (b : Byte) : Parser Instr :=
  match (b.toNat % 16) with
  | 0x2 => do let m ← nextModRM; let ea ← memOperand a m; pure (.lss m.regName ea)
  | 0x3 => do let m ← nextModRM; let rm ← operand a m; pure (.btrRmvRv rm m.regName)
  | 0x4 => do let m ← nextModRM; let ea ← memOperand a m; pure (.lfs m.regName ea)
  | 0x5 => do let m ← nextModRM; let ea ← memOperand a m; pure (.lgs m.regName ea)
  | 0x6 => do let m ← nextModRM; let rm ← operand a m; pure (.movzxRvRmb m.regName rm)
  | 0x7 => do let m ← nextModRM; let rm ← operand a m; pure (.movzxRdRmw m.regName rm)
  | 0xA => do let m ← nextModRM; group0FBA a m
  | 0xB => do let m ← nextModRM; let rm ← operand a m; pure (.btcRmvRv rm m.regName)
  | 0xC => do let m ← nextModRM; let rm ← operand a m; pure (.bsf m.regName rm)
  | 0xD => do let m ← nextModRM; let rm ← operand a m; pure (.bsr m.regName rm)
  | 0xE => do let m ← nextModRM; let rm ← operand a m; pure (.movsxRvRmb m.regName rm)
  | 0xF => do let m ← nextModRM; let rm ← operand a m; pure (.movsxRdRmw m.regName rm)
  | _ => invalidOpcode

/-- The row of the 0F opcode map a byte selects (R172, R195, R205). -/
def decodeTwoByte (o a : Size) (b : Byte) : Parser Instr :=
  match b.toNat / 16 with
  | 0x8 => row0F8 o b
  | 0x9 => row0F9 a b
  | 0xA => row0FA a b
  | 0xB => row0FB a b
  | _ => invalidOpcode

/-- Opcodes 00 to 0F. -/
def row0 (o a : Size) (b : Byte) : Parser Instr :=
  match (b.toNat % 16) with
  | 0x0 => do let m ← nextModRM; let rm ← operand a m; pure (.addRmbRb rm m.regName)
  | 0x1 => do let m ← nextModRM; let rm ← operand a m; pure (.addRmvRv rm m.regName)
  | 0x2 => do let m ← nextModRM; let rm ← operand a m; pure (.addRbRmb m.regName rm)
  | 0x3 => do let m ← nextModRM; let rm ← operand a m; pure (.addRvRmv m.regName rm)
  | 0x4 => do let imm ← nextByte; pure (.addAlIb imm)
  | 0x5 => do let imm ← nextSized o; pure (.addAxIv imm)
  | 0x6 => pure .pushEs
  | 0x7 => pure .popEs
  | 0x8 => do let m ← nextModRM; let rm ← operand a m; pure (.orRmbRb rm m.regName)
  | 0x9 => do let m ← nextModRM; let rm ← operand a m; pure (.orRmvRv rm m.regName)
  | 0xA => do let m ← nextModRM; let rm ← operand a m; pure (.orRbRmb m.regName rm)
  | 0xB => do let m ← nextModRM; let rm ← operand a m; pure (.orRvRmv m.regName rm)
  | 0xC => do let imm ← nextByte; pure (.orAlIb imm)
  | 0xD => do let imm ← nextSized o; pure (.orAxIv imm)
  | 0xE => pure .pushCs
  | _ => do let b2 ← nextByte; decodeTwoByte o a b2

/-- Opcodes 10 to 1F. -/
def row1 (o a : Size) (b : Byte) : Parser Instr :=
  match (b.toNat % 16) with
  | 0x0 => do let m ← nextModRM; let rm ← operand a m; pure (.adcRmbRb rm m.regName)
  | 0x1 => do let m ← nextModRM; let rm ← operand a m; pure (.adcRmvRv rm m.regName)
  | 0x2 => do let m ← nextModRM; let rm ← operand a m; pure (.adcRbRmb m.regName rm)
  | 0x3 => do let m ← nextModRM; let rm ← operand a m; pure (.adcRvRmv m.regName rm)
  | 0x4 => do let imm ← nextByte; pure (.adcAlIb imm)
  | 0x5 => do let imm ← nextSized o; pure (.adcAxIv imm)
  | 0x6 => pure .pushSs
  | 0x7 => pure .popSs
  | 0x8 => do let m ← nextModRM; let rm ← operand a m; pure (.sbbRmbRb rm m.regName)
  | 0x9 => do let m ← nextModRM; let rm ← operand a m; pure (.sbbRmvRv rm m.regName)
  | 0xA => do let m ← nextModRM; let rm ← operand a m; pure (.sbbRbRmb m.regName rm)
  | 0xB => do let m ← nextModRM; let rm ← operand a m; pure (.sbbRvRmv m.regName rm)
  | 0xC => do let imm ← nextByte; pure (.sbbAlIb imm)
  | 0xD => do let imm ← nextSized o; pure (.sbbAxIv imm)
  | 0xE => pure .pushDs
  | _ => pure .popDs

/-- Opcodes 20 to 2F. -/
def row2 (o a : Size) (b : Byte) : Parser Instr :=
  match (b.toNat % 16) with
  | 0x0 => do let m ← nextModRM; let rm ← operand a m; pure (.andRmbRb rm m.regName)
  | 0x1 => do let m ← nextModRM; let rm ← operand a m; pure (.andRmvRv rm m.regName)
  | 0x2 => do let m ← nextModRM; let rm ← operand a m; pure (.andRbRmb m.regName rm)
  | 0x3 => do let m ← nextModRM; let rm ← operand a m; pure (.andRvRmv m.regName rm)
  | 0x4 => do let imm ← nextByte; pure (.andAlIb imm)
  | 0x5 => do let imm ← nextSized o; pure (.andAxIv imm)
  | 0x6 => pure .segEs
  | 0x7 => pure .daa
  | 0x8 => do let m ← nextModRM; let rm ← operand a m; pure (.subRmbRb rm m.regName)
  | 0x9 => do let m ← nextModRM; let rm ← operand a m; pure (.subRmvRv rm m.regName)
  | 0xA => do let m ← nextModRM; let rm ← operand a m; pure (.subRbRmb m.regName rm)
  | 0xB => do let m ← nextModRM; let rm ← operand a m; pure (.subRvRmv m.regName rm)
  | 0xC => do let imm ← nextByte; pure (.subAlIb imm)
  | 0xD => do let imm ← nextSized o; pure (.subAxIv imm)
  | 0xE => pure .segCs
  | _ => pure .das

/-- Opcodes 30 to 3F. -/
def row3 (o a : Size) (b : Byte) : Parser Instr :=
  match (b.toNat % 16) with
  | 0x0 => do let m ← nextModRM; let rm ← operand a m; pure (.xorRmbRb rm m.regName)
  | 0x1 => do let m ← nextModRM; let rm ← operand a m; pure (.xorRmvRv rm m.regName)
  | 0x2 => do let m ← nextModRM; let rm ← operand a m; pure (.xorRbRmb m.regName rm)
  | 0x3 => do let m ← nextModRM; let rm ← operand a m; pure (.xorRvRmv m.regName rm)
  | 0x4 => do let imm ← nextByte; pure (.xorAlIb imm)
  | 0x5 => do let imm ← nextSized o; pure (.xorAxIv imm)
  | 0x6 => pure .segSs
  | 0x7 => pure .aaa
  | 0x8 => do let m ← nextModRM; let rm ← operand a m; pure (.cmpRmbRb rm m.regName)
  | 0x9 => do let m ← nextModRM; let rm ← operand a m; pure (.cmpRmvRv rm m.regName)
  | 0xA => do let m ← nextModRM; let rm ← operand a m; pure (.cmpRbRmb m.regName rm)
  | 0xB => do let m ← nextModRM; let rm ← operand a m; pure (.cmpRvRmv m.regName rm)
  | 0xC => do let imm ← nextByte; pure (.cmpAlIb imm)
  | 0xD => do let imm ← nextSized o; pure (.cmpAxIv imm)
  | 0xE => pure .segDs
  | _ => pure .aas

/-- Opcodes 40 to 4F. -/
def row4 (b : Byte) : Parser Instr :=
  match (b.toNat % 16) with
  | 0x0 | 0x1 | 0x2 | 0x3 | 0x4 | 0x5 | 0x6 | 0x7 => pure (.incRv (regOf b))
  | _ => pure (.decRv (regOf b))

/-- Opcodes 50 to 5F. -/
def row5 (b : Byte) : Parser Instr :=
  match (b.toNat % 16) with
  | 0x0 | 0x1 | 0x2 | 0x3 | 0x4 | 0x5 | 0x6 | 0x7 => pure (.pushRv (regOf b))
  | _ => pure (.popRv (regOf b))

/-- Opcodes 60 to 6F. -/
def row6 (o a : Size) (b : Byte) : Parser Instr :=
  match (b.toNat % 16) with
  | 0x0 => pure .pusha
  | 0x1 => pure .popa
  | 0x2 => do let m ← nextModRM; let ea ← memOperand a m; pure (.bound m.regName ea)
  | 0x4 => pure .segFs
  | 0x5 => pure .segGs
  | 0x6 => pure .opSize
  | 0x7 => pure .addrSize
  | 0x8 => do let imm ← nextSized o; pure (.pushIv imm)
  | 0x9 => do let m ← nextModRM; let rm ← operand a m; let imm ← nextSized o; pure (.imulRvRmvIv m.regName rm imm)
  | 0xA => do let imm ← nextByte; pure (.pushIb imm)
  | 0xB => do let m ← nextModRM; let rm ← operand a m; let imm ← nextByte; pure (.imulRvRmvIb m.regName rm imm)
  | 0xC => pure .insb
  | 0xD => pure .insv
  | 0xE => pure .outsb
  | 0xF => pure .outsv
  | _ => invalidOpcode

/-- Opcodes 70 to 7F. -/
def row7 (b : Byte) : Parser Instr := do
  let disp ← nextByte
  pure (.jccShort (condOf b) disp)

/-- Opcodes 80 to 8F. -/
def row8 (o a : Size) (b : Byte) : Parser Instr :=
  match (b.toNat % 16) with
  | 0x0 => do let m ← nextModRM; group80 a m
  | 0x1 => do let m ← nextModRM; group81 o a m
  | 0x3 => do let m ← nextModRM; group83 a m
  | 0x4 => do let m ← nextModRM; let rm ← operand a m; pure (.testRmbRb rm m.regName)
  | 0x5 => do let m ← nextModRM; let rm ← operand a m; pure (.testRmvRv rm m.regName)
  | 0x6 => do let m ← nextModRM; let rm ← operand a m; pure (.xchgRbRmb m.regName rm)
  | 0x7 => do let m ← nextModRM; let rm ← operand a m; pure (.xchgRvRmv m.regName rm)
  | 0x8 => do let m ← nextModRM; let rm ← operand a m; pure (.movRmbRb rm m.regName)
  | 0x9 => do let m ← nextModRM; let rm ← operand a m; pure (.movRmvRv rm m.regName)
  | 0xA => do let m ← nextModRM; let rm ← operand a m; pure (.movRbRmb m.regName rm)
  | 0xB => do let m ← nextModRM; let rm ← operand a m; pure (.movRvRmv m.regName rm)
  | 0xC => do let m ← nextModRM; let rm ← operand a m; let sr ← segReg m.reg; pure (.movRmwSreg rm sr)
  | 0xD => do let m ← nextModRM; let ea ← memOperand a m; pure (.lea m.regName ea)
  | 0xE => do let m ← nextModRM; let rm ← operand a m; let sr ← segRegNotCs m.reg; pure (.movSregRmw sr rm)
  | 0xF => do let m ← nextModRM; group8F a m
  | _ => invalidOpcode

/-- Opcodes 90 to 9F. -/
def row9 (o : Size) (b : Byte) : Parser Instr :=
  match (b.toNat % 16) with
  | 0x0 => pure .nop
  | 0x1 | 0x2 | 0x3 | 0x4 | 0x5 | 0x6 | 0x7 => pure (.xchgAxRv (regOf b))
  | 0x8 => pure .cbw
  | 0x9 => pure .cwd
  | 0xA => do let off ← nextSized o; let sel ← nextWord; pure (.callFar off sel)
  | 0xB => pure .wait
  | 0xC => pure .pushf
  | 0xD => pure .popf
  | 0xE => pure .sahf
  | _ => pure .lahf

/-- Opcodes A0 to AF. -/
def rowA (o a : Size) (b : Byte) : Parser Instr :=
  match (b.toNat % 16) with
  | 0x0 => do let off ← nextSized a; pure (.movAlOff off)
  | 0x1 => do let off ← nextSized a; pure (.movAxOff off)
  | 0x2 => do let off ← nextSized a; pure (.movOffAl off)
  | 0x3 => do let off ← nextSized a; pure (.movOffAx off)
  | 0x4 => pure .movsb
  | 0x5 => pure .movsv
  | 0x6 => pure .cmpsb
  | 0x7 => pure .cmpsv
  | 0x8 => do let imm ← nextByte; pure (.testAlIb imm)
  | 0x9 => do let imm ← nextSized o; pure (.testAxIv imm)
  | 0xA => pure .stosb
  | 0xB => pure .stosv
  | 0xC => pure .lodsb
  | 0xD => pure .lodsv
  | 0xE => pure .scasb
  | _ => pure .scasv

/-- Opcodes B0 to BF. -/
def rowB (o : Size) (b : Byte) : Parser Instr :=
  match (b.toNat % 16) with
  | 0x0 | 0x1 | 0x2 | 0x3 | 0x4 | 0x5 | 0x6 | 0x7 => do let imm ← nextByte; pure (.movRbIb (regOf b) imm)
  | _ => do let imm ← nextSized o; pure (.movRvIv (regOf b) imm)

/-- Opcodes C0 to CF. -/
def rowC (o a : Size) (b : Byte) : Parser Instr :=
  match (b.toNat % 16) with
  | 0x0 => do let m ← nextModRM; groupC0 a m
  | 0x1 => do let m ← nextModRM; groupC1 a m
  | 0x2 => do let n ← nextWord; pure (.retNearIw n)
  | 0x3 => pure .retNear
  | 0x4 => do let m ← nextModRM; let ea ← memOperand a m; pure (.les m.regName ea)
  | 0x5 => do let m ← nextModRM; let ea ← memOperand a m; pure (.lds m.regName ea)
  | 0x6 => do let m ← nextModRM; groupC6 a m
  | 0x7 => do let m ← nextModRM; groupC7 o a m
  | 0x8 => do let n ← nextWord; let level ← nextByte; pure (.enter n level)
  | 0x9 => pure .leave
  | 0xA => do let n ← nextWord; pure (.retFarIw n)
  | 0xB => pure .retFar
  | 0xC => pure .int3
  | 0xD => do let v ← nextByte; pure (.intIb v)
  | 0xE => pure .into
  | _ => pure .iret

/-- Opcodes D0 to DF. -/
def rowD (a : Size) (b : Byte) : Parser Instr :=
  match (b.toNat % 16) with
  | 0x0 => do let m ← nextModRM; groupD0 a m
  | 0x1 => do let m ← nextModRM; groupD1 a m
  | 0x2 => do let m ← nextModRM; groupD2 a m
  | 0x3 => do let m ← nextModRM; groupD3 a m
  | 0x4 => do let base ← nextByte; pure (.aam base)
  | 0x5 => do let base ← nextByte; pure (.aad base)
  | 0x7 => pure .xlat
  | 0x8 | 0x9 | 0xA | 0xB | 0xC | 0xD | 0xE | 0xF => do let m ← nextModRM; let rm ← operand a m; pure (.esc (lowBits b) m.reg rm)
  | _ => invalidOpcode

/-- Opcodes E0 to EF. -/
def rowE (o : Size) (b : Byte) : Parser Instr :=
  match (b.toNat % 16) with
  | 0x0 => do let disp ← nextByte; pure (.loopne disp)
  | 0x1 => do let disp ← nextByte; pure (.loope disp)
  | 0x2 => do let disp ← nextByte; pure (.loop disp)
  | 0x3 => do let disp ← nextByte; pure (.jcxz disp)
  | 0x4 => do let port ← nextByte; pure (.inAlIb port)
  | 0x5 => do let port ← nextByte; pure (.inAxIb port)
  | 0x6 => do let port ← nextByte; pure (.outIbAl port)
  | 0x7 => do let port ← nextByte; pure (.outIbAx port)
  | 0x8 => do let disp ← nextSized o; pure (.callNear disp)
  | 0x9 => do let disp ← nextSized o; pure (.jmpNear disp)
  | 0xA => do let off ← nextSized o; let sel ← nextWord; pure (.jmpFar off sel)
  | 0xB => do let disp ← nextByte; pure (.jmpShort disp)
  | 0xC => pure .inAlDx
  | 0xD => pure .inAxDx
  | 0xE => pure .outDxAl
  | _ => pure .outDxAx

/-- Opcodes F0 to FF. -/
def rowF (o a : Size) (b : Byte) : Parser Instr :=
  match (b.toNat % 16) with
  | 0x0 => pure .lock
  | 0x2 => pure .repne
  | 0x3 => pure .rep
  | 0x4 => pure .hlt
  | 0x5 => pure .cmc
  | 0x6 => do let m ← nextModRM; groupF6 a m
  | 0x7 => do let m ← nextModRM; groupF7 o a m
  | 0x8 => pure .clc
  | 0x9 => pure .stc
  | 0xA => pure .cli
  | 0xB => pure .sti
  | 0xC => pure .cld
  | 0xD => pure .std
  | 0xE => do let m ← nextModRM; groupFE a m
  | 0xF => do let m ← nextModRM; groupFF a m
  | _ => invalidOpcode

/-- The row of the one-byte opcode map a byte selects (R172, R195, R205). -/
def decodeOneByte (o a : Size) (b : Byte) : Parser Instr :=
  match b.toNat / 16 with
  | 0x0 => row0 o a b
  | 0x1 => row1 o a b
  | 0x2 => row2 o a b
  | 0x3 => row3 o a b
  | 0x4 => row4 b
  | 0x5 => row5 b
  | 0x6 => row6 o a b
  | 0x7 => row7 b
  | 0x8 => row8 o a b
  | 0x9 => row9 o b
  | 0xA => rowA o a b
  | 0xB => rowB o b
  | 0xC => rowC o a b
  | 0xD => rowD a b
  | 0xE => rowE o b
  | _ => rowF o a b

/-- Decode ONE item at the head of the bytes: a prefix byte or an instruction with its operands, under
the operand size `o` and address size `a` in force (R195). -/
def decodeItem (o a : Size) : Parser Instr := do
  let b ← nextByte
  decodeOneByte o a b

/-- The items that are prefixes (R171). -/
def Instr.isPrefix : Instr → Bool
  | .lock | .repne | .rep | .segEs | .segCs | .segSs | .segDs | .segFs | .segGs
  | .opSize | .addrSize => true
  | _ => false

/-- The operand size after an item: 66 selects the other of the default, however often (R175, R195). -/
def sizeAfterOs (dflt o : Size) (i : Instr) : Size := if i = .opSize then dflt.other else o

/-- The address size after an item: 67 selects the other of the default, however often (R176, R195). -/
def sizeAfterAs (dflt a : Size) (i : Instr) : Size := if i = .addrSize then dflt.other else a

/-- Read items until one is no prefix, at most `fuel` of them: the prefixes in order and the
instruction (R195). -/
def decodeItems (dflt : Size) : Nat → Size → Size → Parser (List Instr × Instr)
  | 0, _, _ => throw .truncated
  | fuel + 1, o, a => do
    let i ← decodeItem o a
    if i.isPrefix then
      let r ← decodeItems dflt fuel (sizeAfterOs dflt o i) (sizeAfterAs dflt a i)
      pure (i :: r.1, r.2)
    else
      pure ([], i)

/-- The length limit of an instruction with its prefixes (R173). -/
def maxLength : Nat := 15

/-- What decoding a window of bytes gives. -/
inductive Decoded where
  /-- The prefixes, the instruction, and the length in bytes of both together. -/
  | ok (pre : List Instr) (i : Instr) (length : Nat)
  /-- Exception 6 (R205), found after so many bytes. -/
  | invalid (length : Nat)
  /-- More bytes are needed than the window holds. -/
  | more
  deriving DecidableEq, Repr

/-- Decode the instruction at the head of at most `maxLength` bytes under a default size (R195). -/
def decode (dflt : Size) (bs : List Byte) : Decoded :=
  match decodeItems dflt maxLength dflt dflt (bs.take maxLength) with
  | .ok (pre, i) rest => .ok pre i ((bs.take maxLength).length - rest.length)
  | .error .invalidOpcode rest => .invalid ((bs.take maxLength).length - rest.length)
  | .error .truncated _ => .more

/-- The bytes of a table word of `nbits` bits, first byte most significant, as the table's `match`
column is written (R196), then zeros to the length limit (log entry 14). -/
def tableBytes (nbits w : Nat) : List Byte :=
  let k := nbits / 8
  ((List.range k).map fun j => (BitVec.ofNat 8 (w / 256 ^ (k - 1 - j)))) ++
    List.replicate (maxLength - k) 0

/-- The item the decoder reads first from a table word, under the reset default size of 16 bits
(log entry 14). -/
def decodeTableWord (nbits w : Nat) : Option Instr :=
  match decodeItem .s16 .s16 (tableBytes nbits w) with
  | .ok i _ => some i
  | .error _ _ => none

/-! The encoder. -/

/-- An opcode byte whose low bits carry a number (R191, R460). -/
def withNum {w : Nat} (base : Byte) (k : BitVec w) : Byte := base ||| k.setWidth 8

/-- A ModRM or SIB byte from its three fields (R180, R185). -/
def fields233 (hi : BitVec 2) (mid lo : BitVec 3) : Byte := hi ++ (mid ++ lo)

/-- The bytes of a field of either size. -/
def encodeSized : Sized → List Byte
  | .w v => bytes16 v
  | .d v => bytes32 v

/-- mod of a 16-bit displacement (R182). -/
def Disp16.mod : Disp16 → BitVec 2
  | .none => 0
  | .d8 _ => 1
  | .d16 _ => 2

/-- The bytes of a 16-bit displacement. -/
def Disp16.bytes : Disp16 → List Byte
  | .none => []
  | .d8 d => [d]
  | .d16 d => bytes16 d

/-- mod of a 32-bit displacement (R184). -/
def Disp32.mod : Disp32 → BitVec 2
  | .none => 0
  | .d8 _ => 1
  | .d32 _ => 2

/-- The bytes of a 32-bit displacement. -/
def Disp32.bytes : Disp32 → List Byte
  | .none => []
  | .d8 d => [d]
  | .d32 d => bytes32 d

/-- The SIB index field (R185). -/
def indexField : Option Reg → BitVec 3
  | none => 4
  | some r => r.num

/-- ModRM, SIB and displacement of a memory operand, with `reg` in ModRM.reg (R182 to R185). -/
def encodeEA (reg : BitVec 3) : EA → List Byte
  | .m16 b d => fields233 d.mod reg b.num :: d.bytes
  | .dir16 d => fields233 0 reg 6 :: bytes16 d
  | .m32 b d => fields233 d.mod reg b.num :: d.bytes
  | .dir32 d => fields233 0 reg 5 :: bytes32 d
  | .sib s i (some b) d => fields233 d.mod reg 4 :: fields233 s (indexField i) b.num :: d.bytes
  | .sib s i none d => fields233 0 reg 4 :: fields233 s (indexField i) 5 :: d.bytes

/-- ModRM and what follows it for an r/m operand (R180). -/
def encodeRM (reg : BitVec 3) : RM → List Byte
  | .reg r => [fields233 3 reg r.num]
  | .mem m => encodeEA reg m

/-- The bytes of an instruction or prefix, from the encoding column of the table. -/
def encode : Instr → List Byte
  | .lock => [0xF0]
  | .repne => [0xF2]
  | .rep => [0xF3]
  | .segEs => [0x26]
  | .segCs => [0x2E]
  | .segSs => [0x36]
  | .segDs => [0x3E]
  | .segFs => [0x64]
  | .segGs => [0x65]
  | .opSize => [0x66]
  | .addrSize => [0x67]
  | .movRbIb r imm => withNum 0xB0 r.num :: [imm]
  | .movRvIv r imm => withNum 0xB8 r.num :: encodeSized imm
  | .movRmbIb rm imm => 0xC6 :: (encodeRM 0 rm ++ [imm])
  | .movRmvIv rm imm => 0xC7 :: (encodeRM 0 rm ++ encodeSized imm)
  | .movAlOff off => 0xA0 :: encodeSized off
  | .movAxOff off => 0xA1 :: encodeSized off
  | .movOffAl off => 0xA2 :: encodeSized off
  | .movOffAx off => 0xA3 :: encodeSized off
  | .movRmbRb rm r => 0x88 :: encodeRM r.num rm
  | .movRmvRv rm r => 0x89 :: encodeRM r.num rm
  | .movRbRmb r rm => 0x8A :: encodeRM r.num rm
  | .movRvRmv r rm => 0x8B :: encodeRM r.num rm
  | .movRmwSreg rm sr => 0x8C :: encodeRM sr.num rm
  | .movSregRmw sr rm => 0x8E :: encodeRM sr.num rm
  | .movsxRvRmb r rm => 0x0F :: 0xBE :: encodeRM r.num rm
  | .movsxRdRmw r rm => 0x0F :: 0xBF :: encodeRM r.num rm
  | .movzxRvRmb r rm => 0x0F :: 0xB6 :: encodeRM r.num rm
  | .movzxRdRmw r rm => 0x0F :: 0xB7 :: encodeRM r.num rm
  | .xchgAxRv r => [withNum 0x90 r.num]
  | .xchgRbRmb r rm => 0x86 :: encodeRM r.num rm
  | .xchgRvRmv r rm => 0x87 :: encodeRM r.num rm
  | .pushRmv rm => 0xFF :: encodeRM 6 rm
  | .pushRv r => [withNum 0x50 r.num]
  | .pushIb imm => 0x6A :: [imm]
  | .pushIv imm => 0x68 :: encodeSized imm
  | .pushCs => [0x0E]
  | .pushDs => [0x1E]
  | .pushEs => [0x06]
  | .pushSs => [0x16]
  | .pushFs => [0x0F, 0xA0]
  | .pushGs => [0x0F, 0xA8]
  | .popRmv m => 0x8F :: encodeRM 0 (.mem m)
  | .popRv r => [withNum 0x58 r.num]
  | .popDs => [0x1F]
  | .popEs => [0x07]
  | .popSs => [0x17]
  | .popFs => [0x0F, 0xA1]
  | .popGs => [0x0F, 0xA9]
  | .pusha => [0x60]
  | .popa => [0x61]
  | .pushf => [0x9C]
  | .popf => [0x9D]
  | .lea r m => 0x8D :: encodeRM r.num (.mem m)
  | .lds r m => 0xC5 :: encodeRM r.num (.mem m)
  | .les r m => 0xC4 :: encodeRM r.num (.mem m)
  | .lfs r m => 0x0F :: 0xB4 :: encodeRM r.num (.mem m)
  | .lgs r m => 0x0F :: 0xB5 :: encodeRM r.num (.mem m)
  | .lss r m => 0x0F :: 0xB2 :: encodeRM r.num (.mem m)
  | .xlat => [0xD7]
  | .inAlIb port => 0xE4 :: [port]
  | .inAxIb port => 0xE5 :: [port]
  | .inAlDx => [0xEC]
  | .inAxDx => [0xED]
  | .outIbAl port => 0xE6 :: [port]
  | .outIbAx port => 0xE7 :: [port]
  | .outDxAl => [0xEE]
  | .outDxAx => [0xEF]
  | .lahf => [0x9F]
  | .sahf => [0x9E]
  | .cbw => [0x98]
  | .cwd => [0x99]
  | .aaa => [0x37]
  | .aad base => [0xD5, base]
  | .aam base => [0xD4, base]
  | .aas => [0x3F]
  | .daa => [0x27]
  | .das => [0x2F]
  | .addRmbRb rm r => 0x00 :: encodeRM r.num rm
  | .addRmvRv rm r => 0x01 :: encodeRM r.num rm
  | .addRbRmb r rm => 0x02 :: encodeRM r.num rm
  | .addRvRmv r rm => 0x03 :: encodeRM r.num rm
  | .addAlIb imm => 0x04 :: [imm]
  | .addAxIv imm => 0x05 :: encodeSized imm
  | .addRmbIb rm imm => 0x80 :: (encodeRM 0 rm ++ [imm])
  | .addRmvIv rm imm => 0x81 :: (encodeRM 0 rm ++ encodeSized imm)
  | .addRmvIb rm imm => 0x83 :: (encodeRM 0 rm ++ [imm])
  | .orRmbRb rm r => 0x08 :: encodeRM r.num rm
  | .orRmvRv rm r => 0x09 :: encodeRM r.num rm
  | .orRbRmb r rm => 0x0A :: encodeRM r.num rm
  | .orRvRmv r rm => 0x0B :: encodeRM r.num rm
  | .orAlIb imm => 0x0C :: [imm]
  | .orAxIv imm => 0x0D :: encodeSized imm
  | .orRmbIb rm imm => 0x80 :: (encodeRM 1 rm ++ [imm])
  | .orRmvIv rm imm => 0x81 :: (encodeRM 1 rm ++ encodeSized imm)
  | .orRmvIb rm imm => 0x83 :: (encodeRM 1 rm ++ [imm])
  | .adcRmbRb rm r => 0x10 :: encodeRM r.num rm
  | .adcRmvRv rm r => 0x11 :: encodeRM r.num rm
  | .adcRbRmb r rm => 0x12 :: encodeRM r.num rm
  | .adcRvRmv r rm => 0x13 :: encodeRM r.num rm
  | .adcAlIb imm => 0x14 :: [imm]
  | .adcAxIv imm => 0x15 :: encodeSized imm
  | .adcRmbIb rm imm => 0x80 :: (encodeRM 2 rm ++ [imm])
  | .adcRmvIv rm imm => 0x81 :: (encodeRM 2 rm ++ encodeSized imm)
  | .adcRmvIb rm imm => 0x83 :: (encodeRM 2 rm ++ [imm])
  | .sbbRmbRb rm r => 0x18 :: encodeRM r.num rm
  | .sbbRmvRv rm r => 0x19 :: encodeRM r.num rm
  | .sbbRbRmb r rm => 0x1A :: encodeRM r.num rm
  | .sbbRvRmv r rm => 0x1B :: encodeRM r.num rm
  | .sbbAlIb imm => 0x1C :: [imm]
  | .sbbAxIv imm => 0x1D :: encodeSized imm
  | .sbbRmbIb rm imm => 0x80 :: (encodeRM 3 rm ++ [imm])
  | .sbbRmvIv rm imm => 0x81 :: (encodeRM 3 rm ++ encodeSized imm)
  | .sbbRmvIb rm imm => 0x83 :: (encodeRM 3 rm ++ [imm])
  | .andRmbRb rm r => 0x20 :: encodeRM r.num rm
  | .andRmvRv rm r => 0x21 :: encodeRM r.num rm
  | .andRbRmb r rm => 0x22 :: encodeRM r.num rm
  | .andRvRmv r rm => 0x23 :: encodeRM r.num rm
  | .andAlIb imm => 0x24 :: [imm]
  | .andAxIv imm => 0x25 :: encodeSized imm
  | .andRmbIb rm imm => 0x80 :: (encodeRM 4 rm ++ [imm])
  | .andRmvIv rm imm => 0x81 :: (encodeRM 4 rm ++ encodeSized imm)
  | .andRmvIb rm imm => 0x83 :: (encodeRM 4 rm ++ [imm])
  | .subRmbRb rm r => 0x28 :: encodeRM r.num rm
  | .subRmvRv rm r => 0x29 :: encodeRM r.num rm
  | .subRbRmb r rm => 0x2A :: encodeRM r.num rm
  | .subRvRmv r rm => 0x2B :: encodeRM r.num rm
  | .subAlIb imm => 0x2C :: [imm]
  | .subAxIv imm => 0x2D :: encodeSized imm
  | .subRmbIb rm imm => 0x80 :: (encodeRM 5 rm ++ [imm])
  | .subRmvIv rm imm => 0x81 :: (encodeRM 5 rm ++ encodeSized imm)
  | .subRmvIb rm imm => 0x83 :: (encodeRM 5 rm ++ [imm])
  | .xorRmbRb rm r => 0x30 :: encodeRM r.num rm
  | .xorRmvRv rm r => 0x31 :: encodeRM r.num rm
  | .xorRbRmb r rm => 0x32 :: encodeRM r.num rm
  | .xorRvRmv r rm => 0x33 :: encodeRM r.num rm
  | .xorAlIb imm => 0x34 :: [imm]
  | .xorAxIv imm => 0x35 :: encodeSized imm
  | .xorRmbIb rm imm => 0x80 :: (encodeRM 6 rm ++ [imm])
  | .xorRmvIv rm imm => 0x81 :: (encodeRM 6 rm ++ encodeSized imm)
  | .xorRmvIb rm imm => 0x83 :: (encodeRM 6 rm ++ [imm])
  | .cmpRmbRb rm r => 0x38 :: encodeRM r.num rm
  | .cmpRmvRv rm r => 0x39 :: encodeRM r.num rm
  | .cmpRbRmb r rm => 0x3A :: encodeRM r.num rm
  | .cmpRvRmv r rm => 0x3B :: encodeRM r.num rm
  | .cmpAlIb imm => 0x3C :: [imm]
  | .cmpAxIv imm => 0x3D :: encodeSized imm
  | .cmpRmbIb rm imm => 0x80 :: (encodeRM 7 rm ++ [imm])
  | .cmpRmvIv rm imm => 0x81 :: (encodeRM 7 rm ++ encodeSized imm)
  | .cmpRmvIb rm imm => 0x83 :: (encodeRM 7 rm ++ [imm])
  | .incRmb rm => 0xFE :: encodeRM 0 rm
  | .incRmv rm => 0xFF :: encodeRM 0 rm
  | .incRv r => [withNum 0x40 r.num]
  | .decRmb rm => 0xFE :: encodeRM 1 rm
  | .decRmv rm => 0xFF :: encodeRM 1 rm
  | .decRv r => [withNum 0x48 r.num]
  | .testRmbIb rm imm => 0xF6 :: (encodeRM 0 rm ++ [imm])
  | .testRmvIv rm imm => 0xF7 :: (encodeRM 0 rm ++ encodeSized imm)
  | .notRmb rm => 0xF6 :: encodeRM 2 rm
  | .notRmv rm => 0xF7 :: encodeRM 2 rm
  | .negRmb rm => 0xF6 :: encodeRM 3 rm
  | .negRmv rm => 0xF7 :: encodeRM 3 rm
  | .mulRmb rm => 0xF6 :: encodeRM 4 rm
  | .mulRmv rm => 0xF7 :: encodeRM 4 rm
  | .imulRmb rm => 0xF6 :: encodeRM 5 rm
  | .imulRmv rm => 0xF7 :: encodeRM 5 rm
  | .divRmb rm => 0xF6 :: encodeRM 6 rm
  | .divRmv rm => 0xF7 :: encodeRM 6 rm
  | .idivRmb rm => 0xF6 :: encodeRM 7 rm
  | .idivRmv rm => 0xF7 :: encodeRM 7 rm
  | .imulRvRmv r rm => 0x0F :: 0xAF :: encodeRM r.num rm
  | .imulRvRmvIb r rm imm => 0x6B :: (encodeRM r.num rm ++ [imm])
  | .imulRvRmvIv r rm imm => 0x69 :: (encodeRM r.num rm ++ encodeSized imm)
  | .testAlIb imm => 0xA8 :: [imm]
  | .testAxIv imm => 0xA9 :: encodeSized imm
  | .testRmbRb rm r => 0x84 :: encodeRM r.num rm
  | .testRmvRv rm r => 0x85 :: encodeRM r.num rm
  | .rolRmbOne rm => 0xD0 :: encodeRM 0 rm
  | .rolRmbCl rm => 0xD2 :: encodeRM 0 rm
  | .rolRmbIb rm imm => 0xC0 :: (encodeRM 0 rm ++ [imm])
  | .rolRmvOne rm => 0xD1 :: encodeRM 0 rm
  | .rolRmvCl rm => 0xD3 :: encodeRM 0 rm
  | .rolRmvIb rm imm => 0xC1 :: (encodeRM 0 rm ++ [imm])
  | .rorRmbOne rm => 0xD0 :: encodeRM 1 rm
  | .rorRmbCl rm => 0xD2 :: encodeRM 1 rm
  | .rorRmbIb rm imm => 0xC0 :: (encodeRM 1 rm ++ [imm])
  | .rorRmvOne rm => 0xD1 :: encodeRM 1 rm
  | .rorRmvCl rm => 0xD3 :: encodeRM 1 rm
  | .rorRmvIb rm imm => 0xC1 :: (encodeRM 1 rm ++ [imm])
  | .rclRmbOne rm => 0xD0 :: encodeRM 2 rm
  | .rclRmbCl rm => 0xD2 :: encodeRM 2 rm
  | .rclRmbIb rm imm => 0xC0 :: (encodeRM 2 rm ++ [imm])
  | .rclRmvOne rm => 0xD1 :: encodeRM 2 rm
  | .rclRmvCl rm => 0xD3 :: encodeRM 2 rm
  | .rclRmvIb rm imm => 0xC1 :: (encodeRM 2 rm ++ [imm])
  | .rcrRmbOne rm => 0xD0 :: encodeRM 3 rm
  | .rcrRmbCl rm => 0xD2 :: encodeRM 3 rm
  | .rcrRmbIb rm imm => 0xC0 :: (encodeRM 3 rm ++ [imm])
  | .rcrRmvOne rm => 0xD1 :: encodeRM 3 rm
  | .rcrRmvCl rm => 0xD3 :: encodeRM 3 rm
  | .rcrRmvIb rm imm => 0xC1 :: (encodeRM 3 rm ++ [imm])
  | .shlRmbOne rm => 0xD0 :: encodeRM 4 rm
  | .shlRmbCl rm => 0xD2 :: encodeRM 4 rm
  | .shlRmbIb rm imm => 0xC0 :: (encodeRM 4 rm ++ [imm])
  | .shlRmvOne rm => 0xD1 :: encodeRM 4 rm
  | .shlRmvCl rm => 0xD3 :: encodeRM 4 rm
  | .shlRmvIb rm imm => 0xC1 :: (encodeRM 4 rm ++ [imm])
  | .shrRmbOne rm => 0xD0 :: encodeRM 5 rm
  | .shrRmbCl rm => 0xD2 :: encodeRM 5 rm
  | .shrRmbIb rm imm => 0xC0 :: (encodeRM 5 rm ++ [imm])
  | .shrRmvOne rm => 0xD1 :: encodeRM 5 rm
  | .shrRmvCl rm => 0xD3 :: encodeRM 5 rm
  | .shrRmvIb rm imm => 0xC1 :: (encodeRM 5 rm ++ [imm])
  | .sarRmbOne rm => 0xD0 :: encodeRM 7 rm
  | .sarRmbCl rm => 0xD2 :: encodeRM 7 rm
  | .sarRmbIb rm imm => 0xC0 :: (encodeRM 7 rm ++ [imm])
  | .sarRmvOne rm => 0xD1 :: encodeRM 7 rm
  | .sarRmvCl rm => 0xD3 :: encodeRM 7 rm
  | .sarRmvIb rm imm => 0xC1 :: (encodeRM 7 rm ++ [imm])
  | .shldIb rm r imm => 0x0F :: 0xA4 :: (encodeRM r.num rm ++ [imm])
  | .shldCl rm r => 0x0F :: 0xA5 :: encodeRM r.num rm
  | .shrdIb rm r imm => 0x0F :: 0xAC :: (encodeRM r.num rm ++ [imm])
  | .shrdCl rm r => 0x0F :: 0xAD :: encodeRM r.num rm
  | .btRmvRv rm r => 0x0F :: 0xA3 :: encodeRM r.num rm
  | .btRmvIb rm imm => 0x0F :: 0xBA :: (encodeRM 4 rm ++ [imm])
  | .btsRmvRv rm r => 0x0F :: 0xAB :: encodeRM r.num rm
  | .btsRmvIb rm imm => 0x0F :: 0xBA :: (encodeRM 5 rm ++ [imm])
  | .btrRmvRv rm r => 0x0F :: 0xB3 :: encodeRM r.num rm
  | .btrRmvIb rm imm => 0x0F :: 0xBA :: (encodeRM 6 rm ++ [imm])
  | .btcRmvRv rm r => 0x0F :: 0xBB :: encodeRM r.num rm
  | .btcRmvIb rm imm => 0x0F :: 0xBA :: (encodeRM 7 rm ++ [imm])
  | .bsf r rm => 0x0F :: 0xBC :: encodeRM r.num rm
  | .bsr r rm => 0x0F :: 0xBD :: encodeRM r.num rm
  | .setcc c rm => 0x0F :: withNum 0x90 c.num :: encodeRM 0 rm
  | .movsb => [0xA4]
  | .movsv => [0xA5]
  | .cmpsb => [0xA6]
  | .cmpsv => [0xA7]
  | .stosb => [0xAA]
  | .stosv => [0xAB]
  | .lodsb => [0xAC]
  | .lodsv => [0xAD]
  | .scasb => [0xAE]
  | .scasv => [0xAF]
  | .insb => [0x6C]
  | .insv => [0x6D]
  | .outsb => [0x6E]
  | .outsv => [0x6F]
  | .jmpShort disp => 0xEB :: [disp]
  | .jmpNear disp => 0xE9 :: encodeSized disp
  | .jmpRmv rm => 0xFF :: encodeRM 4 rm
  | .jmpFar off sel => 0xEA :: (encodeSized off ++ bytes16 sel)
  | .jmpFarMem m => 0xFF :: encodeRM 5 (.mem m)
  | .jccShort c disp => withNum 0x70 c.num :: [disp]
  | .jccNear c disp => 0x0F :: withNum 0x80 c.num :: encodeSized disp
  | .jcxz disp => 0xE3 :: [disp]
  | .loop disp => 0xE2 :: [disp]
  | .loope disp => 0xE1 :: [disp]
  | .loopne disp => 0xE0 :: [disp]
  | .callNear disp => 0xE8 :: encodeSized disp
  | .callRmv rm => 0xFF :: encodeRM 2 rm
  | .callFar off sel => 0x9A :: (encodeSized off ++ bytes16 sel)
  | .callFarMem m => 0xFF :: encodeRM 3 (.mem m)
  | .retNear => [0xC3]
  | .retNearIw n => 0xC2 :: bytes16 n
  | .retFar => [0xCB]
  | .retFarIw n => 0xCA :: bytes16 n
  | .int3 => [0xCC]
  | .intIb v => 0xCD :: [v]
  | .into => [0xCE]
  | .iret => [0xCF]
  | .enter n level => 0xC8 :: (bytes16 n ++ [level])
  | .leave => [0xC9]
  | .bound r m => 0x62 :: encodeRM r.num (.mem m)
  | .clc => [0xF8]
  | .stc => [0xF9]
  | .cmc => [0xF5]
  | .cld => [0xFC]
  | .std => [0xFD]
  | .cli => [0xFA]
  | .sti => [0xFB]
  | .hlt => [0xF4]
  | .wait => [0x9B]
  | .nop => [0x90]
  | .esc op ext rm => withNum 0xD8 op :: encodeRM ext rm

end Sys2Proof
end

