-- ==== Sys2Proof/Config.lean ====
section
/-! DEFINITION. What an implementation or its environment fixes, and the free values: opaque constants
that no proof can evaluate. Rules: 92_eei_decisions.md (named parameters), 93_implementation_defined.md
U1, U24, U31, U42, U46 and section 2. -/

namespace Sys2Proof.Config

/-- The 16-bit processor identification RESET leaves in DX: the default 92_eei_decisions.md suggests
(R68; log entry 2, DESIGN CHOICE). -/
def processorId : Word16 := 0x0303

/-- Whether a coprocessor of 32-bit protocol is present: fixes CR0.ET at reset
(R68, D27; log entry 2, DESIGN CHOICE). -/
def coprocessorPresent : Bool := false

/-- FREE VALUE. A flag the source marks `U`, by the number of free values drawn before it
(93_implementation_defined.md section 2; log entry 8). -/
opaque freeFlag : Nat → Bool

/-- FREE VALUE. A register, or the upper half of a stack slot, that the spec leaves undefined, by the
number of free values drawn before it (93_implementation_defined.md U31, U42, U46; log entries 8, 9). -/
opaque freeWord : Nat → Word32

/-- FREE VALUE. `Host.IoIn`: what the `k`-th read of the run returns from a port of `n` bytes
(20_memory.md R150, 92_eei_decisions.md D30; log entry 10). -/
opaque portIn : (k : Nat) → (port : Word16) → (n : Nat) → Word32

/-- FREE VALUE. Whether a data breakpoint with the undefined code R/W = 10 matches a write (`true`) or a
read (`false`) (10_state.md R53, 93_implementation_defined.md U24; log entry 20). -/
opaque breakOnRw10 : (write : Bool) → Bool

/-- FREE VALUE. The number of bytes the undefined length code LEN = 10 watches
(10_state.md R53, 93_implementation_defined.md U24; log entry 20). -/
opaque breakLen10 : Nat

end Sys2Proof.Config
end

