-- ==== Sys2Proof/Machine/State.lean ====
section
/-! DEFINITION. The state of the machine as plain data, the two stop reasons, and the state after RESET.
Rules: 10_state.md R20 to R69; 60_exceptions.md R559; 70_reset_and_hazards.md R640. -/

namespace Sys2Proof.Machine

/-- The faults of the model: none. Every failing condition of the spec is an exception entry, a
shutdown or a halt, which are next states (60_exceptions.md R551, R590; 45_flag_processor_control.md
R528). -/
inductive Fault where
  deriving DecidableEq, Repr

/-- The refusals of the model. -/
inductive Refusal where
  /-- Raised by an arm of exec whose instruction has no meaning yet, with its mnemonic. Safe. -/
  | notModelled (mnemonic : String)
  deriving DecidableEq, Repr

/-- The eight general registers, 32 bits each (R20). -/
structure GRegs where
  eax : Word32
  ecx : Word32
  edx : Word32
  ebx : Word32
  esp : Word32
  ebp : Word32
  esi : Word32
  edi : Word32
  deriving DecidableEq, Repr

/-- A whole general register (R20). -/
def GRegs.get (g : GRegs) : Reg → Word32
  | .eax => g.eax
  | .ecx => g.ecx
  | .edx => g.edx
  | .ebx => g.ebx
  | .esp => g.esp
  | .ebp => g.ebp
  | .esi => g.esi
  | .edi => g.edi

/-- Replace a whole general register (R20). -/
def GRegs.set (g : GRegs) (r : Reg) (v : Word32) : GRegs :=
  match r with
  | .eax => { g with eax := v }
  | .ecx => { g with ecx := v }
  | .edx => { g with edx := v }
  | .ebx => { g with ebx := v }
  | .esp => { g with esp := v }
  | .ebp => { g with ebp := v }
  | .esi => { g with esi := v }
  | .edi => { g with edi := v }

/-- EFLAGS without its constant bits (R26; log entry 46). -/
structure Flags where
  /-- CF, bit 0 (R27). -/
  cf : Bool
  /-- PF, bit 2 (R28). -/
  pf : Bool
  /-- AF, bit 4 (R29). -/
  af : Bool
  /-- ZF, bit 6 (R30). -/
  zf : Bool
  /-- SF, bit 7 (R31). -/
  sf : Bool
  /-- TF, bit 8 (R35). -/
  tf : Bool
  /-- IF, bit 9 (R34). -/
  ifl : Bool
  /-- DF, bit 10 (R33). -/
  df : Bool
  /-- OF, bit 11 (R32). -/
  of : Bool
  /-- IOPL, bits 13:12 (R36). -/
  iopl : BitVec 2
  /-- NT, bit 14 (R37). -/
  nt : Bool
  /-- RF, bit 16 (R38). -/
  rf : Bool
  /-- VM, bit 17 (R39). -/
  vm : Bool
  deriving DecidableEq, Repr

/-- A segment register: the visible selector and the hidden copy of its descriptor (R41, R42). -/
structure SegReg where
  sel : Word16
  base : Word32
  /-- Byte granular, after applying G (20_memory.md R114). -/
  limit : Word32
  /-- 0 after a null selector (20_memory.md R113, R118). -/
  valid : Bool
  /-- Descriptor bit 15. -/
  p : Bool
  /-- Descriptor bits 14:13. -/
  dpl : BitVec 2
  /-- Descriptor bit 12. -/
  s : Bool
  /-- Descriptor bits 11:9 (20_memory.md R119). -/
  type : BitVec 3
  /-- Descriptor bit 8. -/
  a : Bool
  /-- Descriptor bit 22: D of a code segment, B of a stack or data segment (20_memory.md R117). -/
  db : Bool
  deriving DecidableEq, Repr

/-- The six segment registers (R41). -/
structure SegRegs where
  es : SegReg
  cs : SegReg
  ss : SegReg
  ds : SegReg
  fs : SegReg
  gs : SegReg
  deriving DecidableEq, Repr

/-- A segment register (R41). -/
def SegRegs.get (g : SegRegs) : SReg → SegReg
  | .es => g.es
  | .cs => g.cs
  | .ss => g.ss
  | .ds => g.ds
  | .fs => g.fs
  | .gs => g.gs

/-- Replace a segment register with its hidden part (R41, R42). -/
def SegRegs.set (g : SegRegs) (r : SReg) (v : SegReg) : SegRegs :=
  match r with
  | .es => { g with es := v }
  | .cs => { g with cs := v }
  | .ss => { g with ss := v }
  | .ds => { g with ds := v }
  | .fs => { g with fs := v }
  | .gs => { g with gs := v }

/-- GDTR or IDTR: a linear base and a limit, table size minus 1 (R56). -/
structure TableReg where
  base : Word32
  limit : Word16
  deriving DecidableEq, Repr

/-- LDTR or TR: a selector and the hidden base and limit of its descriptor (R57, R58). -/
structure SysReg where
  sel : Word16
  base : Word32
  limit : Word32
  /-- 0 when no descriptor has been loaded. -/
  valid : Bool
  deriving DecidableEq, Repr

/-- The debug registers (R50 to R53). -/
structure DebugRegs where
  dr0 : Word32
  dr1 : Word32
  dr2 : Word32
  dr3 : Word32
  dr6 : Word32
  dr7 : Word32
  deriving DecidableEq, Repr

/-- One TLB entry: a page, its frame and the combined rights (R62, 20_memory.md R136). -/
structure TlbEntry where
  /-- Linear address bits 31:12. -/
  page : BitVec 20
  /-- Physical address bits 31:12. -/
  frame : BitVec 20
  /-- U/S of directory and table entry together (20_memory.md R130). -/
  user : Bool
  /-- R/W of directory and table entry together (20_memory.md R130). -/
  writable : Bool
  /-- The copy of the table entry's D bit (20_memory.md R129). -/
  dirty : Bool
  deriving DecidableEq, Repr

/-- The causes of a pending debug trap, by their DR6 bits (R52, R67). -/
structure DebugCauses where
  bs : Bool
  bt : Bool
  b0 : Bool
  b1 : Bool
  b2 : Bool
  b3 : Bool
  deriving DecidableEq, Repr

/-- The external input lines (R66; log entry 11). -/
structure Lines where
  /-- RESET asserted. -/
  reset : Bool
  /-- The vectors the interrupt controller holds ready, oldest first: INTR is asserted while it is not empty. -/
  intr : List Byte
  /-- BUSY# active. -/
  busy : Bool
  /-- ERROR# active. -/
  error : Bool
  deriving DecidableEq, Repr

/-- One port write, `Host.IoOut(port, n, v)` (20_memory.md R151). -/
structure PortWrite where
  port : Word16
  bytes : Nat
  value : Word32
  deriving DecidableEq, Repr

/-- The two repeat prefixes (R171). -/
inductive Rep where
  | rep
  | repne
  deriving DecidableEq, Repr

/-- The prefixes taken so far for the current instruction (30_encoding.md R195; log entry 13). -/
structure Pfx where
  lock : Bool
  rep : Option Rep
  seg : Option SReg
  opSize : Bool
  addrSize : Bool
  deriving DecidableEq, Repr

/-- No prefix taken. -/
def Pfx.none : Pfx := ⟨false, Option.none, Option.none, false, false⟩

/-- The whole machine. -/
structure State where
  /-- EAX to EDI (R20). -/
  regs : GRegs
  /-- The offset of the byte after the current instruction, or of the next one between instructions (R24, R25). -/
  eip : Word32
  /-- The offset of the first byte of the current instruction, which a fault saves (R25; log entry 13). -/
  curEip : Word32
  /-- MODEL: execution has passed offset 0xFFFFFFFF in sequence: the next instruction's offset is EIP + 2^32,
  which no segment contains (R25, D11; log entry 51). -/
  eipPast : Bool
  /-- EFLAGS (R26). -/
  flags : Flags
  /-- CS, DS, SS, ES, FS, GS (R41, R42). -/
  segs : SegRegs
  /-- The current privilege level in mode P (R43; log entry 42). -/
  cpl : BitVec 2
  /-- CR0 (R44). -/
  cr0 : Word32
  /-- CR2 (R46). -/
  cr2 : Word32
  /-- CR3 (R47). -/
  cr3 : Word32
  /-- DR0 to DR3, DR6, DR7 (R50 to R53). -/
  dr : DebugRegs
  /-- GDTR (R56). -/
  gdtr : TableReg
  /-- IDTR (R56). -/
  idtr : TableReg
  /-- LDTR (R57). -/
  ldtr : SysReg
  /-- TR (R58). -/
  tr : SysReg
  /-- The TLB, most recently used first (R62; log entry 6). -/
  tlb : List TlbEntry
  /-- NMI in service (R63). -/
  nmiMask : Bool
  /-- An NMI waits (60_exceptions.md R559, R575). -/
  nmiPending : Bool
  /-- The interrupt shadow of STI and of a load of SS (R64). -/
  inhibit : Bool
  /-- Halted (R65). -/
  halted : Bool
  /-- Shut down (60_exceptions.md R590). -/
  shutdown : Bool
  /-- The pending debug trap (R67). -/
  dbg : DebugCauses
  /-- The external input lines (R66). -/
  lines : Lines
  /-- MODEL: port reads made so far (log entry 10). -/
  ioReads : Nat
  /-- MODEL: port writes made so far, newest first (log entry 10). -/
  ioOut : List PortWrite
  /-- MODEL: free values drawn so far (log entry 8). -/
  free : Nat
  /-- MODEL: the current instruction has loaded RF, or is to be begun again, so that its end does not clear RF
  (R559, R561; log entry 16). -/
  rfKept : Bool
  /-- MODEL: the prefixes of the instruction being decoded (log entry 13). -/
  pfx : Pfx
  /-- MODEL: the A and D bits set in page entries by the current instruction, as (address, bits) (log entry 12). -/
  adMarks : List Host.Cell
  /-- Physical memory: (address, byte) pairs, addresses strictly rising, no byte 0 (R59; log entry 4). -/
  mem : List Host.Cell
  deriving DecidableEq, Repr

/-- Replace a whole general register. -/
def State.setReg (s : State) (r : Reg) (v : Word32) : State := { s with regs := s.regs.set r v }

/-- Assign EIP: execution goes on at this offset (R25; log entry 51). -/
def State.setEip (s : State) (v : Word32) : State := { s with eip := v, eipPast := false }

/-- Replace EFLAGS. -/
def State.setFlags (s : State) (f : Flags) : State := { s with flags := f }

/-- Replace a segment register with its hidden part. -/
def State.setSeg (s : State) (r : SReg) (g : SegReg) : State := { s with segs := s.segs.set r g }

/-- Replace physical memory. -/
def State.setMem (s : State) (m : List Host.Cell) : State := { s with mem := m }

/-- All flags 0: EFLAGS = 0x00000002 (R68). -/
def Flags.reset : Flags :=
  ⟨false, false, false, false, false, false, false, false, false, 0, false, false, false⟩

/-- A data segment register after RESET: selector 0, base 0, limit 0xFFFF (R68); the access fields are
the family's, present writable data of level 0 (log entry 3, PRESUMED). -/
def SegReg.resetData : SegReg :=
  { sel := 0, base := 0, limit := 0xFFFF, valid := true, p := true, dpl := 0, s := true, type := 1,
    a := true, db := false }

/-- CS after RESET: selector 0xF000, base 0xFFFF0000, limit 0xFFFF (R68); the access fields are the
family's, present readable code of level 0 (log entry 3, PRESUMED). -/
def SegReg.resetCode : SegReg :=
  { SegReg.resetData with sel := 0xF000, base := 0xFFFF0000, type := 5 }

/-- No debug trap pending (R640). -/
def DebugCauses.none : DebugCauses := ⟨false, false, false, false, false, false⟩

/-- The machine right after RESET (10_state.md R68, 70_reset_and_hazards.md R640): the registers the spec
leaves unspecified hold 0 (log entry 1), EDX the processor identification (log entry 2), memory lists
nothing (log entry 4). -/
def State.reset : State where
  regs := { eax := 0, ecx := 0, edx := Config.processorId.setWidth 32, ebx := 0, esp := 0, ebp := 0,
            esi := 0, edi := 0 }
  eip := 0x0000FFF0
  curEip := 0x0000FFF0
  eipPast := false
  flags := Flags.reset
  segs := { es := SegReg.resetData, cs := SegReg.resetCode, ss := SegReg.resetData,
            ds := SegReg.resetData, fs := SegReg.resetData, gs := SegReg.resetData }
  cpl := 0
  cr0 := if Config.coprocessorPresent then 0x10 else 0
  cr2 := 0
  cr3 := 0
  dr := ⟨0, 0, 0, 0, 0, 0⟩
  gdtr := ⟨0, 0⟩
  idtr := ⟨0, 0x3FF⟩
  ldtr := ⟨0, 0, 0, false⟩
  tr := ⟨0, 0, 0, false⟩
  tlb := []
  nmiMask := false
  nmiPending := false
  inhibit := false
  halted := false
  shutdown := false
  dbg := DebugCauses.none
  lines := ⟨false, [], false, false⟩
  ioReads := 0
  ioOut := []
  free := 0
  rfKept := false
  pfx := Pfx.none
  adMarks := []
  mem := []

end Sys2Proof.Machine
end

