-- ==== Sys2Proof/Machine/Flags.lean ====
section
/-! DEFINITION. EFLAGS images and every flag computation of the spec.
Rules: 10_state.md R26 to R39; 40_data_transfer.md R283, R284, R298, R299; 41_arithmetic.md R310 to R333;
42_logic_shift_bit.md R360 to R411; 44_control_transfer.md R460, R500. -/

namespace Sys2Proof.Machine

/-- EFLAGS as a register image, with the constant bits (R26, D12). -/
def Flags.image (f : Flags) : Word32 :=
  bit 32 0 f.cf ||| bit 32 1 true ||| bit 32 2 f.pf ||| bit 32 4 f.af ||| bit 32 6 f.zf |||
    bit 32 7 f.sf ||| bit 32 8 f.tf ||| bit 32 9 f.ifl ||| bit 32 10 f.df ||| bit 32 11 f.of |||
    (f.iopl.setWidth 32 <<< 12) ||| bit 32 14 f.nt ||| bit 32 16 f.rf ||| bit 32 17 f.vm

/-- The flags an image holds; writes to the reserved bits are ignored (R26, D12). -/
def Flags.ofImage (v : Word32) : Flags where
  cf := v.getLsbD 0
  pf := v.getLsbD 2
  af := v.getLsbD 4
  zf := v.getLsbD 6
  sf := v.getLsbD 7
  tf := v.getLsbD 8
  ifl := v.getLsbD 9
  df := v.getLsbD 10
  of := v.getLsbD 11
  iopl := v.extractLsb' 12 2
  nt := v.getLsbD 14
  rf := v.getLsbD 16
  vm := v.getLsbD 17

/-- The image PUSHFD stores: VM and RF read as 0 (R283). -/
def Flags.pushImage (f : Flags) : Word32 := f.image &&& 0x00FCFFFF

/-- EFLAGS after POPF of `v` at level `cpl`: IOPL only at level 0, IF only when the level is at most
IOPL, RF and VM never (R284). -/
def Flags.popf (cpl : BitVec 2) (old : Flags) (v : Word32) : Flags :=
  { Flags.ofImage v with
    ifl := if cpl ≤ old.iopl then v.getLsbD 9 else old.ifl
    iopl := if cpl = 0 then v.extractLsb' 12 2 else old.iopl
    rf := old.rf
    vm := old.vm }

/-- EFLAGS after IRET of `v` in mode R: VM unchanged, RF only with 32-bit operand size (R500). -/
def Flags.iretReal (size : Size) (old : Flags) (v : Word32) : Flags :=
  { Flags.ofImage v with
    rf := if size = .s32 then v.getLsbD 16 else old.rf
    vm := old.vm }

/-- EFLAGS after IRET of `v` in mode V: as mode R, but IOPL unchanged (R500). -/
def Flags.iretV86 (size : Size) (old : Flags) (v : Word32) : Flags :=
  { Flags.iretReal size old v with iopl := old.iopl }

/-- EFLAGS after IRET of `v` in mode P at level `cpl`: the rule of POPF, and RF is loaded with 32-bit
operand size (R500). -/
def Flags.iretProt (size : Size) (cpl : BitVec 2) (old : Flags) (v : Word32) : Flags :=
  { Flags.popf cpl old v with rf := if size = .s32 then v.getLsbD 16 else old.rf }

/-- AH after LAHF: EFLAGS[7:0] (R298). -/
def Flags.low (f : Flags) : Byte := f.image.extractLsb' 0 8

/-- EFLAGS after SAHF of `ah` (R299). -/
def Flags.sahf (f : Flags) (ah : Byte) : Flags :=
  { f with
    sf := ah.getLsbD 7
    zf := ah.getLsbD 6
    af := ah.getLsbD 4
    pf := ah.getLsbD 2
    cf := ah.getLsbD 0 }

/-- `Cond(cc)` (R460). -/
def Flags.cond (f : Flags) : Cond → Bool
  | .o => f.of
  | .no => !f.of
  | .b => f.cf
  | .ae => !f.cf
  | .e => f.zf
  | .ne => !f.zf
  | .be => f.cf || f.zf
  | .a => !f.cf && !f.zf
  | .s => f.sf
  | .ns => !f.sf
  | .p => f.pf
  | .np => !f.pf
  | .l => f.sf != f.of
  | .ge => f.sf == f.of
  | .le => f.zf || (f.sf != f.of)
  | .g => !f.zf && (f.sf == f.of)

/-- Whether the low byte of a result holds an even number of 1 bits (R28, R310). -/
def parityEven {w : Nat} (r : BitVec w) : Bool :=
  !(r.getLsbD 0 ^^ r.getLsbD 1 ^^ r.getLsbD 2 ^^ r.getLsbD 3 ^^
    r.getLsbD 4 ^^ r.getLsbD 5 ^^ r.getLsbD 6 ^^ r.getLsbD 7)

/-- `SZP_N(r)` (R310). -/
def szp {w : Nat} (r : BitVec w) (f : Flags) : Flags :=
  { f with sf := r.msb, zf := r == 0, pf := parityEven r }

/-- The result of `AddFlags_N(a, b, c)` (R311). -/
def addResult {w : Nat} (a b : BitVec w) (c : Bool) : BitVec w :=
  BitVec.ofNat w (a.toNat + b.toNat + c.toNat)

/-- The flags of `AddFlags_N(a, b, c)` (R311). -/
def addFlags {w : Nat} (a b : BitVec w) (c : Bool) (f : Flags) : Flags :=
  let r := addResult a b c
  szp r { f with
    cf := decide (2 ^ w ≤ a.toNat + b.toNat + c.toNat)
    af := decide (15 < a.toNat % 16 + b.toNat % 16 + c.toNat)
    of := a.msb == b.msb && r.msb != a.msb }

/-- The result of `SubFlags_N(a, b, c)` (R312). -/
def subResult {w : Nat} (a b : BitVec w) (c : Bool) : BitVec w := a - b - BitVec.ofNat w c.toNat

/-- The flags of `SubFlags_N(a, b, c)` (R312). -/
def subFlags {w : Nat} (a b : BitVec w) (c : Bool) (f : Flags) : Flags :=
  let r := subResult a b c
  szp r { f with
    cf := decide (a.toNat < b.toNat + c.toNat)
    af := decide (a.toNat % 16 < b.toNat % 16 + c.toNat)
    of := a.msb != b.msb && r.msb != a.msb }

/-- `LogicFlags_N(r)`: AF is not written (R360). -/
def logicFlags {w : Nat} (r : BitVec w) (f : Flags) : Flags :=
  szp r { f with of := false, cf := false }

/-- The eight two-operand operations of R319 and R360. -/
inductive AluOp where
  | add | or | adc | sbb | and | sub | xor | cmp
  deriving DecidableEq, Repr

/-- Whether the operation stores its result: all but CMP (R319, R324). -/
def AluOp.writes : AluOp → Bool
  | .cmp => false
  | _ => true

/-- The result of a two-operand operation (R320 to R324, R361 to R363). -/
def aluResult {w : Nat} (op : AluOp) (a b : BitVec w) (f : Flags) : BitVec w :=
  match op with
  | .add => addResult a b false
  | .or => a ||| b
  | .adc => addResult a b f.cf
  | .sbb => subResult a b f.cf
  | .and => a &&& b
  | .sub => subResult a b false
  | .xor => a ^^^ b
  | .cmp => subResult a b false

/-- The flags of a two-operand operation (R320 to R324, R361 to R363). -/
def aluFlags {w : Nat} (op : AluOp) (a b : BitVec w) (f : Flags) : Flags :=
  match op with
  | .add => addFlags a b false f
  | .or => logicFlags (a ||| b) f
  | .adc => addFlags a b f.cf f
  | .sbb => subFlags a b f.cf f
  | .and => logicFlags (a &&& b) f
  | .sub => subFlags a b false f
  | .xor => logicFlags (a ^^^ b) f
  | .cmp => subFlags a b false f

/-- The four one-operand operations (R325 to R327, R364). -/
inductive UnOp where
  | inc | dec | neg | not
  deriving DecidableEq, Repr

/-- The result of a one-operand operation (R325 to R327, R364). -/
def unResult {w : Nat} (op : UnOp) (a : BitVec w) : BitVec w :=
  match op with
  | .inc => addResult a 1 false
  | .dec => subResult a 1 false
  | .neg => subResult 0 a false
  | .not => ~~~a

/-- The flags of a one-operand operation: INC and DEC keep CF, NOT keeps all (R325 to R327, R364). -/
def unFlags {w : Nat} (op : UnOp) (a : BitVec w) (f : Flags) : Flags :=
  match op with
  | .inc => { addFlags a 1 false f with cf := f.cf }
  | .dec => { subFlags a 1 false f with cf := f.cf }
  | .neg => { subFlags 0 a false f with cf := a != 0 }
  | .not => f

/-- The seven shifts and rotates (R370). -/
inductive ShiftOp where
  | rol | ror | rcl | rcr | shl | shr | sar
  deriving DecidableEq, Repr

/-- Whether the operation is a rotate: SF, ZF, PF are then unchanged (R375). -/
def ShiftOp.isRotate : ShiftOp → Bool
  | .rol | .ror | .rcl | .rcr => true
  | _ => false

/-- One single step of a shift or rotate on the operand and CF (R371 to R379). -/
def shiftStep {w : Nat} (op : ShiftOp) (x : BitVec w × Bool) : BitVec w × Bool :=
  let t := x.1
  match op with
  | .rol => ((t <<< 1) ||| bit w 0 t.msb, t.msb)
  | .ror => ((t >>> 1) ||| bit w (w - 1) (t.getLsbD 0), t.getLsbD 0)
  | .rcl => ((t <<< 1) ||| bit w 0 x.2, t.msb)
  | .rcr => ((t >>> 1) ||| bit w (w - 1) x.2, t.getLsbD 0)
  | .shl => (t <<< 1, t.msb)
  | .shr => (t >>> 1, t.getLsbD 0)
  | .sar => ((t >>> 1) ||| bit w (w - 1) t.msb, t.getLsbD 0)

/-- The operand and CF after `count` single steps (R370). -/
def shiftSteps {w : Nat} (op : ShiftOp) : Nat → BitVec w × Bool → BitVec w × Bool
  | 0, x => x
  | n + 1, x => shiftSteps op n (shiftStep op x)

/-- The masked count: the low 5 bits (R370). -/
def maskCount (c : Byte) : Nat := c.toNat % 32

/-- OF after a count of 1, from the final operand and CF (R371 to R373, R375). -/
def shiftOf {w : Nat} (op : ShiftOp) (t : BitVec w) (cf : Bool) : Bool :=
  match op with
  | .rol | .rcl | .shl => t.msb != cf
  | .ror | .rcr => t.msb != t.getLsbD (w - 2)
  | .shr | .sar => false

/-- The flags of a shift or rotate by a non-zero count, `anyOf` the free value OF takes when the count is
above 1 (R371 to R375). -/
def shiftFlags {w : Nat} (op : ShiftOp) (count : Nat) (t : BitVec w) (cf anyOf : Bool) (f : Flags) :
    Flags :=
  let f := { f with cf := cf, of := if count = 1 then shiftOf op t cf else anyOf }
  if op.isRotate then f else szp t f

/-- The result of SHLD (`left`) or SHRD by `1 ≤ count < N` or, for N = 32, any count (R385, R386). -/
def doubleShift {w : Nat} (left : Bool) (d src : BitVec w) (count : Nat) : BitVec w :=
  if left then (d <<< count) ||| (src >>> (w - count)) else (d >>> count) ||| (src <<< (w - count))

/-- CF of SHLD or SHRD: the last bit shifted out of the destination (R385, R386). -/
def doubleShiftCf {w : Nat} (left : Bool) (d : BitVec w) (count : Nat) : Bool :=
  if left then d.getLsbD (w - count) else d.getLsbD (count - 1)

/-- The four bit-test operations (R401 to R404). -/
inductive BitOp where
  | bt | bts | btr | btc
  deriving DecidableEq, Repr

/-- Whether the operation stores: all but BT (R401). -/
def BitOp.writes : BitOp → Bool
  | .bt => false
  | _ => true

/-- The operand after a bit-test operation on bit `i` (R401 to R404). -/
def bitResult {w : Nat} (op : BitOp) (v : BitVec w) (i : Nat) : BitVec w :=
  match op with
  | .bt => v
  | .bts => v ||| BitVec.twoPow w i
  | .btr => v &&& ~~~(BitVec.twoPow w i)
  | .btc => v ^^^ BitVec.twoPow w i

/-- The least `i` with bit `i` set, counting up from `from_`, at most `n` tries (R410). -/
def scanUp {w : Nat} (v : BitVec w) : Nat → Nat → Nat
  | 0, from_ => from_
  | n + 1, from_ => if v.getLsbD from_ then from_ else scanUp v n (from_ + 1)

/-- The greatest `i` below `n` with bit `i` set, 0 when there is none (R411). -/
def scanDown {w : Nat} (v : BitVec w) : Nat → Nat
  | 0 => 0
  | n + 1 => if v.getLsbD n then n else scanDown v n

/-- CF and OF after MUL or IMUL; SF, ZF, AF, PF take the free values (R330, R331). -/
def mulFlags (lost sf zf af pf : Bool) (f : Flags) : Flags :=
  { f with cf := lost, of := lost, sf := sf, zf := zf, af := af, pf := pf }

end Sys2Proof.Machine
end

