-- ==== Sys2Proof/Machine/Monad.lean ====
section
/-! DEFINITION. Exceptions as data, the state monad of an instruction, the modes, and the register
accessors. Rules: 10_state.md R20 to R25, R43, R49; 30_encoding.md R175, R176, R178;
60_exceptions.md R550 to R557, R610. -/

namespace Sys2Proof.Machine

/-- The kinds of event of 60_exceptions.md (R550, R556). -/
inductive ExnKind where
  | fault | trap | software | external | abort
  deriving DecidableEq, Repr

/-- One exception or interrupt to deliver. -/
structure Exn where
  vector : Byte
  kind : ExnKind
  /-- The error code (R557). -/
  code : Option Word16
  /-- What CR2 receives (R568). -/
  cr2 : Option Word32
  /-- The bits DR6 receives (R561). -/
  dr6 : Word32
  deriving DecidableEq, Repr

/-- A fault without error code. -/
def Exn.plain (v : Byte) : Exn := ⟨v, .fault, none, none, 0⟩

/-- A fault with an error code. -/
def Exn.coded (v : Byte) (code : Word16) : Exn := ⟨v, .fault, some code, none, 0⟩

/-- Exception 0, divide error (R560). -/
def exnDE : Exn := .plain 0
/-- Exception 5, bounds check (R565). -/
def exnBR : Exn := .plain 5
/-- Exception 6, invalid opcode (R563). -/
def exnUD : Exn := .plain 6
/-- Exception 7, coprocessor not present (R566). -/
def exnNM : Exn := .plain 7
/-- Exception 16, coprocessor error (R574). -/
def exnMF : Exn := .plain 16
/-- Exception 8, double fault or vector too large (R567). -/
def exnDF : Exn := ⟨8, .abort, some 0, none, 0⟩
/-- Exception 10, invalid TSS (R569). -/
def exnTS (code : Word16) : Exn := .coded 10 code
/-- Exception 11, segment not present (R571). -/
def exnNP (code : Word16) : Exn := .coded 11 code
/-- Exception 12, stack fault (R572). -/
def exnSS (code : Word16) : Exn := .coded 12 code
/-- Exception 13, general protection (R573). -/
def exnGP (code : Word16) : Exn := .coded 13 code
/-- Exception 12 of modes R and V, which has no error code (R112, R552; log entry 18). -/
def exn12 : Exn := .plain 12
/-- Exception 13 of modes R and V, which has no error code (R112, R552; log entry 18). -/
def exn13 : Exn := .plain 13
/-- Exception 14, page fault: CR2 and the fault code (R131, R568). -/
def exnPF (lin : Word32) (code : Word16) : Exn := ⟨14, .fault, some code, some lin, 0⟩

/-- Why an instruction ended before its last action. -/
inductive Stop where
  /-- An exception: undo the instruction, then deliver (R556). -/
  | exc (e : Exn)
  /-- An exception in the new task of a task switch: deliver in the state reached (R569, R596). -/
  | excNew (e : Exn)
  /-- Shutdown (R590). -/
  | shutdown
  /-- The instruction waits and is begun again at the next step (R529). -/
  | waiting
  deriving DecidableEq, Repr

/-- The actions of an instruction. -/
abbrev M := EStateM Stop State

/-- `raise` (R10). -/
def raise {α : Type} (e : Exn) : M α := throw (.exc e)

/-- Raise unless the condition holds (`require … else …`). -/
def require (c : Bool) (e : Exn) : M Unit := if c then pure () else raise e

/-- An action that is done only where a condition holds. -/
def onlyIf (c : Bool) (m : M Unit) : M Unit := if c then m else pure ()

/-- The modes of R3. -/
inductive Mode where
  /-- R, real. -/
  | real
  /-- P, protected. -/
  | prot
  /-- V, virtual 8086. -/
  | v86
  deriving DecidableEq, Repr

/-- CR0.PE (R44). -/
def State.pe (s : State) : Bool := s.cr0.getLsbD 0
/-- CR0.MP (R44). -/
def State.mp (s : State) : Bool := s.cr0.getLsbD 1
/-- CR0.EM (R44). -/
def State.em (s : State) : Bool := s.cr0.getLsbD 2
/-- CR0.TS (R44). -/
def State.ts (s : State) : Bool := s.cr0.getLsbD 3
/-- CR0.PG (R44). -/
def State.pg (s : State) : Bool := s.cr0.getLsbD 31

/-- The operating mode (R49, R610). -/
def State.mode (s : State) : Mode :=
  if s.pe then (if s.flags.vm then .v86 else .prot) else .real

/-- Whether paging is in force: CR0.PG in protected mode (R110, R128); in mode R it is off (R111; log
entry 57). -/
def State.paging (s : State) : Bool := s.pg && s.pe

/-- The current privilege level: 0 in mode R, 3 in mode V (R43; log entry 42). -/
def State.level (s : State) : BitVec 2 :=
  match s.mode with
  | .real => 0
  | .prot => s.cpl
  | .v86 => 3

/-- `DefSize`: CS.D in mode P, 16 in modes R and V (R117, R175, R195). -/
def State.defaultSize (s : State) : Size :=
  match s.mode with
  | .prot => if s.segs.cs.db then .s32 else .s16
  | _ => .s16

/-- `osz` of a word/double-word form (R175). -/
def State.osz (s : State) : Size := if s.pfx.opSize then s.defaultSize.other else s.defaultSize

/-- `asz` (R176). -/
def State.asz (s : State) : Size := if s.pfx.addrSize then s.defaultSize.other else s.defaultSize

/-- `StackSize`: SS.B in mode P, 16 in modes R and V (R140, D16). -/
def State.stackSize (s : State) : Size :=
  match s.mode with
  | .prot => if s.segs.ss.db then .s32 else .s16
  | _ => .s16

/-- The 32-bit register a byte register lies in (R22). -/
def Reg.byteParent : Reg → Reg
  | .eax | .esp => .eax
  | .ecx | .ebp => .ecx
  | .edx | .esi => .edx
  | .ebx | .edi => .ebx

/-- Whether a byte register is the high byte AH, CH, DH, BH (R22). -/
def Reg.isHighByte : Reg → Bool
  | .eax | .ecx | .edx | .ebx => false
  | .esp | .ebp | .esi | .edi => true

/-- `REG_n[k]` (R178, R181). -/
def readReg (w : Width) (g : GRegs) (r : Reg) : BitVec w.bits :=
  match w with
  | .b8 => (g.get (Reg.byteParent r)).extractLsb' (if Reg.isHighByte r then 8 else 0) 8
  | .w16 => (g.get r).extractLsb' 0 16
  | .d32 => g.get r

/-- A 32-bit register with its low byte replaced (R22). -/
def setLowByte (x : Word32) (v : Byte) : Word32 := x.extractLsb' 8 24 ++ v

/-- A 32-bit register with bits 15:8 replaced (R22). -/
def setHighByte (x : Word32) (v : Byte) : Word32 := x.extractLsb' 16 16 ++ (v ++ x.extractLsb' 0 8)

/-- A 32-bit register with its low word replaced (R21). -/
def setLowWord (x : Word32) (v : Word16) : Word32 := x.extractLsb' 16 16 ++ v

/-- `REG_n[k] <- v`: a byte or word write leaves the other bits (R21, R22, R181). -/
def writeReg (w : Width) (g : GRegs) (r : Reg) (v : BitVec w.bits) : GRegs :=
  match w with
  | .b8 =>
    let p := Reg.byteParent r
    g.set p (if Reg.isHighByte r then setHighByte (g.get p) v else setLowByte (g.get p) v)
  | .w16 => g.set r (setLowWord (g.get r) v)
  | .d32 => g.set r v

/-- `REG_n[k]` of the current state. -/
def getReg (w : Width) (r : Reg) : M (BitVec w.bits) := do
  let s ← get
  pure (readReg w s.regs r)

/-- `REG_n[k] <- v` in the current state. -/
def putReg (w : Width) (r : Reg) (v : BitVec w.bits) : M Unit :=
  modify fun s => { s with regs := writeReg w s.regs r v }

/-- The flags. -/
def getFlags : M Flags := do
  let s ← get
  pure s.flags

/-- Replace the flags. -/
def putFlags (f : Flags) : M Unit := modify fun s => s.setFlags f

/-- Draw a free flag (93_implementation_defined.md section 2; log entry 8). -/
def freeFlag : M Bool := do
  let s ← get
  set { s with free := s.free + 1 }
  pure (Config.freeFlag s.free)

/-- Draw a free value of width `w` (log entries 8 and 9). -/
def freeBits (w : Nat) : M (BitVec w) := do
  let s ← get
  set { s with free := s.free + 1 }
  pure ((Config.freeWord s.free).setWidth w)

/-- A value of 16 or 32 bits read as 32 bits, zero-extended. -/
def Sized.zext : Sized → Word32
  | .w v => v.setWidth 32
  | .d v => v

/-- A value of 16 or 32 bits read as 32 bits, sign-extended (R187). -/
def Sized.sext : Sized → Word32
  | .w v => v.signExtend 32
  | .d v => v

/-- An immediate `iw/id` at the width of the operand (R186). -/
def Sized.at (w : Width) (v : Sized) : BitVec w.bits := (Sized.zext v).setWidth w.bits

end Sys2Proof.Machine
end

