-- ==== Sys2Proof/Machine/Memory.lean ====
section
/-! DEFINITION. Physical memory in canonical form, paging with the TLB, and the supervisor accesses to
tables. Rules: 10_state.md R59, R62; 20_memory.md R100 to R102, R128 to R136; 92_eei_decisions.md D5, D17,
D31. -/

namespace Sys2Proof.Machine

/-- Read one byte of physical memory; an unlisted byte reads 0 (R100, D31; log entry 4). -/
def Memory.read : List Host.Cell → Nat → Byte
  | [], _ => 0
  | c :: m, a => if c.1 = a then c.2 else Memory.read m a

/-- Put a cell into its place in a rising list. -/
def Memory.insert (a : Nat) (b : Byte) : List Host.Cell → List Host.Cell
  | [] => [(a, b)]
  | c :: m =>
    if a < c.1 then (a, b) :: c :: m
    else if c.1 = a then (a, b) :: m
    else c :: Memory.insert a b m

/-- Write one byte of physical memory; writing 0 removes the entry (R100; log entry 4). -/
def Memory.write (m : List Host.Cell) (a : Nat) (b : Byte) : List Host.Cell :=
  if b = 0 then m.filter fun c => c.1 != a else Memory.insert a b m

/-- Addresses strictly rising from `lo`, below 2^32, and no byte 0. -/
def Memory.wfFrom : Nat → List Host.Cell → Bool
  | _, [] => true
  | lo, c :: m => decide (lo ≤ c.1) && decide (c.1 < 2 ^ 32) && c.2 != 0 && Memory.wfFrom (c.1 + 1) m

/-- The canonical form of memory: addresses strictly rising and below 2^32, no byte 0 (log entry 4). -/
def Memory.wf (m : List Host.Cell) : Bool := Memory.wfFrom 0 m

/-- Read consecutive bytes from a list of physical addresses. -/
def readPhys (m : List Host.Cell) (ps : List Word32) : List Byte := ps.map fun p => Memory.read m p.toNat

/-- Write bytes to a list of physical addresses, the first first (R121). -/
def writePhys (m : List Host.Cell) : List Word32 → List Byte → List Host.Cell
  | p :: ps, b :: bs => writePhys (Memory.write m p.toNat b) ps bs
  | _, _ => m

/-- A double word of physical memory (R101, R128). -/
def readPhys32 (m : List Host.Cell) (a : Word32) : Word32 :=
  BitVec.ofNat 32 (leNat (readPhys m [a, a + 1, a + 2, a + 3]))

/-- The kind of an access (R110). -/
inductive Access where
  | read | write | exec
  deriving DecidableEq, Repr

/-- Whether an access is a write. -/
def Access.isWrite : Access → Bool
  | .write => true
  | _ => false

/-- The row of the TLB a page belongs to: linear address bits 14:12 (R62, R136). -/
def TlbEntry.row (e : TlbEntry) : BitVec 3 := e.page.extractLsb' 0 3

/-- Keep at most `n` entries of a row, the most recently used ones (log entry 6). -/
def tlbKeep (row : BitVec 3) : Nat → List TlbEntry → List TlbEntry
  | _, [] => []
  | 0, e :: t => if e.row = row then tlbKeep row 0 t else e :: tlbKeep row 0 t
  | n + 1, e :: t => if e.row = row then e :: tlbKeep row n t else e :: tlbKeep row (n + 1) t

/-- Make an entry the most recently used one, four entries to a row, 32 in all (R62; log entry 6). -/
def tlbUse (t : List TlbEntry) (e : TlbEntry) : List TlbEntry :=
  e :: tlbKeep e.row 3 (t.filter fun x => x.page != e.page)

/-- The entry for a page. -/
def tlbFind (t : List TlbEntry) (page : BitVec 20) : Option TlbEntry := t.find? fun e => e.page == page

/-- The page-fault code: bit 0 protection, bit 1 write, bit 2 user (R131). -/
def pageFaultCode (protection write user : Bool) : Word16 :=
  bit 16 0 protection ||| bit 16 1 write ||| bit 16 2 user

/-- Whether an access is permitted by combined rights (R130). -/
def pagePermits (user write u w : Bool) : Bool := !user || (u && (!write || w))

/-- What a translation gives: the physical address, the TLB after it, and the A and D bits it sets, as
(address of the byte, bits). -/
structure PageHit where
  phys : Word32
  tlb : List TlbEntry
  marks : List Host.Cell
  deriving DecidableEq, Repr

/-- The physical address of the directory entry of a linear address (R128). -/
def pdeAddr (cr3 lin : Word32) : Word32 := (cr3 &&& 0xFFFFF000) ||| (lin >>> 22) <<< 2

/-- The physical address of the table entry of a linear address (R128). -/
def pteAddr (pde lin : Word32) : Word32 := (pde &&& 0xFFFFF000) ||| (((lin >>> 12) &&& 0x3FF) <<< 2)

/-- Walk the page tables for a linear address (R128 to R131). The D bit of a directory entry is not
written (log entry 7). -/
def pageWalk (s : State) (kind : Access) (user : Bool) (lin : Word32) : Except Exn PageHit :=
  let w := kind.isWrite
  let da := pdeAddr s.cr3 lin
  let pde := readPhys32 s.mem da
  if pde.getLsbD 0 then
    let ta := pteAddr pde lin
    let pte := readPhys32 s.mem ta
    if pte.getLsbD 0 then
      let u := pde.getLsbD 2 && pte.getLsbD 2
      let wr := pde.getLsbD 1 && pte.getLsbD 1
      if pagePermits user w u wr then
        .ok { phys := (pte &&& 0xFFFFF000) ||| (lin &&& 0xFFF)
              tlb := tlbUse s.tlb ⟨lin.extractLsb' 12 20, pte.extractLsb' 12 20, u, wr,
                w || pte.getLsbD 6⟩
              marks := [(da.toNat, 0x20), (ta.toNat, if w then 0x60 else 0x20)] }
      else .error (exnPF lin (pageFaultCode true w user))
    else .error (exnPF lin (pageFaultCode false w user))
  else .error (exnPF lin (pageFaultCode false w user))

/-- `Page(lin, kind)` for a user or supervisor access (R128): identity with paging off, else the TLB's
copy, else a walk. A first write through a clean entry walks again, to set D (R129; log entry 6). -/
def pageLookup (s : State) (kind : Access) (user : Bool) (lin : Word32) : Except Exn PageHit :=
  if s.paging then
    match tlbFind s.tlb (lin.extractLsb' 12 20) with
    | some e =>
      if kind.isWrite && !e.dirty then pageWalk s kind user lin
      else if pagePermits user kind.isWrite e.user e.writable then
        .ok { phys := e.frame ++ lin.extractLsb' 0 12, tlb := tlbUse s.tlb e, marks := [] }
      else .error (exnPF lin (pageFaultCode true kind.isWrite user))
    | none => pageWalk s kind user lin
  else .ok { phys := lin, tlb := s.tlb, marks := [] }

/-- Set bits of one byte of memory (R129). -/
def orByte (m : List Host.Cell) (c : Host.Cell) : List Host.Cell :=
  Memory.write m c.1 (Memory.read m c.1 ||| c.2)

/-- The state after a translation: A and D bits set in memory, the TLB used (R128, R129). -/
def PageHit.apply (h : PageHit) (s : State) : State :=
  { s with tlb := h.tlb, mem := h.marks.foldl orByte s.mem, adMarks := h.marks ++ s.adMarks }

/-- Translate one byte's linear address (R110). -/
def page (kind : Access) (user : Bool) (lin : Word32) : M Word32 := do
  let s ← get
  match pageLookup s kind user lin with
  | .ok h =>
    set (h.apply s)
    pure h.phys
  | .error e => raise e

/-- Translate `n` consecutive bytes, in address order, modulo 2^32 (R110, R131). -/
def pages (kind : Access) (user : Bool) (lin : Word32) : Nat → M (List Word32)
  | 0 => pure []
  | n + 1 => do
    let p ← page kind user lin
    let ps ← pages kind user (lin + 1) n
    pure (p :: ps)

/-- Read the bytes at physical addresses. -/
def loadBytes (ps : List Word32) : M (List Byte) := do
  let s ← get
  pure (readPhys s.mem ps)

/-- Write bytes at physical addresses. -/
def storeBytes (ps : List Word32) (bs : List Byte) : M Unit :=
  modify fun s => s.setMem (writePhys s.mem ps bs)

/-- The state after CR3 is written: the low 12 bits are ignored and the TLB is emptied (R47, R136). -/
def State.withCr3 (s : State) (v : Word32) : State := { s with cr3 := v &&& 0xFFFFF000, tlb := [] }

/-- Read `n` bytes at a linear address as the processor's own access, at supervisor level (R130). It meets no
data breakpoint (log entry 52). -/
def sysRead (lin : Word32) (n : Nat) : M (List Byte) := do
  let ps ← pages .read false lin n
  loadBytes ps

/-- Read a word at a linear address at supervisor level. -/
def sysRead16 (lin : Word32) : M Word16 := do
  let bs ← sysRead lin 2
  pure (BitVec.ofNat 16 (leNat bs))

/-- Read a double word at a linear address at supervisor level. -/
def sysRead32 (lin : Word32) : M Word32 := do
  let bs ← sysRead lin 4
  pure (BitVec.ofNat 32 (leNat bs))

/-- Write bytes at a linear address as the processor's own access, at supervisor level (R130). It meets no data
breakpoint (log entry 52). -/
def sysWrite (lin : Word32) (bs : List Byte) : M Unit := do
  let ps ← pages .write false lin bs.length
  storeBytes ps bs

/-- Write a word at a linear address at supervisor level. -/
def sysWrite16 (lin : Word32) (v : Word16) : M Unit := sysWrite lin (bytes16 v)

/-- Write a double word at a linear address at supervisor level. -/
def sysWrite32 (lin : Word32) (v : Word32) : M Unit := sysWrite lin (bytes32 v)

end Sys2Proof.Machine
end

