-- ==== Sys2Proof/Machine/Segment.lean ====
section
/-! DEFINITION. Segmentation, the access primitives, data breakpoints, the stack, and the I/O space.
Rules: 10_state.md R41, R42, R50 to R53; 20_memory.md R110 to R122, R140 to R143, R150 to R152;
60_exceptions.md R561. -/

namespace Sys2Proof.Machine

/-- Bit 2 of TYPE: 1 for a code segment (R119). -/
def SegReg.isCode (g : SegReg) : Bool := g.type.getLsbD 2

/-- `seg.readable`: data, or code with R = 1 (R119). -/
def SegReg.readable (g : SegReg) : Bool := !g.isCode || g.type.getLsbD 0

/-- `seg.writable`: data with W = 1 (R119). -/
def SegReg.writable (g : SegReg) : Bool := !g.isCode && g.type.getLsbD 0

/-- An expand-down data segment (R119). -/
def SegReg.expandDown (g : SegReg) : Bool := !g.isCode && g.type.getLsbD 1

/-- The last offset of an expand-down segment by its B bit (R114). -/
def SegReg.top (g : SegReg) : Nat := if g.db then 0xFFFFFFFF else 0xFFFF

/-- `InLimit(seg, off, n)` (R114). -/
def SegReg.inLimit (g : SegReg) (off : Word32) (n : Nat) : Bool :=
  if g.expandDown then decide (g.limit.toNat < off.toNat) && decide (off.toNat + n ≤ g.top + 1)
  else decide (off.toNat + n ≤ g.limit.toNat + 1) && decide (off.toNat ≤ g.limit.toNat)

/-- The fault of a bad address in a segment: in mode P #SS(0) through SS, else #GP(0) (R113); in modes R and V
exception 12 or 13, without an error code (R112; log entry 18). -/
def segFault (m : Mode) (sr : SReg) : Exn :=
  match m with
  | .prot => if sr = .ss then exnSS 0 else exnGP 0
  | _ => if sr = .ss then exn12 else exn13

/-- `Linear(seg, off, n, kind)` (R112, R113). -/
def linear (s : State) (kind : Access) (sr : SReg) (off : Word32) (n : Nat) : Except Exn Word32 :=
  let g := s.segs.get sr
  match s.mode with
  | .prot =>
    if !g.valid || !g.inLimit off n then .error (segFault .prot sr)
    else if kind = .write && !g.writable then .error (exnGP 0)
    else if kind = .read && !g.readable then .error (exnGP 0)
    else .ok (g.base + off)
  | _ =>
    if off.toNat + n ≤ 0x10000 then .ok (g.base + off) else .error (segFault s.mode sr)

/-- Whether an access is made at user level (R130). -/
def State.user (s : State) : Bool := s.level == 3

/-- DRn (R50). -/
def DebugRegs.addr (d : DebugRegs) (n : Nat) : Word32 :=
  match n with
  | 0 => d.dr0
  | 1 => d.dr1
  | 2 => d.dr2
  | _ => d.dr3

/-- Whether breakpoint `n` is enabled: Ln or Gn of DR7 (R53). -/
def DebugRegs.enabled (d : DebugRegs) (n : Nat) : Bool :=
  d.dr7.getLsbD (2 * n) || d.dr7.getLsbD (2 * n + 1)

/-- R/Wn of DR7 (R53). -/
def DebugRegs.rw (d : DebugRegs) (n : Nat) : BitVec 2 := d.dr7.extractLsb' (16 + 4 * n) 2

/-- The length in bytes LENn of DR7 stands for; the code 10 is undefined (R53; log entry 20). -/
def DebugRegs.len (d : DebugRegs) (n : Nat) : Nat :=
  match (d.dr7.extractLsb' (18 + 4 * n) 2).toNat with
  | 0 => 1
  | 1 => 2
  | 3 => 4
  | _ => Config.breakLen10

/-- Whether the condition R/Wn takes in a data access; the code 10 is undefined (R53; log entry 20). -/
def DebugRegs.takes (d : DebugRegs) (n : Nat) (write : Bool) : Bool :=
  match (d.rw n).toNat with
  | 0 => false
  | 1 => write
  | 3 => true
  | _ => Config.breakOnRw10 write

/-- Whether one of the `k` bytes from `lin` lies in the `len` bytes from `at_`, modulo 2^32 (R561). -/
def overlaps (lin : Word32) (k : Nat) (at_ : Word32) (len : Nat) : Bool :=
  (List.range k).any fun i => decide ((lin + BitVec.ofNat 32 i - at_).toNat < len)

/-- Whether data breakpoint `n` matches an access (R561). -/
def DebugRegs.dataMatch (d : DebugRegs) (n : Nat) (write : Bool) (lin : Word32) (k : Nat) : Bool :=
  d.enabled n && d.takes n write && overlaps lin k (d.addr n) (d.len n)

/-- Whether instruction breakpoint `n` matches the first byte of an instruction (R561). -/
def DebugRegs.execMatch (d : DebugRegs) (n : Nat) (lin : Word32) : Bool :=
  d.enabled n && d.rw n == 0 && d.addr n == lin

/-- Note the data breakpoints an access meets: a debug trap is then pending (R67, R120, R121). -/
def noteData (write : Bool) (lin : Word32) (k : Nat) : M Unit :=
  modify fun s => { s with dbg :=
    { s.dbg with
      b0 := s.dbg.b0 || s.dr.dataMatch 0 write lin k
      b1 := s.dbg.b1 || s.dr.dataMatch 1 write lin k
      b2 := s.dbg.b2 || s.dr.dataMatch 2 write lin k
      b3 := s.dbg.b3 || s.dr.dataMatch 3 write lin k } }

/-- `Translate(seg, off, n, kind)` of a data access: all checks for all bytes, and the data breakpoints
met (R110, R120, R121). -/
def translate (kind : Access) (sr : SReg) (off : Word32) (n : Nat) : M (List Word32) := do
  let s ← get
  match linear s kind sr off n with
  | .error e => raise e
  | .ok lin =>
    let ps ← pages kind s.user lin n
    noteData kind.isWrite lin n
    pure ps

/-- The value of a little-endian operand of width `w` (R101). -/
def valueOf (w : Width) (bs : List Byte) : BitVec w.bits := BitVec.ofNat w.bits (leNat bs)

/-- `MemRead(seg, off, n)` at the width of an operand (R120). -/
def memRead (w : Width) (sr : SReg) (off : Word32) : M (BitVec w.bits) := do
  let ps ← translate .read sr off w.bytes
  let bs ← loadBytes ps
  pure (valueOf w bs)

/-- `MemWrite(seg, off, n, v)` at the width of an operand (R121). -/
def memWrite (w : Width) (sr : SReg) (off : Word32) (v : BitVec w.bits) : M Unit := do
  let ps ← translate .write sr off w.bytes
  storeBytes ps (leBytes w.bytes v)

/-- An offset reduced to a size: modulo 2^16 or 2^32 (R140, R176). -/
def wrap (z : Size) (v : Word32) : Word32 :=
  match z with
  | .s16 => (v.extractLsb' 0 16).setWidth 32
  | .s32 => v

/-- Replace a register at a size: the low word only under 16 bits (R21, R140). -/
def setSized (z : Size) (old v : Word32) : Word32 :=
  match z with
  | .s16 => setLowWord old (v.extractLsb' 0 16)
  | .s32 => v

/-- The stack pointer SP or ESP as an offset in SS (R140). -/
def State.sp (s : State) : Word32 := wrap s.stackSize s.regs.esp

/-- The general registers with (E)SP replaced, its width by `StackSize` (R140). -/
def State.regsWithSp (s : State) (v : Word32) : GRegs :=
  s.regs.set .esp (setSized s.stackSize s.regs.esp v)

/-- Replace (E)SP (R140). -/
def putSp (v : Word32) : M Unit := modify fun s => { s with regs := s.regsWithSp v }

/-- A number of bytes as a word. -/
def Width.off (w : Width) : Word32 := BitVec.ofNat 32 w.bytes

/-- A push with (E)SP = 1 in modes R and V shuts the processor down (R142). -/
def State.pushShutsDown (s : State) : Bool := s.mode != .prot && s.sp == 1

/-- `Push_n(v)` (R140, R142). -/
def push (w : Width) (v : BitVec w.bits) : M Unit := do
  let s ← get
  if s.pushShutsDown then throw .shutdown
  else
    let t := wrap s.stackSize (s.sp - Width.off w)
    memWrite w .ss t v
    putSp t

/-- `Pop_n()` (R141, R142). -/
def pop (w : Width) : M (BitVec w.bits) := do
  let s ← get
  let v ← memRead w .ss s.sp
  putSp (s.sp + Width.off w)
  pure v

/-- The slot a segment register pushed with operand size `z` fills: the upper half of a double word is a
free value (R140, U31; log entry 9). -/
def selectorSlot (z : Size) (sel : Word16) : M (BitVec z.width.bits) :=
  match z with
  | .s16 => pure sel
  | .s32 => do
    let hi ← freeBits 16
    pure (hi ++ sel)

/-- `Push_n` of a segment register's selector (R140, R270). -/
def pushSelector (z : Size) (sel : Word16) : M Unit := do
  let v ← selectorSlot z sel
  push z.width v

/-- Whether the permission bits of `n` ports from `port` are all 0 in the map at linear address `map`
whose last byte lies at TSS offset `limit` (R152; log entry 40). The ports of one access are not taken modulo 2^16, so
an access that runs past port 0xFFFF tests the bits of the map byte 0x2000: DESIGN CHOICE, log entry 40. -/
def ioBitsClear (tssBase : Word32) (limit mapBase : Nat) : Nat → Nat → M Bool
  | _, 0 => pure true
  | port, n + 1 => do
    let at_ := mapBase + port / 8
    if limit < at_ then pure false
    else
      let bs ← sysRead (tssBase + BitVec.ofNat 32 at_) 1
      let rest ← ioBitsClear tssBase limit mapBase (port + 1) n
      pure (!(leNat bs).testBit (port % 8) && rest)

/-- Whether the TSS permission map lets a V86 task use `n` ports from `port` (R152; log entry 40). -/
def ioMapAllows (port : Word16) (n : Nat) : M Bool := do
  let s ← get
  if !s.tr.valid || s.tr.limit.toNat < 0x67 then pure false
  else
    let mapBase ← sysRead16 (s.tr.base + 0x66)
    ioBitsClear s.tr.base s.tr.limit.toNat mapBase.toNat port.toNat n

/-- `IoCheck(port, n)` (R152). -/
def ioCheck (port : Word16) (n : Nat) : M Unit := do
  let s ← get
  match s.mode with
  | .real => pure ()
  | .prot => require (decide (s.cpl ≤ s.flags.iopl)) (exnGP 0)
  | .v86 => do
    let ok ← ioMapAllows port n
    require ok (exnGP 0)

/-- `Host.IoIn(port, n)`: a free value of the environment (R150; log entry 10). -/
def portIn (w : Width) (port : Word16) : M (BitVec w.bits) := do
  let s ← get
  set { s with ioReads := s.ioReads + 1 }
  pure ((Config.portIn s.ioReads port w.bytes).setWidth w.bits)

/-- `Host.IoOut(port, n, v)`: recorded in order (R151; log entry 10). -/
def portOut (w : Width) (port : Word16) (v : BitVec w.bits) : M Unit :=
  modify fun s => { s with ioOut := ⟨port, w.bytes, v.setWidth 32⟩ :: s.ioOut }

/-- `IoRead(port, n)` (R150). -/
def ioRead (w : Width) (port : Word16) : M (BitVec w.bits) := do
  ioCheck port w.bytes
  portIn w port

/-- `IoWrite(port, n, v)` (R151). -/
def ioWrite (w : Width) (port : Word16) (v : BitVec w.bits) : M Unit := do
  ioCheck port w.bytes
  portOut w port v

end Sys2Proof.Machine
end

