-- ==== Sys2Proof/Machine/Descriptor.lean ====
section
/-! DEFINITION. Selectors, descriptors and the loading of segment registers.
Rules: 10_state.md R42, R56 to R58; 20_memory.md R111, R114 to R119, R125, R126; 60_exceptions.md R557,
R571 to R573. -/

namespace Sys2Proof.Machine

/-- The index of a selector (R116). -/
def selIndex (sel : Word16) : BitVec 13 := sel.extractLsb' 3 13
/-- TI of a selector: 1 = LDT (R116). -/
def selTi (sel : Word16) : Bool := sel.getLsbD 2
/-- RPL of a selector (R116). -/
def selRpl (sel : Word16) : BitVec 2 := sel.extractLsb' 0 2
/-- A null selector: index 0 and TI 0 (R116). -/
def selNull (sel : Word16) : Bool := sel.extractLsb' 2 14 == 0
/-- The error code of a selector: `sel & 0xFFFC` (R118, R557). -/
def selCode (sel : Word16) : Word16 := sel &&& 0xFFFC
/-- A selector with RPL replaced (R490). -/
def selWithRpl (sel : Word16) (rpl : BitVec 2) : Word16 := sel.extractLsb' 2 14 ++ rpl

/-- A descriptor as its two double words, and its linear address (R115, R125). -/
structure Desc where
  lo : Word32
  hi : Word32
  addr : Word32
  deriving DecidableEq, Repr

/-- BASE (R125). -/
def Desc.base (d : Desc) : Word32 := d.hi.extractLsb' 24 8 ++ (d.hi.extractLsb' 0 8 ++ d.lo.extractLsb' 16 16)
/-- LIMIT as the 20-bit field (R125). -/
def Desc.limitField (d : Desc) : BitVec 20 := d.hi.extractLsb' 16 4 ++ d.lo.extractLsb' 0 16
/-- The limit in bytes after G (R114). -/
def Desc.limit (d : Desc) : Word32 :=
  if d.hi.getLsbD 23 then d.limitField ++ (0xFFF : BitVec 12) else d.limitField.setWidth 32
/-- P, bit 15 (R125). -/
def Desc.p (d : Desc) : Bool := d.hi.getLsbD 15
/-- DPL, bits 14:13 (R125). -/
def Desc.dpl (d : Desc) : BitVec 2 := d.hi.extractLsb' 13 2
/-- Bit 12: 1 for code and data segments (R125). -/
def Desc.s (d : Desc) : Bool := d.hi.getLsbD 12
/-- TYPE, bits 11:9 (R119, R125). -/
def Desc.type (d : Desc) : BitVec 3 := d.hi.extractLsb' 9 3
/-- A, bit 8 (R125). -/
def Desc.a (d : Desc) : Bool := d.hi.getLsbD 8
/-- D/B, bit 22 (R117). -/
def Desc.db (d : Desc) : Bool := d.hi.getLsbD 22
/-- The 4-bit type of a system descriptor, bits 11:8 (R119). -/
def Desc.sysType (d : Desc) : BitVec 4 := d.hi.extractLsb' 8 4
/-- A code segment (R119). -/
def Desc.isCode (d : Desc) : Bool := d.s && d.type.getLsbD 2
/-- A conforming code segment (R119). -/
def Desc.conforming (d : Desc) : Bool := d.isCode && d.type.getLsbD 1
/-- A data segment (R119). -/
def Desc.isData (d : Desc) : Bool := d.s && !d.type.getLsbD 2
/-- A writable data segment (R119). -/
def Desc.writableData (d : Desc) : Bool := d.isData && d.type.getLsbD 0
/-- A data segment or a readable code segment (R118). -/
def Desc.loadable (d : Desc) : Bool := d.isData || (d.isCode && d.type.getLsbD 0)
/-- A task gate: bit 12 = 0, type 5 (R119, R126). -/
def Desc.isTaskGate (d : Desc) : Bool := !d.s && d.sysType == 5
/-- An available or busy TSS: types 1 and 3 of the 286, 9 and B of the 386 (R119). Each has the layout of R127
(log entry 26). -/
def Desc.isTss (d : Desc) : Bool :=
  !d.s && (d.sysType == 1 || d.sysType == 3 || d.sysType == 9 || d.sysType == 0xB)
/-- The busy bit of a TSS descriptor, bit 9 (R119). -/
def Desc.busy (d : Desc) : Bool := d.hi.getLsbD 9
/-- An LDT descriptor: type 2 (R119). -/
def Desc.isLdt (d : Desc) : Bool := !d.s && d.sysType == 2
/-- A 286 or 386 call gate: type 4 or C (R119). -/
def Desc.isCallGate (d : Desc) : Bool := !d.s && (d.sysType == 4 || d.sysType == 0xC)
/-- A 286 or 386 interrupt or trap gate: types 6, 7, E, F (R119, R580). -/
def Desc.isIntGate (d : Desc) : Bool :=
  !d.s && (d.sysType == 6 || d.sysType == 7 || d.sysType == 0xE || d.sysType == 0xF)
/-- Whether a gate is a 386 gate, with double-word items: bit 3 of its type (R119). -/
def Desc.gateSize (d : Desc) : Size := if d.sysType.getLsbD 3 then .s32 else .s16
/-- The selector of a gate: bits 31:16 of the lower double word (R126, R580). -/
def Desc.gateSel (d : Desc) : Word16 := d.lo.extractLsb' 16 16
/-- The offset of a call, interrupt or trap gate; 16 bits of a 286 gate (R580; log entry 27). -/
def Desc.gateOff (d : Desc) : Word32 :=
  match d.gateSize with
  | .s16 => (d.lo.extractLsb' 0 16).setWidth 32
  | .s32 => d.hi.extractLsb' 16 16 ++ d.lo.extractLsb' 0 16
/-- The parameter count of a call gate: bits 4:0 of the upper double word (R490; log entry 27, PRESUMED). -/
def Desc.gateCount (d : Desc) : Nat := (d.hi.extractLsb' 0 5).toNat

/-- Read the two double words of a descriptor-table entry (R107, R115). -/
def readEntry (addr : Word32) : M Desc := do
  let lo ← sysRead32 addr
  let hi ← sysRead32 (addr + 4)
  pure ⟨lo, hi, addr⟩

/-- `ReadDescriptor(sel)`: the entry of GDT or LDT; outside the table the given exception (R116, R118). -/
def readDescriptor (sel : Word16) (outside : Exn) : M Desc := do
  let s ← get
  let index := 8 * (selIndex sel).toNat
  if selTi sel then
    if !s.ldtr.valid || s.ldtr.limit.toNat < index + 7 then raise outside
    else readEntry (s.ldtr.base + BitVec.ofNat 32 index)
  else
    if s.gdtr.limit.toNat < index + 7 then raise outside
    else readEntry (s.gdtr.base + BitVec.ofNat 32 index)

/-- Set A of a descriptor in its table when it is loaded (R118, R125). -/
def markAccessed (d : Desc) : M Unit :=
  if d.a then pure () else sysWrite (d.addr + 5) [d.hi.extractLsb' 8 8 ||| 1]

/-- The segment register a descriptor gives (R118). -/
def Desc.toSeg (d : Desc) (sel : Word16) : SegReg :=
  { sel := sel, base := d.base, limit := d.limit, valid := true, p := d.p, dpl := d.dpl, s := d.s,
    type := d.type, a := true, db := d.db }

/-- A segment register after a load in mode R or V (R111; log entry 43). -/
def SegReg.loadReal (g : SegReg) (sel : Word16) : SegReg :=
  { g with sel := sel, base := sel.setWidth 32 <<< 4, limit := 0xFFFF, valid := true }

/-- A segment register after the load of a null selector in mode P (R118). -/
def SegReg.loadNull (g : SegReg) (sel : Word16) : SegReg := { g with sel := sel, valid := false }

/-- Replace a segment register. -/
def putSeg (sr : SReg) (g : SegReg) : M Unit := modify fun s => s.setSeg sr g

/-- Load a segment register real-style (R111). -/
def loadSegReal (sr : SReg) (sel : Word16) : M Unit := do
  let s ← get
  putSeg sr ((s.segs.get sr).loadReal sel)

/-- Load SS for level `cpl` in mode P (R118): `bad` makes the exception of a failed check from its code. -/
def loadStackSeg (sel : Word16) (cpl : BitVec 2) (null : Exn) (bad : Word16 → Exn)
    (absent : Word16 → Exn) : M Unit := do
  if selNull sel then raise null
  else
    let d ← readDescriptor sel (bad (selCode sel))
    require (selRpl sel == cpl && d.dpl == cpl && d.writableData) (bad (selCode sel))
    require d.p (absent (selCode sel))
    markAccessed d
    putSeg .ss (d.toSeg sel)

/-- Load DS, ES, FS or GS in mode P (R118). -/
def loadDataSeg (sr : SReg) (sel : Word16) (cpl : BitVec 2) (bad : Word16 → Exn) (absent : Word16 → Exn) :
    M Unit := do
  if selNull sel then
    let s ← get
    putSeg sr ((s.segs.get sr).loadNull sel)
  else
    let d ← readDescriptor sel (bad (selCode sel))
    require d.loadable (bad (selCode sel))
    require (d.conforming || (decide (cpl ≤ d.dpl) && decide (selRpl sel ≤ d.dpl))) (bad (selCode sel))
    require d.p (absent (selCode sel))
    markAccessed d
    putSeg sr (d.toSeg sel)

/-- `LoadSeg(sreg, sel)` with the checks of the current mode (R111, R118). -/
def loadSeg (sr : SReg) (sel : Word16) : M Unit := do
  let s ← get
  match s.mode with
  | .prot =>
    if sr = .ss then loadStackSeg sel s.cpl (exnGP 0) exnGP exnSS
    else loadDataSeg sr sel s.cpl exnGP exnNP
  | _ => loadSegReal sr sel

/-- Load CS from a code descriptor with RPL = `cpl` (R490, R580). -/
def loadCodeSeg (d : Desc) (sel : Word16) (cpl : BitVec 2) : M Unit := do
  markAccessed d
  putSeg .cs (d.toSeg (selWithRpl sel cpl))
  modify fun s => { s with cpl := cpl }

end Sys2Proof.Machine
end

