-- ==== Sys2Proof/Machine/Task.lean ====
section
/-! DEFINITION. The task state segment and the task switch.
Rules: 10_state.md R44, R47, R53, R57, R58; 20_memory.md R126, R127, R136; 60_exceptions.md R561, R569, R596. -/

namespace Sys2Proof.Machine

/-- What causes a task switch (R596). -/
inductive TaskCause where
  | jmp | call | interrupt | iret
  deriving DecidableEq, Repr

/-- Raise what `m` raises in the new task: nothing is undone (R569). -/
def inNewTask {α : Type} (m : M α) : M α := fun s =>
  match m s with
  | .error (.exc e) s' => .error (.excNew e) s'
  | r => r

/-- The registers of a task as its TSS holds them (R127). -/
structure TssImage where
  ldt : Word16
  eflags : Word32
  eip : Word32
  regs : GRegs
  es : Word16
  cs : Word16
  ss : Word16
  ds : Word16
  fs : Word16
  gs : Word16
  deriving DecidableEq, Repr

/-- Load CR3 from a TSS while paging is on, which empties the TLB (R47, R136, R596). -/
def loadTaskCr3 (base : Word32) : M Unit := do
  let s ← get
  if s.paging then
    let v ← sysRead32 (base + 0x1C)
    modify fun s => s.withCr3 v

/-- Read the registers a TSS holds, in the order of R596 (R127). -/
def readTss (base : Word32) : M TssImage := do
  let ldt ← sysRead16 (base + 0x60)
  let eflags ← sysRead32 (base + 0x24)
  let eip ← sysRead32 (base + 0x20)
  let eax ← sysRead32 (base + 0x28)
  let ecx ← sysRead32 (base + 0x2C)
  let edx ← sysRead32 (base + 0x30)
  let ebx ← sysRead32 (base + 0x34)
  let esp ← sysRead32 (base + 0x38)
  let ebp ← sysRead32 (base + 0x3C)
  let esi ← sysRead32 (base + 0x40)
  let edi ← sysRead32 (base + 0x44)
  let es ← sysRead16 (base + 0x48)
  let cs ← sysRead16 (base + 0x4C)
  let ss ← sysRead16 (base + 0x50)
  let ds ← sysRead16 (base + 0x54)
  let fs ← sysRead16 (base + 0x58)
  let gs ← sysRead16 (base + 0x5C)
  pure { ldt, eflags, eip, regs := ⟨eax, ecx, edx, ebx, esp, ebp, esi, edi⟩, es, cs, ss, ds, fs, gs }

/-- Save the registers of the current task into its TSS, EFLAGS and EIP last (R127, R596). -/
def saveTss (ret eflags : Word32) : M Unit := do
  let s ← get
  let base := s.tr.base
  sysWrite32 (base + 0x28) s.regs.eax
  sysWrite32 (base + 0x2C) s.regs.ecx
  sysWrite32 (base + 0x30) s.regs.edx
  sysWrite32 (base + 0x34) s.regs.ebx
  sysWrite32 (base + 0x40) s.regs.esi
  sysWrite32 (base + 0x44) s.regs.edi
  sysWrite32 (base + 0x38) s.regs.esp
  sysWrite32 (base + 0x3C) s.regs.ebp
  sysWrite16 (base + 0x48) s.segs.es.sel
  sysWrite16 (base + 0x4C) s.segs.cs.sel
  sysWrite16 (base + 0x50) s.segs.ss.sel
  sysWrite16 (base + 0x54) s.segs.ds.sel
  sysWrite16 (base + 0x58) s.segs.fs.sel
  sysWrite16 (base + 0x5C) s.segs.gs.sel
  sysWrite32 (base + 0x24) eflags
  sysWrite32 (base + 0x20) ret

/-- Set or clear the busy bit of the TSS descriptor a selector names (R119, R596). -/
def setBusy (sel : Word16) (b : Bool) : M Unit := do
  let s ← get
  let addr := s.gdtr.base + BitVec.ofNat 32 (8 * (selIndex sel).toNat) + 5
  let bs ← sysRead addr 1
  let old : Byte := BitVec.ofNat 8 (leNat bs)
  sysWrite addr [if b then old ||| 2 else old &&& 0xFD]

/-- The privileged stack of a level in the current TSS, SS and then ESP; `ext` is the EXT bit of an error code
(R127, R490, R557, R580; log entries 33 and 44). -/
def tssStack (level : BitVec 2) (ext : Word16) : M (Word16 × Word32) := do
  let s ← get
  let at_ := 4 + 8 * level.toNat
  if !s.tr.valid || s.tr.limit.toNat < at_ + 7 then raise (exnTS (selCode s.tr.sel ||| ext))
  else
    let ss ← sysRead16 (s.tr.base + BitVec.ofNat 32 (at_ + 4))
    let esp ← sysRead32 (s.tr.base + BitVec.ofNat 32 at_)
    pure (ss, esp)

/-- Load LDTR in a task switch (R57, R596). A null selector leaves LDTR invalid and is no fault; a descriptor that
is no LDT or not present is #TS: DESIGN CHOICE, log entry 26. -/
def loadLdtr (sel ext : Word16) : M Unit := do
  if selNull sel then modify fun s => { s with ldtr := ⟨sel, 0, 0, false⟩ }
  else
    let bad := exnTS (selCode sel ||| ext)
    require (!selTi sel) bad
    let d ← readDescriptor sel bad
    require (d.isLdt && d.p) bad
    modify fun s => { s with ldtr := ⟨sel, d.base, d.limit, true⟩ }

/-- Load CS of a new task (R118, R596; log entry 26). -/
def loadTaskCode (sel ext : Word16) : M Unit := do
  let bad := exnTS (selCode sel ||| ext)
  require (!selNull sel) bad
  let d ← readDescriptor sel bad
  require (d.isCode && (if d.conforming then decide (d.dpl ≤ selRpl sel) else d.dpl == selRpl sel)) bad
  require d.p (exnNP (selCode sel ||| ext))
  markAccessed d
  putSeg .cs (d.toSeg sel)

/-- Load LDTR and load and check the segment registers of a new task (R596): real-style under VM, else CS,
SS and the data segments with #TS for a failed check. `ext` is the EXT bit of the error codes (R557; log
entry 33). -/
def loadTaskSegs (t : TssImage) (ext : Word16) : M Unit := do
  let ts := fun c => exnTS (c ||| ext)
  let np := fun c => exnNP (c ||| ext)
  let ss := fun c => exnSS (c ||| ext)
  loadLdtr t.ldt ext
  let s ← get
  if s.flags.vm then
    loadSegReal .cs t.cs
    loadSegReal .ss t.ss
    loadSegReal .ds t.ds
    loadSegReal .es t.es
    loadSegReal .fs t.fs
    loadSegReal .gs t.gs
  else
    loadTaskCode t.cs ext
    loadStackSeg t.ss s.cpl (ts (selCode t.ss)) ts ss
    loadDataSeg .ds t.ds s.cpl ts np
    loadDataSeg .es t.es s.cpl ts np
    loadDataSeg .fs t.fs s.cpl ts np
    loadDataSeg .gs t.gs s.cpl ts np

/-- The segment registers of a new task before they are checked: selectors only (R596). -/
def SegRegs.ofTss (g : SegRegs) (t : TssImage) : SegRegs where
  es := g.es.loadNull t.es
  cs := g.cs.loadNull t.cs
  ss := g.ss.loadNull t.ss
  ds := g.ds.loadNull t.ds
  fs := g.fs.loadNull t.fs
  gs := g.gs.loadNull t.gs

/-- DR7 after a task switch: L0 to L3 and LE cleared (R53, R596). -/
def dr7AfterSwitch (v : Word32) : Word32 := v &&& 0xFFFFFEAA

/-- TR names the new TSS, and CR0.TS is set (R44, R58, R596). -/
def State.enterTss (s : State) (sel : Word16) (d : Desc) : State :=
  { s with tr := ⟨sel, d.base, d.limit, true⟩, cr0 := s.cr0 ||| 8 }

/-- The commit of a task switch: LDTR's selector, EFLAGS, EIP, the general registers, the selectors, CPL and DR7
(R596; log entry 26). From here on an exception is one of the new task (R569). -/
def State.enterTask (s : State) (t : TssImage) (nested : Bool) : State :=
  let f := Flags.ofImage t.eflags
  { s.setEip t.eip with
    curEip := t.eip
    flags := { f with nt := f.nt || nested }
    rfKept := true
    regs := t.regs
    segs := SegRegs.ofTss s.segs t
    ldtr := ⟨t.ldt, 0, 0, false⟩
    cpl := if f.vm then 3 else selRpl t.cs
    dr := { s.dr with dr7 := dr7AfterSwitch s.dr.dr7 } }

/-- A debug trap with BT is pending if T of the TSS is 1 (R561, R596). -/
def noteTaskTrap (base : Word32) : M Unit := do
  let t ← sysRead16 (base + 0x64)
  if t.getLsbD 0 then modify fun s => { s with dbg := { s.dbg with bt := true } }

/-- The checks of `TaskSwitch`, in its order: the descriptor `sel` names is a TSS, present, long enough, for a JMP
or CALL that names it `direct`ly of sufficient privilege, and busy for IRET only; the current TSS can hold the
task (R596). A selector that is null, has TI = 1, lies outside the GDT or names no TSS is #GP(sel), for IRET
#TS(sel): DESIGN CHOICE, log entry 26. -/
def checkTask (cause : TaskCause) (direct : Bool) (sel ext : Word16) : M Desc := do
  let s ← get
  let code := selCode sel ||| ext
  let bad := if cause = .iret then exnTS code else exnGP code
  require (!selTi sel && !selNull sel) bad
  let d ← readDescriptor sel bad
  require d.isTss bad
  require d.p (exnNP code)
  require (decide (103 ≤ d.limit.toNat)) (exnTS code)
  require (!direct || (decide (s.cpl ≤ d.dpl) && decide (selRpl sel ≤ d.dpl))) (exnGP code)
  require (if cause = .iret then d.busy else !d.busy) bad
  require (s.tr.valid && decide (103 ≤ s.tr.limit.toNat)) (exnTS (selCode s.tr.sel ||| ext))
  pure d

/-- `TaskSwitch(cause, sel)` to the TSS a selector names (R596). `ret` is the EIP and `eflags` the image
to save; `ext` is the EXT bit of error codes (R557; log entry 33). -/
def taskSwitch (cause : TaskCause) (direct : Bool) (sel : Word16) (ret eflags : Word32) (ext : Word16) :
    M Unit := do
  let d ← checkTask cause direct sel ext
  let s ← get
  saveTss ret (if cause = .iret then eflags &&& 0xFFFFBFFF else eflags)
  onlyIf (cause == .jmp || cause == .iret) (setBusy s.tr.sel false)
  onlyIf (cause == .call || cause == .interrupt) (sysWrite16 d.base s.tr.sel)
  onlyIf (cause != .iret) (setBusy sel true)
  modify fun s => s.enterTss sel d
  loadTaskCr3 d.base
  let t ← readTss d.base
  modify fun s => s.enterTask t (cause = .call || cause = .interrupt)
  inNewTask do
    loadTaskSegs t ext
    noteTaskTrap d.base

/-- `TaskSwitch` of a far JMP or CALL whose selector names a TSS or a task gate, whose own privilege and presence
come first (R126, R596). -/
def taskTransfer (cause : TaskCause) (sel : Word16) (d : Desc) (ret : Word32) : M Unit := do
  let s ← get
  if d.isTaskGate then
    require (decide (s.cpl ≤ d.dpl) && decide (selRpl sel ≤ d.dpl)) (exnGP (selCode sel))
    require d.p (exnNP (selCode sel))
    taskSwitch cause false d.gateSel ret s.flags.image 0
  else taskSwitch cause true sel ret s.flags.image 0

end Sys2Proof.Machine
end

