-- ==== Sys2Proof/Machine/Far.lean ====
section
/-! DEFINITION. Near targets, intersegment transfers, call gates and the far return.
Rules: 44_control_transfer.md R470, R478 to R480, R490; 20_memory.md R127, R165; 10_state.md R25. -/

namespace Sys2Proof.Machine

/-- Assign EIP; the next instruction is fetched there (R25, R165). -/
def putEip (v : Word32) : M Unit := modify fun s => s.setEip v

/-- The checks of `NearJump(t)`: truncation by operand size, then the code-segment limit or 0xFFFF (R470). -/
def nearTarget (t : Word32) : M Word32 := do
  let s ← get
  let t := wrap s.osz t
  match s.mode with
  | .prot => require (decide (t ≤ s.segs.cs.limit)) (exnGP 0)
  | _ => require (decide (t ≤ 0xFFFF)) exn13
  pure t

/-- `NearJump(t)` (R470). -/
def nearJump (t : Word32) : M Unit := do
  let t ← nearTarget t
  putEip t

/-- A relative target: the next instruction plus a signed displacement (R187, R470). -/
def relative (disp : Word32) : M Word32 := do
  let s ← get
  pure (s.eip + disp)

/-- `FarTransfer` in modes R and V: CS and EIP only (R490). -/
def farReal (sel : Word16) (off : Word32) : M Unit := do
  let s ← get
  let off := wrap s.osz off
  require (decide (off ≤ 0xFFFF)) exn13
  loadSegReal .cs sel
  putEip off

/-- Push CS and the return EIP with operand size `z` (R479, R490). -/
def pushReturn (z : Size) (cs : Word16) (ret : Word32) : M Unit := do
  pushSelector z cs
  push z.width (ret.setWidth z.width.bits)

/-- Read `count` parameters of a call gate from the current stack, the one at (E)SP first (R490). The offset of a later
one is taken modulo the stack size, as (E)SP is: DESIGN CHOICE, log entry 27. -/
def readParams (w : Width) (sp : Word32) : Nat → M (List (BitVec w.bits))
  | 0 => pure []
  | n + 1 => do
    let s ← get
    let v ← memRead w .ss (wrap s.stackSize sp)
    let vs ← readParams w (sp + Width.off w) n
    pure (v :: vs)

/-- Push a list, its first item first. -/
def pushAll (w : Width) : List (BitVec w.bits) → M Unit
  | [] => pure ()
  | v :: vs => do
    push w v
    pushAll w vs

/-- The stack of a more privileged level: SS with its descriptor, and ESP (R490, R580). -/
structure InnerStack where
  desc : Desc
  sel : Word16
  esp : Word32
  deriving DecidableEq, Repr

/-- Read the stack of a level from the TSS and validate it: whatever check of R118 fails, an absent segment too, it
is #TS of its selector; `ext` is the EXT bit, which R580 does not print in this code (R490, R557, R580): PRESUMED, log
entry 33. -/
def innerStack (level : BitVec 2) (ext : Word16) : M InnerStack := do
  let st ← tssStack level ext
  let bad := exnTS (selCode st.1 ||| ext)
  require (!selNull st.1) bad
  let d ← readDescriptor st.1 bad
  require (selRpl st.1 == level && d.dpl == level && d.writableData && d.p) bad
  pure ⟨d, st.1, st.2⟩

/-- Go over to the stack of a more privileged level (R490, R580). Its descriptor is marked accessed when the frame
stands on it. The level changes before the frame is pushed, so that its pages are checked at the new level: DESIGN
CHOICE, log entry 28. -/
def State.onInnerStack (s : State) (level : BitVec 2) (k : InnerStack) : State :=
  { s with
    segs := s.segs.set .ss (k.desc.toSeg k.sel)
    cpl := level
    regs := s.regs.set .esp k.esp }

/-- The frame of a CALL through a gate to code `c`: on the stack of the TSS, with the old SS and (E)SP and the parameters
of the caller, if the code is inner; else the return address on the current stack (R490). The pushes on the inner stack
are made at its level, and a 386 gate pushes all 32 bits of the old ESP, from a stack with SS.B = 0 too: DESIGN CHOICE,
log entry 28. -/
def gateFrame (z : Size) (count : Nat) (c : Desc) : M Unit := do
  let s ← get
  if !c.conforming && decide (c.dpl < s.cpl) then
    let k ← innerStack c.dpl 0
    let params ← readParams z.width s.sp count
    modify fun s => s.onInnerStack c.dpl k
    pushSelector z s.segs.ss.sel
    push z.width (s.regs.esp.setWidth z.width.bits)
    pushAll z.width params.reverse
    pushReturn z s.segs.cs.sel s.eip
    markAccessed k.desc
  else pushReturn z s.segs.cs.sel s.eip

/-- `GateCall(kind, sel, g)` (R490). A gate with a null selector is #GP(0), and a JMP to a non-conforming segment
of another level is #GP of the gate's selector: DESIGN CHOICE, log entry 27. -/
def gateCall (call : Bool) (sel : Word16) (g : Desc) : M Unit := do
  let s ← get
  require (decide (s.cpl ≤ g.dpl) && decide (selRpl sel ≤ g.dpl)) (exnGP (selCode sel))
  require g.p (exnNP (selCode sel))
  let code := selCode g.gateSel
  require (!selNull g.gateSel) (exnGP code)
  let c ← readDescriptor g.gateSel (exnGP code)
  require (c.isCode && decide (c.dpl ≤ s.cpl)) (exnGP code)
  require c.p (exnNP code)
  require (call || c.dpl == s.cpl || c.conforming) (exnGP code)
  onlyIf call (gateFrame g.gateSize g.gateCount c)
  require (decide (g.gateOff ≤ c.limit)) (exnGP 0)
  loadCodeSeg c g.gateSel (if c.conforming then s.cpl else c.dpl)
  putEip g.gateOff

/-- `FarTransfer(kind, sel, off)` in mode P (R490). -/
def farProt (call : Bool) (sel : Word16) (off : Word32) : M Unit := do
  let s ← get
  require (!selNull sel) (exnGP 0)
  let d ← readDescriptor sel (exnGP (selCode sel))
  if d.isCode then
    require (if d.conforming then decide (d.dpl ≤ s.cpl)
      else decide (selRpl sel ≤ s.cpl) && d.dpl == s.cpl) (exnGP (selCode sel))
    require d.p (exnNP (selCode sel))
    require (decide (off ≤ d.limit)) (exnGP 0)
    onlyIf call (pushReturn s.osz s.segs.cs.sel s.eip)
    loadCodeSeg d sel s.cpl
    putEip off
  else if d.isCallGate then gateCall call sel d
  else if d.isTaskGate || d.isTss then taskTransfer (if call then .call else .jmp) sel d s.eip
  else raise (exnGP (selCode sel))

/-- A far JMP (R472, R490). -/
def farJump (sel : Word16) (off : Word32) : M Unit := do
  let s ← get
  match s.mode with
  | .prot => farProt false sel off
  | _ => farReal sel off

/-- A far CALL (R479, R490). -/
def farCall (sel : Word16) (off : Word32) : M Unit := do
  let s ← get
  match s.mode with
  | .prot => farProt true sel off
  | _ => do
    pushReturn s.osz s.segs.cs.sel s.eip
    farReal sel off

/-- Add a byte count to (E)SP, modulo its width (R480). -/
def releaseStack (n : Word16) : M Unit := do
  let s ← get
  putSp (s.sp + n.setWidth 32)

/-- Whether a segment register stays accessible at a lower privilege `cpl` (R490; log entry 28). -/
def SegReg.accessibleAt (g : SegReg) (cpl : BitVec 2) : Bool :=
  !g.valid || (g.isCode && g.type.getLsbD 1) || decide (cpl ≤ g.dpl)

/-- Load null into a data segment register that is not accessible at `cpl` (R490, R500). -/
def dropInaccessible (sr : SReg) (cpl : BitVec 2) : M Unit := do
  let s ← get
  let g := s.segs.get sr
  if g.accessibleAt cpl then pure () else putSeg sr (g.loadNull 0)

/-- The code descriptor a return may go to, with the DPL relation of CALL at the selector's own level
(R490; log entry 28). -/
def returnDescriptor (sel : Word16) : M Desc := do
  let s ← get
  require (!selNull sel) (exnGP 0)
  require (decide (s.cpl ≤ selRpl sel)) (exnGP (selCode sel))
  let d ← readDescriptor sel (exnGP (selCode sel))
  require (d.isCode && (if d.conforming then decide (d.dpl ≤ selRpl sel) else d.dpl == selRpl sel))
    (exnGP (selCode sel))
  require d.p (exnNP (selCode sel))
  pure d

/-- The part of a return that goes to less privilege: pop (E)SP and SS, release `n` more bytes, null the
data segments that are no longer accessible (R490, R500; log entry 28). -/
def returnOuter (z : Size) (rpl : BitVec 2) (n : Word16) : M Unit := do
  let newSp ← pop z.width
  let ss ← pop z.width
  let ss : Word16 := ss.setWidth 16
  loadStackSeg ss rpl (exnGP 0) exnGP exnSS
  modify fun s => { s with cpl := rpl, regs := s.regs.set .esp (newSp.setWidth 32 + n.setWidth 32) }
  dropInaccessible .ds rpl
  dropInaccessible .es rpl
  dropInaccessible .fs rpl
  dropInaccessible .gs rpl

/-- `FarReturn(iw)` in mode P (R490). -/
def farReturnProt (n : Word16) : M Unit := do
  let s ← get
  let z := s.osz
  let off ← pop z.width
  let off : Word32 := off.setWidth 32
  let sel ← pop z.width
  let sel : Word16 := sel.setWidth 16
  let d ← returnDescriptor sel
  releaseStack n
  onlyIf (decide (s.cpl < selRpl sel)) (returnOuter z (selRpl sel) n)
  require (decide (off ≤ d.limit)) (exnGP 0)
  loadCodeSeg d sel (selRpl sel)
  putEip off

/-- Far RET in modes R and V (R480). -/
def farReturnReal (n : Word16) : M Unit := do
  let s ← get
  let z := s.osz
  let off ← pop z.width
  let sel ← pop z.width
  let off : Word32 := off.setWidth 32
  require (decide (off ≤ 0xFFFF)) exn13
  loadSegReal .cs (sel.setWidth 16)
  putEip off
  releaseStack n

/-- Far RET, popping `n` bytes of parameters (R480, R490). -/
def farReturn (n : Word16) : M Unit := do
  let s ← get
  match s.mode with
  | .prot => farReturnProt n
  | _ => farReturnReal n

end Sys2Proof.Machine
end

