-- ==== Sys2Proof/Machine/Ops.lean ====
section
/-! DEFINITION. Taking an exception or interrupt, the return from one, and the frame around every
instruction. Rules: 60_exceptions.md R550 to R590; 44_control_transfer.md R495, R500; 10_state.md R25,
R38, R64; 20_memory.md R108; 92_eei_decisions.md D17. -/

namespace Sys2Proof.Machine

/-- What an event saves as CS:EIP: a fault the current instruction, any other the next one (R556, R570). -/
def State.returnEip (s : State) (kind : ExnKind) : Word32 :=
  match kind with
  | .fault => s.curEip
  | _ => s.eip

/-- The EFLAGS image an event saves: RF = 1 in that of a fault (R561; log entry 16). -/
def State.savedFlags (s : State) (kind : ExnKind) : Word32 :=
  match kind with
  | .fault => { s.flags with rf := true }.image
  | _ => s.flags.image

/-- Entry through entry `v` of the real-mode vector table (R570). -/
def enterReal (v : Byte) (kind : ExnKind) : M Unit := do
  let s ← get
  push .w16 (s.flags.pushImage.setWidth 16)
  push .w16 s.segs.cs.sel
  push .w16 ((s.returnEip kind).setWidth 16)
  modify fun s => s.setFlags { s.flags with ifl := false, tf := false }
  let off ← sysRead16 (BitVec.ofNat 32 (4 * v.toNat))
  let sel ← sysRead16 (BitVec.ofNat 32 (4 * v.toNat + 2))
  loadSegReal .cs sel
  putEip (off.setWidth 32)

/-- Whether entry `v` of the vector table lies beyond its limit (R567, R570). -/
def State.beyondVectors (s : State) (v : Byte) : Bool := decide (s.idtr.limit.toNat < 4 * v.toNat + 3)

/-- `Interrupt(v, kind)` in mode R: a vector beyond the table's limit is vector 8, and if that lies beyond
it too the processor shuts down (R567, R570; log entry 35). -/
def interruptReal (v : Byte) (kind : ExnKind) : M Unit := do
  let s ← get
  if !s.beyondVectors v then enterReal v kind
  else if !s.beyondVectors 8 then enterReal 8 .abort
  else throw .shutdown

/-- Push the registers of a V86 task on the level-0 stack and load the data segments with null (R580). -/
def leaveV86 (segs : SegRegs) : M Unit := do
  push .d32 (segs.gs.sel.setWidth 32)
  push .d32 (segs.fs.sel.setWidth 32)
  push .d32 (segs.ds.sel.setWidth 32)
  push .d32 (segs.es.sel.setWidth 32)
  putSeg .gs (segs.gs.loadNull 0)
  putSeg .fs (segs.fs.loadNull 0)
  putSeg .ds (segs.ds.loadNull 0)
  putSeg .es (segs.es.loadNull 0)

/-- Push an error code, if there is one (R557). -/
def pushCode (z : Size) (code : Option Word16) : M Unit :=
  match code with
  | some c => push z.width (c.setWidth z.width.bits)
  | none => pure ()

/-- Go over to the stack for a gate's frame of items of size `z` (R580): nothing for code of the same level; for inner
code the stack of the TSS, with the data selectors of a V86 task and then the old SS and (E)SP on it, pushed at the new
level, all 32 bits of ESP by a 386 gate (DESIGN CHOICE, log entry 28). A V86 task can only be interrupted to level 0,
else `bad`. `ext` is the EXT bit of the code of a bad inner stack (R557): PRESUMED, log entry 33. -/
def frameStack (z : Size) (c : Desc) (ext : Word16) (bad : Exn) : M Unit := do
  let s ← get
  if !c.conforming && decide (c.dpl < s.level) then
    let k ← innerStack c.dpl ext
    require (!s.flags.vm || c.dpl == 0) bad
    modify fun s => (s.setFlags { s.flags with vm := false }).onInnerStack c.dpl k
    onlyIf s.flags.vm (leaveV86 s.segs)
    pushSelector z s.segs.ss.sel
    push z.width (s.regs.esp.setWidth z.width.bits)
    markAccessed k.desc
  else require (!s.flags.vm) bad

/-- EFLAGS in the handler: TF, NT and VM cleared, and IF by an interrupt gate (R580). -/
def Flags.inHandler (f : Flags) (g : Desc) : Flags :=
  { f with
    tf := false
    nt := false
    vm := false
    ifl := if g.sysType.getLsbD 0 then f.ifl else false }

/-- Entry through an interrupt or trap gate (R580). A gate with a null selector is #GP(0 + EXT): DESIGN CHOICE, log
entry 27. The #GP of a V86 task that would not reach level 0, which R580 prints without EXT, has it by R557: PRESUMED,
log entry 33. -/
def enterGate (kind : ExnKind) (code : Option Word16) (g : Desc) (ext : Word16) : M Unit := do
  let s ← get
  let sel := g.gateSel
  let selC := selCode sel ||| ext
  require (!selNull sel) (exnGP selC)
  let c ← readDescriptor sel (exnGP selC)
  require (c.isCode && decide (c.dpl ≤ s.level)) (exnGP selC)
  require c.p (exnNP selC)
  let z := g.gateSize
  frameStack z c ext (exnGP selC)
  push z.width ((s.savedFlags kind).setWidth z.width.bits)
  pushReturn z s.segs.cs.sel (s.returnEip kind)
  pushCode z code
  modify fun s => s.setFlags (s.flags.inHandler g)
  require (decide (g.gateOff ≤ c.limit)) (exnGP 0)
  loadCodeSeg c sel (if c.conforming then s.level else c.dpl)
  putEip g.gateOff

/-- `Interrupt(v, kind, code)` in modes P and V (R580). -/
def interruptProt (v : Byte) (kind : ExnKind) (code : Option Word16) : M Unit := do
  let s ← get
  let ext : Word16 := if kind = .software then 0 else 1
  let idtCode : Word16 := BitVec.ofNat 16 (8 * v.toNat + 2)
  require (decide (8 * v.toNat + 7 ≤ s.idtr.limit.toNat)) (exnGP (idtCode ||| ext))
  let g ← readEntry (s.idtr.base + BitVec.ofNat 32 (8 * v.toNat))
  require (g.isTaskGate || g.isIntGate) (exnGP (idtCode ||| ext))
  require (kind != .software || decide (s.level ≤ g.dpl)) (exnGP idtCode)
  require g.p (exnNP (idtCode ||| ext))
  if g.isTaskGate then
    taskSwitch .interrupt false g.gateSel (s.returnEip kind) (s.savedFlags kind) ext
    inNewTask (pushCode .s32 code)
  else enterGate kind code g ext

/-- TAKING AN EXCEPTION OR INTERRUPT: `Interrupt(v, kind)` in every mode (R570, R580). -/
def interrupt (v : Byte) (kind : ExnKind) (code : Option Word16) : M Unit := do
  let s ← get
  match s.mode with
  | .real => interruptReal v kind
  | _ => interruptProt v kind code

/-- IRET in modes R and V (R500). -/
def iretReal : M Unit := do
  let s ← get
  let z := s.osz
  let off ← pop z.width
  let sel ← pop z.width
  let f ← pop z.width
  let off : Word32 := off.setWidth 32
  require (decide (off ≤ 0xFFFF)) exn13
  loadSegReal .cs (sel.setWidth 16)
  putEip off
  let v : Word32 := f.setWidth 32
  putFlags (if s.mode = .real then s.flags.iretReal z v else s.flags.iretV86 z v)

/-- IRET to a virtual-8086 task, after EIP, CS and EFLAGS are popped (R500). The six further items are popped in mode P,
with the stack size and the limit of SS and at level 0, before VM is set, and the popped offset is not checked, so that
one above 0xFFFF faults at the next fetch: DESIGN CHOICE, both in log entry 17. -/
def iretToV86 (off : Word32) (sel : Word16) (f : Word32) : M Unit := do
  let esp ← pop .d32
  let ss ← pop .d32
  let es ← pop .d32
  let ds ← pop .d32
  let fs ← pop .d32
  let gs ← pop .d32
  putFlags (Flags.ofImage f)
  loadSegReal .cs sel
  putEip off
  modify fun s => { s with regs := s.regs.set .esp esp, cpl := 3 }
  loadSegReal .ss (ss.setWidth 16)
  loadSegReal .es (es.setWidth 16)
  loadSegReal .ds (ds.setWidth 16)
  loadSegReal .fs (fs.setWidth 16)
  loadSegReal .gs (gs.setWidth 16)

/-- IRET within a task in mode P (R500). -/
def iretProt : M Unit := do
  let s ← get
  let z := s.osz
  let off ← pop z.width
  let sel ← pop z.width
  let f ← pop z.width
  let off : Word32 := off.setWidth 32
  let sel : Word16 := sel.setWidth 16
  let f : Word32 := f.setWidth 32
  if z = .s32 && f.getLsbD 17 && s.cpl == 0 then iretToV86 off sel f
  else
    let d ← returnDescriptor sel
    putFlags (s.flags.iretProt z s.cpl f)
    onlyIf (decide (s.cpl < selRpl sel)) (returnOuter z (selRpl sel) 0)
    require (decide (off ≤ d.limit)) (exnGP 0)
    loadCodeSeg d sel (selRpl sel)
    putEip off

/-- IRET with NT = 1 in mode P: back through the back link of the current TSS (R500, R596). -/
def iretTask : M Unit := do
  let s ← get
  require s.tr.valid (exnTS (selCode s.tr.sel))
  let link ← sysRead16 s.tr.base
  taskSwitch .iret false link s.eip s.flags.image 0

/-- THE RETURN FROM AN EXCEPTION: IRET in every mode; NMI masking ends, and an RF that was loaded stays (R500, R561,
R575; log entries 16 and 17). An IRET whose task switch commits and then faults in the new task leaves NMI masked (R63,
R569): DESIGN CHOICE, log entry 17. -/
def interruptReturn : M Unit := do
  let s ← get
  match s.mode with
  | .real => iretReal
  | .v86 => do
    require (s.flags.iopl == 3) (exnGP 0)
    iretReal
  | .prot => if s.flags.nt then iretTask else iretProt
  modify fun t => { t with nmiMask := false, rfKept := t.rfKept || decide (s.osz = .s32) }

/-- The contributory exceptions 0, 10, 11, 12, 13 (R567). -/
def contributory (v : Byte) : Bool := v == 0 || v == 10 || v == 11 || v == 12 || v == 13

/-- Whether an exception met while delivering another makes a double fault (R567; log entry 34). -/
def doubleFault (first second : Exn) : Bool :=
  first.kind == .fault &&
    ((contributory first.vector && contributory second.vector) ||
      (first.vector == 14 && (contributory second.vector || second.vector == 14)))

/-- What an undone instruction leaves: the state before it, with the A and D bits it set and the TLB it
filled (R556, D17; log entry 12). Where a CR3 that was loaded is taken back, the TLB is empty (R136). -/
def undo (before reached : State) : State :=
  { before with
    tlb := if reached.cr3 = before.cr3 then reached.tlb else []
    adMarks := reached.adMarks
    mem := reached.adMarks.foldl orByte before.mem }

/-- CR2 and DR6 receive what an exception reports (R561, R568). -/
def report (e : Exn) (s : State) : State :=
  { s with
    cr2 := e.cr2.getD s.cr2
    dr := { s.dr with dr6 := s.dr.dr6 ||| e.dr6 } }

/-- Forget the bookkeeping of an instruction. -/
def State.settled (s : State) : State := { s with pfx := Pfx.none, rfKept := false, adMarks := [] }

/-- The exception delivered when `second` is met while `first` is delivered: a double fault, which keeps the linear
address of a second page fault for CR2 (R131, R567; log entry 34). -/
def nextFault (first second : Exn) : Exn :=
  if doubleFault first second then { exnDF with cr2 := second.cr2 } else second

/-- A fault while delivering a double fault shuts the processor down (R567, R590). -/
def faultShutdown (second : Exn) (s : State) : State :=
  { (report { second with dr6 := 0 } s).settled with shutdown := true }

/-- Deliver an exception or external interrupt; an exception met on the way is delivered in its turn, as a
double fault, or shuts the processor down: from the state in which the first began, or from the one reached when a
task gate has already switched to a new task (R556, R567, R569, R580, R590; log entry 34). -/
def deliverWithin : Nat → Exn → State → State
  | 0, _, s => { s.settled with shutdown := true }
  | n + 1, e, s0 =>
    let s := report e s0
    match interrupt e.vector e.kind e.code s with
    | .ok _ s' => s'.settled
    | .error .shutdown s' => { s'.settled with shutdown := true }
    | .error .waiting s' => s'.settled
    | .error (.excNew e2) s' =>
      if e.kind = .abort then faultShutdown e2 s' else deliverWithin n (nextFault e e2) s'
    | .error (.exc e2) s' =>
      if e.kind = .abort then faultShutdown e2 s else deliverWithin n (nextFault e e2) (undo s s')

/-- The bound on nested deliveries, more than can occur: an event that is no fault of R567's kinds, a contributory
fault, a page fault, a double fault (log entry 34). -/
def deliverFuel : Nat := 8

/-- Deliver an exception or external interrupt (R556, R559). -/
def deliver (e : Exn) (s : State) : State := deliverWithin deliverFuel e s

/-- The state an instruction that was begun in `before` and ran to its end in `s` leaves: RF is cleared, unless the
instruction loaded it, and a single-step trap is pending if TF was 1 (R35, R38, R559, R561; log entry 16). -/
def finished (before s : State) : State :=
  { s.settled with
    flags := { s.flags with rf := s.rfKept && s.flags.rf }
    dbg := { s.dbg with bs := s.dbg.bs || before.flags.tf } }

/-- The state after an instruction, by how it ended (R556, R559). -/
def conclude (before : State) : EStateM.Result Stop State Unit → State
  | .ok _ s => finished before s
  | .error (.exc e) s => deliver e (undo before s)
  | .error (.excNew e) s => deliver e s
  | .error .shutdown s => { s.settled with shutdown := true }
  | .error .waiting s => s.settled.setEip s.curEip

/-- A LOCK prefix, if there is one, stands before an instruction that may take it and, in mode P, at a level
that may use it (R108, R530). -/
def State.lockOk (s : State) (lockable : Bool) : Prop :=
  s.pfx.lock = true → lockable = true ∧ (s.mode = .prot → s.cpl ≤ s.flags.iopl)

/-- LOCK before an instruction that may not take it is exception 6; in mode P it needs CPL ≤ IOPL
(R108, R530). -/
def checkLock (lockable : Bool) : M Unit := do
  let s ← get
  if s.pfx.lock then
    require lockable exnUD
    require (s.mode != .prot || decide (s.cpl ≤ s.flags.iopl)) (exnGP 0)

/-- The state in which an instruction begins: it has not loaded RF yet (R559; log entry 16). -/
def State.begun (s : State) : State := { s with rfKept := false }

/-- Run the actions of one instruction from a state whose EIP is past it (R559). -/
def runInstr (lockable : Bool) (m : M Unit) (s : State) : Host.Outcome State Fault Refusal :=
  .next (conclude s ((do checkLock lockable; m) s.begun))

end Sys2Proof.Machine
end

