-- ==== Sys2Proof/Machine/Operands.lean ====
section
/-! DEFINITION. Effective addresses and the register-or-memory operand.
Rules: 30_encoding.md R174, R176, R180 to R188; 20_memory.md R121, R141. -/

namespace Sys2Proof.Machine

/-- A 16-bit register. -/
def reg16 (g : GRegs) (r : Reg) : Word16 := (g.get r).extractLsb' 0 16

/-- The base and index of a 16-bit form (R182). -/
def base16 (g : GRegs) : Base16 → Word16
  | .bxSi => reg16 g .ebx + reg16 g .esi
  | .bxDi => reg16 g .ebx + reg16 g .edi
  | .bpSi => reg16 g .ebp + reg16 g .esi
  | .bpDi => reg16 g .ebp + reg16 g .edi
  | .si => reg16 g .esi
  | .di => reg16 g .edi
  | .bp => reg16 g .ebp
  | .bx => reg16 g .ebx

/-- A 16-bit displacement, `d8` sign-extended (R182). -/
def disp16 : Disp16 → Word16
  | .none => 0
  | .d8 d => d.signExtend 16
  | .d16 d => d

/-- A 32-bit displacement, `d8` sign-extended (R184). -/
def disp32 : Disp32 → Word32
  | .none => 0
  | .d8 d => d.signExtend 32
  | .d32 d => d

/-- A register that may be absent, as a term of the sum (R185). -/
def optReg (g : GRegs) : Option Reg → Word32
  | none => 0
  | some r => g.get r

/-- `EA`: the offset of a memory operand, modulo 2^16 or 2^32 (R183). -/
def eaOffset (g : GRegs) : EA → Word32
  | .m16 b d => (base16 g b + disp16 d).setWidth 32
  | .dir16 d => d.setWidth 32
  | .m32 b d => g.get b + disp32 d
  | .dir32 d => d
  | .sib s i b d => optReg g b + (optReg g i <<< s.toNat) + disp32 d

/-- The default segment of a memory operand: SS for a base (E)BP or ESP, else DS (R174, R182, R184). -/
def eaSeg : EA → SReg
  | .m16 .bpSi _ | .m16 .bpDi _ | .m16 .bp _ => .ss
  | .m32 .ebp _ | .m32 .esp _ => .ss
  | .sib _ _ (some .ebp) _ | .sib _ _ (some .esp) _ => .ss
  | _ => .ds

/-- The segment of a reference after a segment-override prefix (R174). -/
def State.segOr (s : State) (dflt : SReg) : SReg := s.pfx.seg.getD dflt

/-- Where an operand lies: a register, or the physical addresses of its bytes. -/
inductive Loc where
  | reg (r : Reg)
  | mem (ps : List Word32)
  deriving DecidableEq, Repr

/-- Translate a memory operand once, for the kind of access the instruction makes (R121, R181). -/
def locateMem (w : Width) (kind : Access) (m : EA) : M (List Word32) := do
  let s ← get
  translate kind (s.segOr (eaSeg m)) (eaOffset s.regs m) w.bytes

/-- Locate an r/m operand (R181). -/
def locate (w : Width) (kind : Access) (rm : RM) : M Loc :=
  match rm with
  | .reg r => pure (.reg r)
  | .mem m => do
    let ps ← locateMem w kind m
    pure (.mem ps)

/-- The value of width `w` a location holds (R101, R181). -/
def State.valueAt (s : State) (w : Width) : Loc → BitVec w.bits
  | .reg r => readReg w s.regs r
  | .mem ps => valueOf w (readPhys s.mem ps)

/-- The state with a value stored at a location (R101, R181). -/
def State.storeAt (s : State) (w : Width) (l : Loc) (v : BitVec w.bits) : State :=
  match l with
  | .reg r => { s with regs := writeReg w s.regs r v }
  | .mem ps => s.setMem (writePhys s.mem ps (leBytes w.bytes v))

/-- Read the value at a location. -/
def readLoc (w : Width) (l : Loc) : M (BitVec w.bits) := do
  let s ← get
  pure (s.valueAt w l)

/-- Store at a location. -/
def writeLoc (w : Width) (l : Loc) (v : BitVec w.bits) : M Unit := modify fun s => s.storeAt w l v

/-- `ReadRM(n)` (R181). -/
def readRM (w : Width) (rm : RM) : M (BitVec w.bits) := do
  let l ← locate w .read rm
  readLoc w l

/-- `WriteRM(n, v)` (R181). -/
def writeRM (w : Width) (rm : RM) (v : BitVec w.bits) : M Unit := do
  let l ← locate w .write rm
  writeLoc w l v

/-- Whether an r/m operand is memory: a LOCK prefix is then allowed before the instructions of its list
(R108, R530). -/
def RMisMem : RM → Bool
  | .reg _ => false
  | .mem _ => true

/-- `MemRead` of a ModRM memory operand, `delta` bytes past its effective address (R287, R510). The sum is taken modulo
2^32 and is not wrapped at 2^16 under 16-bit addressing: DESIGN CHOICE, log entry 55. -/
def readEA (w : Width) (m : EA) (delta : Word32) : M (BitVec w.bits) := do
  let s ← get
  memRead w (s.segOr (eaSeg m)) (eaOffset s.regs m + delta)

end Sys2Proof.Machine
end

