-- ==== Sys2Proof/Machine/Boundary.lean ====
section
/-! DEFINITION. What happens at an instruction boundary: RESET, debug traps, NMI, INTR, halt, fetch and
decode. Rules: 60_exceptions.md R558, R559, R561, R575, R590; 20_memory.md R122, R165; 30_encoding.md R173,
R195; 70_reset_and_hazards.md R640; 92_eei_decisions.md D11, D18, D30. -/

namespace Sys2Proof.Machine

/-- The machine after the RESET line is sampled: memory, the lines and the counters of the environment keep
their values (R640; log entry 11). -/
def afterReset (s : State) : State :=
  { State.reset with
    lines := s.lines
    ioReads := s.ioReads
    ioOut := s.ioOut
    free := s.free
    mem := s.mem }

/-- Whether a debug trap is pending (R67, R559). -/
def DebugCauses.any (d : DebugCauses) : Bool := d.bs || d.bt || d.b0 || d.b1 || d.b2 || d.b3

/-- The DR6 bits of the causes (R52). -/
def DebugCauses.dr6 (d : DebugCauses) : Word32 :=
  bit 32 0 d.b0 ||| bit 32 1 d.b1 ||| bit 32 2 d.b2 ||| bit 32 3 d.b3 ||| bit 32 14 d.bs ||| bit 32 15 d.bt

/-- Exception 1 as a trap (R561). -/
def debugTrap (d : DebugCauses) : Exn := ⟨1, .trap, none, none, d.dr6⟩

/-- An external interrupt (R575). -/
def external (v : Byte) : Exn := ⟨v, .external, none, none, 0⟩

/-- The vector INTR offers, while IF = 1 (R559, R575). -/
def intrVector (s : State) : Option Byte := if s.flags.ifl then s.lines.intr.head? else none

/-- The state in which an accepted INTR is delivered: its vector is taken from the interrupt controller and
the processor is no longer halted (R559, R575). -/
def acceptIntr (s : State) : State :=
  { s with lines := { s.lines with intr := s.lines.intr.tail }, halted := false }

/-- The state in which an accepted NMI is delivered (R559, R575). -/
def acceptNmi (s : State) : State := { s with nmiPending := false, nmiMask := true, halted := false }

/-- The physical address of byte `k` of the current instruction, without any effect: `Fetch(k)`'s
translation (R122, D18). An offset beyond 0xFFFFFFFF is a limit violation, whether the instruction runs into it or
begins there (R25, D11; log entry 51). -/
def fetchAddr (s : State) (k : Nat) : Except Exn Word32 :=
  if s.eipPast || decide (2 ^ 32 ≤ s.eip.toNat + k) then .error (segFault s.mode .cs)
  else
    match linear s .exec .cs (s.eip + BitVec.ofNat 32 k) 1 with
    | .error e => .error e
    | .ok lin =>
      match pageLookup s .exec s.user lin with
      | .error e => .error e
      | .ok h => .ok h.phys

/-- The next bytes at CS:EIP, at most `n` from the `k`-th, and the fault that ended them, if any (R122,
D18). -/
def fetchBytes (s : State) : Nat → Nat → List Byte × Option Exn
  | 0, _ => ([], none)
  | n + 1, k =>
    match fetchAddr s k with
    | .error e => ([], some e)
    | .ok p =>
      let r := fetchBytes s n (k + 1)
      (Memory.read s.mem p.toNat :: r.1, r.2)

/-- Fetch `n` bytes for their effects on page entries and the TLB (R122, R129; log entry 49). -/
def touchCode (n : Nat) : M Unit := do
  let s ← get
  let _ ← pages .exec s.user (s.segs.cs.base + s.eip) n

/-- The instruction breakpoints that match, by their DR6 bits (R561). -/
def execBreaks (s : State) : Word32 :=
  let lin := s.segs.cs.base + s.eip
  bit 32 0 (s.dr.execMatch 0 lin) ||| bit 32 1 (s.dr.execMatch 1 lin) |||
    bit 32 2 (s.dr.execMatch 2 lin) ||| bit 32 3 (s.dr.execMatch 3 lin)

/-- What a boundary leads to: a next state, or an instruction to run with its prefixes. -/
inductive Boundary where
  | done (s : State)
  | run (pre : List Instr) (i : Instr) (s : State)

/-- Deliver a fault of the instruction at CS:EIP before it runs, after fetching `n` of its bytes (R558). -/
def fetchFault (e : Exn) (n : Nat) (s : State) : State :=
  match touchCode n s with
  | .ok _ s' => deliver e s'
  | .error (.exc e') s' => deliver e' s'
  | .error _ s' => deliver e s'

/-- EIP advanced over the `n` bytes of an instruction (R25, D11; log entry 51). -/
def State.stepOver (s : State) (n : Nat) : State :=
  { s with eip := s.eip + BitVec.ofNat 32 n, eipPast := decide (2 ^ 32 ≤ s.eip.toNat + n) }

/-- Fetch and decode the instruction at CS:EIP; one longer than 15 bytes is exception 13 with the code 0, which mode R
does not push (R122, R173, R195, R557, R558, R559, R573). The code is pushed in mode V too, where R173 names it for mode
P only: DEDUCED, log entry 18. -/
def fetchDecode (s : State) : Boundary :=
  if !s.flags.rf && execBreaks s != 0 then .done (deliver ⟨1, .fault, none, none, execBreaks s⟩ s)
  else
    let w := fetchBytes s maxLength 0
    match decode s.defaultSize w.1 with
    | .invalid n => .done (fetchFault exnUD n s)
    | .more => .done (fetchFault (w.2.getD (exnGP 0)) w.1.length s)
    | .ok pre i n =>
      match touchCode n s with
      | .ok _ s' => .run pre i (s'.stepOver n)
      | .error (.exc e) s' => .done (deliver e s')
      | .error _ s' => .done s'

/-- The state in which the boundary's events are handled: the shadow is used up, and the current instruction
is the one at EIP (R559, R64). -/
def atBoundary (s : State) : State := { s with inhibit := false, curEip := s.eip }

/-- One instruction boundary, up to the instruction it begins (R559). The shadow of STI holds off NMI and debug traps
too, as that of a load of SS does (R559, R575; R64 says so of a load of SS only): DEDUCED, log entry 56. -/
def boundary (s : State) : Boundary :=
  if s.lines.reset then .done (afterReset s)
  else if s.shutdown then .done s
  else if s.dbg.any && !s.inhibit then .done (deliver (debugTrap s.dbg) { atBoundary s with dbg := DebugCauses.none })
  else
    let s1 := atBoundary s
    if !s.inhibit && s.nmiPending && !s.nmiMask then .done (deliver (external 2) (acceptNmi s1))
    else
      match (if s.inhibit then none else intrVector s1) with
      | some v => .done (deliver (external v) (acceptIntr s1))
      | none => if s.halted then .done s1 else fetchDecode s1

/-- Store bytes where the instruction at CS:EIP is fetched, the `k`-th byte first (R122; log entry 15). -/
def placeCode (s : State) : List Byte → Nat → State
  | [], _ => s
  | b :: bs, k =>
    match fetchAddr s k with
    | .ok p => placeCode (s.setMem (Memory.write s.mem p.toNat b)) bs (k + 1)
    | .error _ => s

end Sys2Proof.Machine
end

