-- ==== Sys2Proof/Machine/Arith.lean ====
section
/-! DEFINITION. Binary and decimal arithmetic, and the two-operand forms of the logic instructions.
Rules: 41_arithmetic.md R310 to R333; 42_logic_shift_bit.md R360 to R363. -/

namespace Sys2Proof.Machine

/-- The access a destination needs: reading only when the result is discarded (R319, R324). -/
def AluOp.access (op : AluOp) : Access := if op.writes then .write else .read

/-- `ALU2(f)` with an r/m destination and a given source (R319). -/
def aluRm (op : AluOp) (w : Width) (rm : RM) (b : BitVec w.bits) : M Unit := do
  let l ← locate w op.access rm
  let a ← readLoc w l
  let f ← getFlags
  putFlags (aluFlags op a b f)
  if op.writes then writeLoc w l (aluResult op a b f)

/-- `ALU2(f)` with a register source (R319). -/
def aluRmReg (op : AluOp) (w : Width) (rm : RM) (r : Reg) : M Unit := do
  let b ← getReg w r
  aluRm op w rm b

/-- `ALU2(f)` with a register destination and a given source (R319). -/
def aluReg (op : AluOp) (w : Width) (r : Reg) (b : BitVec w.bits) : M Unit := do
  let a ← getReg w r
  let f ← getFlags
  putFlags (aluFlags op a b f)
  if op.writes then putReg w r (aluResult op a b f)

/-- `ALU2(f)` with a register destination and an r/m source (R319). -/
def aluRegRm (op : AluOp) (w : Width) (r : Reg) (rm : RM) : M Unit := do
  let b ← readRM w rm
  aluReg op w r b

/-- INC, DEC, NEG or NOT of an r/m operand (R325 to R327, R364). -/
def unRm (op : UnOp) (w : Width) (rm : RM) : M Unit := do
  let l ← locate w .write rm
  let a ← readLoc w l
  let f ← getFlags
  putFlags (unFlags op a f)
  writeLoc w l (unResult op a)

/-- INC or DEC of a register named in the opcode (R325, R326). -/
def unReg (op : UnOp) (w : Width) (r : Reg) : M Unit := unRm op w (.reg r)

/-- TEST: AND whose result is discarded (R365). -/
def testRm (w : Width) (rm : RM) (b : BitVec w.bits) : M Unit := do
  let a ← readRM w rm
  let f ← getFlags
  putFlags (logicFlags (a &&& b) f)

/-- TEST with a register source (R365). -/
def testRmReg (w : Width) (rm : RM) (r : Reg) : M Unit := do
  let b ← getReg w r
  testRm w rm b

/-- The register of the upper half of a product or dividend, and of the remainder: AH, DX or EDX
(R330, R332). -/
def hiReg (w : Width) : Reg :=
  match w with
  | .b8 => .ah
  | _ => .edx

/-- CF and OF from `lost`; SF, ZF, AF, PF free (R330, R331). -/
def putMulFlags (lost : Bool) : M Unit := do
  let sf ← freeFlag
  let zf ← freeFlag
  let af ← freeFlag
  let pf ← freeFlag
  let f ← getFlags
  putFlags (mulFlags lost sf zf af pf f)

/-- MUL (R330). -/
def mulAcc (w : Width) (rm : RM) : M Unit := do
  let b ← readRM w rm
  let a ← getReg w .eax
  let p := a.toNat * b.toNat
  putReg w .eax (BitVec.ofNat w.bits p)
  putReg w (hiReg w) (BitVec.ofNat w.bits (p / 2 ^ w.bits))
  putMulFlags (decide (2 ^ w.bits ≤ p))

/-- One-operand IMUL (R331). -/
def imulAcc (w : Width) (rm : RM) : M Unit := do
  let b ← readRM w rm
  let a ← getReg w .eax
  let p := a.toInt * b.toInt
  putReg w .eax (BitVec.ofInt w.bits p)
  putReg w (hiReg w) (BitVec.ofInt w.bits (p / 2 ^ w.bits))
  putMulFlags (p != (BitVec.ofInt w.bits p).toInt)

/-- Two- and three-operand IMUL: the low half of a signed product (R331). -/
def imulReg (w : Width) (r : Reg) (a b : BitVec w.bits) : M Unit := do
  let p := a.toInt * b.toInt
  putReg w r (BitVec.ofInt w.bits p)
  putMulFlags (p != (BitVec.ofInt w.bits p).toInt)

/-- IMUL r,r/m (R331). -/
def imulRegRm (w : Width) (r : Reg) (rm : RM) : M Unit := do
  let b ← readRM w rm
  let a ← getReg w r
  imulReg w r a b

/-- IMUL r,r/m,imm (R331). -/
def imulRegRmImm (w : Width) (r : Reg) (rm : RM) (imm : BitVec w.bits) : M Unit := do
  let a ← readRM w rm
  imulReg w r a imm

/-- Store a quotient and a remainder (R332, R333). -/
def putQuotient (w : Width) (q r : BitVec w.bits) : M Unit := do
  putReg w .eax q
  putReg w (hiReg w) r

/-- DIV; no flag changes (R332; log entry 37). -/
def divAcc (w : Width) (rm : RM) : M Unit := do
  let d ← readRM w rm
  let lo ← getReg w .eax
  let hi ← getReg w (hiReg w)
  let n := hi.toNat * 2 ^ w.bits + lo.toNat
  require (d != 0) exnDE
  require (decide (n / d.toNat < 2 ^ w.bits)) exnDE
  putQuotient w (BitVec.ofNat w.bits (n / d.toNat)) (BitVec.ofNat w.bits (n % d.toNat))

/-- IDIV: the quotient truncated towards zero, the remainder with the sign of the dividend; no flag changes
(R333; log entry 37). -/
def idivAcc (w : Width) (rm : RM) : M Unit := do
  let d ← readRM w rm
  let lo ← getReg w .eax
  let hi ← getReg w (hiReg w)
  let n : Int := hi.toInt * 2 ^ w.bits + lo.toNat
  require (d != 0) exnDE
  let q := Int.tdiv n d.toInt
  let r := Int.tmod n d.toInt
  require (decide (-2 ^ (w.bits - 1) ≤ q) && decide (q < 2 ^ (w.bits - 1))) exnDE
  putQuotient w (BitVec.ofInt w.bits q) (BitVec.ofInt w.bits r)

/-- The condition of the first adjustment: AL[3:0] > 9 or AF = 1 (R313, R316 to R318). -/
def adjustLow (al : Byte) (f : Flags) : Bool := decide (9 < al.toNat % 16) || f.af

/-- AAA with `delta` = 6 and `step` = 1, AAS with their negatives; OF, SF, ZF, PF free (R313, R316). -/
def asciiAdjust (delta step : Byte) : M Unit := do
  let s ← get
  let al : Byte := readReg .b8 s.regs .al
  let ah : Byte := readReg .b8 s.regs .ah
  let c := adjustLow al s.flags
  putReg .b8 .al ((if c then al + delta else al) &&& 0x0F)
  putReg .b8 .ah (if c then ah + step else ah)
  let o ← freeFlag
  let sf ← freeFlag
  let zf ← freeFlag
  let pf ← freeFlag
  putFlags { s.flags with af := c, cf := c, of := o, sf := sf, zf := zf, pf := pf }

/-- SF, ZF, PF from AL; OF, AF, CF free (R314, R315). -/
def putAlFlags (al : Byte) : M Unit := do
  let o ← freeFlag
  let af ← freeFlag
  let cf ← freeFlag
  let f ← getFlags
  putFlags (szp al { f with of := o, af := af, cf := cf })

/-- AAD with its second byte as the base (R314, U41; log entry 19). -/
def asciiBeforeDiv (base : Byte) : M Unit := do
  let s ← get
  let ah : Byte := readReg .b8 s.regs .ah
  let al : Byte := readReg .b8 s.regs .al + base * ah
  putReg .b8 .al al
  putReg .b8 .ah 0
  putAlFlags al

/-- AAM with its second byte as the base; base 0 is exception 0 (R315, R560, U41; log entry 19). -/
def asciiAfterMul (base : Byte) : M Unit := do
  let s ← get
  let t : Byte := readReg .b8 s.regs .al
  require (base != 0) exnDE
  let al : Byte := BitVec.ofNat 8 (t.toNat % base.toNat)
  putReg .b8 .ah (BitVec.ofNat 8 (t.toNat / base.toNat))
  putReg .b8 .al al
  putAlFlags al

/-- DAA with `low` = 6 and `high` = 0x60, DAS with their negatives; OF free (R317, R318). -/
def decimalAdjust (low high : Byte) : M Unit := do
  let s ← get
  let al : Byte := readReg .b8 s.regs .al
  let c1 := adjustLow al s.flags
  let al1 := if c1 then al + low else al
  let c2 := decide (0x9F < al1.toNat) || s.flags.cf
  let al2 := if c2 then al1 + high else al1
  putReg .b8 .al al2
  let o ← freeFlag
  putFlags (szp al2 { s.flags with af := c1, cf := c2, of := o })

/-- AAA, `37` (R313). -/
def execAaa (s : State) : Host.Outcome State Fault Refusal :=
  runInstr false (asciiAdjust 6 1) s

/-- AAD, `D5 0A` (R314). -/
def execAad (base : Byte) (s : State) : Host.Outcome State Fault Refusal :=
  runInstr false (asciiBeforeDiv base) s

/-- AAM, `D4 0A` (R315). -/
def execAam (base : Byte) (s : State) : Host.Outcome State Fault Refusal :=
  runInstr false (asciiAfterMul base) s

/-- AAS, `3F` (R316). -/
def execAas (s : State) : Host.Outcome State Fault Refusal :=
  runInstr false (asciiAdjust (-6) (-1)) s

/-- DAA, `27` (R317). -/
def execDaa (s : State) : Host.Outcome State Fault Refusal :=
  runInstr false (decimalAdjust 6 0x60) s

/-- DAS, `2F` (R318). -/
def execDas (s : State) : Host.Outcome State Fault Refusal :=
  runInstr false (decimalAdjust (-6) (-0x60)) s

/-- ADD r/mb,rb, `00 [r]` (R320). -/
def execAddRmbRb (rm : RM) (r : Reg) (s : State) : Host.Outcome State Fault Refusal :=
  runInstr (RMisMem rm) (aluRmReg .add .b8 rm r) s

/-- ADD r/mw,rw / r/md,rd, `01 [r]` (R320). -/
def execAddRmvRv (rm : RM) (r : Reg) (s : State) : Host.Outcome State Fault Refusal :=
  runInstr (RMisMem rm) (aluRmReg .add s.osz.width rm r) s

/-- ADD rb,r/mb, `02 [r]` (R320). -/
def execAddRbRmb (r : Reg) (rm : RM) (s : State) : Host.Outcome State Fault Refusal :=
  runInstr false (aluRegRm .add .b8 r rm) s

/-- ADD rw,r/mw / rd,r/md, `03 [r]` (R320). -/
def execAddRvRmv (r : Reg) (rm : RM) (s : State) : Host.Outcome State Fault Refusal :=
  runInstr false (aluRegRm .add s.osz.width r rm) s

/-- ADD AL,ib, `04 ib` (R320). -/
def execAddAlIb (imm : Byte) (s : State) : Host.Outcome State Fault Refusal :=
  runInstr false (aluReg .add .b8 .eax imm) s

/-- ADD AX,iw / EAX,id, `05 iw/id` (R320). -/
def execAddAxIv (imm : Sized) (s : State) : Host.Outcome State Fault Refusal :=
  runInstr false (aluReg .add s.osz.width .eax (Sized.at _ imm)) s

/-- ADD r/mb,ib, `80 [0] ib` (R320). -/
def execAddRmbIb (rm : RM) (imm : Byte) (s : State) : Host.Outcome State Fault Refusal :=
  runInstr (RMisMem rm) (aluRm .add .b8 rm imm) s

/-- ADD r/mw,iw / r/md,id, `81 [0] iw/id` (R320). -/
def execAddRmvIv (rm : RM) (imm : Sized) (s : State) : Host.Outcome State Fault Refusal :=
  runInstr (RMisMem rm) (aluRm .add s.osz.width rm (Sized.at _ imm)) s

/-- ADD r/mw,ib / r/md,ib (ib sign-extended), `83 [0] ib` (R320). -/
def execAddRmvIb (rm : RM) (imm : Byte) (s : State) : Host.Outcome State Fault Refusal :=
  runInstr (RMisMem rm) (aluRm .add s.osz.width rm (sext _ imm)) s

/-- OR r/mb,rb, `08 [r]` (R362). -/
def execOrRmbRb (rm : RM) (r : Reg) (s : State) : Host.Outcome State Fault Refusal :=
  runInstr (RMisMem rm) (aluRmReg .or .b8 rm r) s

/-- OR r/mw,rw / r/md,rd, `09 [r]` (R362). -/
def execOrRmvRv (rm : RM) (r : Reg) (s : State) : Host.Outcome State Fault Refusal :=
  runInstr (RMisMem rm) (aluRmReg .or s.osz.width rm r) s

/-- OR rb,r/mb, `0A [r]` (R362). -/
def execOrRbRmb (r : Reg) (rm : RM) (s : State) : Host.Outcome State Fault Refusal :=
  runInstr false (aluRegRm .or .b8 r rm) s

/-- OR rw,r/mw / rd,r/md, `0B [r]` (R362). -/
def execOrRvRmv (r : Reg) (rm : RM) (s : State) : Host.Outcome State Fault Refusal :=
  runInstr false (aluRegRm .or s.osz.width r rm) s

/-- OR AL,ib, `0C ib` (R362). -/
def execOrAlIb (imm : Byte) (s : State) : Host.Outcome State Fault Refusal :=
  runInstr false (aluReg .or .b8 .eax imm) s

/-- OR AX,iw / EAX,id, `0D iw/id` (R362). -/
def execOrAxIv (imm : Sized) (s : State) : Host.Outcome State Fault Refusal :=
  runInstr false (aluReg .or s.osz.width .eax (Sized.at _ imm)) s

/-- OR r/mb,ib, `80 [1] ib` (R362). -/
def execOrRmbIb (rm : RM) (imm : Byte) (s : State) : Host.Outcome State Fault Refusal :=
  runInstr (RMisMem rm) (aluRm .or .b8 rm imm) s

/-- OR r/mw,iw / r/md,id, `81 [1] iw/id` (R362). -/
def execOrRmvIv (rm : RM) (imm : Sized) (s : State) : Host.Outcome State Fault Refusal :=
  runInstr (RMisMem rm) (aluRm .or s.osz.width rm (Sized.at _ imm)) s

/-- OR r/mw,ib / r/md,ib (ib sign-extended), `83 [1] ib` (R362). -/
def execOrRmvIb (rm : RM) (imm : Byte) (s : State) : Host.Outcome State Fault Refusal :=
  runInstr (RMisMem rm) (aluRm .or s.osz.width rm (sext _ imm)) s

/-- ADC r/mb,rb, `10 [r]` (R321). -/
def execAdcRmbRb (rm : RM) (r : Reg) (s : State) : Host.Outcome State Fault Refusal :=
  runInstr (RMisMem rm) (aluRmReg .adc .b8 rm r) s

/-- ADC r/mw,rw / r/md,rd, `11 [r]` (R321). -/
def execAdcRmvRv (rm : RM) (r : Reg) (s : State) : Host.Outcome State Fault Refusal :=
  runInstr (RMisMem rm) (aluRmReg .adc s.osz.width rm r) s

/-- ADC rb,r/mb, `12 [r]` (R321). -/
def execAdcRbRmb (r : Reg) (rm : RM) (s : State) : Host.Outcome State Fault Refusal :=
  runInstr false (aluRegRm .adc .b8 r rm) s

/-- ADC rw,r/mw / rd,r/md, `13 [r]` (R321). -/
def execAdcRvRmv (r : Reg) (rm : RM) (s : State) : Host.Outcome State Fault Refusal :=
  runInstr false (aluRegRm .adc s.osz.width r rm) s

/-- ADC AL,ib, `14 ib` (R321). -/
def execAdcAlIb (imm : Byte) (s : State) : Host.Outcome State Fault Refusal :=
  runInstr false (aluReg .adc .b8 .eax imm) s

/-- ADC AX,iw / EAX,id, `15 iw/id` (R321). -/
def execAdcAxIv (imm : Sized) (s : State) : Host.Outcome State Fault Refusal :=
  runInstr false (aluReg .adc s.osz.width .eax (Sized.at _ imm)) s

/-- ADC r/mb,ib, `80 [2] ib` (R321). -/
def execAdcRmbIb (rm : RM) (imm : Byte) (s : State) : Host.Outcome State Fault Refusal :=
  runInstr (RMisMem rm) (aluRm .adc .b8 rm imm) s

/-- ADC r/mw,iw / r/md,id, `81 [2] iw/id` (R321). -/
def execAdcRmvIv (rm : RM) (imm : Sized) (s : State) : Host.Outcome State Fault Refusal :=
  runInstr (RMisMem rm) (aluRm .adc s.osz.width rm (Sized.at _ imm)) s

/-- ADC r/mw,ib / r/md,ib (ib sign-extended), `83 [2] ib` (R321). -/
def execAdcRmvIb (rm : RM) (imm : Byte) (s : State) : Host.Outcome State Fault Refusal :=
  runInstr (RMisMem rm) (aluRm .adc s.osz.width rm (sext _ imm)) s

/-- SBB r/mb,rb, `18 [r]` (R323). -/
def execSbbRmbRb (rm : RM) (r : Reg) (s : State) : Host.Outcome State Fault Refusal :=
  runInstr (RMisMem rm) (aluRmReg .sbb .b8 rm r) s

/-- SBB r/mw,rw / r/md,rd, `19 [r]` (R323). -/
def execSbbRmvRv (rm : RM) (r : Reg) (s : State) : Host.Outcome State Fault Refusal :=
  runInstr (RMisMem rm) (aluRmReg .sbb s.osz.width rm r) s

/-- SBB rb,r/mb, `1A [r]` (R323). -/
def execSbbRbRmb (r : Reg) (rm : RM) (s : State) : Host.Outcome State Fault Refusal :=
  runInstr false (aluRegRm .sbb .b8 r rm) s

/-- SBB rw,r/mw / rd,r/md, `1B [r]` (R323). -/
def execSbbRvRmv (r : Reg) (rm : RM) (s : State) : Host.Outcome State Fault Refusal :=
  runInstr false (aluRegRm .sbb s.osz.width r rm) s

/-- SBB AL,ib, `1C ib` (R323). -/
def execSbbAlIb (imm : Byte) (s : State) : Host.Outcome State Fault Refusal :=
  runInstr false (aluReg .sbb .b8 .eax imm) s

/-- SBB AX,iw / EAX,id, `1D iw/id` (R323). -/
def execSbbAxIv (imm : Sized) (s : State) : Host.Outcome State Fault Refusal :=
  runInstr false (aluReg .sbb s.osz.width .eax (Sized.at _ imm)) s

/-- SBB r/mb,ib, `80 [3] ib` (R323). -/
def execSbbRmbIb (rm : RM) (imm : Byte) (s : State) : Host.Outcome State Fault Refusal :=
  runInstr (RMisMem rm) (aluRm .sbb .b8 rm imm) s

/-- SBB r/mw,iw / r/md,id, `81 [3] iw/id` (R323). -/
def execSbbRmvIv (rm : RM) (imm : Sized) (s : State) : Host.Outcome State Fault Refusal :=
  runInstr (RMisMem rm) (aluRm .sbb s.osz.width rm (Sized.at _ imm)) s

/-- SBB r/mw,ib / r/md,ib (ib sign-extended), `83 [3] ib` (R323). -/
def execSbbRmvIb (rm : RM) (imm : Byte) (s : State) : Host.Outcome State Fault Refusal :=
  runInstr (RMisMem rm) (aluRm .sbb s.osz.width rm (sext _ imm)) s

/-- AND r/mb,rb, `20 [r]` (R361). -/
def execAndRmbRb (rm : RM) (r : Reg) (s : State) : Host.Outcome State Fault Refusal :=
  runInstr (RMisMem rm) (aluRmReg .and .b8 rm r) s

/-- AND r/mw,rw / r/md,rd, `21 [r]` (R361). -/
def execAndRmvRv (rm : RM) (r : Reg) (s : State) : Host.Outcome State Fault Refusal :=
  runInstr (RMisMem rm) (aluRmReg .and s.osz.width rm r) s

/-- AND rb,r/mb, `22 [r]` (R361). -/
def execAndRbRmb (r : Reg) (rm : RM) (s : State) : Host.Outcome State Fault Refusal :=
  runInstr false (aluRegRm .and .b8 r rm) s

/-- AND rw,r/mw / rd,r/md, `23 [r]` (R361). -/
def execAndRvRmv (r : Reg) (rm : RM) (s : State) : Host.Outcome State Fault Refusal :=
  runInstr false (aluRegRm .and s.osz.width r rm) s

/-- AND AL,ib, `24 ib` (R361). -/
def execAndAlIb (imm : Byte) (s : State) : Host.Outcome State Fault Refusal :=
  runInstr false (aluReg .and .b8 .eax imm) s

/-- AND AX,iw / EAX,id, `25 iw/id` (R361). -/
def execAndAxIv (imm : Sized) (s : State) : Host.Outcome State Fault Refusal :=
  runInstr false (aluReg .and s.osz.width .eax (Sized.at _ imm)) s

/-- AND r/mb,ib, `80 [4] ib` (R361). -/
def execAndRmbIb (rm : RM) (imm : Byte) (s : State) : Host.Outcome State Fault Refusal :=
  runInstr (RMisMem rm) (aluRm .and .b8 rm imm) s

/-- AND r/mw,iw / r/md,id, `81 [4] iw/id` (R361). -/
def execAndRmvIv (rm : RM) (imm : Sized) (s : State) : Host.Outcome State Fault Refusal :=
  runInstr (RMisMem rm) (aluRm .and s.osz.width rm (Sized.at _ imm)) s

/-- AND r/mw,ib / r/md,ib (ib sign-extended), `83 [4] ib` (R361). -/
def execAndRmvIb (rm : RM) (imm : Byte) (s : State) : Host.Outcome State Fault Refusal :=
  runInstr (RMisMem rm) (aluRm .and s.osz.width rm (sext _ imm)) s

/-- SUB r/mb,rb, `28 [r]` (R322). -/
def execSubRmbRb (rm : RM) (r : Reg) (s : State) : Host.Outcome State Fault Refusal :=
  runInstr (RMisMem rm) (aluRmReg .sub .b8 rm r) s

/-- SUB r/mw,rw / r/md,rd, `29 [r]` (R322). -/
def execSubRmvRv (rm : RM) (r : Reg) (s : State) : Host.Outcome State Fault Refusal :=
  runInstr (RMisMem rm) (aluRmReg .sub s.osz.width rm r) s

/-- SUB rb,r/mb, `2A [r]` (R322). -/
def execSubRbRmb (r : Reg) (rm : RM) (s : State) : Host.Outcome State Fault Refusal :=
  runInstr false (aluRegRm .sub .b8 r rm) s

/-- SUB rw,r/mw / rd,r/md, `2B [r]` (R322). -/
def execSubRvRmv (r : Reg) (rm : RM) (s : State) : Host.Outcome State Fault Refusal :=
  runInstr false (aluRegRm .sub s.osz.width r rm) s

/-- SUB AL,ib, `2C ib` (R322). -/
def execSubAlIb (imm : Byte) (s : State) : Host.Outcome State Fault Refusal :=
  runInstr false (aluReg .sub .b8 .eax imm) s

/-- SUB AX,iw / EAX,id, `2D iw/id` (R322). -/
def execSubAxIv (imm : Sized) (s : State) : Host.Outcome State Fault Refusal :=
  runInstr false (aluReg .sub s.osz.width .eax (Sized.at _ imm)) s

/-- SUB r/mb,ib, `80 [5] ib` (R322). -/
def execSubRmbIb (rm : RM) (imm : Byte) (s : State) : Host.Outcome State Fault Refusal :=
  runInstr (RMisMem rm) (aluRm .sub .b8 rm imm) s

/-- SUB r/mw,iw / r/md,id, `81 [5] iw/id` (R322). -/
def execSubRmvIv (rm : RM) (imm : Sized) (s : State) : Host.Outcome State Fault Refusal :=
  runInstr (RMisMem rm) (aluRm .sub s.osz.width rm (Sized.at _ imm)) s

/-- SUB r/mw,ib / r/md,ib (ib sign-extended), `83 [5] ib` (R322). -/
def execSubRmvIb (rm : RM) (imm : Byte) (s : State) : Host.Outcome State Fault Refusal :=
  runInstr (RMisMem rm) (aluRm .sub s.osz.width rm (sext _ imm)) s

/-- XOR r/mb,rb, `30 [r]` (R363). -/
def execXorRmbRb (rm : RM) (r : Reg) (s : State) : Host.Outcome State Fault Refusal :=
  runInstr (RMisMem rm) (aluRmReg .xor .b8 rm r) s

/-- XOR r/mw,rw / r/md,rd, `31 [r]` (R363). -/
def execXorRmvRv (rm : RM) (r : Reg) (s : State) : Host.Outcome State Fault Refusal :=
  runInstr (RMisMem rm) (aluRmReg .xor s.osz.width rm r) s

/-- XOR rb,r/mb, `32 [r]` (R363). -/
def execXorRbRmb (r : Reg) (rm : RM) (s : State) : Host.Outcome State Fault Refusal :=
  runInstr false (aluRegRm .xor .b8 r rm) s

/-- XOR rw,r/mw / rd,r/md, `33 [r]` (R363). -/
def execXorRvRmv (r : Reg) (rm : RM) (s : State) : Host.Outcome State Fault Refusal :=
  runInstr false (aluRegRm .xor s.osz.width r rm) s

/-- XOR AL,ib, `34 ib` (R363). -/
def execXorAlIb (imm : Byte) (s : State) : Host.Outcome State Fault Refusal :=
  runInstr false (aluReg .xor .b8 .eax imm) s

/-- XOR AX,iw / EAX,id, `35 iw/id` (R363). -/
def execXorAxIv (imm : Sized) (s : State) : Host.Outcome State Fault Refusal :=
  runInstr false (aluReg .xor s.osz.width .eax (Sized.at _ imm)) s

/-- XOR r/mb,ib, `80 [6] ib` (R363). -/
def execXorRmbIb (rm : RM) (imm : Byte) (s : State) : Host.Outcome State Fault Refusal :=
  runInstr (RMisMem rm) (aluRm .xor .b8 rm imm) s

/-- XOR r/mw,iw / r/md,id, `81 [6] iw/id` (R363). -/
def execXorRmvIv (rm : RM) (imm : Sized) (s : State) : Host.Outcome State Fault Refusal :=
  runInstr (RMisMem rm) (aluRm .xor s.osz.width rm (Sized.at _ imm)) s

/-- XOR r/mw,ib / r/md,ib (ib sign-extended), `83 [6] ib` (R363). -/
def execXorRmvIb (rm : RM) (imm : Byte) (s : State) : Host.Outcome State Fault Refusal :=
  runInstr (RMisMem rm) (aluRm .xor s.osz.width rm (sext _ imm)) s

/-- CMP r/mb,rb, `38 [r]` (R324). -/
def execCmpRmbRb (rm : RM) (r : Reg) (s : State) : Host.Outcome State Fault Refusal :=
  runInstr false (aluRmReg .cmp .b8 rm r) s

/-- CMP r/mw,rw / r/md,rd, `39 [r]` (R324). -/
def execCmpRmvRv (rm : RM) (r : Reg) (s : State) : Host.Outcome State Fault Refusal :=
  runInstr false (aluRmReg .cmp s.osz.width rm r) s

/-- CMP rb,r/mb, `3A [r]` (R324). -/
def execCmpRbRmb (r : Reg) (rm : RM) (s : State) : Host.Outcome State Fault Refusal :=
  runInstr false (aluRegRm .cmp .b8 r rm) s

/-- CMP rw,r/mw / rd,r/md, `3B [r]` (R324). -/
def execCmpRvRmv (r : Reg) (rm : RM) (s : State) : Host.Outcome State Fault Refusal :=
  runInstr false (aluRegRm .cmp s.osz.width r rm) s

/-- CMP AL,ib, `3C ib` (R324). -/
def execCmpAlIb (imm : Byte) (s : State) : Host.Outcome State Fault Refusal :=
  runInstr false (aluReg .cmp .b8 .eax imm) s

/-- CMP AX,iw / EAX,id, `3D iw/id` (R324). -/
def execCmpAxIv (imm : Sized) (s : State) : Host.Outcome State Fault Refusal :=
  runInstr false (aluReg .cmp s.osz.width .eax (Sized.at _ imm)) s

/-- CMP r/mb,ib, `80 [7] ib` (R324). -/
def execCmpRmbIb (rm : RM) (imm : Byte) (s : State) : Host.Outcome State Fault Refusal :=
  runInstr false (aluRm .cmp .b8 rm imm) s

/-- CMP r/mw,iw / r/md,id, `81 [7] iw/id` (R324). -/
def execCmpRmvIv (rm : RM) (imm : Sized) (s : State) : Host.Outcome State Fault Refusal :=
  runInstr false (aluRm .cmp s.osz.width rm (Sized.at _ imm)) s

/-- CMP r/mw,ib / r/md,ib (ib sign-extended), `83 [7] ib` (R324). -/
def execCmpRmvIb (rm : RM) (imm : Byte) (s : State) : Host.Outcome State Fault Refusal :=
  runInstr false (aluRm .cmp s.osz.width rm (sext _ imm)) s

/-- INC r/mb, `FE [0]` (R325). -/
def execIncRmb (rm : RM) (s : State) : Host.Outcome State Fault Refusal :=
  runInstr (RMisMem rm) (unRm .inc .b8 rm) s

/-- INC r/mw / r/md, `FF [0]` (R325). -/
def execIncRmv (rm : RM) (s : State) : Host.Outcome State Fault Refusal :=
  runInstr (RMisMem rm) (unRm .inc s.osz.width rm) s

/-- INC rw / rd, `40+r` (R325). -/
def execIncRv (r : Reg) (s : State) : Host.Outcome State Fault Refusal :=
  runInstr false (unReg .inc s.osz.width r) s

/-- DEC r/mb, `FE [1]` (R326). -/
def execDecRmb (rm : RM) (s : State) : Host.Outcome State Fault Refusal :=
  runInstr (RMisMem rm) (unRm .dec .b8 rm) s

/-- DEC r/mw / r/md, `FF [1]` (R326). -/
def execDecRmv (rm : RM) (s : State) : Host.Outcome State Fault Refusal :=
  runInstr (RMisMem rm) (unRm .dec s.osz.width rm) s

/-- DEC rw / rd, `48+r` (R326). -/
def execDecRv (r : Reg) (s : State) : Host.Outcome State Fault Refusal :=
  runInstr false (unReg .dec s.osz.width r) s

/-- TEST r/mb,ib, `F6 [0] ib` (R365). -/
def execTestRmbIb (rm : RM) (imm : Byte) (s : State) : Host.Outcome State Fault Refusal :=
  runInstr false (testRm .b8 rm imm) s

/-- TEST r/mw,iw / r/md,id, `F7 [0] iw/id` (R365). -/
def execTestRmvIv (rm : RM) (imm : Sized) (s : State) : Host.Outcome State Fault Refusal :=
  runInstr false (testRm s.osz.width rm (Sized.at _ imm)) s

/-- NOT r/mb, `F6 [2]` (R364). -/
def execNotRmb (rm : RM) (s : State) : Host.Outcome State Fault Refusal :=
  runInstr (RMisMem rm) (unRm .not .b8 rm) s

/-- NOT r/mw / r/md, `F7 [2]` (R364). -/
def execNotRmv (rm : RM) (s : State) : Host.Outcome State Fault Refusal :=
  runInstr (RMisMem rm) (unRm .not s.osz.width rm) s

/-- NEG r/mb, `F6 [3]` (R327). -/
def execNegRmb (rm : RM) (s : State) : Host.Outcome State Fault Refusal :=
  runInstr (RMisMem rm) (unRm .neg .b8 rm) s

/-- NEG r/mw / r/md, `F7 [3]` (R327). -/
def execNegRmv (rm : RM) (s : State) : Host.Outcome State Fault Refusal :=
  runInstr (RMisMem rm) (unRm .neg s.osz.width rm) s

/-- MUL r/mb, `F6 [4]` (R330). -/
def execMulRmb (rm : RM) (s : State) : Host.Outcome State Fault Refusal :=
  runInstr false (mulAcc .b8 rm) s

/-- MUL r/mw / r/md, `F7 [4]` (R330). -/
def execMulRmv (rm : RM) (s : State) : Host.Outcome State Fault Refusal :=
  runInstr false (mulAcc s.osz.width rm) s

/-- IMUL r/mb, `F6 [5]` (R331). -/
def execImulRmb (rm : RM) (s : State) : Host.Outcome State Fault Refusal :=
  runInstr false (imulAcc .b8 rm) s

/-- IMUL r/mw / r/md, `F7 [5]` (R331). -/
def execImulRmv (rm : RM) (s : State) : Host.Outcome State Fault Refusal :=
  runInstr false (imulAcc s.osz.width rm) s

/-- DIV r/mb, `F6 [6]` (R332). -/
def execDivRmb (rm : RM) (s : State) : Host.Outcome State Fault Refusal :=
  runInstr false (divAcc .b8 rm) s

/-- DIV r/mw / r/md, `F7 [6]` (R332). -/
def execDivRmv (rm : RM) (s : State) : Host.Outcome State Fault Refusal :=
  runInstr false (divAcc s.osz.width rm) s

/-- IDIV r/mb, `F6 [7]` (R333). -/
def execIdivRmb (rm : RM) (s : State) : Host.Outcome State Fault Refusal :=
  runInstr false (idivAcc .b8 rm) s

/-- IDIV r/mw / r/md, `F7 [7]` (R333). -/
def execIdivRmv (rm : RM) (s : State) : Host.Outcome State Fault Refusal :=
  runInstr false (idivAcc s.osz.width rm) s

/-- IMUL rw,r/mw / rd,r/md, `0F AF [r]` (R331). -/
def execImulRvRmv (r : Reg) (rm : RM) (s : State) : Host.Outcome State Fault Refusal :=
  runInstr false (imulRegRm s.osz.width r rm) s

/-- IMUL rw,r/mw,ib / rd,r/md,ib, `6B [r] ib` (R331). -/
def execImulRvRmvIb (r : Reg) (rm : RM) (imm : Byte) (s : State) : Host.Outcome State Fault Refusal :=
  runInstr false (imulRegRmImm s.osz.width r rm (sext _ imm)) s

/-- IMUL rw,r/mw,iw / rd,r/md,id, `69 [r] iw/id` (R331). -/
def execImulRvRmvIv (r : Reg) (rm : RM) (imm : Sized) (s : State) : Host.Outcome State Fault Refusal :=
  runInstr false (imulRegRmImm s.osz.width r rm (Sized.at _ imm)) s

/-- TEST AL,ib, `A8 ib` (R365). -/
def execTestAlIb (imm : Byte) (s : State) : Host.Outcome State Fault Refusal :=
  runInstr false (testRm .b8 (.reg .al) imm) s

/-- TEST AX,iw / EAX,id, `A9 iw/id` (R365). -/
def execTestAxIv (imm : Sized) (s : State) : Host.Outcome State Fault Refusal :=
  runInstr false (testRm s.osz.width (.reg .eax) (Sized.at _ imm)) s

/-- TEST r/mb,rb, `84 [r]` (R365). -/
def execTestRmbRb (rm : RM) (r : Reg) (s : State) : Host.Outcome State Fault Refusal :=
  runInstr false (testRmReg .b8 rm r) s

/-- TEST r/mw,rw / r/md,rd, `85 [r]` (R365). -/
def execTestRmvRv (rm : RM) (r : Reg) (s : State) : Host.Outcome State Fault Refusal :=
  runInstr false (testRmReg s.osz.width rm r) s

end Sys2Proof.Machine
end

