-- ==== Sys2Proof/Machine/Bit.lean ====
section
/-! DEFINITION. Shifts, rotates, double shifts, bit tests, bit scans and SETcc.
Rules: 42_logic_shift_bit.md R370 to R415. -/

namespace Sys2Proof.Machine

/-- A shift or rotate of an r/m operand by a masked count; a count of 0 changes nothing (R370 to R379). -/
def shiftRm (op : ShiftOp) (w : Width) (rm : RM) (count : Nat) : M Unit := do
  if count = 0 then pure ()
  else
    let l ← locate w .write rm
    let a ← readLoc w l
    let f ← getFlags
    let x := shiftSteps op count (a, f.cf)
    let anyOf ← if count = 1 then pure false else freeFlag
    putFlags (shiftFlags op count x.1 x.2 anyOf f)
    writeLoc w l x.1

/-- A shift or rotate by CL (R370). -/
def shiftRmCl (op : ShiftOp) (w : Width) (rm : RM) : M Unit := do
  let cl ← getReg .b8 .cl
  shiftRm op w rm (maskCount cl)

/-- SHLD or SHRD by a masked count: OF and AF free; with 16 bits and a count above 15 the destination and
all six status flags are free (R385, R386, U46). -/
def doubleShiftRm (left : Bool) (w : Width) (rm : RM) (r : Reg) (count : Nat) : M Unit := do
  if count = 0 then pure ()
  else
    let l ← locate w .write rm
    let o ← freeFlag
    let af ← freeFlag
    if w.bits ≤ count then
      let v ← freeBits w.bits
      let sf ← freeFlag
      let zf ← freeFlag
      let pf ← freeFlag
      let cf ← freeFlag
      let f ← getFlags
      putFlags { f with of := o, af := af, sf := sf, zf := zf, pf := pf, cf := cf }
      writeLoc w l v
    else
      let d ← readLoc w l
      let src ← getReg w r
      let res := doubleShift left d src count
      let f ← getFlags
      putFlags (szp res { f with cf := doubleShiftCf left d count, of := o, af := af })
      writeLoc w l res

/-- SHLD or SHRD by CL (R385, R386). -/
def doubleShiftRmCl (left : Bool) (w : Width) (rm : RM) (r : Reg) : M Unit := do
  let cl ← getReg .b8 .cl
  doubleShiftRm left w rm r (maskCount cl)

/-- The access a bit-test operand needs: BT only reads (R400). -/
def BitOp.access (op : BitOp) : Access := if op.writes then .write else .read

/-- A bit test of bit `i` modulo the operand's width; only CF changes (R400 to R404; log entry 47). -/
def bitRm (op : BitOp) (w : Width) (rm : RM) (i : Nat) : M Unit := do
  let l ← locate w op.access rm
  let v ← readLoc w l
  let i := i % w.bits
  let f ← getFlags
  putFlags { f with cf := v.getLsbD i }
  if op.writes then writeLoc w l (bitResult op v i)

/-- A bit test with the bit number in a register (R400). -/
def bitRmReg (op : BitOp) (w : Width) (rm : RM) (r : Reg) : M Unit := do
  let i ← getReg w r
  bitRm op w rm i.toNat

/-- BSF (`up`) or BSR: only ZF changes; with a zero source the destination is free (R410, R411, U42). -/
def bitScan (up : Bool) (w : Width) (r : Reg) (rm : RM) : M Unit := do
  let v ← readRM w rm
  let f ← getFlags
  if v = 0 then
    let any ← freeBits w.bits
    putFlags { f with zf := true }
    putReg w r any
  else
    putFlags { f with zf := false }
    putReg w r (BitVec.ofNat w.bits (if up then scanUp v w.bits 0 else scanDown v w.bits))

/-- SETcc (R415). -/
def setByte (c : Cond) (rm : RM) : M Unit := do
  let f ← getFlags
  writeRM .b8 rm (if f.cond c then 1 else 0)

/-- ROL r/mb,1, `D0 [0]` (R376). -/
def execRolRmbOne (rm : RM) (s : State) : Host.Outcome State Fault Refusal :=
  runInstr false (shiftRm .rol .b8 rm 1) s

/-- ROL r/mb,CL, `D2 [0]` (R376). -/
def execRolRmbCl (rm : RM) (s : State) : Host.Outcome State Fault Refusal :=
  runInstr false (shiftRmCl .rol .b8 rm) s

/-- ROL r/mb,ib, `C0 [0] ib` (R376). -/
def execRolRmbIb (rm : RM) (imm : Byte) (s : State) : Host.Outcome State Fault Refusal :=
  runInstr false (shiftRm .rol .b8 rm (maskCount imm)) s

/-- ROL r/mw,1 / r/md,1, `D1 [0]` (R376). -/
def execRolRmvOne (rm : RM) (s : State) : Host.Outcome State Fault Refusal :=
  runInstr false (shiftRm .rol s.osz.width rm 1) s

/-- ROL r/mw,CL / r/md,CL, `D3 [0]` (R376). -/
def execRolRmvCl (rm : RM) (s : State) : Host.Outcome State Fault Refusal :=
  runInstr false (shiftRmCl .rol s.osz.width rm) s

/-- ROL r/mw,ib / r/md,ib, `C1 [0] ib` (R376). -/
def execRolRmvIb (rm : RM) (imm : Byte) (s : State) : Host.Outcome State Fault Refusal :=
  runInstr false (shiftRm .rol s.osz.width rm (maskCount imm)) s

/-- ROR r/mb,1, `D0 [1]` (R377). -/
def execRorRmbOne (rm : RM) (s : State) : Host.Outcome State Fault Refusal :=
  runInstr false (shiftRm .ror .b8 rm 1) s

/-- ROR r/mb,CL, `D2 [1]` (R377). -/
def execRorRmbCl (rm : RM) (s : State) : Host.Outcome State Fault Refusal :=
  runInstr false (shiftRmCl .ror .b8 rm) s

/-- ROR r/mb,ib, `C0 [1] ib` (R377). -/
def execRorRmbIb (rm : RM) (imm : Byte) (s : State) : Host.Outcome State Fault Refusal :=
  runInstr false (shiftRm .ror .b8 rm (maskCount imm)) s

/-- ROR r/mw,1 / r/md,1, `D1 [1]` (R377). -/
def execRorRmvOne (rm : RM) (s : State) : Host.Outcome State Fault Refusal :=
  runInstr false (shiftRm .ror s.osz.width rm 1) s

/-- ROR r/mw,CL / r/md,CL, `D3 [1]` (R377). -/
def execRorRmvCl (rm : RM) (s : State) : Host.Outcome State Fault Refusal :=
  runInstr false (shiftRmCl .ror s.osz.width rm) s

/-- ROR r/mw,ib / r/md,ib, `C1 [1] ib` (R377). -/
def execRorRmvIb (rm : RM) (imm : Byte) (s : State) : Host.Outcome State Fault Refusal :=
  runInstr false (shiftRm .ror s.osz.width rm (maskCount imm)) s

/-- RCL r/mb,1, `D0 [2]` (R378). -/
def execRclRmbOne (rm : RM) (s : State) : Host.Outcome State Fault Refusal :=
  runInstr false (shiftRm .rcl .b8 rm 1) s

/-- RCL r/mb,CL, `D2 [2]` (R378). -/
def execRclRmbCl (rm : RM) (s : State) : Host.Outcome State Fault Refusal :=
  runInstr false (shiftRmCl .rcl .b8 rm) s

/-- RCL r/mb,ib, `C0 [2] ib` (R378). -/
def execRclRmbIb (rm : RM) (imm : Byte) (s : State) : Host.Outcome State Fault Refusal :=
  runInstr false (shiftRm .rcl .b8 rm (maskCount imm)) s

/-- RCL r/mw,1 / r/md,1, `D1 [2]` (R378). -/
def execRclRmvOne (rm : RM) (s : State) : Host.Outcome State Fault Refusal :=
  runInstr false (shiftRm .rcl s.osz.width rm 1) s

/-- RCL r/mw,CL / r/md,CL, `D3 [2]` (R378). -/
def execRclRmvCl (rm : RM) (s : State) : Host.Outcome State Fault Refusal :=
  runInstr false (shiftRmCl .rcl s.osz.width rm) s

/-- RCL r/mw,ib / r/md,ib, `C1 [2] ib` (R378). -/
def execRclRmvIb (rm : RM) (imm : Byte) (s : State) : Host.Outcome State Fault Refusal :=
  runInstr false (shiftRm .rcl s.osz.width rm (maskCount imm)) s

/-- RCR r/mb,1, `D0 [3]` (R379). -/
def execRcrRmbOne (rm : RM) (s : State) : Host.Outcome State Fault Refusal :=
  runInstr false (shiftRm .rcr .b8 rm 1) s

/-- RCR r/mb,CL, `D2 [3]` (R379). -/
def execRcrRmbCl (rm : RM) (s : State) : Host.Outcome State Fault Refusal :=
  runInstr false (shiftRmCl .rcr .b8 rm) s

/-- RCR r/mb,ib, `C0 [3] ib` (R379). -/
def execRcrRmbIb (rm : RM) (imm : Byte) (s : State) : Host.Outcome State Fault Refusal :=
  runInstr false (shiftRm .rcr .b8 rm (maskCount imm)) s

/-- RCR r/mw,1 / r/md,1, `D1 [3]` (R379). -/
def execRcrRmvOne (rm : RM) (s : State) : Host.Outcome State Fault Refusal :=
  runInstr false (shiftRm .rcr s.osz.width rm 1) s

/-- RCR r/mw,CL / r/md,CL, `D3 [3]` (R379). -/
def execRcrRmvCl (rm : RM) (s : State) : Host.Outcome State Fault Refusal :=
  runInstr false (shiftRmCl .rcr s.osz.width rm) s

/-- RCR r/mw,ib / r/md,ib, `C1 [3] ib` (R379). -/
def execRcrRmvIb (rm : RM) (imm : Byte) (s : State) : Host.Outcome State Fault Refusal :=
  runInstr false (shiftRm .rcr s.osz.width rm (maskCount imm)) s

/-- SHL_SAL r/mb,1, `D0 [4]` (R371). -/
def execShlRmbOne (rm : RM) (s : State) : Host.Outcome State Fault Refusal :=
  runInstr false (shiftRm .shl .b8 rm 1) s

/-- SHL_SAL r/mb,CL, `D2 [4]` (R371). -/
def execShlRmbCl (rm : RM) (s : State) : Host.Outcome State Fault Refusal :=
  runInstr false (shiftRmCl .shl .b8 rm) s

/-- SHL_SAL r/mb,ib, `C0 [4] ib` (R371). -/
def execShlRmbIb (rm : RM) (imm : Byte) (s : State) : Host.Outcome State Fault Refusal :=
  runInstr false (shiftRm .shl .b8 rm (maskCount imm)) s

/-- SHL_SAL r/mw,1 / r/md,1, `D1 [4]` (R371). -/
def execShlRmvOne (rm : RM) (s : State) : Host.Outcome State Fault Refusal :=
  runInstr false (shiftRm .shl s.osz.width rm 1) s

/-- SHL_SAL r/mw,CL / r/md,CL, `D3 [4]` (R371). -/
def execShlRmvCl (rm : RM) (s : State) : Host.Outcome State Fault Refusal :=
  runInstr false (shiftRmCl .shl s.osz.width rm) s

/-- SHL_SAL r/mw,ib / r/md,ib, `C1 [4] ib` (R371). -/
def execShlRmvIb (rm : RM) (imm : Byte) (s : State) : Host.Outcome State Fault Refusal :=
  runInstr false (shiftRm .shl s.osz.width rm (maskCount imm)) s

/-- SHR r/mb,1, `D0 [5]` (R372). -/
def execShrRmbOne (rm : RM) (s : State) : Host.Outcome State Fault Refusal :=
  runInstr false (shiftRm .shr .b8 rm 1) s

/-- SHR r/mb,CL, `D2 [5]` (R372). -/
def execShrRmbCl (rm : RM) (s : State) : Host.Outcome State Fault Refusal :=
  runInstr false (shiftRmCl .shr .b8 rm) s

/-- SHR r/mb,ib, `C0 [5] ib` (R372). -/
def execShrRmbIb (rm : RM) (imm : Byte) (s : State) : Host.Outcome State Fault Refusal :=
  runInstr false (shiftRm .shr .b8 rm (maskCount imm)) s

/-- SHR r/mw,1 / r/md,1, `D1 [5]` (R372). -/
def execShrRmvOne (rm : RM) (s : State) : Host.Outcome State Fault Refusal :=
  runInstr false (shiftRm .shr s.osz.width rm 1) s

/-- SHR r/mw,CL / r/md,CL, `D3 [5]` (R372). -/
def execShrRmvCl (rm : RM) (s : State) : Host.Outcome State Fault Refusal :=
  runInstr false (shiftRmCl .shr s.osz.width rm) s

/-- SHR r/mw,ib / r/md,ib, `C1 [5] ib` (R372). -/
def execShrRmvIb (rm : RM) (imm : Byte) (s : State) : Host.Outcome State Fault Refusal :=
  runInstr false (shiftRm .shr s.osz.width rm (maskCount imm)) s

/-- SAR r/mb,1, `D0 [7]` (R373). -/
def execSarRmbOne (rm : RM) (s : State) : Host.Outcome State Fault Refusal :=
  runInstr false (shiftRm .sar .b8 rm 1) s

/-- SAR r/mb,CL, `D2 [7]` (R373). -/
def execSarRmbCl (rm : RM) (s : State) : Host.Outcome State Fault Refusal :=
  runInstr false (shiftRmCl .sar .b8 rm) s

/-- SAR r/mb,ib, `C0 [7] ib` (R373). -/
def execSarRmbIb (rm : RM) (imm : Byte) (s : State) : Host.Outcome State Fault Refusal :=
  runInstr false (shiftRm .sar .b8 rm (maskCount imm)) s

/-- SAR r/mw,1 / r/md,1, `D1 [7]` (R373). -/
def execSarRmvOne (rm : RM) (s : State) : Host.Outcome State Fault Refusal :=
  runInstr false (shiftRm .sar s.osz.width rm 1) s

/-- SAR r/mw,CL / r/md,CL, `D3 [7]` (R373). -/
def execSarRmvCl (rm : RM) (s : State) : Host.Outcome State Fault Refusal :=
  runInstr false (shiftRmCl .sar s.osz.width rm) s

/-- SAR r/mw,ib / r/md,ib, `C1 [7] ib` (R373). -/
def execSarRmvIb (rm : RM) (imm : Byte) (s : State) : Host.Outcome State Fault Refusal :=
  runInstr false (shiftRm .sar s.osz.width rm (maskCount imm)) s

/-- SHLD r/mw,rw,ib / r/md,rd,ib, `0F A4 [r] ib` (R385). -/
def execShldIb (rm : RM) (r : Reg) (imm : Byte) (s : State) : Host.Outcome State Fault Refusal :=
  runInstr false (doubleShiftRm true s.osz.width rm r (maskCount imm)) s

/-- SHLD r/mw,rw,CL / r/md,rd,CL, `0F A5 [r]` (R385). -/
def execShldCl (rm : RM) (r : Reg) (s : State) : Host.Outcome State Fault Refusal :=
  runInstr false (doubleShiftRmCl true s.osz.width rm r) s

/-- SHRD r/mw,rw,ib / r/md,rd,ib, `0F AC [r] ib` (R386). -/
def execShrdIb (rm : RM) (r : Reg) (imm : Byte) (s : State) : Host.Outcome State Fault Refusal :=
  runInstr false (doubleShiftRm false s.osz.width rm r (maskCount imm)) s

/-- SHRD r/mw,rw,CL / r/md,rd,CL, `0F AD [r]` (R386). -/
def execShrdCl (rm : RM) (r : Reg) (s : State) : Host.Outcome State Fault Refusal :=
  runInstr false (doubleShiftRmCl false s.osz.width rm r) s

/-- BT r/mw,rw / r/md,rd, `0F A3 [r]` (R401). -/
def execBtRmvRv (rm : RM) (r : Reg) (s : State) : Host.Outcome State Fault Refusal :=
  runInstr (RMisMem rm) (bitRmReg .bt s.osz.width rm r) s

/-- BT r/mw,ib / r/md,ib, `0F BA [4] ib` (R401). -/
def execBtRmvIb (rm : RM) (imm : Byte) (s : State) : Host.Outcome State Fault Refusal :=
  runInstr (RMisMem rm) (bitRm .bt s.osz.width rm imm.toNat) s

/-- BTS r/mw,rw / r/md,rd, `0F AB [r]` (R404). -/
def execBtsRmvRv (rm : RM) (r : Reg) (s : State) : Host.Outcome State Fault Refusal :=
  runInstr (RMisMem rm) (bitRmReg .bts s.osz.width rm r) s

/-- BTS r/mw,ib / r/md,ib, `0F BA [5] ib` (R404). -/
def execBtsRmvIb (rm : RM) (imm : Byte) (s : State) : Host.Outcome State Fault Refusal :=
  runInstr (RMisMem rm) (bitRm .bts s.osz.width rm imm.toNat) s

/-- BTR r/mw,rw / r/md,rd, `0F B3 [r]` (R403). -/
def execBtrRmvRv (rm : RM) (r : Reg) (s : State) : Host.Outcome State Fault Refusal :=
  runInstr (RMisMem rm) (bitRmReg .btr s.osz.width rm r) s

/-- BTR r/mw,ib / r/md,ib, `0F BA [6] ib` (R403). -/
def execBtrRmvIb (rm : RM) (imm : Byte) (s : State) : Host.Outcome State Fault Refusal :=
  runInstr (RMisMem rm) (bitRm .btr s.osz.width rm imm.toNat) s

/-- BTC r/mw,rw / r/md,rd, `0F BB [r]` (R402). -/
def execBtcRmvRv (rm : RM) (r : Reg) (s : State) : Host.Outcome State Fault Refusal :=
  runInstr (RMisMem rm) (bitRmReg .btc s.osz.width rm r) s

/-- BTC r/mw,ib / r/md,ib, `0F BA [7] ib` (R402). -/
def execBtcRmvIb (rm : RM) (imm : Byte) (s : State) : Host.Outcome State Fault Refusal :=
  runInstr (RMisMem rm) (bitRm .btc s.osz.width rm imm.toNat) s

/-- BSF rw,r/mw / rd,r/md, `0F BC [r]` (R410). -/
def execBsf (r : Reg) (rm : RM) (s : State) : Host.Outcome State Fault Refusal :=
  runInstr false (bitScan true s.osz.width r rm) s

/-- BSR rw,r/mw / rd,r/md, `0F BD [r]` (R411). -/
def execBsr (r : Reg) (rm : RM) (s : State) : Host.Outcome State Fault Refusal :=
  runInstr false (bitScan false s.osz.width r rm) s

/-- SETcc r/mb, `0F 90+cc [x]` (R415). -/
def execSetcc (c : Cond) (rm : RM) (s : State) : Host.Outcome State Fault Refusal :=
  runInstr false (setByte c rm) s

end Sys2Proof.Machine
end

