-- ==== Sys2Proof/Machine/Control.lean ====
section
/-! DEFINITION. Control transfer, software interrupts and the high-level-language instructions.
Rules: 44_control_transfer.md R460 to R510. -/

namespace Sys2Proof.Machine

/-- A relative jump (R471). -/
def jumpRel (disp : Word32) : M Unit := do
  let t ← relative disp
  nearJump t

/-- A near jump through an r/m operand (R471). -/
def jumpRm (w : Width) (rm : RM) : M Unit := do
  let t ← readRM w rm
  nearJump (t.setWidth 32)

/-- The far pointer of a memory operand: offset first, then the selector (R102, R472). -/
def readFarPointer (m : EA) : M (Word16 × Word32) := do
  let s ← get
  let w := s.osz.width
  let off ← readEA w m 0
  let sel ← readEA .w16 m (Width.off w)
  pure (sel, off.setWidth 32)

/-- A far JMP through memory (R472). -/
def jumpFarMem (m : EA) : M Unit := do
  let p ← readFarPointer m
  farJump p.1 p.2

/-- Jcc (R473). -/
def jumpIf (c : Cond) (disp : Word32) : M Unit := do
  let f ← getFlags
  if f.cond c then jumpRel disp

/-- (E)CX at the address size (R474, R475). -/
def countReg : M Word32 := do
  let s ← get
  pure (wrap s.asz s.regs.ecx)

/-- JCXZ / JECXZ (R474). -/
def jumpIfCountZero (disp : Word32) : M Unit := do
  let c ← countReg
  if c = 0 then jumpRel disp

/-- LOOP, LOOPE, LOOPNE: decrement (E)CX, jump while it is not 0 and `cond` holds of ZF (R475 to R477). -/
def loopWhile (cond : Bool → Bool) (disp : Word32) : M Unit := do
  modify fun s => s.setReg .ecx (setSized s.asz s.regs.ecx (s.regs.ecx - 1))
  let c ← countReg
  let f ← getFlags
  if c ≠ 0 && cond f.zf then jumpRel disp

/-- A near CALL to a checked target (R478). -/
def callNearTo (t : Word32) : M Unit := do
  let s ← get
  let w := s.osz.width
  let t ← nearTarget t
  push w (s.eip.setWidth w.bits)
  putEip t

/-- CALL with a displacement (R478). -/
def callRel (disp : Word32) : M Unit := do
  let t ← relative disp
  callNearTo t

/-- CALL through an r/m operand, read before the push (R478). -/
def callRm (w : Width) (rm : RM) : M Unit := do
  let t ← readRM w rm
  callNearTo (t.setWidth 32)

/-- A far CALL through memory (R479). -/
def callFarThrough (m : EA) : M Unit := do
  let p ← readFarPointer m
  farCall p.1 p.2

/-- Near RET, popping `n` bytes of parameters (R480). -/
def returnNear (n : Word16) : M Unit := do
  let s ← get
  let w := s.osz.width
  let t ← pop w
  nearJump (t.setWidth 32)
  releaseStack n

/-- A software interrupt (R495, R562, R564). -/
def softwareInterrupt (v : Byte) : M Unit := interrupt v .software none

/-- INT n, IOPL-sensitive in mode V (R495, R612). -/
def intVector (v : Byte) : M Unit := do
  let s ← get
  require (s.mode != .v86 || s.flags.iopl == 3) (exnGP 0)
  softwareInterrupt v

/-- INTO (R496). -/
def interruptOnOverflow : M Unit := do
  let f ← getFlags
  if f.of then softwareInterrupt 4

/-- Copy `n` frame pointers of the caller's display (R505; log entry 30). -/
def copyDisplay (z : Size) : Nat → M Unit
  | 0 => pure ()
  | n + 1 => do
    modify fun s => s.setReg .ebp (setSized z s.regs.ebp (s.regs.ebp - Width.off z.width))
    let s ← get
    let v ← memRead z.width .ss (wrap z s.regs.ebp)
    push z.width v
    copyDisplay z n

/-- ENTER (R505). With 32-bit operands on a 16-bit stack the frame pointer that is pushed and loaded into EBP is SP
zero-extended: DESIGN CHOICE, log entry 30. -/
def enterFrame (size : Word16) (level : Byte) : M Unit := do
  let s ← get
  let z := s.osz
  let level := level.toNat % 32
  push z.width (readReg z.width s.regs .ebp)
  let s ← get
  let frame := s.sp
  if 0 < level then
    copyDisplay z (level - 1)
    push z.width (frame.setWidth z.width.bits)
  modify fun s => s.setReg .ebp (setSized z s.regs.ebp frame)
  let s ← get
  putSp (s.sp - size.setWidth 32)

/-- LEAVE (R506). -/
def leaveFrame : M Unit := do
  let s ← get
  putSp s.regs.ebp
  let w := s.osz.width
  let v ← pop w
  putReg w .ebp v

/-- BOUND (R510). -/
def checkBounds (r : Reg) (m : EA) : M Unit := do
  let s ← get
  let w := s.osz.width
  let lo ← readEA w m 0
  let hi ← readEA w m (Width.off w)
  let i := readReg w s.regs r
  require (decide (lo.toInt ≤ i.toInt) && decide (i.toInt ≤ hi.toInt)) exnBR

/-- JMP db (short), `EB db` (R471). -/
def execJmpShort (disp : Byte) (s : State) : Host.Outcome State Fault Refusal :=
  runInstr false (jumpRel (sext 32 disp)) s

/-- JMP dw / dd (near), `E9 dw/dd` (R471). -/
def execJmpNear (disp : Sized) (s : State) : Host.Outcome State Fault Refusal :=
  runInstr false (jumpRel (Sized.sext disp)) s

/-- JMP r/mw / r/md (near indirect), `FF [4]` (R471). -/
def execJmpRmv (rm : RM) (s : State) : Host.Outcome State Fault Refusal :=
  runInstr false (jumpRm s.osz.width rm) s

/-- JMP pd / pp (far direct), `EA pd/pp` (R472). -/
def execJmpFar (off : Sized) (sel : Word16) (s : State) : Host.Outcome State Fault Refusal :=
  runInstr false (farJump sel (Sized.zext off)) s

/-- JMP mw:w / mw:d (far indirect), `FF [5]` (R472). -/
def execJmpFarMem (m : EA) (s : State) : Host.Outcome State Fault Refusal :=
  runInstr false (jumpFarMem m) s

/-- Jcc db (short), `70+cc db` (R473). -/
def execJccShort (c : Cond) (disp : Byte) (s : State) : Host.Outcome State Fault Refusal :=
  runInstr false (jumpIf c (sext 32 disp)) s

/-- Jcc dw / dd (near), `0F 80+cc dw/dd` (R473). -/
def execJccNear (c : Cond) (disp : Sized) (s : State) : Host.Outcome State Fault Refusal :=
  runInstr false (jumpIf c (Sized.sext disp)) s

/-- JCXZ_JECXZ db, `E3 db` (R474). -/
def execJcxz (disp : Byte) (s : State) : Host.Outcome State Fault Refusal :=
  runInstr false (jumpIfCountZero (sext 32 disp)) s

/-- LOOP db, `E2 db` (R475). -/
def execLoop (disp : Byte) (s : State) : Host.Outcome State Fault Refusal :=
  runInstr false (loopWhile (fun _ => true) (sext 32 disp)) s

/-- LOOPE_LOOPZ db, `E1 db` (R476). -/
def execLoope (disp : Byte) (s : State) : Host.Outcome State Fault Refusal :=
  runInstr false (loopWhile (fun z => z) (sext 32 disp)) s

/-- LOOPNE_LOOPNZ db, `E0 db` (R477). -/
def execLoopne (disp : Byte) (s : State) : Host.Outcome State Fault Refusal :=
  runInstr false (loopWhile (fun z => !z) (sext 32 disp)) s

/-- CALL dw / dd (near), `E8 dw/dd` (R478). -/
def execCallNear (disp : Sized) (s : State) : Host.Outcome State Fault Refusal :=
  runInstr false (callRel (Sized.sext disp)) s

/-- CALL r/mw / r/md (near indirect), `FF [2]` (R478). -/
def execCallRmv (rm : RM) (s : State) : Host.Outcome State Fault Refusal :=
  runInstr false (callRm s.osz.width rm) s

/-- CALL pd / pp (far direct), `9A pd/pp` (R479). -/
def execCallFar (off : Sized) (sel : Word16) (s : State) : Host.Outcome State Fault Refusal :=
  runInstr false (farCall sel (Sized.zext off)) s

/-- CALL mw:w / mw:d (far indirect), `FF [3]` (R479). -/
def execCallFarMem (m : EA) (s : State) : Host.Outcome State Fault Refusal :=
  runInstr false (callFarThrough m) s

/-- RET (near), `C3` (R480). -/
def execRetNear (s : State) : Host.Outcome State Fault Refusal :=
  runInstr false (returnNear 0) s

/-- RET iw (near), `C2 iw` (R480). -/
def execRetNearIw (n : Word16) (s : State) : Host.Outcome State Fault Refusal :=
  runInstr false (returnNear n) s

/-- RET (far), `CB` (R480). -/
def execRetFar (s : State) : Host.Outcome State Fault Refusal :=
  runInstr false (farReturn 0) s

/-- RET iw (far), `CA iw` (R480). -/
def execRetFarIw (n : Word16) (s : State) : Host.Outcome State Fault Refusal :=
  runInstr false (farReturn n) s

/-- INT 3, `CC` (R495). -/
def execInt3 (s : State) : Host.Outcome State Fault Refusal :=
  runInstr false (softwareInterrupt 3) s

/-- INT ib, `CD ib` (R495). -/
def execIntIb (v : Byte) (s : State) : Host.Outcome State Fault Refusal :=
  runInstr false (intVector v) s

/-- INTO, `CE` (R496). -/
def execInto (s : State) : Host.Outcome State Fault Refusal :=
  runInstr false interruptOnOverflow s

/-- IRET_IRETD, `CF` (R500). -/
def execIret (s : State) : Host.Outcome State Fault Refusal :=
  runInstr false interruptReturn s

/-- ENTER iw,ib, `C8 iw ib` (R505). -/
def execEnter (n : Word16) (level : Byte) (s : State) : Host.Outcome State Fault Refusal :=
  runInstr false (enterFrame n level) s

/-- LEAVE, `C9` (R506). -/
def execLeave (s : State) : Host.Outcome State Fault Refusal :=
  runInstr false leaveFrame s

/-- BOUND rw,mw / rd,md, `62 [r]` (R510). -/
def execBound (r : Reg) (m : EA) (s : State) : Host.Outcome State Fault Refusal :=
  runInstr false (checkBounds r m) s

end Sys2Proof.Machine
end

