-- ==== Sys2Proof/Machine/Prefix.lean ====
section
/-! DEFINITION. The prefixes: each latches what it selects for the instruction that follows (log entry 13).
Rules: 30_encoding.md R171, R174 to R176, R195; 43_string.md R440; 45_flag_processor_control.md R530. -/

namespace Sys2Proof.Machine

/-- Change the prefixes taken so far. -/
def latch (f : Pfx → Pfx) (s : State) : Host.Outcome State Fault Refusal := .next { s with pfx := f s.pfx }

/-- LOCK prefix, `F0` (R530). -/
def execLock (s : State) : Host.Outcome State Fault Refusal :=
  latch (fun p => { p with lock := true }) s

/-- REPNE_REPNZ prefix, `F2` (R440). -/
def execRepne (s : State) : Host.Outcome State Fault Refusal :=
  latch (fun p => { p with rep := some .repne }) s

/-- REP_REPE_REPZ prefix, `F3` (R440). -/
def execRep (s : State) : Host.Outcome State Fault Refusal :=
  latch (fun p => { p with rep := some .rep }) s

/-- ES: segment-override prefix, `26` (R174). -/
def execSegEs (s : State) : Host.Outcome State Fault Refusal :=
  latch (fun p => { p with seg := some .es }) s

/-- CS: segment-override prefix, `2E` (R174). -/
def execSegCs (s : State) : Host.Outcome State Fault Refusal :=
  latch (fun p => { p with seg := some .cs }) s

/-- SS: segment-override prefix, `36` (R174). -/
def execSegSs (s : State) : Host.Outcome State Fault Refusal :=
  latch (fun p => { p with seg := some .ss }) s

/-- DS: segment-override prefix, `3E` (R174). -/
def execSegDs (s : State) : Host.Outcome State Fault Refusal :=
  latch (fun p => { p with seg := some .ds }) s

/-- FS: segment-override prefix, `64` (R174). -/
def execSegFs (s : State) : Host.Outcome State Fault Refusal :=
  latch (fun p => { p with seg := some .fs }) s

/-- GS: segment-override prefix, `65` (R174). -/
def execSegGs (s : State) : Host.Outcome State Fault Refusal :=
  latch (fun p => { p with seg := some .gs }) s

/-- OPSIZE operand-size prefix, `66` (R175). -/
def execOpSize (s : State) : Host.Outcome State Fault Refusal :=
  latch (fun p => { p with opSize := true }) s

/-- ADDRSIZE address-size prefix, `67` (R176). -/
def execAddrSize (s : State) : Host.Outcome State Fault Refusal :=
  latch (fun p => { p with addrSize := true }) s

end Sys2Proof.Machine
end

