-- ==== Sys2Proof/Machine/Processor.lean ====
section
/-! DEFINITION. Flag control and processor control.
Rules: 45_flag_processor_control.md R520 to R539. -/

namespace Sys2Proof.Machine

/-- Change the flags (R520 to R524). -/
def changeFlags (f : Flags → Flags) : M Unit := do
  let g ← getFlags
  putFlags (f g)

/-- The privilege CLI and STI need: CPL ≤ IOPL in mode P, IOPL = 3 in mode V (R525, R526). -/
def requireIopl : M Unit := do
  let s ← get
  require (match s.mode with
    | .real => true
    | .prot => decide (s.cpl ≤ s.flags.iopl)
    | .v86 => s.flags.iopl == 3) (exnGP 0)

/-- CLI (R525). -/
def clearInterrupts : M Unit := do
  requireIopl
  changeFlags fun f => { f with ifl := false }

/-- STI: the interrupt shadow when IF was 0 (R526). -/
def setInterrupts : M Unit := do
  requireIopl
  let f ← getFlags
  if f.ifl then pure () else modify fun s => { s with inhibit := true }
  putFlags { f with ifl := true }

/-- Privilege level 0, in mode R always (R528, R611). -/
def requireLevel0 : M Unit := do
  let s ← get
  require (s.level == 0) (exnGP 0)

/-- HLT (R528). -/
def halt : M Unit := do
  requireLevel0
  modify fun s => { s with halted := true }

/-- WAIT: while BUSY# is active the instruction is begun again at every step (R529; log entry 31). -/
def waitCoprocessor : M Unit := do
  let s ← get
  require (!(s.mp && s.ts)) exnNM
  if s.lines.busy then
    require (!s.lines.error) exnMF
    throw .waiting

/-- ESC: without a coprocessor nothing but the checks (R539, D27; log entry 32). -/
def escape : M Unit := do
  let s ← get
  require (!(s.em || s.ts)) exnNM
  require (!s.lines.error) exnMF

/-- CLC, `F8` (R520). -/
def execClc (s : State) : Host.Outcome State Fault Refusal :=
  runInstr false (changeFlags fun f => { f with cf := false }) s

/-- STC, `F9` (R521). -/
def execStc (s : State) : Host.Outcome State Fault Refusal :=
  runInstr false (changeFlags fun f => { f with cf := true }) s

/-- CMC, `F5` (R522). -/
def execCmc (s : State) : Host.Outcome State Fault Refusal :=
  runInstr false (changeFlags fun f => { f with cf := !f.cf }) s

/-- CLD, `FC` (R523). -/
def execCld (s : State) : Host.Outcome State Fault Refusal :=
  runInstr false (changeFlags fun f => { f with df := false }) s

/-- STD, `FD` (R524). -/
def execStd (s : State) : Host.Outcome State Fault Refusal :=
  runInstr false (changeFlags fun f => { f with df := true }) s

/-- CLI, `FA` (R525). -/
def execCli (s : State) : Host.Outcome State Fault Refusal :=
  runInstr false clearInterrupts s

/-- STI, `FB` (R526). -/
def execSti (s : State) : Host.Outcome State Fault Refusal :=
  runInstr false setInterrupts s

/-- HLT, `F4` (R528). -/
def execHlt (s : State) : Host.Outcome State Fault Refusal :=
  runInstr false halt s

/-- WAIT, `9B` (R529). -/
def execWait (s : State) : Host.Outcome State Fault Refusal :=
  runInstr false waitCoprocessor s

/-- NOP, `90` (R533). -/
def execNop (s : State) : Host.Outcome State Fault Refusal :=
  runInstr false (pure ()) s

/-- ESC r/m (coprocessor escape), `D8..DF [r]` (R539). -/
def execEsc (_op : BitVec 3) (_ext : BitVec 3) (_rm : RM) (s : State) : Host.Outcome State Fault Refusal :=
  runInstr false escape s

end Sys2Proof.Machine
end

