-- ==== Sys2Proof/Machine/Strings.lean ====
section
/-! DEFINITION. The string instructions and the repeat prefixes, one iteration to a step.
Rules: 43_string.md R430 to R440 (log entry 48). -/

namespace Sys2Proof.Machine

/-- An index register after one element: up or down by DF, at the address size (R430). -/
def advanced (s : State) (w : Width) (r : Reg) : Word32 :=
  let v := s.regs.get r
  setSized s.asz v (if s.flags.df then v - Width.off w else v + Width.off w)

/-- `Advance(R)` (R430). -/
def advance (w : Width) (r : Reg) : M Unit :=
  modify fun s => s.setReg r (advanced s w r)

/-- `SI'` or `DI'` (R430). -/
def indexOf (r : Reg) : M Word32 := do
  let s ← get
  pure (wrap s.asz (s.regs.get r))

/-- Read the string source, in DS unless overridden (R430). -/
def readSource (w : Width) : M (BitVec w.bits) := do
  let s ← get
  let off ← indexOf .esi
  memRead w (s.segOr .ds) off

/-- Read the string destination, always in ES (R430). -/
def readDest (w : Width) : M (BitVec w.bits) := do
  let off ← indexOf .edi
  memRead w .es off

/-- One MOVS (R431). -/
def movsOnce (w : Width) : M Unit := do
  let v ← readSource w
  let off ← indexOf .edi
  memWrite w .es off v
  advance w .esi
  advance w .edi

/-- One CMPS: the source element minus the destination element (R432). -/
def cmpsOnce (w : Width) : M Unit := do
  let a ← readSource w
  let b ← readDest w
  let f ← getFlags
  putFlags (subFlags a b false f)
  advance w .esi
  advance w .edi

/-- One SCAS: the accumulator minus the destination element (R433). -/
def scasOnce (w : Width) : M Unit := do
  let b ← readDest w
  let a ← getReg w .eax
  let f ← getFlags
  putFlags (subFlags a b false f)
  advance w .edi

/-- One LODS (R434). -/
def lodsOnce (w : Width) : M Unit := do
  let v ← readSource w
  putReg w .eax v
  advance w .esi

/-- One STOS (R435). -/
def stosOnce (w : Width) : M Unit := do
  let v ← getReg w .eax
  let off ← indexOf .edi
  memWrite w .es off v
  advance w .edi

/-- One INS: permission, then the destination's checks, then the port, then the store (R436, D17). -/
def insOnce (w : Width) : M Unit := do
  let port ← getReg .w16 .edx
  ioCheck port w.bytes
  let off ← indexOf .edi
  let ps ← translate .write .es off w.bytes
  let v ← portIn w port
  storeBytes ps (leBytes w.bytes v)
  advance w .edi

/-- One OUTS (R437). -/
def outsOnce (w : Width) : M Unit := do
  let v ← readSource w
  let port ← getReg .w16 .edx
  ioWrite w port v
  advance w .esi

/-- Whether the iteration just done ends a CMPS or SCAS by ZF (R440). -/
def endsByZf (p : Rep) (zf : Bool) : Bool :=
  match p with
  | .rep => !zf
  | .repne => zf

/-- Begin the same instruction again at the next step, with RF as it was (R440; log entries 16 and 48). -/
def again : M Unit := modify fun s => { s.setEip s.curEip with rfKept := true }

/-- A string instruction under its repeat prefix, if any: one iteration (R440, U43). `compares` is true
of CMPS and SCAS. -/
def repeated (compares : Bool) (once : M Unit) : M Unit := do
  let s ← get
  match s.pfx.rep with
  | none => once
  | some p =>
    if wrap s.asz s.regs.ecx = 0 then pure ()
    else
      once
      modify fun t => t.setReg .ecx (setSized t.asz t.regs.ecx (t.regs.ecx - 1))
      let t ← get
      if wrap t.asz t.regs.ecx = 0 || (compares && endsByZf p t.flags.zf) then pure ()
      else again

/-- MOVSB, `A4` (R431). -/
def execMovsb (s : State) : Host.Outcome State Fault Refusal :=
  runInstr false (repeated false (movsOnce .b8)) s

/-- MOVSW_MOVSD, `A5` (R431). -/
def execMovsv (s : State) : Host.Outcome State Fault Refusal :=
  runInstr false (repeated false (movsOnce s.osz.width)) s

/-- CMPSB, `A6` (R432). -/
def execCmpsb (s : State) : Host.Outcome State Fault Refusal :=
  runInstr false (repeated true (cmpsOnce .b8)) s

/-- CMPSW_CMPSD, `A7` (R432). -/
def execCmpsv (s : State) : Host.Outcome State Fault Refusal :=
  runInstr false (repeated true (cmpsOnce s.osz.width)) s

/-- STOSB, `AA` (R435). -/
def execStosb (s : State) : Host.Outcome State Fault Refusal :=
  runInstr false (repeated false (stosOnce .b8)) s

/-- STOSW_STOSD, `AB` (R435). -/
def execStosv (s : State) : Host.Outcome State Fault Refusal :=
  runInstr false (repeated false (stosOnce s.osz.width)) s

/-- LODSB, `AC` (R434). -/
def execLodsb (s : State) : Host.Outcome State Fault Refusal :=
  runInstr false (repeated false (lodsOnce .b8)) s

/-- LODSW_LODSD, `AD` (R434). -/
def execLodsv (s : State) : Host.Outcome State Fault Refusal :=
  runInstr false (repeated false (lodsOnce s.osz.width)) s

/-- SCASB, `AE` (R433). -/
def execScasb (s : State) : Host.Outcome State Fault Refusal :=
  runInstr false (repeated true (scasOnce .b8)) s

/-- SCASW_SCASD, `AF` (R433). -/
def execScasv (s : State) : Host.Outcome State Fault Refusal :=
  runInstr false (repeated true (scasOnce s.osz.width)) s

/-- INSB, `6C` (R436). -/
def execInsb (s : State) : Host.Outcome State Fault Refusal :=
  runInstr false (repeated false (insOnce .b8)) s

/-- INSW_INSD, `6D` (R436). -/
def execInsv (s : State) : Host.Outcome State Fault Refusal :=
  runInstr false (repeated false (insOnce s.osz.width)) s

/-- OUTSB, `6E` (R437). -/
def execOutsb (s : State) : Host.Outcome State Fault Refusal :=
  runInstr false (repeated false (outsOnce .b8)) s

/-- OUTSW_OUTSD, `6F` (R437). -/
def execOutsv (s : State) : Host.Outcome State Fault Refusal :=
  runInstr false (repeated false (outsOnce s.osz.width)) s

end Sys2Proof.Machine
end

