-- ==== Sys2Proof/Machine/Transfer.lean ====
section
/-! DEFINITION. Data transfer, stack, address, I/O and conversion instructions.
Rules: 40_data_transfer.md R250 to R301. -/

namespace Sys2Proof.Machine

/-- The register of the immediate's or operand's destination receives a value (R250). -/
def movRegImm (w : Width) (r : Reg) (v : BitVec w.bits) : M Unit := putReg w r v

/-- MOV r/m,r (R250). -/
def movRmReg (w : Width) (rm : RM) (r : Reg) : M Unit := do
  let v ← getReg w r
  writeRM w rm v

/-- MOV r,r/m (R250). -/
def movRegRm (w : Width) (r : Reg) (rm : RM) : M Unit := do
  let v ← readRM w rm
  putReg w r v

/-- MOV between the accumulator and a direct offset, in DS unless overridden: the load (R188, R250). -/
def movAccMem (w : Width) (off : Word32) : M Unit := do
  let s ← get
  let v ← memRead w (s.segOr .ds) off
  putReg w .eax v

/-- MOV between the accumulator and a direct offset, in DS unless overridden: the store (R188, R250). -/
def movMemAcc (w : Width) (off : Word32) : M Unit := do
  let s ← get
  memWrite w (s.segOr .ds) off (readReg w s.regs .eax)

/-- MOV r/m,sreg, always 16 bits (R262; log entry 36). -/
def movRmSreg (rm : RM) (sr : SReg) : M Unit := do
  let s ← get
  writeRM .w16 rm (s.segs.get sr).sel

/-- Set the interrupt shadow (R64). -/
def setInhibit : M Unit := modify fun s => { s with inhibit := true }

/-- MOV sreg,r/m; a load of SS sets the interrupt shadow (R262). A term naming CS, which no encoding gives,
raises exception 6 (D22). -/
def movSregRm (sr : SReg) (rm : RM) : M Unit := do
  if sr = .cs then raise exnUD
  else
    let v ← readRM .w16 rm
    loadSeg sr v
    if sr = .ss then setInhibit

/-- MOVSX or MOVZX from a narrower operand, through `ext` (R263, R264). -/
def movExtend (src dst : Width) (ext : BitVec src.bits → BitVec dst.bits) (r : Reg) (rm : RM) : M Unit := do
  let v ← readRM src rm
  putReg dst r (ext v)

/-- XCHG r,r/m: the memory operand is translated once, for writing (R265, R121). -/
def xchgRegRm (w : Width) (r : Reg) (rm : RM) : M Unit := do
  let l ← locate w .write rm
  let t ← readLoc w l
  let v ← getReg w r
  writeLoc w l v
  putReg w r t

/-- PUSH of a general register: the value before the decrement (R270). -/
def pushReg (w : Width) (r : Reg) : M Unit := do
  let v ← getReg w r
  push w v

/-- PUSH r/m (R270). -/
def pushRm (w : Width) (rm : RM) : M Unit := do
  let v ← readRM w rm
  push w v

/-- PUSH of a segment register with the operand size (R270; log entry 9). -/
def pushSreg (sr : SReg) : M Unit := do
  let s ← get
  pushSelector s.osz (s.segs.get sr).sel

/-- POP of a general register; POP (E)SP keeps the popped value (R275). -/
def popReg (w : Width) (r : Reg) : M Unit := do
  let v ← pop w
  putReg w r v

/-- POP into memory: the effective address is computed after the increment (R141, R275). -/
def popMem (w : Width) (m : EA) : M Unit := do
  let v ← pop w
  let s ← get
  memWrite w (s.segOr (eaSeg m)) (eaOffset s.regs m) v

/-- POP of a segment register: (E)SP moves after the load, by the `StackSize` before it (R278; log
entry 29). -/
def popSreg (sr : SReg) : M Unit := do
  let s ← get
  let w := s.osz.width
  let v ← memRead w .ss s.sp
  loadSeg sr (v.setWidth 16)
  modify fun t => { t with regs := s.regsWithSp (s.sp + Width.off w) }
  if sr = .ss then setInhibit

/-- A shutdown in the middle leaves nothing of the instruction done (R142, R280). -/
def allOrNothing (m : M Unit) : M Unit := fun s =>
  match m s with
  | .error .shutdown _ => .error .shutdown s
  | r => r

/-- PUSHA / PUSHAD; in modes R and V an odd SP of at most 5 shuts down, 7 to 15 is exception 13 (R142, R280), which
has no error code in mode V either: DEDUCED, log entry 18. The image of (E)SP that is stored is taken by the operand
size, all 32 bits of ESP by PUSHAD on a 16-bit stack too: DESIGN CHOICE, log entry 58. -/
def pushAllRegs : M Unit := do
  let s ← get
  let w := s.osz.width
  let sp := s.sp.toNat
  if s.mode != .prot && sp % 2 == 1 && decide (sp ≤ 5) then throw .shutdown
  else if s.mode != .prot && sp % 2 == 1 && decide (sp ≤ 15) then raise exn13
  else allOrNothing (pushAll w
    ([.eax, .ecx, .edx, .ebx, .esp, .ebp, .esi, .edi].map fun r => readReg w s.regs r))

/-- POPA / POPAD: the image of (E)SP is discarded (R281). -/
def popAllRegs : M Unit := do
  let s ← get
  let w := s.osz.width
  popReg w .edi
  popReg w .esi
  popReg w .ebp
  let _ ← pop w
  popReg w .ebx
  popReg w .edx
  popReg w .ecx
  popReg w .eax

/-- In mode V an IOPL-sensitive instruction needs IOPL = 3 (R612). -/
def requireIoplV86 : M Unit := do
  let s ← get
  require (s.mode != .v86 || s.flags.iopl == 3) (exnGP 0)

/-- PUSHF / PUSHFD (R283). -/
def pushFlags : M Unit := do
  requireIoplV86
  let s ← get
  let w := s.osz.width
  push w (s.flags.pushImage.setWidth w.bits)

/-- POPF / POPFD (R284). -/
def popFlags : M Unit := do
  requireIoplV86
  let s ← get
  let w := s.osz.width
  let v ← pop w
  putFlags (s.flags.popf s.level (v.setWidth 32))

/-- LEA: the offset of the memory form, cut or zero-extended to the operand size (R286). -/
def loadOffset (r : Reg) (m : EA) : M Unit := do
  let s ← get
  let w := s.osz.width
  putReg w r ((eaOffset s.regs m).setWidth w.bits)

/-- `LoadFar(sreg)`: offset first, then the selector (R287). -/
def loadFar (sr : SReg) (r : Reg) (m : EA) : M Unit := do
  let s ← get
  let w := s.osz.width
  let off ← readEA w m 0
  let sel ← readEA .w16 m (Width.off w)
  loadSeg sr sel
  putReg w r off

/-- XLAT (R293). -/
def translateByte : M Unit := do
  let s ← get
  let al : Byte := readReg .b8 s.regs .al
  let off := wrap s.asz (s.regs.ebx + al.setWidth 32)
  let v ← memRead .b8 (s.segOr .ds) off
  putReg .b8 .al v

/-- IN: a port into the accumulator (R295). -/
def inPort (w : Width) (port : Word16) : M Unit := do
  let v ← ioRead w port
  putReg w .eax v

/-- OUT: the accumulator to a port (R296). -/
def outPort (w : Width) (port : Word16) : M Unit := do
  let v ← getReg w .eax
  ioWrite w port v

/-- CBW or CWDE (R300). -/
def convertAcc : M Unit := do
  let s ← get
  match s.osz with
  | .s16 => putReg .w16 .eax ((readReg .b8 s.regs .al).signExtend 16)
  | .s32 => putReg .d32 .eax ((readReg .w16 s.regs .eax).signExtend 32)

/-- CWD or CDQ (R301). -/
def signAcc : M Unit := do
  let s ← get
  let w := s.osz.width
  putReg w .edx (if (readReg w s.regs .eax).msb then BitVec.allOnes w.bits else 0)

/-- MOV rb,ib, `B0+r ib` (R250). -/
def execMovRbIb (r : Reg) (imm : Byte) (s : State) : Host.Outcome State Fault Refusal :=
  runInstr false (movRegImm .b8 r imm) s

/-- MOV rw,iw / rd,id, `B8+r iw/id` (R250). -/
def execMovRvIv (r : Reg) (imm : Sized) (s : State) : Host.Outcome State Fault Refusal :=
  runInstr false (movRegImm s.osz.width r (Sized.at _ imm)) s

/-- MOV r/mb,ib, `C6 [0] ib` (R250). -/
def execMovRmbIb (rm : RM) (imm : Byte) (s : State) : Host.Outcome State Fault Refusal :=
  runInstr false (writeRM .b8 rm imm) s

/-- MOV r/mw,iw / r/md,id, `C7 [0] iw/id` (R250). -/
def execMovRmvIv (rm : RM) (imm : Sized) (s : State) : Host.Outcome State Fault Refusal :=
  runInstr false (writeRM s.osz.width rm (Sized.at _ imm)) s

/-- MOV AL,[d], `A0 d(asz)` (R250). -/
def execMovAlOff (off : Sized) (s : State) : Host.Outcome State Fault Refusal :=
  runInstr false (movAccMem .b8 (Sized.zext off)) s

/-- MOV AX,[d] / EAX,[d], `A1 d(asz)` (R250). -/
def execMovAxOff (off : Sized) (s : State) : Host.Outcome State Fault Refusal :=
  runInstr false (movAccMem s.osz.width (Sized.zext off)) s

/-- MOV [d],AL, `A2 d(asz)` (R250). -/
def execMovOffAl (off : Sized) (s : State) : Host.Outcome State Fault Refusal :=
  runInstr false (movMemAcc .b8 (Sized.zext off)) s

/-- MOV [d],AX / [d],EAX, `A3 d(asz)` (R250). -/
def execMovOffAx (off : Sized) (s : State) : Host.Outcome State Fault Refusal :=
  runInstr false (movMemAcc s.osz.width (Sized.zext off)) s

/-- MOV r/mb,rb, `88 [r]` (R250). -/
def execMovRmbRb (rm : RM) (r : Reg) (s : State) : Host.Outcome State Fault Refusal :=
  runInstr false (movRmReg .b8 rm r) s

/-- MOV r/mw,rw / r/md,rd, `89 [r]` (R250). -/
def execMovRmvRv (rm : RM) (r : Reg) (s : State) : Host.Outcome State Fault Refusal :=
  runInstr false (movRmReg s.osz.width rm r) s

/-- MOV rb,r/mb, `8A [r]` (R250). -/
def execMovRbRmb (r : Reg) (rm : RM) (s : State) : Host.Outcome State Fault Refusal :=
  runInstr false (movRegRm .b8 r rm) s

/-- MOV rw,r/mw / rd,r/md, `8B [r]` (R250). -/
def execMovRvRmv (r : Reg) (rm : RM) (s : State) : Host.Outcome State Fault Refusal :=
  runInstr false (movRegRm s.osz.width r rm) s

/-- MOV r/mw,sreg, `8C [s]` (R262). -/
def execMovRmwSreg (rm : RM) (sr : SReg) (s : State) : Host.Outcome State Fault Refusal :=
  runInstr false (movRmSreg rm sr) s

/-- MOV sreg,r/mw, `8E [s]` (R262). -/
def execMovSregRmw (sr : SReg) (rm : RM) (s : State) : Host.Outcome State Fault Refusal :=
  runInstr false (movSregRm sr rm) s

/-- MOVSX rw,r/mb / rd,r/mb, `0F BE [r]` (R263). -/
def execMovsxRvRmb (r : Reg) (rm : RM) (s : State) : Host.Outcome State Fault Refusal :=
  runInstr false (movExtend .b8 s.osz.width (sext _) r rm) s

/-- MOVSX rd,r/mw, `0F BF [r]` (R263). -/
def execMovsxRdRmw (r : Reg) (rm : RM) (s : State) : Host.Outcome State Fault Refusal :=
  runInstr false (movExtend .w16 s.osz.width (sext _) r rm) s

/-- MOVZX rw,r/mb / rd,r/mb, `0F B6 [r]` (R264). -/
def execMovzxRvRmb (r : Reg) (rm : RM) (s : State) : Host.Outcome State Fault Refusal :=
  runInstr false (movExtend .b8 s.osz.width (zext _) r rm) s

/-- MOVZX rd,r/mw, `0F B7 [r]` (R264). -/
def execMovzxRdRmw (r : Reg) (rm : RM) (s : State) : Host.Outcome State Fault Refusal :=
  runInstr false (movExtend .w16 s.osz.width (zext _) r rm) s

/-- XCHG AX,rw / EAX,rd, `90+r` (R265). -/
def execXchgAxRv (r : Reg) (s : State) : Host.Outcome State Fault Refusal :=
  runInstr false (xchgRegRm s.osz.width .eax (.reg r)) s

/-- XCHG rb,r/mb, `86 [r]` (R265). -/
def execXchgRbRmb (r : Reg) (rm : RM) (s : State) : Host.Outcome State Fault Refusal :=
  runInstr (RMisMem rm) (xchgRegRm .b8 r rm) s

/-- XCHG rw,r/mw / rd,r/md, `87 [r]` (R265). -/
def execXchgRvRmv (r : Reg) (rm : RM) (s : State) : Host.Outcome State Fault Refusal :=
  runInstr (RMisMem rm) (xchgRegRm s.osz.width r rm) s

/-- PUSH mw / md, `FF [6]` (R270). -/
def execPushRmv (rm : RM) (s : State) : Host.Outcome State Fault Refusal :=
  runInstr false (pushRm s.osz.width rm) s

/-- PUSH rw / rd, `50+r` (R270). -/
def execPushRv (r : Reg) (s : State) : Host.Outcome State Fault Refusal :=
  runInstr false (pushReg s.osz.width r) s

/-- PUSH ib (sign-extended), `6A ib` (R270). -/
def execPushIb (imm : Byte) (s : State) : Host.Outcome State Fault Refusal :=
  runInstr false (push s.osz.width (sext _ imm)) s

/-- PUSH iw / id, `68 iw/id` (R270). -/
def execPushIv (imm : Sized) (s : State) : Host.Outcome State Fault Refusal :=
  runInstr false (push s.osz.width (Sized.at _ imm)) s

/-- PUSH CS, `0E` (R270). -/
def execPushCs (s : State) : Host.Outcome State Fault Refusal :=
  runInstr false (pushSreg .cs) s

/-- PUSH DS, `1E` (R270). -/
def execPushDs (s : State) : Host.Outcome State Fault Refusal :=
  runInstr false (pushSreg .ds) s

/-- PUSH ES, `06` (R270). -/
def execPushEs (s : State) : Host.Outcome State Fault Refusal :=
  runInstr false (pushSreg .es) s

/-- PUSH SS, `16` (R270). -/
def execPushSs (s : State) : Host.Outcome State Fault Refusal :=
  runInstr false (pushSreg .ss) s

/-- PUSH FS, `0F A0` (R270). -/
def execPushFs (s : State) : Host.Outcome State Fault Refusal :=
  runInstr false (pushSreg .fs) s

/-- PUSH GS, `0F A8` (R270). -/
def execPushGs (s : State) : Host.Outcome State Fault Refusal :=
  runInstr false (pushSreg .gs) s

/-- POP mw / md, `8F [0]`, into memory only (R181, R275; log entry 54). -/
def execPopRmv (m : EA) (s : State) : Host.Outcome State Fault Refusal :=
  runInstr false (popMem s.osz.width m) s

/-- POP rw / rd, `58+r` (R275). -/
def execPopRv (r : Reg) (s : State) : Host.Outcome State Fault Refusal :=
  runInstr false (popReg s.osz.width r) s

/-- POP DS, `1F` (R278). -/
def execPopDs (s : State) : Host.Outcome State Fault Refusal :=
  runInstr false (popSreg .ds) s

/-- POP ES, `07` (R278). -/
def execPopEs (s : State) : Host.Outcome State Fault Refusal :=
  runInstr false (popSreg .es) s

/-- POP SS, `17` (R278). -/
def execPopSs (s : State) : Host.Outcome State Fault Refusal :=
  runInstr false (popSreg .ss) s

/-- POP FS, `0F A1` (R278). -/
def execPopFs (s : State) : Host.Outcome State Fault Refusal :=
  runInstr false (popSreg .fs) s

/-- POP GS, `0F A9` (R278). -/
def execPopGs (s : State) : Host.Outcome State Fault Refusal :=
  runInstr false (popSreg .gs) s

/-- PUSHA_PUSHAD, `60` (R280). -/
def execPusha (s : State) : Host.Outcome State Fault Refusal :=
  runInstr false pushAllRegs s

/-- POPA_POPAD, `61` (R281). -/
def execPopa (s : State) : Host.Outcome State Fault Refusal :=
  runInstr false popAllRegs s

/-- PUSHF_PUSHFD, `9C` (R283). -/
def execPushf (s : State) : Host.Outcome State Fault Refusal :=
  runInstr false pushFlags s

/-- POPF_POPFD, `9D` (R284). -/
def execPopf (s : State) : Host.Outcome State Fault Refusal :=
  runInstr false popFlags s

/-- LEA rw,m / rd,m, `8D [r]` (R286). -/
def execLea (r : Reg) (m : EA) (s : State) : Host.Outcome State Fault Refusal :=
  runInstr false (loadOffset r m) s

/-- LDS rw,mw:w / rd,mw:d, `C5 [r]` (R288). -/
def execLds (r : Reg) (m : EA) (s : State) : Host.Outcome State Fault Refusal :=
  runInstr false (loadFar .ds r m) s

/-- LES rw,mw:w / rd,mw:d, `C4 [r]` (R289). -/
def execLes (r : Reg) (m : EA) (s : State) : Host.Outcome State Fault Refusal :=
  runInstr false (loadFar .es r m) s

/-- LFS rw,mw:w / rd,mw:d, `0F B4 [r]` (R290). -/
def execLfs (r : Reg) (m : EA) (s : State) : Host.Outcome State Fault Refusal :=
  runInstr false (loadFar .fs r m) s

/-- LGS rw,mw:w / rd,mw:d, `0F B5 [r]` (R291). -/
def execLgs (r : Reg) (m : EA) (s : State) : Host.Outcome State Fault Refusal :=
  runInstr false (loadFar .gs r m) s

/-- LSS rw,mw:w / rd,mw:d, `0F B2 [r]` (R292). -/
def execLss (r : Reg) (m : EA) (s : State) : Host.Outcome State Fault Refusal :=
  runInstr false (loadFar .ss r m) s

/-- XLAT_XLATB, `D7` (R293). -/
def execXlat (s : State) : Host.Outcome State Fault Refusal :=
  runInstr false translateByte s

/-- IN AL,ib, `E4 ib` (R295). -/
def execInAlIb (port : Byte) (s : State) : Host.Outcome State Fault Refusal :=
  runInstr false (inPort .b8 (zext 16 port)) s

/-- IN AX,ib / EAX,ib, `E5 ib` (R295). -/
def execInAxIb (port : Byte) (s : State) : Host.Outcome State Fault Refusal :=
  runInstr false (inPort s.osz.width (zext 16 port)) s

/-- IN AL,DX, `EC` (R295). -/
def execInAlDx (s : State) : Host.Outcome State Fault Refusal :=
  runInstr false (inPort .b8 (readReg .w16 s.regs .edx)) s

/-- IN AX,DX / EAX,DX, `ED` (R295). -/
def execInAxDx (s : State) : Host.Outcome State Fault Refusal :=
  runInstr false (inPort s.osz.width (readReg .w16 s.regs .edx)) s

/-- OUT ib,AL, `E6 ib` (R296). -/
def execOutIbAl (port : Byte) (s : State) : Host.Outcome State Fault Refusal :=
  runInstr false (outPort .b8 (zext 16 port)) s

/-- OUT ib,AX / ib,EAX, `E7 ib` (R296). -/
def execOutIbAx (port : Byte) (s : State) : Host.Outcome State Fault Refusal :=
  runInstr false (outPort s.osz.width (zext 16 port)) s

/-- OUT DX,AL, `EE` (R296). -/
def execOutDxAl (s : State) : Host.Outcome State Fault Refusal :=
  runInstr false (outPort .b8 (readReg .w16 s.regs .edx)) s

/-- OUT DX,AX / DX,EAX, `EF` (R296). -/
def execOutDxAx (s : State) : Host.Outcome State Fault Refusal :=
  runInstr false (outPort s.osz.width (readReg .w16 s.regs .edx)) s

/-- LAHF, `9F` (R298). -/
def execLahf (s : State) : Host.Outcome State Fault Refusal :=
  runInstr false (putReg .b8 .ah s.flags.low) s

/-- SAHF, `9E` (R299). -/
def execSahf (s : State) : Host.Outcome State Fault Refusal :=
  runInstr false (putFlags (s.begun.flags.sahf (readReg .b8 s.regs .ah))) s

/-- CBW_CWDE, `98` (R300). -/
def execCbw (s : State) : Host.Outcome State Fault Refusal :=
  runInstr false convertAcc s

/-- CWD_CDQ, `99` (R301). -/
def execCwd (s : State) : Host.Outcome State Fault Refusal :=
  runInstr false signAcc s

end Sys2Proof.Machine
end

