-- ==== Sys2Proof/Machine/Dispatch.lean ====
section
/-! DEFINITION. The meaning of each instruction: one arm per constructor of Instr. -/

namespace Sys2Proof.Machine

/-- The meaning of an instruction or prefix, run from a state whose EIP is past the whole instruction. -/
def exec (i : Instr) (s : State) : Host.Outcome State Fault Refusal :=
  match i with
  | .movRbIb r imm => Sys2Proof.Machine.execMovRbIb r imm s
  | .movRvIv r imm => Sys2Proof.Machine.execMovRvIv r imm s
  | .movRmbIb rm imm => Sys2Proof.Machine.execMovRmbIb rm imm s
  | .movRmvIv rm imm => Sys2Proof.Machine.execMovRmvIv rm imm s
  | .movAlOff off => Sys2Proof.Machine.execMovAlOff off s
  | .movAxOff off => Sys2Proof.Machine.execMovAxOff off s
  | .movOffAl off => Sys2Proof.Machine.execMovOffAl off s
  | .movOffAx off => Sys2Proof.Machine.execMovOffAx off s
  | .movRmbRb rm r => Sys2Proof.Machine.execMovRmbRb rm r s
  | .movRmvRv rm r => Sys2Proof.Machine.execMovRmvRv rm r s
  | .movRbRmb r rm => Sys2Proof.Machine.execMovRbRmb r rm s
  | .movRvRmv r rm => Sys2Proof.Machine.execMovRvRmv r rm s
  | .movRmwSreg rm sr => Sys2Proof.Machine.execMovRmwSreg rm sr s
  | .movSregRmw sr rm => Sys2Proof.Machine.execMovSregRmw sr rm s
  | .movsxRvRmb r rm => Sys2Proof.Machine.execMovsxRvRmb r rm s
  | .movsxRdRmw r rm => Sys2Proof.Machine.execMovsxRdRmw r rm s
  | .movzxRvRmb r rm => Sys2Proof.Machine.execMovzxRvRmb r rm s
  | .movzxRdRmw r rm => Sys2Proof.Machine.execMovzxRdRmw r rm s
  | .xchgAxRv r => Sys2Proof.Machine.execXchgAxRv r s
  | .xchgRbRmb r rm => Sys2Proof.Machine.execXchgRbRmb r rm s
  | .xchgRvRmv r rm => Sys2Proof.Machine.execXchgRvRmv r rm s
  | .pushRmv rm => Sys2Proof.Machine.execPushRmv rm s
  | .pushRv r => Sys2Proof.Machine.execPushRv r s
  | .pushIb imm => Sys2Proof.Machine.execPushIb imm s
  | .pushIv imm => Sys2Proof.Machine.execPushIv imm s
  | .popRmv m => Sys2Proof.Machine.execPopRmv m s
  | .popRv r => Sys2Proof.Machine.execPopRv r s
  | .lea r m => Sys2Proof.Machine.execLea r m s
  | .lds r m => Sys2Proof.Machine.execLds r m s
  | .les r m => Sys2Proof.Machine.execLes r m s
  | .lfs r m => Sys2Proof.Machine.execLfs r m s
  | .lgs r m => Sys2Proof.Machine.execLgs r m s
  | .lss r m => Sys2Proof.Machine.execLss r m s
  | .inAlIb port => Sys2Proof.Machine.execInAlIb port s
  | .inAxIb port => Sys2Proof.Machine.execInAxIb port s
  | .outIbAl port => Sys2Proof.Machine.execOutIbAl port s
  | .outIbAx port => Sys2Proof.Machine.execOutIbAx port s
  | .aad base => Sys2Proof.Machine.execAad base s
  | .aam base => Sys2Proof.Machine.execAam base s
  | .addRmbRb rm r => Sys2Proof.Machine.execAddRmbRb rm r s
  | .addRmvRv rm r => Sys2Proof.Machine.execAddRmvRv rm r s
  | .addRbRmb r rm => Sys2Proof.Machine.execAddRbRmb r rm s
  | .addRvRmv r rm => Sys2Proof.Machine.execAddRvRmv r rm s
  | .addAlIb imm => Sys2Proof.Machine.execAddAlIb imm s
  | .addAxIv imm => Sys2Proof.Machine.execAddAxIv imm s
  | .addRmbIb rm imm => Sys2Proof.Machine.execAddRmbIb rm imm s
  | .addRmvIv rm imm => Sys2Proof.Machine.execAddRmvIv rm imm s
  | .addRmvIb rm imm => Sys2Proof.Machine.execAddRmvIb rm imm s
  | .orRmbRb rm r => Sys2Proof.Machine.execOrRmbRb rm r s
  | .orRmvRv rm r => Sys2Proof.Machine.execOrRmvRv rm r s
  | .orRbRmb r rm => Sys2Proof.Machine.execOrRbRmb r rm s
  | .orRvRmv r rm => Sys2Proof.Machine.execOrRvRmv r rm s
  | .orAlIb imm => Sys2Proof.Machine.execOrAlIb imm s
  | .orAxIv imm => Sys2Proof.Machine.execOrAxIv imm s
  | .orRmbIb rm imm => Sys2Proof.Machine.execOrRmbIb rm imm s
  | .orRmvIv rm imm => Sys2Proof.Machine.execOrRmvIv rm imm s
  | .orRmvIb rm imm => Sys2Proof.Machine.execOrRmvIb rm imm s
  | .adcRmbRb rm r => Sys2Proof.Machine.execAdcRmbRb rm r s
  | .adcRmvRv rm r => Sys2Proof.Machine.execAdcRmvRv rm r s
  | .adcRbRmb r rm => Sys2Proof.Machine.execAdcRbRmb r rm s
  | .adcRvRmv r rm => Sys2Proof.Machine.execAdcRvRmv r rm s
  | .adcAlIb imm => Sys2Proof.Machine.execAdcAlIb imm s
  | .adcAxIv imm => Sys2Proof.Machine.execAdcAxIv imm s
  | .adcRmbIb rm imm => Sys2Proof.Machine.execAdcRmbIb rm imm s
  | .adcRmvIv rm imm => Sys2Proof.Machine.execAdcRmvIv rm imm s
  | .adcRmvIb rm imm => Sys2Proof.Machine.execAdcRmvIb rm imm s
  | .sbbRmbRb rm r => Sys2Proof.Machine.execSbbRmbRb rm r s
  | .sbbRmvRv rm r => Sys2Proof.Machine.execSbbRmvRv rm r s
  | .sbbRbRmb r rm => Sys2Proof.Machine.execSbbRbRmb r rm s
  | .sbbRvRmv r rm => Sys2Proof.Machine.execSbbRvRmv r rm s
  | .sbbAlIb imm => Sys2Proof.Machine.execSbbAlIb imm s
  | .sbbAxIv imm => Sys2Proof.Machine.execSbbAxIv imm s
  | .sbbRmbIb rm imm => Sys2Proof.Machine.execSbbRmbIb rm imm s
  | .sbbRmvIv rm imm => Sys2Proof.Machine.execSbbRmvIv rm imm s
  | .sbbRmvIb rm imm => Sys2Proof.Machine.execSbbRmvIb rm imm s
  | .andRmbRb rm r => Sys2Proof.Machine.execAndRmbRb rm r s
  | .andRmvRv rm r => Sys2Proof.Machine.execAndRmvRv rm r s
  | .andRbRmb r rm => Sys2Proof.Machine.execAndRbRmb r rm s
  | .andRvRmv r rm => Sys2Proof.Machine.execAndRvRmv r rm s
  | .andAlIb imm => Sys2Proof.Machine.execAndAlIb imm s
  | .andAxIv imm => Sys2Proof.Machine.execAndAxIv imm s
  | .andRmbIb rm imm => Sys2Proof.Machine.execAndRmbIb rm imm s
  | .andRmvIv rm imm => Sys2Proof.Machine.execAndRmvIv rm imm s
  | .andRmvIb rm imm => Sys2Proof.Machine.execAndRmvIb rm imm s
  | .subRmbRb rm r => Sys2Proof.Machine.execSubRmbRb rm r s
  | .subRmvRv rm r => Sys2Proof.Machine.execSubRmvRv rm r s
  | .subRbRmb r rm => Sys2Proof.Machine.execSubRbRmb r rm s
  | .subRvRmv r rm => Sys2Proof.Machine.execSubRvRmv r rm s
  | .subAlIb imm => Sys2Proof.Machine.execSubAlIb imm s
  | .subAxIv imm => Sys2Proof.Machine.execSubAxIv imm s
  | .subRmbIb rm imm => Sys2Proof.Machine.execSubRmbIb rm imm s
  | .subRmvIv rm imm => Sys2Proof.Machine.execSubRmvIv rm imm s
  | .subRmvIb rm imm => Sys2Proof.Machine.execSubRmvIb rm imm s
  | .xorRmbRb rm r => Sys2Proof.Machine.execXorRmbRb rm r s
  | .xorRmvRv rm r => Sys2Proof.Machine.execXorRmvRv rm r s
  | .xorRbRmb r rm => Sys2Proof.Machine.execXorRbRmb r rm s
  | .xorRvRmv r rm => Sys2Proof.Machine.execXorRvRmv r rm s
  | .xorAlIb imm => Sys2Proof.Machine.execXorAlIb imm s
  | .xorAxIv imm => Sys2Proof.Machine.execXorAxIv imm s
  | .xorRmbIb rm imm => Sys2Proof.Machine.execXorRmbIb rm imm s
  | .xorRmvIv rm imm => Sys2Proof.Machine.execXorRmvIv rm imm s
  | .xorRmvIb rm imm => Sys2Proof.Machine.execXorRmvIb rm imm s
  | .cmpRmbRb rm r => Sys2Proof.Machine.execCmpRmbRb rm r s
  | .cmpRmvRv rm r => Sys2Proof.Machine.execCmpRmvRv rm r s
  | .cmpRbRmb r rm => Sys2Proof.Machine.execCmpRbRmb r rm s
  | .cmpRvRmv r rm => Sys2Proof.Machine.execCmpRvRmv r rm s
  | .cmpAlIb imm => Sys2Proof.Machine.execCmpAlIb imm s
  | .cmpAxIv imm => Sys2Proof.Machine.execCmpAxIv imm s
  | .cmpRmbIb rm imm => Sys2Proof.Machine.execCmpRmbIb rm imm s
  | .cmpRmvIv rm imm => Sys2Proof.Machine.execCmpRmvIv rm imm s
  | .cmpRmvIb rm imm => Sys2Proof.Machine.execCmpRmvIb rm imm s
  | .incRmb rm => Sys2Proof.Machine.execIncRmb rm s
  | .incRmv rm => Sys2Proof.Machine.execIncRmv rm s
  | .incRv r => Sys2Proof.Machine.execIncRv r s
  | .decRmb rm => Sys2Proof.Machine.execDecRmb rm s
  | .decRmv rm => Sys2Proof.Machine.execDecRmv rm s
  | .decRv r => Sys2Proof.Machine.execDecRv r s
  | .testRmbIb rm imm => Sys2Proof.Machine.execTestRmbIb rm imm s
  | .testRmvIv rm imm => Sys2Proof.Machine.execTestRmvIv rm imm s
  | .notRmb rm => Sys2Proof.Machine.execNotRmb rm s
  | .notRmv rm => Sys2Proof.Machine.execNotRmv rm s
  | .negRmb rm => Sys2Proof.Machine.execNegRmb rm s
  | .negRmv rm => Sys2Proof.Machine.execNegRmv rm s
  | .mulRmb rm => Sys2Proof.Machine.execMulRmb rm s
  | .mulRmv rm => Sys2Proof.Machine.execMulRmv rm s
  | .imulRmb rm => Sys2Proof.Machine.execImulRmb rm s
  | .imulRmv rm => Sys2Proof.Machine.execImulRmv rm s
  | .divRmb rm => Sys2Proof.Machine.execDivRmb rm s
  | .divRmv rm => Sys2Proof.Machine.execDivRmv rm s
  | .idivRmb rm => Sys2Proof.Machine.execIdivRmb rm s
  | .idivRmv rm => Sys2Proof.Machine.execIdivRmv rm s
  | .imulRvRmv r rm => Sys2Proof.Machine.execImulRvRmv r rm s
  | .imulRvRmvIb r rm imm => Sys2Proof.Machine.execImulRvRmvIb r rm imm s
  | .imulRvRmvIv r rm imm => Sys2Proof.Machine.execImulRvRmvIv r rm imm s
  | .testAlIb imm => Sys2Proof.Machine.execTestAlIb imm s
  | .testAxIv imm => Sys2Proof.Machine.execTestAxIv imm s
  | .testRmbRb rm r => Sys2Proof.Machine.execTestRmbRb rm r s
  | .testRmvRv rm r => Sys2Proof.Machine.execTestRmvRv rm r s
  | .rolRmbOne rm => Sys2Proof.Machine.execRolRmbOne rm s
  | .rolRmbCl rm => Sys2Proof.Machine.execRolRmbCl rm s
  | .rolRmbIb rm imm => Sys2Proof.Machine.execRolRmbIb rm imm s
  | .rolRmvOne rm => Sys2Proof.Machine.execRolRmvOne rm s
  | .rolRmvCl rm => Sys2Proof.Machine.execRolRmvCl rm s
  | .rolRmvIb rm imm => Sys2Proof.Machine.execRolRmvIb rm imm s
  | .rorRmbOne rm => Sys2Proof.Machine.execRorRmbOne rm s
  | .rorRmbCl rm => Sys2Proof.Machine.execRorRmbCl rm s
  | .rorRmbIb rm imm => Sys2Proof.Machine.execRorRmbIb rm imm s
  | .rorRmvOne rm => Sys2Proof.Machine.execRorRmvOne rm s
  | .rorRmvCl rm => Sys2Proof.Machine.execRorRmvCl rm s
  | .rorRmvIb rm imm => Sys2Proof.Machine.execRorRmvIb rm imm s
  | .rclRmbOne rm => Sys2Proof.Machine.execRclRmbOne rm s
  | .rclRmbCl rm => Sys2Proof.Machine.execRclRmbCl rm s
  | .rclRmbIb rm imm => Sys2Proof.Machine.execRclRmbIb rm imm s
  | .rclRmvOne rm => Sys2Proof.Machine.execRclRmvOne rm s
  | .rclRmvCl rm => Sys2Proof.Machine.execRclRmvCl rm s
  | .rclRmvIb rm imm => Sys2Proof.Machine.execRclRmvIb rm imm s
  | .rcrRmbOne rm => Sys2Proof.Machine.execRcrRmbOne rm s
  | .rcrRmbCl rm => Sys2Proof.Machine.execRcrRmbCl rm s
  | .rcrRmbIb rm imm => Sys2Proof.Machine.execRcrRmbIb rm imm s
  | .rcrRmvOne rm => Sys2Proof.Machine.execRcrRmvOne rm s
  | .rcrRmvCl rm => Sys2Proof.Machine.execRcrRmvCl rm s
  | .rcrRmvIb rm imm => Sys2Proof.Machine.execRcrRmvIb rm imm s
  | .shlRmbOne rm => Sys2Proof.Machine.execShlRmbOne rm s
  | .shlRmbCl rm => Sys2Proof.Machine.execShlRmbCl rm s
  | .shlRmbIb rm imm => Sys2Proof.Machine.execShlRmbIb rm imm s
  | .shlRmvOne rm => Sys2Proof.Machine.execShlRmvOne rm s
  | .shlRmvCl rm => Sys2Proof.Machine.execShlRmvCl rm s
  | .shlRmvIb rm imm => Sys2Proof.Machine.execShlRmvIb rm imm s
  | .shrRmbOne rm => Sys2Proof.Machine.execShrRmbOne rm s
  | .shrRmbCl rm => Sys2Proof.Machine.execShrRmbCl rm s
  | .shrRmbIb rm imm => Sys2Proof.Machine.execShrRmbIb rm imm s
  | .shrRmvOne rm => Sys2Proof.Machine.execShrRmvOne rm s
  | .shrRmvCl rm => Sys2Proof.Machine.execShrRmvCl rm s
  | .shrRmvIb rm imm => Sys2Proof.Machine.execShrRmvIb rm imm s
  | .sarRmbOne rm => Sys2Proof.Machine.execSarRmbOne rm s
  | .sarRmbCl rm => Sys2Proof.Machine.execSarRmbCl rm s
  | .sarRmbIb rm imm => Sys2Proof.Machine.execSarRmbIb rm imm s
  | .sarRmvOne rm => Sys2Proof.Machine.execSarRmvOne rm s
  | .sarRmvCl rm => Sys2Proof.Machine.execSarRmvCl rm s
  | .sarRmvIb rm imm => Sys2Proof.Machine.execSarRmvIb rm imm s
  | .shldIb rm r imm => Sys2Proof.Machine.execShldIb rm r imm s
  | .shldCl rm r => Sys2Proof.Machine.execShldCl rm r s
  | .shrdIb rm r imm => Sys2Proof.Machine.execShrdIb rm r imm s
  | .shrdCl rm r => Sys2Proof.Machine.execShrdCl rm r s
  | .btRmvRv rm r => Sys2Proof.Machine.execBtRmvRv rm r s
  | .btRmvIb rm imm => Sys2Proof.Machine.execBtRmvIb rm imm s
  | .btsRmvRv rm r => Sys2Proof.Machine.execBtsRmvRv rm r s
  | .btsRmvIb rm imm => Sys2Proof.Machine.execBtsRmvIb rm imm s
  | .btrRmvRv rm r => Sys2Proof.Machine.execBtrRmvRv rm r s
  | .btrRmvIb rm imm => Sys2Proof.Machine.execBtrRmvIb rm imm s
  | .btcRmvRv rm r => Sys2Proof.Machine.execBtcRmvRv rm r s
  | .btcRmvIb rm imm => Sys2Proof.Machine.execBtcRmvIb rm imm s
  | .bsf r rm => Sys2Proof.Machine.execBsf r rm s
  | .bsr r rm => Sys2Proof.Machine.execBsr r rm s
  | .setcc c rm => Sys2Proof.Machine.execSetcc c rm s
  | .jmpShort disp => Sys2Proof.Machine.execJmpShort disp s
  | .jmpNear disp => Sys2Proof.Machine.execJmpNear disp s
  | .jmpRmv rm => Sys2Proof.Machine.execJmpRmv rm s
  | .jmpFar off sel => Sys2Proof.Machine.execJmpFar off sel s
  | .jmpFarMem m => Sys2Proof.Machine.execJmpFarMem m s
  | .jccShort c disp => Sys2Proof.Machine.execJccShort c disp s
  | .jccNear c disp => Sys2Proof.Machine.execJccNear c disp s
  | .jcxz disp => Sys2Proof.Machine.execJcxz disp s
  | .loop disp => Sys2Proof.Machine.execLoop disp s
  | .loope disp => Sys2Proof.Machine.execLoope disp s
  | .loopne disp => Sys2Proof.Machine.execLoopne disp s
  | .callNear disp => Sys2Proof.Machine.execCallNear disp s
  | .callRmv rm => Sys2Proof.Machine.execCallRmv rm s
  | .callFar off sel => Sys2Proof.Machine.execCallFar off sel s
  | .callFarMem m => Sys2Proof.Machine.execCallFarMem m s
  | .retNearIw n => Sys2Proof.Machine.execRetNearIw n s
  | .retFarIw n => Sys2Proof.Machine.execRetFarIw n s
  | .intIb v => Sys2Proof.Machine.execIntIb v s
  | .enter n level => Sys2Proof.Machine.execEnter n level s
  | .bound r m => Sys2Proof.Machine.execBound r m s
  | .esc op ext rm => Sys2Proof.Machine.execEsc op ext rm s
  | .lock => Sys2Proof.Machine.execLock s
  | .repne => Sys2Proof.Machine.execRepne s
  | .rep => Sys2Proof.Machine.execRep s
  | .segEs => Sys2Proof.Machine.execSegEs s
  | .segCs => Sys2Proof.Machine.execSegCs s
  | .segSs => Sys2Proof.Machine.execSegSs s
  | .segDs => Sys2Proof.Machine.execSegDs s
  | .segFs => Sys2Proof.Machine.execSegFs s
  | .segGs => Sys2Proof.Machine.execSegGs s
  | .opSize => Sys2Proof.Machine.execOpSize s
  | .addrSize => Sys2Proof.Machine.execAddrSize s
  | .pushCs => Sys2Proof.Machine.execPushCs s
  | .pushDs => Sys2Proof.Machine.execPushDs s
  | .pushEs => Sys2Proof.Machine.execPushEs s
  | .pushSs => Sys2Proof.Machine.execPushSs s
  | .pushFs => Sys2Proof.Machine.execPushFs s
  | .pushGs => Sys2Proof.Machine.execPushGs s
  | .popDs => Sys2Proof.Machine.execPopDs s
  | .popEs => Sys2Proof.Machine.execPopEs s
  | .popSs => Sys2Proof.Machine.execPopSs s
  | .popFs => Sys2Proof.Machine.execPopFs s
  | .popGs => Sys2Proof.Machine.execPopGs s
  | .pusha => Sys2Proof.Machine.execPusha s
  | .popa => Sys2Proof.Machine.execPopa s
  | .pushf => Sys2Proof.Machine.execPushf s
  | .popf => Sys2Proof.Machine.execPopf s
  | .xlat => Sys2Proof.Machine.execXlat s
  | .inAlDx => Sys2Proof.Machine.execInAlDx s
  | .inAxDx => Sys2Proof.Machine.execInAxDx s
  | .outDxAl => Sys2Proof.Machine.execOutDxAl s
  | .outDxAx => Sys2Proof.Machine.execOutDxAx s
  | .lahf => Sys2Proof.Machine.execLahf s
  | .sahf => Sys2Proof.Machine.execSahf s
  | .cbw => Sys2Proof.Machine.execCbw s
  | .cwd => Sys2Proof.Machine.execCwd s
  | .aaa => Sys2Proof.Machine.execAaa s
  | .aas => Sys2Proof.Machine.execAas s
  | .daa => Sys2Proof.Machine.execDaa s
  | .das => Sys2Proof.Machine.execDas s
  | .movsb => Sys2Proof.Machine.execMovsb s
  | .movsv => Sys2Proof.Machine.execMovsv s
  | .cmpsb => Sys2Proof.Machine.execCmpsb s
  | .cmpsv => Sys2Proof.Machine.execCmpsv s
  | .stosb => Sys2Proof.Machine.execStosb s
  | .stosv => Sys2Proof.Machine.execStosv s
  | .lodsb => Sys2Proof.Machine.execLodsb s
  | .lodsv => Sys2Proof.Machine.execLodsv s
  | .scasb => Sys2Proof.Machine.execScasb s
  | .scasv => Sys2Proof.Machine.execScasv s
  | .insb => Sys2Proof.Machine.execInsb s
  | .insv => Sys2Proof.Machine.execInsv s
  | .outsb => Sys2Proof.Machine.execOutsb s
  | .outsv => Sys2Proof.Machine.execOutsv s
  | .retNear => Sys2Proof.Machine.execRetNear s
  | .retFar => Sys2Proof.Machine.execRetFar s
  | .int3 => Sys2Proof.Machine.execInt3 s
  | .into => Sys2Proof.Machine.execInto s
  | .iret => Sys2Proof.Machine.execIret s
  | .leave => Sys2Proof.Machine.execLeave s
  | .clc => Sys2Proof.Machine.execClc s
  | .stc => Sys2Proof.Machine.execStc s
  | .cmc => Sys2Proof.Machine.execCmc s
  | .cld => Sys2Proof.Machine.execCld s
  | .std => Sys2Proof.Machine.execStd s
  | .cli => Sys2Proof.Machine.execCli s
  | .sti => Sys2Proof.Machine.execSti s
  | .hlt => Sys2Proof.Machine.execHlt s
  | .wait => Sys2Proof.Machine.execWait s
  | .nop => Sys2Proof.Machine.execNop s

end Sys2Proof.Machine
end

