-- ==== Sys2Proof/Machine/Step.lean ====
section
/-! DEFINITION. One step of the machine: an event at an instruction boundary, or one instruction with its
prefixes. Rules: 60_exceptions.md R559; 30_encoding.md R195. -/

namespace Sys2Proof.Machine

/-- Run the prefixes in order, then the instruction (R195; log entry 13). -/
def runItems : List Instr → Instr → State → Host.Outcome State Fault Refusal
  | [], i, s => exec i s
  | p :: ps, i, s =>
    match exec p s with
    | .next s' => runItems ps i s'
    | o => o

/-- One step of the machine (R559). -/
def step (s : State) : Host.Outcome State Fault Refusal :=
  match boundary s with
  | .done s' => .next s'
  | .run pre i s' => runItems pre i s'

/-- The bytes of a table word, stored where `step` fetches its next instruction (log entries 14 and 15). -/
def State.withFetchWord (s : State) (nbits w : Nat) : State := placeCode s (tableBytes nbits w) 0

end Sys2Proof.Machine
end

