-- ==== Sys2Proof/Machine/System.lean ====
section
/-! DEFINITION. The operations on control, debug and memory-management registers. The spec gives them a
meaning but no encoding, so no opcode reaches them; they are what a host's SystemOps would bind (log entry
22). Rules: 10_state.md R44 to R58; 60_exceptions.md R561, R611; 92_eei_decisions.md D20;
93_implementation_defined.md U21, U23. -/

namespace Sys2Proof.Machine

/-- The privilege of a system-register access: level 0, in mode R always (R48, R54, R611). -/
def requireSystem : M Unit := do
  let s ← get
  require (s.level == 0) (exnGP 0)

/-- The value of CRn, of which there are CR0, CR2 and CR3 (R44 to R48). -/
def State.crValue (s : State) : Nat → Option Word32
  | 0 => some s.cr0
  | 2 => some s.cr2
  | 3 => some s.cr3
  | _ => none

/-- `ReadCR(n)` into a general register. An access to CR1 is an invalid opcode, at every level (R45, R48, R558, U21). -/
def readCR (n : Nat) (r : Reg) : M Unit := do
  let s ← get
  match s.crValue n with
  | none => raise exnUD
  | some v => do
    requireSystem
    putReg .d32 r v

/-- The state after CR0 is written; entering protected mode starts at level 0 (R44, R610). PG = 1 with PE = 0 is stored
like any other value, and paging is off until PE = 1: DESIGN CHOICE, log entry 57. -/
def State.withCr0 (s : State) (v : Word32) : State :=
  { s with cr0 := v, cpl := if s.pe then s.cpl else 0 }

/-- The state after a control register is written, of which there are CR0, CR2 and CR3 (R44 to R48, R136). -/
def State.withCr (s : State) (v : Word32) : Nat → Option State
  | 0 => some (s.withCr0 v)
  | 2 => some { s with cr2 := v }
  | 3 => some (s.withCr3 v)
  | _ => none

/-- `WriteCR(n, v)` from a general register; CR1 as in `readCR` (R45 to R48, R558, U21). -/
def writeCR (n : Nat) (r : Reg) : M Unit := do
  let s ← get
  match s.withCr (readReg .d32 s.regs r) n with
  | none => raise exnUD
  | some t => do
    requireSystem
    set t

/-- DR7.GD makes an access to a debug register exception 1 with BD (R53, R561, U23; log entry 21). -/
def checkGd : M Unit := do
  let s ← get
  require (!s.dr.dr7.getLsbD 13) ⟨1, .fault, none, none, 0x2000⟩

/-- The value of DRn, of which there are DR0 to DR3, DR6 and DR7 (R50 to R54). -/
def DebugRegs.value (d : DebugRegs) : Nat → Option Word32
  | 0 => some d.dr0
  | 1 => some d.dr1
  | 2 => some d.dr2
  | 3 => some d.dr3
  | 6 => some d.dr6
  | 7 => some d.dr7
  | _ => none

/-- The debug registers after one is written; the reserved bits of DR6 and DR7 stay 0 (R50 to R54; log entry 21). -/
def DebugRegs.withReg (d : DebugRegs) (v : Word32) : Nat → Option DebugRegs
  | 0 => some { d with dr0 := v }
  | 1 => some { d with dr1 := v }
  | 2 => some { d with dr2 := v }
  | 3 => some { d with dr3 := v }
  | 6 => some { d with dr6 := v &&& 0x0000E00F }
  | 7 => some { d with dr7 := v &&& 0xFFFF23FF }
  | _ => none

/-- Read DRn. An access to DR4 or DR5 is an invalid opcode, at every level and whatever DR7.GD is (R51, R54, R558, U21);
any other is refused by its level before DR7.GD is looked at: log entry 53. -/
def readDR (n : Nat) (r : Reg) : M Unit := do
  let s ← get
  match s.dr.value n with
  | none => raise exnUD
  | some v => do
    requireSystem
    checkGd
    putReg .d32 r v

/-- Write DRn; DR4 and DR5, the level and DR7.GD as in `readDR` (R50 to R54, R558, U21; log entry 53). -/
def writeDR (n : Nat) (r : Reg) : M Unit := do
  let s ← get
  match s.dr.withReg (readReg .d32 s.regs r) n with
  | none => raise exnUD
  | some d => do
    requireSystem
    checkGd
    set { s with dr := d }

/-- Load GDTR (R56, R611). -/
def loadGdtr (t : TableReg) : M Unit := do
  requireSystem
  modify fun s => { s with gdtr := t }

/-- Load IDTR (R56, R611). -/
def loadIdtr (t : TableReg) : M Unit := do
  requireSystem
  modify fun s => { s with idtr := t }

/-- The mode a load of LDTR or TR needs: P, else exception 6 (R563, R612). -/
def requireProt : M Unit := do
  let s ← get
  require (s.mode == .prot) exnUD

/-- Load LDTR with the selector of an LDT descriptor of the GDT (R57, R118, R611; log entry 22). -/
def loadLdtrOp (sel : Word16) : M Unit := do
  requireProt
  requireSystem
  if selNull sel then modify fun s => { s with ldtr := ⟨sel, 0, 0, false⟩ }
  else
    require (!selTi sel) (exnGP (selCode sel))
    let d ← readDescriptor sel (exnGP (selCode sel))
    require d.isLdt (exnGP (selCode sel))
    require d.p (exnNP (selCode sel))
    modify fun s => { s with ldtr := ⟨sel, d.base, d.limit, true⟩ }

/-- Load TR with the selector of an available TSS of the GDT, which becomes busy (R58, R127, R611; log
entry 22). A descriptor whose limit is below 103 is loaded too: DESIGN CHOICE, log entry 22. -/
def loadTrOp (sel : Word16) : M Unit := do
  requireProt
  requireSystem
  require (!selNull sel && !selTi sel) (exnGP (selCode sel))
  let d ← readDescriptor sel (exnGP (selCode sel))
  require (d.isTss && !d.busy) (exnGP (selCode sel))
  require d.p (exnNP (selCode sel))
  setBusy sel true
  modify fun s => { s with tr := ⟨sel, d.base, d.limit, true⟩ }

end Sys2Proof.Machine
end

