-- ==== Sys2Proof/Safety.lean ====
section
/-! DEFINITION. What a safe run of the machine is, in the terms the claims use: the invariant of the states
between steps, and what an instruction changes and keeps. Rules: 10_state.md R20 to R22, R47, R62;
20_memory.md R100, R129, R136; 30_encoding.md R195. -/

namespace Sys2Proof.Safety

open Sys2Proof.Machine

/-- The TLB holds at most four entries of a row, and at most one of a page (R62; log entry 6). -/
def TlbWf (t : List TlbEntry) : Prop :=
  (∀ row : BitVec 3, (t.filter fun e => e.row == row).length ≤ 4) ∧ (t.map (·.page)).Nodup

/-- The invariant of the states between steps: memory is in canonical form, CR3 is page aligned, the TLB is
within its geometry, and no prefix, page mark or other bookkeeping of an earlier instruction is left. -/
structure Inv (s : State) : Prop where
  mem : Memory.wf s.mem = true
  cr3 : s.cr3 &&& 0xFFF = 0
  tlb : TlbWf s.tlb
  pfx : s.pfx = Pfx.none
  kept : s.rfKept = false
  marks : s.adMarks = []

/-- The bits of a 32-bit register that a register of width `w` names (R20 to R22). -/
def fieldMask (w : Width) (r : Reg) : Word32 :=
  match w with
  | .b8 => if Reg.isHighByte r then 0xFF00 else 0xFF
  | .w16 => 0xFFFF
  | .d32 => 0xFFFFFFFF

/-- The 32-bit register in which a register of width `w` lies (R20 to R22). -/
def wholeReg (w : Width) (r : Reg) : Reg :=
  match w with
  | .b8 => Reg.byteParent r
  | _ => r

/-- A register of width `w` holds `v`, and no other bit of any general register differs (R20 to R22). -/
structure WritesReg (w : Width) (r : Reg) (v : BitVec w.bits) (g g' : GRegs) : Prop where
  value : readReg w g' r = v
  others : ∀ r', r' ≠ wholeReg w r → g'.get r' = g.get r'
  bits : g'.get (wholeReg w r) &&& ~~~(fieldMask w r) = g.get (wholeReg w r) &&& ~~~(fieldMask w r)

/-- The segment registers, the level, the control, debug and table registers, the interrupt and processor
state, the lines, the ports and the mark of an EIP past its end are as before. -/
structure SystemSame (s t : State) : Prop where
  segs : t.segs = s.segs
  cpl : t.cpl = s.cpl
  cr0 : t.cr0 = s.cr0
  cr2 : t.cr2 = s.cr2
  cr3 : t.cr3 = s.cr3
  dr : t.dr = s.dr
  gdtr : t.gdtr = s.gdtr
  idtr : t.idtr = s.idtr
  ldtr : t.ldtr = s.ldtr
  tr : t.tr = s.tr
  nmiMask : t.nmiMask = s.nmiMask
  nmiPending : t.nmiPending = s.nmiPending
  inhibit : t.inhibit = s.inhibit
  eipPast : t.eipPast = s.eipPast
  halted : t.halted = s.halted
  shutdown : t.shutdown = s.shutdown
  lines : t.lines = s.lines
  ioReads : t.ioReads = s.ioReads
  ioOut : t.ioOut = s.ioOut

/-- The addresses of the bytes a location stores to. -/
def storedAt : Loc → List Nat
  | .reg _ => []
  | .mem ps => ps.map (·.toNat)

/-- The addresses of the page-entry bytes in which the accesses of the current instruction set A or D
bits (R129). -/
def markedAt (s : State) : List Nat := s.adMarks.map (·.1)

/-- Every byte of memory but those listed reads as before. -/
def BytesSame (s t : State) (but : List Nat) : Prop :=
  ∀ a, a ∉ but → Memory.read t.mem a = Memory.read s.mem a

end Sys2Proof.Safety
end

