-- ==== Sys2Proof/Claims.lean ====
section
/-! DEFINITION. The words of the claims: the operand forms, the arithmetic of the rules in unbounded numbers, and
what a push, a pop, a segment load or a transfer does, each written from its rule and not from the machine's own
functions for it. Rules: 10_state.md R26 to R32; 20_memory.md R110 to R152; 30_encoding.md R171 to R195;
41_arithmetic.md R310 to R333; 42_logic_shift_bit.md R360 to R415; 43_string.md R430 to R440;
44_control_transfer.md R460 to R505; 60_exceptions.md R556 to R596. -/

namespace Sys2Proof.Claims

open Sys2Proof.Machine Sys2Proof.Safety

/-! Operand forms and the instructions of a shape. -/

/-- The width of a form: byte (`false`), or the operand size (R175). -/
def widthOf (s : State) (wide : Bool) : Width := if wide then s.osz.width else .b8

/-- The source of an instruction with an r/m destination: a register, an immediate, or a sign-extended byte
(R319). -/
inductive Src where
  | rb (r : Reg)
  | rv (r : Reg)
  | ib (v : Byte)
  | iv (v : Sized)
  | sx (v : Byte)

/-- Whether a source makes a form of the operand size. -/
def Src.wide : Src → Bool
  | .rb _ | .ib _ => false
  | _ => true

/-- The width of an instruction by its source. -/
@[reducible] def Src.width (s : State) : Src → Width
  | .rb _ | .ib _ => .b8
  | .rv _ | .iv _ | .sx _ => s.osz.width

/-- The value of a source (R186, R319). -/
def Src.value (s : State) : (x : Src) → BitVec (x.width s).bits
  | .rb r => readReg .b8 s.regs r
  | .rv r => readReg s.osz.width s.regs r
  | .ib v => v
  | .iv v => (Sized.zext v).setWidth _
  | .sx v => v.signExtend _

/-- The source of a shift count (R370). -/
inductive Count where
  | one
  | cl
  | imm (v : Byte)

/-- The masked count (R370). -/
def Count.value (s : State) : Count → Nat
  | .one => 1
  | .cl => (readReg .b8 s.regs .cl).toNat % 32
  | .imm v => v.toNat % 32

/-- The string operations (R431 to R437). -/
inductive StrOp where
  | movs | cmps | scas | lods | stos | ins | outs

/-- The prefixes, by what they add to those taken so far (R171, R174 to R176, R440, R530). -/
def latched : Instr → Pfx → Pfx
  | .lock, p => { p with lock := true }
  | .repne, p => { p with rep := some .repne }
  | .rep, p => { p with rep := some .rep }
  | .segEs, p => { p with seg := some .es }
  | .segCs, p => { p with seg := some .cs }
  | .segSs, p => { p with seg := some .ss }
  | .segDs, p => { p with seg := some .ds }
  | .segFs, p => { p with seg := some .fs }
  | .segGs, p => { p with seg := some .gs }
  | .opSize, p => { p with opSize := true }
  | .addrSize, p => { p with addrSize := true }
  | _, p => p

/-- The instruction of `ALU2` with an r/m destination (R319). -/
def aluToRm : AluOp → RM → Src → Instr
  | .add, d, .rb r => .addRmbRb d r
  | .add, d, .rv r => .addRmvRv d r
  | .add, d, .ib v => .addRmbIb d v
  | .add, d, .iv v => .addRmvIv d v
  | .add, d, .sx v => .addRmvIb d v
  | .or, d, .rb r => .orRmbRb d r
  | .or, d, .rv r => .orRmvRv d r
  | .or, d, .ib v => .orRmbIb d v
  | .or, d, .iv v => .orRmvIv d v
  | .or, d, .sx v => .orRmvIb d v
  | .adc, d, .rb r => .adcRmbRb d r
  | .adc, d, .rv r => .adcRmvRv d r
  | .adc, d, .ib v => .adcRmbIb d v
  | .adc, d, .iv v => .adcRmvIv d v
  | .adc, d, .sx v => .adcRmvIb d v
  | .sbb, d, .rb r => .sbbRmbRb d r
  | .sbb, d, .rv r => .sbbRmvRv d r
  | .sbb, d, .ib v => .sbbRmbIb d v
  | .sbb, d, .iv v => .sbbRmvIv d v
  | .sbb, d, .sx v => .sbbRmvIb d v
  | .and, d, .rb r => .andRmbRb d r
  | .and, d, .rv r => .andRmvRv d r
  | .and, d, .ib v => .andRmbIb d v
  | .and, d, .iv v => .andRmvIv d v
  | .and, d, .sx v => .andRmvIb d v
  | .sub, d, .rb r => .subRmbRb d r
  | .sub, d, .rv r => .subRmvRv d r
  | .sub, d, .ib v => .subRmbIb d v
  | .sub, d, .iv v => .subRmvIv d v
  | .sub, d, .sx v => .subRmvIb d v
  | .xor, d, .rb r => .xorRmbRb d r
  | .xor, d, .rv r => .xorRmvRv d r
  | .xor, d, .ib v => .xorRmbIb d v
  | .xor, d, .iv v => .xorRmvIv d v
  | .xor, d, .sx v => .xorRmvIb d v
  | .cmp, d, .rb r => .cmpRmbRb d r
  | .cmp, d, .rv r => .cmpRmvRv d r
  | .cmp, d, .ib v => .cmpRmbIb d v
  | .cmp, d, .iv v => .cmpRmvIv d v
  | .cmp, d, .sx v => .cmpRmvIb d v

/-- The instruction of `ALU2` with a register destination and an r/m source: the byte form and the other (R319). -/
def aluFromRm : AluOp → Bool → Reg → RM → Instr
  | .add, false, r, m => .addRbRmb r m
  | .add, true, r, m => .addRvRmv r m
  | .or, false, r, m => .orRbRmb r m
  | .or, true, r, m => .orRvRmv r m
  | .adc, false, r, m => .adcRbRmb r m
  | .adc, true, r, m => .adcRvRmv r m
  | .sbb, false, r, m => .sbbRbRmb r m
  | .sbb, true, r, m => .sbbRvRmv r m
  | .and, false, r, m => .andRbRmb r m
  | .and, true, r, m => .andRvRmv r m
  | .sub, false, r, m => .subRbRmb r m
  | .sub, true, r, m => .subRvRmv r m
  | .xor, false, r, m => .xorRbRmb r m
  | .xor, true, r, m => .xorRvRmv r m
  | .cmp, false, r, m => .cmpRbRmb r m
  | .cmp, true, r, m => .cmpRvRmv r m

/-- The instruction of `ALU2` with AL and an immediate (R319). -/
def aluAl : AluOp → Byte → Instr
  | .add, v => .addAlIb v
  | .or, v => .orAlIb v
  | .adc, v => .adcAlIb v
  | .sbb, v => .sbbAlIb v
  | .and, v => .andAlIb v
  | .sub, v => .subAlIb v
  | .xor, v => .xorAlIb v
  | .cmp, v => .cmpAlIb v

/-- The instruction of `ALU2` with AX or EAX and an immediate (R319). -/
def aluAx : AluOp → Sized → Instr
  | .add, v => .addAxIv v
  | .or, v => .orAxIv v
  | .adc, v => .adcAxIv v
  | .sbb, v => .sbbAxIv v
  | .and, v => .andAxIv v
  | .sub, v => .subAxIv v
  | .xor, v => .xorAxIv v
  | .cmp, v => .cmpAxIv v

/-- INC, DEC, NEG and NOT of an r/m operand: the byte form and the other (R325 to R327, R364). -/
def unInstr : UnOp → Bool → RM → Instr
  | .inc, false, m => .incRmb m
  | .inc, true, m => .incRmv m
  | .dec, false, m => .decRmb m
  | .dec, true, m => .decRmv m
  | .neg, false, m => .negRmb m
  | .neg, true, m => .negRmv m
  | .not, false, m => .notRmb m
  | .not, true, m => .notRmv m

/-- The shifts and rotates (R370). -/
def shiftInstr : ShiftOp → Bool → Count → RM → Instr
  | .rol, false, .one, m => .rolRmbOne m
  | .rol, false, .cl, m => .rolRmbCl m
  | .rol, false, .imm v, m => .rolRmbIb m v
  | .rol, true, .one, m => .rolRmvOne m
  | .rol, true, .cl, m => .rolRmvCl m
  | .rol, true, .imm v, m => .rolRmvIb m v
  | .ror, false, .one, m => .rorRmbOne m
  | .ror, false, .cl, m => .rorRmbCl m
  | .ror, false, .imm v, m => .rorRmbIb m v
  | .ror, true, .one, m => .rorRmvOne m
  | .ror, true, .cl, m => .rorRmvCl m
  | .ror, true, .imm v, m => .rorRmvIb m v
  | .rcl, false, .one, m => .rclRmbOne m
  | .rcl, false, .cl, m => .rclRmbCl m
  | .rcl, false, .imm v, m => .rclRmbIb m v
  | .rcl, true, .one, m => .rclRmvOne m
  | .rcl, true, .cl, m => .rclRmvCl m
  | .rcl, true, .imm v, m => .rclRmvIb m v
  | .rcr, false, .one, m => .rcrRmbOne m
  | .rcr, false, .cl, m => .rcrRmbCl m
  | .rcr, false, .imm v, m => .rcrRmbIb m v
  | .rcr, true, .one, m => .rcrRmvOne m
  | .rcr, true, .cl, m => .rcrRmvCl m
  | .rcr, true, .imm v, m => .rcrRmvIb m v
  | .shl, false, .one, m => .shlRmbOne m
  | .shl, false, .cl, m => .shlRmbCl m
  | .shl, false, .imm v, m => .shlRmbIb m v
  | .shl, true, .one, m => .shlRmvOne m
  | .shl, true, .cl, m => .shlRmvCl m
  | .shl, true, .imm v, m => .shlRmvIb m v
  | .shr, false, .one, m => .shrRmbOne m
  | .shr, false, .cl, m => .shrRmbCl m
  | .shr, false, .imm v, m => .shrRmbIb m v
  | .shr, true, .one, m => .shrRmvOne m
  | .shr, true, .cl, m => .shrRmvCl m
  | .shr, true, .imm v, m => .shrRmvIb m v
  | .sar, false, .one, m => .sarRmbOne m
  | .sar, false, .cl, m => .sarRmbCl m
  | .sar, false, .imm v, m => .sarRmbIb m v
  | .sar, true, .one, m => .sarRmvOne m
  | .sar, true, .cl, m => .sarRmvCl m
  | .sar, true, .imm v, m => .sarRmvIb m v

/-- The bit tests, by the source of the bit number (R400). -/
def bitInstr : BitOp → RM → Reg ⊕ Byte → Instr
  | .bt, m, .inl r => .btRmvRv m r
  | .bt, m, .inr v => .btRmvIb m v
  | .bts, m, .inl r => .btsRmvRv m r
  | .bts, m, .inr v => .btsRmvIb m v
  | .btr, m, .inl r => .btrRmvRv m r
  | .btr, m, .inr v => .btrRmvIb m v
  | .btc, m, .inl r => .btcRmvRv m r
  | .btc, m, .inr v => .btcRmvIb m v

/-- SHLD (`true`) and SHRD, by the source of the count (R385, R386). -/
def doubleInstr : Bool → RM → Reg → Option Byte → Instr
  | true, m, r, none => .shldCl m r
  | true, m, r, some v => .shldIb m r v
  | false, m, r, none => .shrdCl m r
  | false, m, r, some v => .shrdIb m r v

/-- The string instructions: the byte form and the other (R431 to R437). -/
def stringInstr : StrOp → Bool → Instr
  | .movs, false => .movsb
  | .movs, true => .movsv
  | .cmps, false => .cmpsb
  | .cmps, true => .cmpsv
  | .scas, false => .scasb
  | .scas, true => .scasv
  | .lods, false => .lodsb
  | .lods, true => .lodsv
  | .stos, false => .stosb
  | .stos, true => .stosv
  | .ins, false => .insb
  | .ins, true => .insv
  | .outs, false => .outsb
  | .outs, true => .outsv

/-! Effective addresses. -/

/-- The base column of the 16-bit forms, as a sum of registers (R182). -/
def baseSum (g : GRegs) : Base16 → Nat
  | .bxSi => g.ebx.toNat + g.esi.toNat
  | .bxDi => g.ebx.toNat + g.edi.toNat
  | .bpSi => g.ebp.toNat + g.esi.toNat
  | .bpDi => g.ebp.toNat + g.edi.toNat
  | .si => g.esi.toNat
  | .di => g.edi.toNat
  | .bp => g.ebp.toNat
  | .bx => g.ebx.toNat

/-- The default segment of the base column (R182). -/
def columnSeg : Base16 → SReg
  | .bpSi | .bpDi | .bp => .ss
  | .bxSi | .bxDi | .si | .di | .bx => .ds

/-- The displacement of a 16-bit form: none, a signed byte, a word (R182). -/
def dispNum16 : Disp16 → Int
  | .none => 0
  | .d8 d => d.toInt
  | .d16 d => d.toNat

/-- The displacement of a 32-bit form: none, a signed byte, a double word (R184). -/
def dispNum32 : Disp32 → Int
  | .none => 0
  | .d8 d => d.toInt
  | .d32 d => d.toNat

/-- A term of the sum of a SIB form that may be absent (R185). -/
def regOrZero (g : GRegs) (r : Option Reg) : Nat :=
  match r with
  | none => 0
  | some r => (g.get r).toNat

/-- The default segment of a 32-bit form by its base (R184). -/
def baseSeg (r : Option Reg) : SReg := if r = some .ebp ∨ r = some .esp then .ss else .ds

/-! The arithmetic of the rules, in unbounded numbers. -/

/-- `SZP_N(r)` (R310). -/
structure SzpRule {n : Nat} (r : BitVec n) (f : Flags) : Prop where
  sf : f.sf = decide (2 ^ (n - 1) ≤ r.toNat)
  zf : f.zf = decide (r.toNat = 0)
  pf : f.pf = decide (((List.range 8).filter fun k => r.toNat.testBit k).length % 2 = 0)

/-- No flag but the six status flags differs (R26). -/
def OnlyStatus (f g : Flags) : Prop :=
  g = { f with cf := g.cf, pf := g.pf, af := g.af, zf := g.zf, sf := g.sf, of := g.of }

/-- Whether a number is outside the signed range of `n` bits. -/
def OutOfRange (n : Nat) (x : Int) : Prop := x < -(2 : Int) ^ (n - 1) ∨ (2 : Int) ^ (n - 1) ≤ x

/-- `AddFlags_N(a, b, c)`: the sum `r` and the flags `g` after `f` (R311); OF is signed overflow (R32). -/
structure AddRule {n : Nat} (a b : BitVec n) (c : Bool) (f : Flags) (r : BitVec n) (g : Flags) : Prop where
  value : r.toNat = (a.toNat + b.toNat + c.toNat) % 2 ^ n
  cf : g.cf = true ↔ 2 ^ n ≤ a.toNat + b.toNat + c.toNat
  af : g.af = true ↔ 15 < a.toNat % 16 + b.toNat % 16 + c.toNat
  of : g.of = true ↔ OutOfRange n (a.toInt + b.toInt + c.toNat)
  szp : SzpRule r g
  rest : OnlyStatus f g

/-- `SubFlags_N(a, b, c)` (R312); OF is signed overflow (R32). -/
structure SubRule {n : Nat} (a b : BitVec n) (c : Bool) (f : Flags) (r : BitVec n) (g : Flags) : Prop where
  value : (r.toNat : Int) = ((a.toNat : Int) - b.toNat - c.toNat) % 2 ^ n
  cf : g.cf = true ↔ a.toNat < b.toNat + c.toNat
  af : g.af = true ↔ a.toNat % 16 < b.toNat % 16 + c.toNat
  of : g.of = true ↔ OutOfRange n (a.toInt - b.toInt - c.toNat)
  szp : SzpRule r g
  rest : OnlyStatus f g

/-- A bitwise function with `LogicFlags_N` (R360). -/
structure LogicRule {n : Nat} (op : Bool → Bool → Bool) (a b : BitVec n) (f : Flags) (r : BitVec n)
    (g : Flags) : Prop where
  value : ∀ i < n, r.getLsbD i = op (a.getLsbD i) (b.getLsbD i)
  cf : g.cf = false
  of : g.of = false
  af : g.af = f.af
  szp : SzpRule r g
  rest : OnlyStatus f g

/-- The eight two-operand functions (R320 to R324, R361 to R363). -/
def AluRule {n : Nat} (op : AluOp) (a b : BitVec n) (f : Flags) (r : BitVec n) (g : Flags) : Prop :=
  match op with
  | .add => AddRule a b false f r g
  | .adc => AddRule a b f.cf f r g
  | .sub | .cmp => SubRule a b false f r g
  | .sbb => SubRule a b f.cf f r g
  | .and => LogicRule (fun x y => x && y) a b f r g
  | .or => LogicRule (fun x y => x || y) a b f r g
  | .xor => LogicRule (fun x y => x != y) a b f r g

/-- INC, DEC (CF kept), NEG (0 - a) and NOT (no flag) (R325 to R327, R364). -/
def UnRule {n : Nat} (op : UnOp) (a : BitVec n) (f : Flags) (r : BitVec n) (g : Flags) : Prop :=
  match op with
  | .inc => ∃ h, AddRule a 1 false f r h ∧ g = { h with cf := f.cf }
  | .dec => ∃ h, SubRule a 1 false f r h ∧ g = { h with cf := f.cf }
  | .neg => SubRule 0 a false f r g
  | .not => (∀ i < n, r.getLsbD i = !(a.getLsbD i)) ∧ g = f

/-- CF and OF say whether a product lost its upper half; SF, ZF, AF, PF are undefined (R330, R331). -/
structure ProductFlags (lost : Prop) (f g : Flags) : Prop where
  cf : g.cf = true ↔ lost
  of : g.of = true ↔ lost
  rest : OnlyStatus f g

/-- Bit `i` of the `n + 1` bits CF:t (R378). -/
def withCarry {n : Nat} (t : BitVec n) (cf : Bool) (i : Nat) : Bool := if i < n then t.getLsbD i else cf

/-- The result and CF of a shift or rotate of `a` by `c` steps, 0 < c (R371 to R379). -/
def ShiftValue {n : Nat} (op : ShiftOp) (a : BitVec n) (cf : Bool) (c : Nat) (r : BitVec n) (cf' : Bool) :
    Prop :=
  match op with
  | .shl => r.toNat = a.toNat * 2 ^ c % 2 ^ n ∧ cf' = (a.toNat * 2 ^ c).testBit n
  | .shr => r.toNat = a.toNat / 2 ^ c ∧ cf' = a.toNat.testBit (c - 1)
  | .sar => r.toInt = a.toInt / 2 ^ c ∧ cf' = decide (a.toInt / 2 ^ (c - 1) % 2 = 1)
  | .rol => (∀ i < n, r.getLsbD ((i + c) % n) = a.getLsbD i) ∧ cf' = r.getLsbD 0
  | .ror => (∀ i < n, r.getLsbD i = a.getLsbD ((i + c) % n)) ∧ cf' = r.getLsbD (n - 1)
  | .rcl => ∀ i ≤ n, withCarry r cf' ((i + c) % (n + 1)) = withCarry a cf i
  | .rcr => ∀ i ≤ n, withCarry r cf' i = withCarry a cf ((i + c) % (n + 1))

/-- OF after one step (R371 to R373, R375). -/
def ShiftOf {n : Nat} (op : ShiftOp) (r : BitVec n) (cf' : Bool) : Bool :=
  match op with
  | .shl | .rol | .rcl => r.getLsbD (n - 1) != cf'
  | .ror | .rcr => r.getLsbD (n - 1) != r.getLsbD (n - 2)
  | .shr | .sar => false

/-- A shift or rotate by `c` steps, 0 < c: OF is undefined for more than one, AF unchanged, and a rotate leaves
SF, ZF, PF (R371 to R379). -/
structure ShiftRule {n : Nat} (op : ShiftOp) (a : BitVec n) (c : Nat) (f : Flags) (r : BitVec n)
    (g : Flags) : Prop where
  value : ShiftValue op a f.cf c r g.cf
  of : c = 1 → g.of = ShiftOf op r g.cf
  szp : if op.isRotate then g.sf = f.sf ∧ g.zf = f.zf ∧ g.pf = f.pf else SzpRule r g
  af : g.af = f.af
  rest : OnlyStatus f g

/-- SHLD (`left`) and SHRD by 0 < c < N: the bits that come in are those of the source; OF and AF are
undefined (R385, R386). -/
structure DoubleRule {n : Nat} (left : Bool) (d src : BitVec n) (c : Nat) (f : Flags) (r : BitVec n)
    (g : Flags) : Prop where
  value : r.toNat = if left then (d.toNat * 2 ^ c + src.toNat / 2 ^ (n - c)) % 2 ^ n
    else (src.toNat * 2 ^ n + d.toNat) / 2 ^ c % 2 ^ n
  cf : g.cf = if left then d.getLsbD (n - c) else d.getLsbD (c - 1)
  szp : SzpRule r g
  rest : OnlyStatus f g

/-- The operand after a bit test of bit `i` (R401 to R404). -/
def BitRule {n : Nat} (op : BitOp) (v : BitVec n) (i : Nat) (r : BitVec n) : Prop :=
  ∀ k < n, r.getLsbD k =
    if k = i then (match op with
      | .bt => v.getLsbD i
      | .bts => true
      | .btr => false
      | .btc => !(v.getLsbD i))
    else v.getLsbD k

/-- `Cond(cc)` (R460). -/
def CondRule (f : Flags) : Cond → Prop
  | .o => f.of = true
  | .no => f.of = false
  | .b => f.cf = true
  | .ae => f.cf = false
  | .e => f.zf = true
  | .ne => f.zf = false
  | .be => f.cf = true ∨ f.zf = true
  | .a => f.cf = false ∧ f.zf = false
  | .s => f.sf = true
  | .ns => f.sf = false
  | .p => f.pf = true
  | .np => f.pf = false
  | .l => f.sf ≠ f.of
  | .ge => f.sf = f.of
  | .le => f.zf = true ∨ f.sf ≠ f.of
  | .g => f.zf = false ∧ f.sf = f.of

/-! The stack, near targets, and the effects that several instructions share. -/

/-- (E)SP, by the stack size, is moved by `d` (R140, R141). -/
def SpMoved (s : State) (d : Word32) (g g' : GRegs) : Prop :=
  WritesReg s.stackSize.width .esp (readReg s.stackSize.width g .esp + d.setWidth _) g g'

/-- The offset in SS of the item a push of `w` writes (R140). -/
def pushOffset (s : State) (w : Width) : Word32 :=
  match s.stackSize with
  | .s16 => (readReg .w16 s.regs .esp - BitVec.ofNat 16 w.bytes).setWidth 32
  | .s32 => s.regs.esp - BitVec.ofNat 32 w.bytes

/-- The offset in SS of the item on top of the stack (R141). -/
def topOffset (s : State) : Word32 :=
  match s.stackSize with
  | .s16 => (readReg .w16 s.regs .esp).setWidth 32
  | .s32 => s.regs.esp

/-- `Push_n(v)` runs from `s` to `t` (R140): SP is not 1 in modes R and V (R142), the item's bytes may be
written, they receive `v`, and (E)SP falls by `n`. -/
def Pushed (w : Width) (v : BitVec w.bits) (s t : State) : Prop :=
  (s.mode ≠ .prot → topOffset s ≠ 1) ∧
  ∃ ps s1 g, translate .write .ss (pushOffset s w) w.bytes s = .ok ps s1 ∧
    SpMoved s (-(BitVec.ofNat 32 w.bytes)) s1.regs g ∧
    t = { s1.storeAt w (.mem ps) v with regs := g }

/-- `Pop_n()` of `v` runs from `s` to `t` (R141): the item's bytes may be read, and (E)SP rises by `n`. -/
def Popped (w : Width) (v : BitVec w.bits) (s t : State) : Prop :=
  ∃ ps s1 g, translate .read .ss (topOffset s) w.bytes s = .ok ps s1 ∧
    v = s1.valueAt w (.mem ps) ∧
    SpMoved s (BitVec.ofNat 32 w.bytes) s1.regs g ∧
    t = { s1 with regs := g }

/-- `MemRead` of `v` runs from `s` to `t` (R120). -/
def MemReads (w : Width) (sr : SReg) (off : Word32) (v : BitVec w.bits) (s t : State) : Prop :=
  ∃ ps, translate .read sr off w.bytes s = .ok ps t ∧ v = t.valueAt w (.mem ps)

/-- `MemWrite` of `v` runs from `s` to `t` (R121). -/
def MemWrites (w : Width) (sr : SReg) (off : Word32) (v : BitVec w.bits) (s t : State) : Prop :=
  ∃ ps s1, translate .write sr off w.bytes s = .ok ps s1 ∧ t = s1.storeAt w (.mem ps) v

/-- A target truncated by the operand size (R470). -/
def truncated (s : State) (t : Word32) : Word32 :=
  match s.osz with
  | .s16 => t &&& 0xFFFF
  | .s32 => t

/-- The state with EIP assigned (R25; log entry 51). -/
def goTo (s : State) (off : Word32) : State := { s with eip := off, eipPast := false }

/-- The check of `NearJump` (R470). -/
def NearOk (s : State) (t : Word32) : Prop :=
  (s.mode = .prot → t.toNat ≤ s.segs.cs.limit.toNat) ∧ (s.mode ≠ .prot → t.toNat ≤ 0xFFFF)

/-- The number of an index register at the address size: SI', DI', (E)CX (R430). -/
def atAsz (s : State) (r : Reg) : Word32 :=
  match s.asz with
  | .s16 => (readReg .w16 s.regs r).setWidth 32
  | .s32 => s.regs.get r

/-- `Advance(R)` of one element (R430). -/
def Advanced (s : State) (w : Width) (r : Reg) (g g' : GRegs) : Prop :=
  WritesReg s.asz.width r
    (if s.flags.df then readReg s.asz.width g r - BitVec.ofNat _ w.bytes
      else readReg s.asz.width g r + BitVec.ofNat _ w.bytes) g g'

/-- The permission bits of `n` ports from `port`, in a map at offset `map` of the current TSS, all are 0 (`ok`) or not,
from `s` to `t`; a byte beyond the limit of TR counts as all ones (R152). -/
def MapBits (map : Nat) : Nat → Nat → Bool → State → State → Prop
  | _, 0, ok, s, t => ok = true ∧ t = s
  | port, n + 1, ok, s, t =>
    (s.tr.limit.toNat < map + port / 8 ∧ ok = false ∧ t = s) ∨
      (map + port / 8 ≤ s.tr.limit.toNat ∧ ∃ v u rest,
        sysRead (s.tr.base + BitVec.ofNat 32 (map + port / 8)) 1 s = .ok [v] u ∧
        MapBits map (port + 1) n rest u t ∧ ok = (!v.getLsbD (port % 8) && rest))

/-- The permission map of the current TSS permits (`ok`) or denies the `n` ports from `port`, from `s` to `t`: its
offset is the word at 0x66 of the TSS, and a TSS without that word denies (R152; log entry 40). -/
def IoMap (port : Word16) (n : Nat) (ok : Bool) (s t : State) : Prop :=
  (¬(s.tr.valid = true ∧ 0x67 ≤ s.tr.limit.toNat) ∧ ok = false ∧ t = s) ∨
    (s.tr.valid = true ∧ 0x67 ≤ s.tr.limit.toNat ∧ ∃ map u, sysRead16 (s.tr.base + 0x66) s = .ok map u ∧
      MapBits map.toNat port.toNat n ok u t)

/-- `IoCheck(port, n)` passes, from `s` to `t`: always in mode R, for CPL ≤ IOPL in mode P, by the permission
map in mode V (R152). -/
def IoPermits (port : Word16) (n : Nat) (s t : State) : Prop :=
  match s.mode with
  | .real => t = s
  | .prot => s.cpl ≤ s.flags.iopl ∧ t = s
  | .v86 => IoMap port n true s t

/-- `IoCheck(port, n)` raises its exception, from `s` to `t`: for CPL > IOPL in mode P, by the permission map in mode V
(R152). -/
def IoDenied (port : Word16) (n : Nat) (s t : State) : Prop :=
  match s.mode with
  | .real => False
  | .prot => ¬s.cpl ≤ s.flags.iopl ∧ t = s
  | .v86 => IoMap port n false s t

/-- One element of a string operation runs from `s` to `t` (R431 to R437). -/
def Element (op : StrOp) (w : Width) (s t : State) : Prop :=
  match op with
  | .movs => ∃ v s1 s2 g g', MemReads w (s.pfx.seg.getD .ds) (atAsz s .esi) v s s1 ∧
      MemWrites w .es (atAsz s .edi) v s1 s2 ∧
      Advanced s w .esi s2.regs g ∧ Advanced s w .edi g g' ∧ t = { s2 with regs := g' }
  | .cmps => ∃ a b s1 s2 r f g g', MemReads w (s.pfx.seg.getD .ds) (atAsz s .esi) a s s1 ∧
      MemReads w .es (atAsz s .edi) b s1 s2 ∧ SubRule a b false s.flags r f ∧
      Advanced s w .esi s2.regs g ∧ Advanced s w .edi g g' ∧ t = { s2 with regs := g', flags := f }
  | .scas => ∃ b s1 r f g, MemReads w .es (atAsz s .edi) b s s1 ∧
      SubRule (readReg w s.regs .eax) b false s.flags r f ∧
      Advanced s w .edi s1.regs g ∧ t = { s1 with regs := g, flags := f }
  | .lods => ∃ v s1 g g', MemReads w (s.pfx.seg.getD .ds) (atAsz s .esi) v s s1 ∧
      WritesReg w .eax v s1.regs g ∧ Advanced s w .esi g g' ∧ t = { s1 with regs := g' }
  | .stos => ∃ s1 g, MemWrites w .es (atAsz s .edi) (readReg w s.regs .eax) s s1 ∧
      Advanced s w .edi s1.regs g ∧ t = { s1 with regs := g }
  | .ins => ∃ v s0 s1 g, IoPermits (readReg .w16 s.regs .edx) w.bytes s s0 ∧
      MemWrites w .es (atAsz s .edi) v s0 s1 ∧
      v = (Config.portIn s.ioReads (readReg .w16 s.regs .edx) w.bytes).setWidth _ ∧
      Advanced s w .edi s1.regs g ∧ t = { s1 with regs := g, ioReads := s.ioReads + 1 }
  | .outs => ∃ v s0 s1 g, MemReads w (s.pfx.seg.getD .ds) (atAsz s .esi) v s s0 ∧
      IoPermits (readReg .w16 s.regs .edx) w.bytes s0 s1 ∧
      Advanced s w .esi s1.regs g ∧
      t = { s1 with regs := g, ioOut := ⟨readReg .w16 s.regs .edx, w.bytes, v.setWidth 32⟩ :: s.ioOut }

/-- Privilege level 0 (R43, R528). -/
def Level0 (s : State) : Prop := s.mode = .real ∨ s.mode = .prot ∧ s.cpl = 0

/-! Descriptors, segment loads and transfers in every mode. -/

/-- The hidden copy a load in modes R and V makes (R111); the access fields stay (log entry 43). -/
def realSeg (old : SegReg) (v : Word16) : SegReg :=
  { old with sel := v, base := BitVec.ofNat 32 (16 * v.toNat), limit := 0xFFFF, valid := true }

/-- The hidden copy of a descriptor (R114, R118, R125). -/
def protSeg (d : Desc) (sel : Word16) : SegReg where
  sel := sel
  base := BitVec.ofNat 32 ((d.hi.toNat / 2 ^ 24) * 2 ^ 24 + (d.hi.toNat % 2 ^ 8) * 2 ^ 16 + d.lo.toNat / 2 ^ 16)
  limit :=
    let field := (d.hi.toNat / 2 ^ 16 % 2 ^ 4) * 2 ^ 16 + d.lo.toNat % 2 ^ 16
    BitVec.ofNat 32 (if d.hi.getLsbD 23 then field * 2 ^ 12 + 0xFFF else field)
  valid := true
  p := d.hi.getLsbD 15
  dpl := d.hi.extractLsb' 13 2
  s := d.hi.getLsbD 12
  type := d.hi.extractLsb' 9 3
  a := true
  db := d.hi.getLsbD 22

/-- The table entry of a selector lies within its table and reads as `d` (R116). -/
def DescriptorAt (sel : Word16) (d : Desc) (s t : State) : Prop :=
  ∀ e, readDescriptor sel e s = .ok d t

/-- A of a descriptor is set in its table, if it is not (R118). -/
def Accessed (d : Desc) (s t : State) : Prop :=
  if d.hi.getLsbD 8 then t = s
  else sysWrite (d.addr + 5) [d.hi.extractLsb' 8 8 ||| 1] s = .ok () t

/-- `LoadSeg(sr, sel)` of a register other than CS runs from `s` to `t` (R111, R118). -/
def SegLoads (sr : SReg) (sel : Word16) (s t : State) : Prop :=
  match s.mode with
  | .prot =>
    if sel.toNat < 4 then
      sr ≠ .ss ∧ t = { s with segs := s.segs.set sr { s.segs.get sr with sel := sel, valid := false } }
    else ∃ d s1 s2, DescriptorAt sel d s s1 ∧
      (if sr = .ss then selRpl sel = s.cpl ∧ d.dpl = s.cpl ∧ d.writableData = true
        else d.loadable = true ∧ (d.conforming = true ∨ s.cpl ≤ d.dpl ∧ selRpl sel ≤ d.dpl)) ∧
      d.p = true ∧ Accessed d s1 s2 ∧ t = { s2 with segs := s2.segs.set sr (protSeg d sel) }
  | _ => t = { s with segs := s.segs.set sr (realSeg (s.segs.get sr) sel) }

/-- A selector lies outside its table: beyond the limit of GDTR or LDTR, or in an LDT that is not there (R116). -/
def OutsideTable (s : State) (sel : Word16) : Prop :=
  if sel.getLsbD 2 then s.ldtr.valid = false ∨ 8 * (sel.toNat / 8) + 7 > s.ldtr.limit.toNat
  else 8 * (sel.toNat / 8) + 7 > s.gdtr.limit.toNat

/-- `LoadSeg(sr, sel)` of a register other than CS in mode P fails with `e` after the table is read, from `s` to `t`
(R118). -/
def SegLoadFails (sr : SReg) (sel : Word16) (e : Exn) (s t : State) : Prop :=
  s.mode = .prot ∧
    (sel.toNat < 4 ∧ sr = .ss ∧ e = exnGP 0 ∧ t = s ∨
      4 ≤ sel.toNat ∧ OutsideTable s sel ∧ e = exnGP (sel &&& 0xFFFC) ∧ t = s ∨
      4 ≤ sel.toNat ∧ ∃ d, DescriptorAt sel d s t ∧
        (sr = .ss ∧ ¬(selRpl sel = s.cpl ∧ d.dpl = s.cpl ∧ d.writableData = true) ∧ e = exnGP (sel &&& 0xFFFC) ∨
          sr = .ss ∧ (selRpl sel = s.cpl ∧ d.dpl = s.cpl ∧ d.writableData = true) ∧ d.p = false ∧
            e = exnSS (sel &&& 0xFFFC) ∨
          sr ≠ .ss ∧ ¬(d.loadable = true ∧ (d.conforming = true ∨ s.cpl ≤ d.dpl ∧ selRpl sel ≤ d.dpl)) ∧
            e = exnGP (sel &&& 0xFFFC) ∨
          sr ≠ .ss ∧ (d.loadable = true ∧ (d.conforming = true ∨ s.cpl ≤ d.dpl ∧ selRpl sel ≤ d.dpl)) ∧
            d.p = false ∧ e = exnNP (sel &&& 0xFFFC)))

/-- A push of a selector: with 32 bits the upper half is the next free value (R140, R270). -/
def PushedSel (z : Size) (sel : Word16) (s t : State) : Prop :=
  match z with
  | .s16 => Pushed .w16 sel s t
  | .s32 => Pushed .d32 ((Config.freeWord s.free).setWidth 16 ++ sel) { s with free := s.free + 1 } t

/-- A pop into a general register runs from `s` to `t` (R275). -/
def PoppedInto (w : Width) (r : Reg) (s t : State) : Prop :=
  ∃ v t1 g, Popped w v s t1 ∧ WritesReg w r v t1.regs g ∧ t = { t1 with regs := g }

/-- The far pointer in memory: the offset, then the selector (R102, R287). -/
def FarPointer (m : EA) (s : State) (off : BitVec s.osz.width.bits) (sel : Word16) (t : State) : Prop :=
  ∃ s1, MemReads s.osz.width (s.pfx.seg.getD (eaSeg m)) (eaOffset s.regs m) off s s1 ∧
    MemReads .w16 (s.pfx.seg.getD (eaSeg m)) (eaOffset s.regs m + BitVec.ofNat 32 s.osz.width.bytes) sel s1 t

/-- A code segment that a direct transfer at level `cpl` may name (R490). -/
def DirectCode (d : Desc) (sel : Word16) (cpl : BitVec 2) : Prop :=
  d.isCode = true ∧ d.p = true ∧
    (if d.conforming then d.dpl ≤ cpl else selRpl sel ≤ cpl ∧ d.dpl = cpl)

/-- CS:EIP after a transfer in mode P that stays at the level of `s` (R490). -/
def inCode (s : State) (d : Desc) (sel : Word16) (off : Word32) : State :=
  goTo { s with segs := s.segs.set .cs (protSeg d (sel.extractLsb' 2 14 ++ s.cpl)) } off

/-- CS:EIP after a transfer in modes R and V (R111, R490). -/
def inReal (s : State) (sel : Word16) (off : Word32) : State :=
  goTo { s with segs := s.segs.set .cs (realSeg s.segs.cs sel) } off

/-- Entry through entry `v` of the real-mode vector table with return address `ret`, from `s` to `t` (R570). -/
def RealEntry (v : Byte) (ret : Word32) (s t : State) : Prop :=
  ∃ t1 t2 t3, Pushed .w16 ((s.flags.image &&& 0x00FCFFFF).setWidth 16) s t1 ∧
    Pushed .w16 s.segs.cs.sel t1 t2 ∧ Pushed .w16 (ret.setWidth 16) t2 t3 ∧
    t = inReal { t3 with flags := { t3.flags with ifl := false, tf := false } }
      (word16 (Memory.read t3.mem (4 * v.toNat + 2)) (Memory.read t3.mem (4 * v.toNat + 3)))
      ((word16 (Memory.read t3.mem (4 * v.toNat)) (Memory.read t3.mem (4 * v.toNat + 1))).setWidth 32)

/-! Far transfers: their forms, inner stacks, gates, and returns to an outer level. -/

/-- The two forms of a far JMP (`i`) and a far CALL (`j`) and the state in which their pointer is known (R472, R479). -/
def FarForms (s : State) (sel : Word16) (off : Word32) (i j : Instr) (t : State) : Prop :=
  (∃ v, off = Sized.zext v ∧ i = Instr.jmpFar v sel ∧ j = Instr.callFar v sel ∧ t = s.begun) ∨
    ∃ m o, FarPointer m s.begun o sel t ∧ off = o.setWidth 32 ∧ i = .jmpFarMem m ∧ j = .callFarMem m

/-- The stack of `level` in the current TSS is `ss`:`esp`, a present writable segment `d` of that level (R127, R490,
R580). -/
def InnerStackAt (level : BitVec 2) (ss : Word16) (esp : Word32) (d : Desc) (s t : State) : Prop :=
  s.tr.valid = true ∧ 8 * level.toNat + 11 ≤ s.tr.limit.toNat ∧
    ∃ s1 s2, sysRead16 (s.tr.base + BitVec.ofNat 32 (8 * level.toNat + 8)) s = .ok ss s1 ∧
      sysRead32 (s.tr.base + BitVec.ofNat 32 (8 * level.toNat + 4)) s1 = .ok esp s2 ∧
      4 ≤ ss.toNat ∧ DescriptorAt ss d s2 t ∧ selRpl ss = level ∧ d.dpl = level ∧ d.writableData = true ∧ d.p = true

/-- The stack of `level` in the current TSS is bad, with exception `e`: TR is not valid or its limit too low, or the
selector is null, outside its table, or no present writable segment of that level; `ext` is the EXT bit of the code
(R490, R557, R580; log entries 28, 33 and 44). -/
def InnerStackFails (level : BitVec 2) (ext : Word16) (e : Exn) (s t : State) : Prop :=
  (¬(s.tr.valid = true ∧ 8 * level.toNat + 11 ≤ s.tr.limit.toNat) ∧ e = exnTS ((s.tr.sel &&& 0xFFFC) ||| ext) ∧ t = s) ∨
    (s.tr.valid = true ∧ 8 * level.toNat + 11 ≤ s.tr.limit.toNat ∧ ∃ ss esp s1 s2,
      sysRead16 (s.tr.base + BitVec.ofNat 32 (8 * level.toNat + 8)) s = .ok ss s1 ∧
      sysRead32 (s.tr.base + BitVec.ofNat 32 (8 * level.toNat + 4)) s1 = .ok esp s2 ∧
      e = exnTS ((ss &&& 0xFFFC) ||| ext) ∧
      ((ss.toNat < 4 ∨ OutsideTable s2 ss) ∧ t = s2 ∨
        4 ≤ ss.toNat ∧ ∃ d, DescriptorAt ss d s2 t ∧
          ¬(selRpl ss = level ∧ d.dpl = level ∧ d.writableData = true ∧ d.p = true)))

/-- SS, ESP and the level after going over to an inner stack (R490, R580; log entry 28). -/
def onStack (s : State) (level : BitVec 2) (ss : Word16) (esp : Word32) (d : Desc) : State :=
  { s with segs := s.segs.set .ss (protSeg d ss), cpl := level, regs := s.regs.set .esp esp }

/-- The offset in SS that lies `k` bytes above the top of the stack (R141). -/
def aboveTop (s : State) (k : Nat) : Word32 :=
  match s.stackSize with
  | .s16 => (readReg .w16 s.regs .esp + BitVec.ofNat 16 k).setWidth 32
  | .s32 => s.regs.esp + BitVec.ofNat 32 k

/-- The parameters of a call gate, read from the old stack upwards from `k` bytes above its top (R490). -/
def ParamsRead (w : Width) : Nat → List (BitVec w.bits) → State → State → Prop
  | _, [], s, t => t = s
  | k, v :: vs, s, t => ∃ u, MemReads w .ss (aboveTop s k) v s u ∧ ParamsRead w (k + w.bytes) vs u t

/-- A list is pushed, its first item first (R490). -/
def PushedAll (w : Width) : List (BitVec w.bits) → State → State → Prop
  | [], s, t => t = s
  | v :: vs, s, t => ∃ u, Pushed w v s u ∧ PushedAll w vs u t

/-- The code segment a gate names, with its offset within the limit, for code at `level` (R490, R580). -/
def GateTarget (g c : Desc) (level : BitVec 2) (s t : State) : Prop :=
  4 ≤ g.gateSel.toNat ∧ DescriptorAt g.gateSel c s t ∧ c.isCode = true ∧ c.dpl ≤ level ∧ c.p = true ∧
    g.gateOff.toNat ≤ c.limit.toNat

/-- The return address of a CALL is pushed, from `s` to `t` (R479, R490). -/
def ReturnPushed (z : Size) (s t : State) : Prop :=
  ∃ u, PushedSel z s.segs.cs.sel s u ∧ Pushed z.width (s.eip.setWidth _) u t

/-- The frame of a CALL through a gate to code `c`, with items of size `z` and `n` parameters, from `s` to `t`: the
return address on the current stack for code of the same level; for inner code, on the stack of the TSS, the old SS
and (E)SP, the parameters from the old stack, and the return address (R490). -/
def GateFrame (z : Size) (n : Nat) (c : Desc) (s t : State) : Prop :=
  ((c.conforming = true ∨ c.dpl = s.cpl) ∧ ReturnPushed z s t) ∨
    (c.conforming = false ∧ c.dpl < s.cpl ∧ ∃ ss esp d vs s1 s2 t1 t2 t3 t4,
      InnerStackAt c.dpl ss esp d s s1 ∧ vs.length = n ∧ ParamsRead z.width 0 vs s1 s2 ∧
      PushedSel z s.segs.ss.sel (onStack s2 c.dpl ss esp d) t1 ∧ Pushed z.width (s.regs.esp.setWidth _) t1 t2 ∧
      PushedAll z.width vs.reverse t2 t3 ∧ ReturnPushed z t3 t4 ∧ Accessed d t4 t)

/-- A JMP or CALL goes through the present call gate `g` to code of no outer level, from `s` to `t`: a JMP stays at its
level, a CALL makes its frame (R490). -/
def GateCalled (call : Bool) (g : Desc) (s t : State) : Prop :=
  ∃ c s1 s2 s3, GateTarget g c s.cpl s s1 ∧ (call = false → c.conforming = true ∨ c.dpl = s.cpl) ∧
    (if call then GateFrame g.gateSize g.gateCount c s1 s2 else s2 = s1) ∧ Accessed c s2 s3 ∧
    t = inCode { s3 with cpl := if c.conforming then s.cpl else c.dpl } c g.gateSel g.gateOff

/-- A segment register that holds a null selector (R116, R500, R580). -/
def nulled (g : SegReg) : SegReg := { g with sel := 0, valid := false }

/-- The four pushes of the data selectors of a V86 task and their null loads, from `s` to `t`; `o` are the segment
registers of the task (R580). -/
def DataPushed (o : SegRegs) (s t : State) : Prop :=
  ∃ t1 t2 t3 t4, Pushed .d32 (o.gs.sel.setWidth 32) s t1 ∧ Pushed .d32 (o.fs.sel.setWidth 32) t1 t2 ∧
    Pushed .d32 (o.ds.sel.setWidth 32) t2 t3 ∧ Pushed .d32 (o.es.sel.setWidth 32) t3 t4 ∧
    t = { t4 with segs :=
      { t4.segs with
        gs := nulled o.gs
        fs := nulled o.fs
        ds := nulled o.ds
        es := nulled o.es } }

/-- The stack on which a gate's frame of items of size `z` is pushed, from `s` to `t`: the current one for code of the
same level; for inner code that of the TSS, with the data selectors of a V86 task and then the old SS and (E)SP
on it (R580). -/
def FrameStack (z : Size) (c : Desc) (s t : State) : Prop :=
  (s.mode = .prot ∧ (c.conforming = true ∨ c.dpl = s.level) ∧ t = s) ∨
    (c.conforming = false ∧ c.dpl < s.level ∧ ∃ ss esp d s1 s2 s3 s4,
      InnerStackAt c.dpl ss esp d s s1 ∧
      (s.mode = .prot ∧ s2 = onStack s1 c.dpl ss esp d ∨
        s.mode = .v86 ∧ c.dpl = 0 ∧
          DataPushed s.segs (onStack { s1 with flags := { s1.flags with vm := false } } 0 ss esp d) s2) ∧
      PushedSel z s.segs.ss.sel s2 s3 ∧ Pushed z.width (s.regs.esp.setWidth _) s3 s4 ∧ Accessed d s4 t)

/-- The error code, if there is one, is pushed (R557). -/
def CodePushed (w : Width) (code : Option Word16) (s t : State) : Prop :=
  match code with
  | some x => Pushed w (x.setWidth _) s t
  | none => t = s

/-- The frame of an event that enters code `c` through the gate `g` stands, from `s` to `t`: on the stack for it, EFLAGS
(with RF = 1 for a fault, R561), CS, the return offset and the error code, if any; TF, NT and VM are cleared, and IF by
an interrupt gate (R580). -/
def GateFramed (g c : Desc) (kind : ExnKind) (code : Option Word16) (s t : State) : Prop :=
  ∃ s1 t1 t2 t3 t4, FrameStack g.gateSize c s s1 ∧
    Pushed g.gateSize.width
      ({ s.flags with rf := s.flags.rf || decide (kind = ExnKind.fault) }.image.setWidth _) s1 t1 ∧
    PushedSel g.gateSize s.segs.cs.sel t1 t2 ∧
    Pushed g.gateSize.width ((if kind = .fault then s.curEip else s.eip).setWidth _) t2 t3 ∧
    CodePushed g.gateSize.width code t3 t4 ∧
    t = { t4 with flags :=
      { t4.flags with
        tf := false
        nt := false
        vm := false
        ifl := t4.flags.ifl && g.hi.getLsbD 8 } }

/-- An event with vector `v` and an error code, if any, enters through an interrupt or trap gate, from `s` to `t`
(R580): the gate is there and may be used, its target is code of no outer level, its frame is pushed. -/
def GateEntered (v : Byte) (kind : ExnKind) (code : Option Word16) (s t : State) : Prop :=
  8 * v.toNat + 7 ≤ s.idtr.limit.toNat ∧ ∃ g c s1 s2 t1 t2,
    readEntry (s.idtr.base + BitVec.ofNat 32 (8 * v.toNat)) s = .ok g s1 ∧
    g.isIntGate = true ∧ (kind = .software → s.level ≤ g.dpl) ∧ g.p = true ∧
    GateTarget g c s.level s1 s2 ∧ GateFramed g c kind code s2 t1 ∧ Accessed c t1 t2 ∧
    t = inCode { t2 with cpl := if c.conforming then s.level else c.dpl } c g.gateSel g.gateOff

/-- What CR2 and DR6 hold when an exception is delivered (R561, R568). -/
def reported (e : Exn) (s : State) : State :=
  { s with cr2 := e.cr2.getD s.cr2, dr := { s.dr with dr6 := s.dr.dr6 ||| e.dr6 } }

/-- The code segment a return at level `rpl` of its selector may go to (R490; log entry 28). -/
def ReturnCode (d : Desc) (rpl : BitVec 2) : Prop :=
  d.isCode = true ∧ d.p = true ∧ (if d.conforming then d.dpl ≤ rpl else d.dpl = rpl)

/-- A data segment register after a return to level `rpl`: null if its segment is not accessible there (R490; log
entry 28). -/
def keptAt (rpl : BitVec 2) (g : SegReg) : SegReg :=
  if g.valid = false ∨ (g.type.getLsbD 2 = true ∧ g.type.getLsbD 1 = true) ∨ rpl ≤ g.dpl then g else nulled g

/-- The stack part of a return to the outer level `rpl`: (E)SP and SS are popped and checked, `n` more bytes released,
and the data segments that are no longer accessible become null (R490, R500; log entry 28). -/
def OuterStack (w : Width) (rpl : BitVec 2) (n : Word16) (s t : State) : Prop :=
  ∃ sp ss s1 s2 s3 s4 d, Popped w sp s s1 ∧ Popped w ss s1 s2 ∧ 4 ≤ (ss.setWidth 16 : Word16).toNat ∧
    DescriptorAt (ss.setWidth 16) d s2 s3 ∧ selRpl (ss.setWidth 16) = rpl ∧ d.dpl = rpl ∧ d.writableData = true ∧
    d.p = true ∧ Accessed d s3 s4 ∧
    t = { s4 with
      cpl := rpl
      regs := s4.regs.set .esp (sp.setWidth 32 + n.setWidth 32)
      segs :=
        { s4.segs with
          ss := protSeg d (ss.setWidth 16)
          ds := keptAt rpl s4.segs.ds
          es := keptAt rpl s4.segs.es
          fs := keptAt rpl s4.segs.fs
          gs := keptAt rpl s4.segs.gs } }

/-- The stack part of a return to the outer level `rpl` fails with `e`, from `s` to `t`: the SS that is popped is
checked as a load of SS at that level (R118, R490, R500; log entry 28). -/
def OuterStackFails (w : Width) (rpl : BitVec 2) (e : Exn) (s t : State) : Prop :=
  ∃ sp slot s1 s2, Popped w sp s s1 ∧ Popped w slot s1 s2 ∧
    let ss : Word16 := slot.setWidth 16
    let code : Word16 := ss &&& 0xFFFC
    (ss.toNat < 4 ∧ e = exnGP 0 ∧ t = s2) ∨ (4 ≤ ss.toNat ∧ OutsideTable s2 ss ∧ e = exnGP code ∧ t = s2) ∨
      (4 ≤ ss.toNat ∧ ∃ d, DescriptorAt ss d s2 t ∧
        let fits := selRpl ss = rpl ∧ d.dpl = rpl ∧ d.writableData = true
        (¬fits ∧ e = exnGP code) ∨ (fits ∧ d.p = false ∧ e = exnSS code))

/-- The flags an image of `v` gives: every flag but IF, IOPL, RF, VM by its bit (R26). -/
structure ImageFlags (v : Word32) (g : Flags) : Prop where
  cf : g.cf = v.getLsbD 0
  pf : g.pf = v.getLsbD 2
  af : g.af = v.getLsbD 4
  zf : g.zf = v.getLsbD 6
  sf : g.sf = v.getLsbD 7
  tf : g.tf = v.getLsbD 8
  df : g.df = v.getLsbD 10
  of : g.of = v.getLsbD 11
  nt : g.nt = v.getLsbD 14

/-- The flags that IRET in mode P, begun in `s`, loads from an image `v`: IOPL only at level 0, IF only at a level
up to IOPL, RF only with 32 bits, VM never (R284, R500). -/
structure ReturnFlags (s : State) (v : Word32) (g : Flags) : Prop extends ImageFlags v g where
  iopl : g.iopl = (if s.cpl = 0 then v.extractLsb' 12 2 else s.flags.iopl)
  ifl : g.ifl = (if s.cpl ≤ s.flags.iopl then v.getLsbD 9 else s.flags.ifl)
  rf : g.rf = (if s.osz = .s32 then v.getLsbD 16 else s.flags.rf)
  vm : g.vm = false

/-- The state `t` in which a far RET or an IRET `i` of mode P, begun in `s`, goes over to the stack of an outer level,
after its code segment was read in `s1`: RET has released its `n` bytes, IRET has loaded the flags of the image
(R490, R500). -/
def BeforeOuter (s : State) (i : Instr) (n : Word16) (img : Word32) (s1 t : State) : Prop :=
  ((i = .retFarIw n ∨ n = 0 ∧ i = .retFar) ∧
      ∃ g, SpMoved s (n.setWidth 32) s1.regs g ∧ t = { s1 with regs := g }) ∨
    (i = .iret ∧ n = 0 ∧ ∃ f, ReturnFlags s img f ∧ t = { s1 with flags := f })

/-! Task switches. -/

/-- The items at these offsets of a TSS read as these bytes, one after the other (R127). -/
def TssReads (base : Word32) : List (Nat × List Byte) → State → State → Prop
  | [], s, t => t = s
  | (o, bs) :: r, s, t => ∃ u, sysRead (base + BitVec.ofNat 32 o) bs.length s = .ok bs u ∧ TssReads base r u t

/-- These bytes are stored at these offsets of a TSS, one after the other (R127). -/
def TssWrites (base : Word32) : List (Nat × List Byte) → State → State → Prop
  | [], s, t => t = s
  | (o, bs) :: r, s, t => ∃ u, sysWrite (base + BitVec.ofNat 32 o) bs s = .ok () u ∧ TssWrites base r u t

/-- What a task switch saves: the registers, the selectors, EFLAGS and EIP at their offsets (R127, R596). -/
def savedItems (s : State) (ret img : Word32) : List (Nat × List Byte) :=
  [(0x28, bytes32 s.regs.eax), (0x2C, bytes32 s.regs.ecx), (0x30, bytes32 s.regs.edx), (0x34, bytes32 s.regs.ebx),
    (0x40, bytes32 s.regs.esi), (0x44, bytes32 s.regs.edi), (0x38, bytes32 s.regs.esp), (0x3C, bytes32 s.regs.ebp),
    (0x48, bytes16 s.segs.es.sel), (0x4C, bytes16 s.segs.cs.sel), (0x50, bytes16 s.segs.ss.sel),
    (0x54, bytes16 s.segs.ds.sel), (0x58, bytes16 s.segs.fs.sel), (0x5C, bytes16 s.segs.gs.sel),
    (0x24, bytes32 img), (0x20, bytes32 ret)]

/-- What a task switch loads (R127, R596). -/
def loadedItems (k : TssImage) : List (Nat × List Byte) :=
  [(0x60, bytes16 k.ldt), (0x24, bytes32 k.eflags), (0x20, bytes32 k.eip), (0x28, bytes32 k.regs.eax),
    (0x2C, bytes32 k.regs.ecx), (0x30, bytes32 k.regs.edx), (0x34, bytes32 k.regs.ebx), (0x38, bytes32 k.regs.esp),
    (0x3C, bytes32 k.regs.ebp), (0x40, bytes32 k.regs.esi), (0x44, bytes32 k.regs.edi), (0x48, bytes16 k.es),
    (0x4C, bytes16 k.cs), (0x50, bytes16 k.ss), (0x54, bytes16 k.ds), (0x58, bytes16 k.fs), (0x5C, bytes16 k.gs)]

/-- The busy bit of the TSS descriptor a selector names is set to `b` in the GDT, if `c` (R119, R596). -/
def BusyIf (c : Prop) (sel : Word16) (b : Bool) (s t : State) : Prop :=
  let at_ := s.gdtr.base + BitVec.ofNat 32 (8 * (sel.toNat / 8) + 5);
  (¬c ∧ t = s) ∨ (c ∧ ∃ v u, sysRead at_ 1 s = .ok [v] u ∧
    sysWrite at_ [if b then v ||| 2 else v &&& 0xFD] u = .ok () t)

/-- LDTR receives the LDT of the new task (R57, R596; log entry 26). -/
def LdtLoaded (sel : Word16) (s t : State) : Prop :=
  if sel.toNat < 4 then t = { s with ldtr := ⟨sel, 0, 0, false⟩ }
  else sel.getLsbD 2 = false ∧ ∃ d u, DescriptorAt sel d s u ∧ d.isLdt = true ∧ d.p = true ∧
    t = { u with ldtr := ⟨sel, d.base, d.limit, true⟩ }

/-- CS of the new task (R111, R118, R596; log entry 26). -/
def TaskCodeLoads (sel : Word16) (s t : State) : Prop :=
  match s.mode with
  | .prot => 4 ≤ sel.toNat ∧ ∃ d s1 s2, DescriptorAt sel d s s1 ∧ ReturnCode d (selRpl sel) ∧ Accessed d s1 s2 ∧
      t = { s2 with segs := s2.segs.set .cs (protSeg d sel) }
  | _ => SegLoads .cs sel s t

/-- `TaskSwitch` to the TSS that `sel` names, with the offset `ret` and the flags image `img` to save, from `s` to `t`
(R596); `direct` if a JMP or CALL names the TSS itself. -/
def TaskSwitched (cause : TaskCause) (direct : Bool) (sel : Word16) (ret img : Word32) (s t : State) : Prop :=
  4 ≤ sel.toNat ∧ sel.getLsbD 2 = false ∧ ∃ d s1 s2 s3 s4 s5 s6 s7 k,
    DescriptorAt sel d s s1 ∧ d.isTss = true ∧ d.p = true ∧ 103 ≤ d.limit.toNat ∧
    (direct = true → s.cpl ≤ d.dpl ∧ selRpl sel ≤ d.dpl) ∧ (d.busy = true ↔ cause = .iret) ∧
    s.tr.valid = true ∧ 103 ≤ s.tr.limit.toNat ∧
    TssWrites s.tr.base (savedItems s ret (if cause = .iret then img &&& 0xFFFFBFFF else img)) s1 s2 ∧
    BusyIf (cause = .jmp ∨ cause = .iret) s.tr.sel false s2 s3 ∧
    (if cause = .call ∨ cause = .interrupt then TssWrites d.base [(0, bytes16 s.tr.sel)] s3 s4 else s4 = s3) ∧
    BusyIf (cause ≠ .iret) sel true s4 s5 ∧
    (let e := { s5 with
      tr := ⟨sel, d.base, d.limit, true⟩
      cr0 := s5.cr0 ||| 8 };
    if s.paging then ∃ v u, TssReads d.base [(0x1C, bytes32 v)] e u ∧
      s6 = { u with cr3 := v &&& 0xFFFFF000, tlb := [] }
    else s6 = e) ∧
    TssReads d.base (loadedItems k) s6 s7 ∧
    ∃ f n0 n1 n2 n3 n4 n5 n6 n7 lo hi, ImageFlags k.eflags f ∧ f.ifl = k.eflags.getLsbD 9 ∧
      f.iopl = k.eflags.extractLsb' 12 2 ∧ f.rf = k.eflags.getLsbD 16 ∧ f.vm = k.eflags.getLsbD 17 ∧
      n0 = goTo { s7 with
        curEip := k.eip
        flags := { f with nt := f.nt || (cause == .call || cause == .interrupt) }
        rfKept := true
        regs := k.regs
        segs :=
          { es := { s7.segs.es with sel := k.es, valid := false }
            cs := { s7.segs.cs with sel := k.cs, valid := false }
            ss := { s7.segs.ss with sel := k.ss, valid := false }
            ds := { s7.segs.ds with sel := k.ds, valid := false }
            fs := { s7.segs.fs with sel := k.fs, valid := false }
            gs := { s7.segs.gs with sel := k.gs, valid := false } }
        ldtr := ⟨k.ldt, 0, 0, false⟩
        cpl := if f.vm then 3 else selRpl k.cs
        dr := { s7.dr with dr7 := s7.dr.dr7 &&& 0xFFFFFEAA } } k.eip ∧
      LdtLoaded k.ldt n0 n1 ∧ TaskCodeLoads k.cs n1 n2 ∧ SegLoads .ss k.ss n2 n3 ∧ SegLoads .ds k.ds n3 n4 ∧
      SegLoads .es k.es n4 n5 ∧ SegLoads .fs k.fs n5 n6 ∧ SegLoads .gs k.gs n6 n7 ∧
      ∃ u, TssReads d.base [(0x64, [lo, hi])] n7 u ∧
        t = { u with dbg := { u.dbg with bt := u.dbg.bt || lo.getLsbD 0 } }

/-- An event with vector `v` and an error code, if any, enters through a task gate, from `s` to `t`: the task switch,
and the code as a double word on the stack of the new task (R580, R596; log entry 50). -/
def TaskGateEntered (v : Byte) (kind : ExnKind) (code : Option Word16) (s t : State) : Prop :=
  8 * v.toNat + 7 ≤ s.idtr.limit.toNat ∧ ∃ g s1 s2,
    readEntry (s.idtr.base + BitVec.ofNat 32 (8 * v.toNat)) s = .ok g s1 ∧
    g.isTaskGate = true ∧ (kind = .software → s.level ≤ g.dpl) ∧ g.p = true ∧
    TaskSwitched .interrupt false g.gateSel (if kind = .fault then s.curEip else s.eip)
      { s.flags with rf := s.flags.rf || decide (kind = ExnKind.fault) }.image s1 s2 ∧
    CodePushed .d32 code s2 t

/-- An event enters through a gate of the IDT, from `s` to `t` (R580). -/
def Entered (v : Byte) (kind : ExnKind) (code : Option Word16) (s t : State) : Prop :=
  s.mode ≠ .real ∧ (GateEntered v kind code s t ∨ TaskGateEntered v kind code s t)

/-- The pairs of a first and a second vector that make a double fault (R567). -/
def Escalates (first second : Byte) : Prop :=
  let contributory : List Byte := [0, 10, 11, 12, 13];
  (first ∈ contributory ∧ second ∈ contributory) ∨ (first = 14 ∧ (second ∈ contributory ∨ second = 14))

/-- The frame of an entry through the vector table meets SP = 1 after none, one or two of its pushes, from `s` to `t`
(R142, R570). -/
def RealOverrun (s t : State) : Prop :=
  let image : Word16 := (s.flags.image &&& 0x00FCFFFF).setWidth 16;
  topOffset t = 1 ∧ (t = s ∨ Pushed .w16 image s t ∨ ∃ u, Pushed .w16 image s u ∧ Pushed .w16 s.segs.cs.sel u t)

/-- `n` frame pointers of the caller's display are copied, from `s` to `t` (R505). -/
def DisplayCopied (z : Size) : Nat → State → State → Prop
  | 0, s, t => t = s
  | n + 1, s, t => ∃ g v s1 s2,
      WritesReg z.width .ebp (readReg z.width s.regs .ebp - BitVec.ofNat _ z.width.bytes) s.regs g ∧
      MemReads z.width .ss ((readReg z.width g .ebp).setWidth 32) v { s with regs := g } s1 ∧
      Pushed z.width v s1 s2 ∧ DisplayCopied z n s2 t

/-- The instructions a LOCK prefix may stand before (R530). -/
def Lockable (i : Instr) : Prop :=
  (∃ op m x, op ≠ AluOp.cmp ∧ i = aluToRm op (.mem m) x) ∨ (∃ op wide m, i = unInstr op wide (.mem m)) ∨
    (∃ op m x, i = bitInstr op (.mem m) x) ∨
    ∃ r m, i = .xchgRbRmb r (.mem m) ∨ i = .xchgRvRmv r (.mem m)

/-- No event stands before the instruction at CS:EIP: none is there, or the interrupt shadow holds them all back
(R64, R559). -/
structure NoEvent (s : State) : Prop where
  reset : s.lines.reset = false
  shutdown : s.shutdown = false
  halted : s.halted = false
  events : s.inhibit = true ∨
    s.dbg.any = false ∧ (s.nmiPending = false ∨ s.nmiMask = true) ∧ (s.flags.ifl = false ∨ s.lines.intr = [])

/-- Breakpoint `n` is enabled, is one for execution, and stands at the first byte of the instruction (R53, R561). -/
def BreaksHere (s : State) (n : Nat) : Prop :=
  (s.dr.dr7.getLsbD (2 * n) = true ∨ s.dr.dr7.getLsbD (2 * n + 1) = true) ∧
    s.dr.dr7.extractLsb' (16 + 4 * n) 2 = 0 ∧
    [s.dr.dr0, s.dr.dr1, s.dr.dr2, s.dr.dr3][n]? = some (s.segs.cs.base + s.eip)

/-- Data breakpoint `n`, by the defined codes of R/Wn and LENn, watches a byte of an access to `k` bytes at the linear
address `lin` (R53, R561). -/
def BreaksOnData (s : State) (n : Nat) (write : Bool) (lin : Word32) (k : Nat) : Prop :=
  (s.dr.dr7.getLsbD (2 * n) = true ∨ s.dr.dr7.getLsbD (2 * n + 1) = true) ∧
    (s.dr.dr7.extractLsb' (16 + 4 * n) 2 = 1 ∧ write = true ∨ s.dr.dr7.extractLsb' (16 + 4 * n) 2 = 3) ∧
    ∃ code size at_ i j, (code, size) ∈ [((0 : BitVec 2), 1), (1, 2), (3, 4)] ∧
      s.dr.dr7.extractLsb' (18 + 4 * n) 2 = code ∧ [s.dr.dr0, s.dr.dr1, s.dr.dr2, s.dr.dr3][n]? = some at_ ∧
      i < k ∧ j < size ∧ lin + BitVec.ofNat 32 i = at_ + BitVec.ofNat 32 j

/-- No event and no instruction breakpoint stands before the instruction at CS:EIP (R559, R561). -/
structure Quiet (s : State) : Prop extends NoEvent s where
  breaks : s.flags.rf = true ∨ ∀ n < 4, ¬BreaksHere s n

/-- The instructions whose operands all lie in registers and that no exception can end. -/
def RegisterOnly (i : Instr) : Prop :=
  (∃ op d x, i = aluToRm op (.reg d) x) ∨ (∃ op wide d r, i = aluFromRm op wide d (.reg r)) ∨
    (∃ op v, i = aluAl op v) ∨ (∃ op v, i = aluAx op v) ∨ (∃ op wide d, i = unInstr op wide (.reg d)) ∨
    (∃ op wide c d, i = shiftInstr op wide c (.reg d)) ∨ (∃ left d r c, i = doubleInstr left (.reg d) r c) ∨
    (∃ op d x, i = bitInstr op (.reg d) x) ∨
    (∃ d r, i = .movRmbRb (.reg d) r ∨ i = .movRmvRv (.reg d) r ∨ i = .movRbRmb d (.reg r) ∨
      i = .movRvRmv d (.reg r) ∨ i = .movsxRvRmb d (.reg r) ∨ i = .movsxRdRmw d (.reg r) ∨
      i = .movzxRvRmb d (.reg r) ∨ i = .movzxRdRmw d (.reg r) ∨ i = .xchgRbRmb d (.reg r) ∨
      i = .xchgRvRmv d (.reg r) ∨ i = .bsf d (.reg r) ∨ i = .bsr d (.reg r) ∨ i = .imulRvRmv d (.reg r) ∨
      i = .testRmbRb (.reg d) r ∨ i = .testRmvRv (.reg d) r) ∨
    (∃ d v, i = .movRbIb d v ∨ i = .movRmbIb (.reg d) v ∨ i = .testRmbIb (.reg d) v) ∨
    (∃ d v, i = .movRvIv d v ∨ i = .movRmvIv (.reg d) v ∨ i = .testRmvIv (.reg d) v) ∨
    (∃ d sr, i = .movRmwSreg (.reg d) sr) ∨ (∃ c d, i = .setcc c (.reg d)) ∨ (∃ d m, i = .lea d m) ∨
    (∃ d, i = .xchgAxRv d ∨ i = .incRv d ∨ i = .decRv d ∨ i = .mulRmb (.reg d) ∨ i = .mulRmv (.reg d) ∨
      i = .imulRmb (.reg d) ∨ i = .imulRmv (.reg d)) ∨
    i ∈ [Instr.lahf, .sahf, .cbw, .cwd, .aaa, .aas, .daa, .das, .clc, .stc, .cmc, .cld, .std, .nop]

/-- The instructions that only read an r/m operand, with the width of the operand. -/
def ReadsOperand (s : State) (i : Instr) (w : Width) (m : RM) : Prop :=
  (∃ op wide r, i = aluFromRm op wide r m ∧ w = widthOf s wide) ∨
    (∃ x, i = aluToRm .cmp m x ∧ w = x.width s) ∨
    (w = .b8 ∧ ((∃ r, i = .movRbRmb r m ∨ i = .movsxRvRmb r m ∨ i = .movzxRvRmb r m ∨ i = .testRmbRb m r) ∨
      (∃ v, i = .testRmbIb m v) ∨ i = .mulRmb m ∨ i = .imulRmb m)) ∨
    (w = .w16 ∧ ∃ r, i = .movsxRdRmw r m ∨ i = .movzxRdRmw r m) ∨
    (w = s.osz.width ∧ ((∃ r, i = .movRvRmv r m ∨ i = .testRmvRv m r ∨ i = .bsf r m ∨ i = .bsr r m ∨
        i = .imulRvRmv r m) ∨ (∃ v, i = .testRmvIv m v) ∨ (∃ x, i = bitInstr .bt m x) ∨
      (∃ r v, i = .imulRvRmvIb r m v) ∨ (∃ r v, i = .imulRvRmvIv r m v) ∨ i = .mulRmv m ∨ i = .imulRmv m))

/-- The instructions that store to an r/m operand and nowhere else, with the width of the operand and whether LOCK
may stand before them. -/
def WritesOperand (s : State) (i : Instr) (w : Width) (m : RM) (lockable : Bool) : Prop :=
  (∃ op x, op ≠ AluOp.cmp ∧ i = aluToRm op m x ∧ w = x.width s ∧ lockable = RMisMem m) ∨
    (∃ op wide, i = unInstr op wide m ∧ w = widthOf s wide ∧ lockable = RMisMem m) ∨
    (∃ op x, op ≠ BitOp.bt ∧ i = bitInstr op m x ∧ w = s.osz.width ∧ lockable = RMisMem m) ∨
    (lockable = false ∧
      ((∃ op wide c, i = shiftInstr op wide c m ∧ w = widthOf s wide) ∨
        (∃ left r c, i = doubleInstr left m r c ∧ w = s.osz.width) ∨
        (w = .b8 ∧ ((∃ r, i = .movRmbRb m r) ∨ (∃ v, i = .movRmbIb m v) ∨ ∃ c, i = .setcc c m)) ∨
        (w = .w16 ∧ ∃ sr, i = .movRmwSreg m sr) ∨
        (w = s.osz.width ∧ ((∃ r, i = .movRmvRv m r) ∨ ∃ v, i = .movRmvIv m v))))

/-- The instructions that translate their r/m operand for reading before anything else, with the width of the operand.
-/
def FetchesOperand (s : State) (i : Instr) (w : Width) (m : RM) : Prop :=
  ReadsOperand s i w m ∨
    (∃ wide, w = widthOf s wide ∧
      (i = (if wide then .divRmv m else .divRmb m) ∨ i = if wide then .idivRmv m else .idivRmb m)) ∨
    (w = s.osz.width ∧ (i = .pushRmv m ∨ i = .jmpRmv m ∨ i = .callRmv m)) ∨
    (w = .w16 ∧ ∃ sr, sr ≠ SReg.cs ∧ i = .movSregRmw sr m)

/-- The instructions that translate their r/m operand for writing before anything else, with the width of the operand
and whether LOCK may stand before them; a shift by 0 does not touch its operand (R370, R385). -/
def ModifiesOperand (s : State) (i : Instr) (w : Width) (m : RM) (lockable : Bool) : Prop :=
  (WritesOperand s i w m lockable ∧ (∀ op wide c, i = shiftInstr op wide c m → c.value s ≠ 0) ∧
      ∀ left r k, i = doubleInstr left m r k → (k.getD (readReg .b8 s.regs .cl)).toNat % 32 ≠ 0) ∨
    (lockable = RMisMem m ∧ ∃ r, (w = .b8 ∧ i = .xchgRbRmb r m) ∨ (w = s.osz.width ∧ i = .xchgRvRmv r m))

/-- The instructions that read a pair at their memory operand, a far pointer or two bounds, with the width of the second
part; the first has the operand size (R287, R472, R510). -/
def PairOperand (s : State) (i : Instr) (m : EA) (second : Width) : Prop :=
  (second = .w16 ∧ ((∃ r, i = .lds r m ∨ i = .les r m ∨ i = .lfs r m ∨ i = .lgs r m ∨ i = .lss r m) ∨
      i = .jmpFarMem m ∨ i = .callFarMem m)) ∨
    (second = s.osz.width ∧ ∃ r, i = .bound r m)

/-- The pushes of a register, an immediate or the flags. -/
def PlainPush (s : State) (i : Instr) : Prop :=
  (∃ r, i = .pushRv r) ∨ (∃ v, i = .pushIb v) ∨ (∃ v, i = .pushIv v) ∨
    (i = .pushf ∧ (s.mode = .v86 → s.flags.iopl = 3))

end Sys2Proof.Claims
end

