-- ==== Sys2Proof/Certificates/Slice0/Obligations.lean ====
section
/-! DEFINITION. The statements for the provers. A completion statement gives the whole state an instruction
leaves, `finished s t`: `t` is the state its accesses reach (they may set A and D bits of page entries, fill the
TLB and note data breakpoints) with the named changes, and nothing else; the frame is part of it. -/

open Sys2Proof Sys2Proof.Machine Sys2Proof.Safety Sys2Proof.Claims

/-! Encoding. -/

/-- Decoding the encoding of a well-formed instruction gives it back, whatever follows it: no operand bit of
30_encoding.md is dropped. -/
def Obligations.DecodeEncode : Prop :=
  ∀ (o a : Size) (i : Instr) (rest : List Byte), i.wf o a = true →
    decodeItem o a (encode i ++ rest) = .ok i rest

/-- What the decoder reads is well formed, and its encoding has the length of the bytes read. -/
def Obligations.DecodedWellFormed : Prop :=
  ∀ (o a : Size) (bs rest : List Byte) (i : Instr), decodeItem o a bs = .ok i rest →
    i.wf o a = true ∧ (encode i).length + rest.length = bs.length

/-- Seven words of the opcode table, written out from its encoding column, decode to their instructions, and two more
are refused as invalid opcodes: a MOV to CS (R262, R205; decision D22 of the spec), and 8F [0], whose form is `mw`,
with a register (R181; log entry 54). -/
def Obligations.SampleWords : Prop :=
  decodeItem .s16 .s16 [0xB4, 0x12] = .ok (.movRbIb .ah 0x12) [] ∧
  decodeItem .s32 .s32 [0x03, 0xD9] = .ok (.addRvRmv .ebx (.reg .ecx)) [] ∧
  decodeItem .s16 .s16 [0x81, 0x6E, 0xFE, 0x34, 0x12] =
    .ok (.subRmvIv (.mem (.m16 .bp (.d8 0xFE))) (.w 0x1234)) [] ∧
  decodeItem .s32 .s32 [0x0F, 0xA4, 0x04, 0xB3, 0x0A] =
    .ok (.shldIb (.mem (.sib 2 (some .esi) (some .ebx) .none)) .eax 0x0A) [] ∧
  decodeItem .s16 .s16 [0x8E, 0xD8] = .ok (.movSregRmw .ds (.reg .eax)) [] ∧
  decodeItem .s16 .s16 [0x0F, 0x85, 0x10, 0x00] = .ok (.jccNear .ne (.w 0x0010)) [] ∧
  decodeItem .s16 .s16 [0xEA, 0x00, 0x01, 0x00, 0xF0] = .ok (.jmpFar (.w 0x0100) 0xF000) [] ∧
  decodeItem .s16 .s16 [0x8E, 0xC8] = .error .invalidOpcode [] ∧
  decodeItem .s16 .s16 [0x8F, 0xC1] = .error .invalidOpcode []

/-! Reset, boundaries, steps. -/

/-- The state after RESET: the values the spec's own decision gives (R68, 92_eei_decisions.md D1; from general
knowledge, not from the source); the registers it leaves unspecified are not mentioned. -/
def Obligations.ResetState : Prop :=
  let s := State.reset;
  s.eip = 0x0000FFF0 ∧
  (s.segs.cs.sel = 0xF000 ∧ s.segs.cs.base = 0xFFFF0000 ∧ s.segs.cs.limit = 0xFFFF) ∧
  (∀ r : SReg, r ≠ .cs → (s.segs.get r).sel = 0 ∧ (s.segs.get r).base = 0 ∧ (s.segs.get r).limit = 0xFFFF) ∧
  s.flags.image = 0x00000002 ∧
  (s.pe = false ∧ s.pg = false ∧ s.ts = false ∧ s.em = false ∧ s.mp = false ∧
    s.cr0.getLsbD 4 = Config.coprocessorPresent) ∧
  s.regs.edx = Config.processorId.setWidth 32 ∧
  s.dr.dr7 = 0 ∧ s.idtr.base = 0 ∧ s.idtr.limit = 0x3FF ∧ s.tlb = [] ∧
  s.nmiMask = false ∧ s.inhibit = false ∧ s.halted = false ∧ s.cpl = 0

/-- The invariant holds after RESET. -/
def Obligations.ResetInvariant : Prop := Inv State.reset

/-- Every step keeps the invariant: memory in canonical form, CR3 page aligned (R47), the TLB within four
entries of a row and one of a page (R62; the replacement is log entry 6), and nothing left of an instruction. -/
def Obligations.StepKeepsInvariant : Prop :=
  ∀ s t : State, Inv s → step s = .next t → Inv t

/-- Where no event stands before it, a step runs the instruction that the bytes at CS:EIP decode to, with EIP
past it and its prefixes latched (R122, R195, R559); past 0xFFFFFFFF the offset is kept as EIP + 2^32, so that the next
fetch faults (decision D11; log entry 51). The whole instruction is fetched before it runs, with its effects on page
entries (log entries 13 and 49). -/
def Obligations.StepRunsInstruction : Prop :=
  ∀ (s s1 : State) (pre : List Instr) (i : Instr) (n : Nat), Quiet s →
    decode s.defaultSize (fetchBytes (atBoundary s) maxLength 0).1 = .ok pre i n →
    touchCode n (atBoundary s) = .ok () s1 →
    i.isPrefix = false ∧
    step s = exec i { s1 with
      eip := s1.eip + BitVec.ofNat 32 n
      eipPast := decide (2 ^ 32 ≤ s1.eip.toNat + n)
      pfx := pre.foldl (fun p j => latched j p) s1.pfx }

/-- What stands at CS:EIP and is no instruction is an exception of the step: an instruction breakpoint is exception 1
with its bits for DR6 (R561), an undefined opcode exception 6 (R205), more than 15 bytes exception 13 with the code 0,
which mode R does not push (R173, R557, R573; in mode V log entry 18), and a byte that cannot be fetched the fault of
its offset, without a code in modes R and V (R112, R122, R25; log entry 18), or of its page. The offset after
0xFFFFFFFF is beyond every limit (decision D11; log entry 51); the bytes fetched have their effects on page entries
(log entry 49). -/
def Obligations.StepFaults : Prop :=
  ∀ (s : State),
    let b := atBoundary s;
    let read := fetchBytes b maxLength 0;
    let x13 : Exn := if s.mode = .prot then exnGP 0 else exn13;
    (NoEvent s → s.flags.rf = false → ∀ m : Word32,
      (∀ k, m.getLsbD k = true ↔ k < 4 ∧ BreaksHere s k) → m ≠ 0 →
      step s = .next (deliver ⟨1, .fault, none, none, m⟩ b)) ∧
    (Quiet s → ∀ n s1, decode s.defaultSize read.1 = .invalid n → touchCode n b = .ok () s1 →
      step s = .next (deliver exnUD s1)) ∧
    (Quiet s → decode s.defaultSize read.1 = .more → (∀ k < 15, ∃ a, fetchAddr b k = .ok a) →
      ∀ s1, touchCode 15 b = .ok () s1 → step s = .next (deliver (exnGP 0) s1)) ∧
    (Quiet s → decode s.defaultSize read.1 = .more → ∀ k e, k < 15 → fetchAddr b k = .error e →
      (∀ j < k, ∃ a, fetchAddr b j = .ok a) →
      ∀ s1, touchCode k b = .ok () s1 → step s = .next (deliver e s1)) ∧
    (∀ k, (s.eipPast = true ∨ 2 ^ 32 ≤ s.eip.toNat + k ∨ (s.mode ≠ .prot ∧ 0xFFFF < s.eip.toNat + k) ∨
        (s.mode = .prot ∧ s.segs.cs.type.getLsbD 2 = true ∧ s.segs.cs.limit.toNat < s.eip.toNat + k)) →
      fetchAddr b k = .error x13) ∧
    (∀ k lin e, s.eipPast = false → s.eip.toNat + k < 2 ^ 32 →
      linear b .exec .cs (s.eip + BitVec.ofNat 32 k) 1 = .ok lin →
      pageLookup b .exec (s.level == 3) lin = .error e → fetchAddr b k = .error e)

/-- A boundary takes RESET, then shutdown, a debug trap, NMI, INTR, and halt, in this order (R559, R590, R640);
under the interrupt shadow none of the three events is taken, and the shadow is used up (R64; under that of STI too, log
entry 56). A trap taken while halted leaves the processor halted (log entry 24). The lines are fields that the
environment sets (log entry 11). -/
def Obligations.BoundaryOrder : Prop :=
  ∀ s : State,
    (s.lines.reset = true → step s = .next (afterReset s)) ∧
    (s.lines.reset = false → s.shutdown = true → step s = .next s) ∧
    (s.lines.reset = false → s.shutdown = false → s.inhibit = true →
      (s.halted = true → step s = .next { s with curEip := s.eip, inhibit := false }) ∧
      (s.halted = false → boundary s = fetchDecode { s with curEip := s.eip, inhibit := false })) ∧
    (s.lines.reset = false → s.shutdown = false → s.inhibit = false → s.dbg.any = true →
      step s = .next (deliver ⟨1, .trap, none, none, s.dbg.dr6⟩
        { s with curEip := s.eip, inhibit := false, dbg := DebugCauses.none })) ∧
    (s.lines.reset = false → s.shutdown = false → s.inhibit = false → s.dbg.any = false →
      (s.nmiPending = true ∧ s.nmiMask = false →
        step s = .next (deliver ⟨2, .external, none, none, 0⟩
          { s with curEip := s.eip, inhibit := false, nmiPending := false, nmiMask := true, halted := false })) ∧
      (¬(s.nmiPending = true ∧ s.nmiMask = false) → ∀ v vs, s.flags.ifl = true → s.lines.intr = v :: vs →
        step s = .next (deliver ⟨v, .external, none, none, 0⟩
          { s with curEip := s.eip, inhibit := false, halted := false,
                   lines := { s.lines with intr := vs } })) ∧
      (¬(s.nmiPending = true ∧ s.nmiMask = false) → (s.flags.ifl = false ∨ s.lines.intr = []) →
        s.halted = true → step s = .next { s with curEip := s.eip, inhibit := false }))

/-- The causes of a debug trap (R52, R53, R67, R561): an instruction that began with TF = 1 leaves BS pending; a data
access leaves Bn pending where an enabled DRn, for writes or for reads and writes, watches one of its bytes, and no
other cause; an operand in memory is such an access. R53 takes the codes of R/Wn and LENn from general knowledge and
leaves 10 undefined; a DRn that is not aligned to its length watches the bytes from it on: log entry 20. A pending
cause is a trap at the next boundary, as BoundaryOrder says, with these bits for DR6. -/
def Obligations.DebugTraps : Prop :=
  (∀ s t : State, ((finished s t).dbg.bs = true ↔ t.dbg.bs = true ∨ s.flags.tf = true) ∧
    (finished s t).dbg = { t.dbg with bs := (finished s t).dbg.bs }) ∧
  (∀ (kind : Access) (sr : SReg) (off lin : Word32) (n : Nat) (s t : State) (ps : List Word32),
    linear s kind sr off n = .ok lin → translate kind sr off n s = .ok ps t →
    (∀ k old new, (k, old, new) ∈ [(0, s.dbg.b0, t.dbg.b0), (1, s.dbg.b1, t.dbg.b1), (2, s.dbg.b2, t.dbg.b2),
        (3, s.dbg.b3, t.dbg.b3)] →
      s.dr.dr7.extractLsb' (16 + 4 * k) 2 ≠ 2 → s.dr.dr7.extractLsb' (18 + 4 * k) 2 ≠ 2 →
      (new = true ↔ old = true ∨ BreaksOnData s k (kind == .write) lin n)) ∧
    t.dbg.bs = s.dbg.bs ∧ t.dbg.bt = s.dbg.bt) ∧
  (∀ (w : Width) (kind : Access) (m : EA) (s t : State) (l : Loc), locate w kind (.mem m) s = .ok l t →
    ∃ ps, l = .mem ps ∧ translate kind (s.pfx.seg.getD (eaSeg m)) (eaOffset s.regs m) w.bytes s = .ok ps t) ∧
  (∀ d : DebugCauses,
    (d.any = true ↔ d.bs = true ∨ d.bt = true ∨ d.b0 = true ∨ d.b1 = true ∨ d.b2 = true ∨ d.b3 = true) ∧
    ∀ k, d.dr6.getLsbD k = (match k with
      | 0 => d.b0
      | 1 => d.b1
      | 2 => d.b2
      | 3 => d.b3
      | 14 => d.bs
      | 15 => d.bt
      | _ => false))

/-! Memory. -/

/-- Linear to physical (R110, R128 to R131, R136): identity with paging off; a page the TLB holds is translated by its
entry, which becomes the most recently used; else, and at the first write through an entry whose D bit is clear (log
entry 6), the tables are walked: A is set in both entries, D in the table entry for a write, and no other byte differs,
so bit 6 of the directory entry is not written (the model's choice, log entry 7); the new TLB entry has the frame, the
rights of both entries together (R130) and D. The rest of the TLB holds no new entry and none of the page, and nothing
else in the state differs but the note of the bits set (log entry 12). A translation that fails is exception 14 with the
linear address for CR2 and the code of R131, whose layout the spec takes from general knowledge, and leaves the state as
it was. -/
def Obligations.PageTranslation : Prop :=
  ∀ (s : State) (kind : Access) (user : Bool) (lin : Word32),
    let find := tlbFind s.tlb (lin.extractLsb' 12 20);
    let walks := find = none ∨ kind = .write ∧ ∃ en, find = some en ∧ en.dirty = false;
    let da := (s.cr3 &&& 0xFFFFF000).toNat + 4 * (lin.toNat / 2 ^ 22);
    let pde := readPhys32 s.mem (BitVec.ofNat 32 da);
    let ta := (pde &&& 0xFFFFF000).toNat + 4 * (lin.toNat / 2 ^ 12 % 2 ^ 10);
    let pte := readPhys32 s.mem (BitVec.ofNat 32 ta);
    let rights := user = true → (pde.getLsbD 2 = true ∧ pte.getLsbD 2 = true) ∧
      (kind = .write → pde.getLsbD 1 = true ∧ pte.getLsbD 1 = true);
    let others := fun (en : TlbEntry) (rest : List TlbEntry) => ∀ x ∈ rest, x ∈ s.tlb ∧ x.page ≠ en.page;
    let fails := fun present : Prop =>
      ∃ e, page kind user lin s = .error (.exc e) s ∧ e.vector = 14 ∧ e.kind = .fault ∧ e.cr2 = some lin ∧
        ∃ c, e.code = some c ∧ c.toNat < 8 ∧ (c.getLsbD 0 = true ↔ present) ∧
          (c.getLsbD 1 = true ↔ kind = .write) ∧ c.getLsbD 2 = user;
    (s.paging = false → page kind user lin s = .ok lin s) ∧
    (s.paging = true → ∀ en, find = some en → (kind = .write → en.dirty = true) →
      let may := user = true → en.user = true ∧ (kind = .write → en.writable = true);
      (may → ∃ rest, others en rest ∧
        page kind user lin s = .ok (en.frame ++ lin.extractLsb' 0 12) { s with tlb := en :: rest }) ∧
      (¬may → fails True)) ∧
    (s.paging = true → walks →
      (pde.getLsbD 0 = true ∧ pte.getLsbD 0 = true ∧ rights →
        ∃ t, page kind user lin s = .ok ((pte &&& 0xFFFFF000) ||| (lin &&& 0xFFF)) t ∧
          t = { s with tlb := t.tlb, mem := t.mem, adMarks := t.adMarks } ∧
          t.adMarks = (da, 0x20) :: (ta, if kind = .write then 0x60 else 0x20) :: s.adMarks ∧
          (∀ x, Memory.read t.mem x = (Memory.read s.mem x ||| (if x = da then 0x20 else 0)) |||
            (if x = ta then (if kind = .write then 0x60 else 0x20) else 0)) ∧
          ∃ en rest, t.tlb = en :: rest ∧ others en rest ∧
            en.page = lin.extractLsb' 12 20 ∧ en.frame = pte.extractLsb' 12 20 ∧
            (en.user = true ↔ pde.getLsbD 2 = true ∧ pte.getLsbD 2 = true) ∧
            (en.writable = true ↔ pde.getLsbD 1 = true ∧ pte.getLsbD 1 = true) ∧
            (en.dirty = true ↔ kind = .write ∨ pte.getLsbD 6 = true)) ∧
      (¬(pde.getLsbD 0 = true ∧ pte.getLsbD 0 = true ∧ rights) →
        fails (pde.getLsbD 0 = true ∧ pte.getLsbD 0 = true)))

/-- In modes R and V an access is legal when every byte lies in 0 to 0xFFFF; else exception 12 through SS, 13 through
any other segment, without an error code, in mode V too, where R557 lists 12 and 13 with one (log entry 18); no access
right is checked (R111, R112). -/
def Obligations.RealOffsets : Prop :=
  ∀ (s : State) (kind : Access) (sr : SReg) (off : Word32) (n : Nat), s.mode ≠ .prot → 0 < n →
    (off.toNat ≤ 0xFFFF ∧ off.toNat + n - 1 ≤ 0xFFFF →
      linear s kind sr off n = .ok ((s.segs.get sr).base + off)) ∧
    (off.toNat > 0xFFFF ∨ off.toNat + n - 1 > 0xFFFF →
      ∃ e, linear s kind sr off n = .error e ∧ e.vector = (if sr = .ss then 12 else 13) ∧ e.code = none)

/-- In mode P validity, limit (expand-up, or expand-down as R114 takes it from general knowledge) and rights are
checked, in this order, before the base is added (R113, R114). -/
def Obligations.ProtectedLimits : Prop :=
  ∀ (s : State) (kind : Access) (sr : SReg) (off : Word32) (n : Nat), s.mode = .prot → 0 < n →
    let g := s.segs.get sr;
    let code := g.type.getLsbD 2;
    let inLimit :=
      if code = false ∧ g.type.getLsbD 1 = true then
        off.toNat > g.limit.toNat ∧ off.toNat + n - 1 ≤ (if g.db then 0xFFFFFFFF else 0xFFFF)
      else off.toNat ≤ g.limit.toNat ∧ off.toNat + n - 1 ≤ g.limit.toNat;
    let rights := (kind = .write → code = false ∧ g.type.getLsbD 0 = true) ∧
      (kind = .read → code = false ∨ g.type.getLsbD 0 = true);
    (g.valid = true ∧ inLimit ∧ rights →
      linear s kind sr off n = .ok (BitVec.ofNat 32 (g.base.toNat + off.toNat))) ∧
    (¬(g.valid = true ∧ inLimit) → linear s kind sr off n = .error (if sr = .ss then exnSS 0 else exnGP 0)) ∧
    (g.valid = true → inLimit → ¬rights → linear s kind sr off n = .error (exnGP 0))

/-- Byte order and mixed widths (R101, R102; for every access by decision D2 of the spec): byte `i` of a stored value
lies at the `i`-th of its addresses; a word or a byte read there is a part of the double word. -/
def Obligations.LittleEndian : Prop :=
  ∀ (s : State) (w : Width) (v : BitVec w.bits) (ps : List Word32), ps.length = w.bytes →
    (ps.map (·.toNat)).Nodup →
    let t := s.storeAt w (.mem ps) v;
    (∀ i, (h : i < ps.length) → (Memory.read t.mem (ps[i]).toNat).toNat = v.toNat / 2 ^ (8 * i) % 2 ^ 8) ∧
    (∀ x, x ∉ ps.map (·.toNat) → Memory.read t.mem x = Memory.read s.mem x) ∧
    (t.valueAt .b8 (.mem (ps.take 1))).toNat = v.toNat % 2 ^ 8 ∧
    (w = .d32 → (t.valueAt .w16 (.mem (ps.take 2))).toNat = v.toNat % 2 ^ 16 ∧
      (t.valueAt .w16 (.mem (ps.drop 2))).toNat = v.toNat / 2 ^ 16)

/-- Effective addresses, every row of R182, R184 and R185 (the tables of forms are the spec's general knowledge): the
sum of base, index and displacement modulo 2^16 or 2^32 (R183), a displacement byte sign-extended, and SS for a base
BP, EBP or ESP, else DS. -/
def Obligations.EffectiveAddresses : Prop :=
  ∀ (g : GRegs),
    (∀ b d, ((eaOffset g (.m16 b d)).toNat : Int) = (baseSum g b + dispNum16 d) % 2 ^ 16 ∧
      eaSeg (.m16 b d) = columnSeg b) ∧
    (∀ d, (eaOffset g (.dir16 d)).toNat = d.toNat ∧ eaSeg (.dir16 d) = .ds) ∧
    (∀ b d, ((eaOffset g (.m32 b d)).toNat : Int) = ((g.get b).toNat + dispNum32 d) % 2 ^ 32 ∧
      eaSeg (.m32 b d) = baseSeg (some b)) ∧
    (∀ d, (eaOffset g (.dir32 d)).toNat = d.toNat ∧ eaSeg (.dir32 d) = .ds) ∧
    (∀ sc i b d, ((eaOffset g (.sib sc i b d)).toNat : Int) =
        (regOrZero g b + regOrZero g i * 2 ^ sc.toNat + dispNum32 d) % 2 ^ 32 ∧
      eaSeg (.sib sc i b d) = baseSeg b)

/-- EFLAGS as an image: each flag at its bit, bit 1 reads 1, and bits 3, 5, 15, 31:18 read 0 (R26). -/
def Obligations.FlagImage : Prop :=
  ∀ (f : Flags),
    (∀ k, f.image.getLsbD k = (match k with
      | 0 => f.cf
      | 1 => true
      | 2 => f.pf
      | 4 => f.af
      | 6 => f.zf
      | 7 => f.sf
      | 8 => f.tf
      | 9 => f.ifl
      | 10 => f.df
      | 11 => f.of
      | 12 => f.iopl.getLsbD 0
      | 13 => f.iopl.getLsbD 1
      | 14 => f.nt
      | 16 => f.rf
      | 17 => f.vm
      | _ => false)) ∧
    Flags.ofImage f.image = f

/-! Data transfer. -/

/-- MOV of an immediate into a register; MOV to r/m from an immediate, a general or a segment register, and SETcc: the
operand receives the value; MOV, MOVSX and MOVZX from r/m to a register; MOV between the accumulator and a direct
offset, in DS or the override segment; XCHG: each operand receives the other's value (R188, R250, R262 to R265,
R415). That MOV of a segment register to a 32-bit register leaves its upper half is this spec's own decision, on which
U33 wants no proof to lean: the model's choice, log entry 36. -/
def Obligations.Moves : Prop :=
  (∀ s : State, s.pfx.lock = false →
    (∀ r v, ∃ g, WritesReg .b8 r v s.regs g ∧
      exec (.movRbIb r v) s = .next (finished s { s.begun with regs := g })) ∧
    (∀ r v, ∃ g, WritesReg s.osz.width r ((Sized.zext v).setWidth _) s.regs g ∧
      exec (.movRvIv r v) s = .next (finished s { s.begun with regs := g }))) ∧
  (∀ (s s1 : State) (d : RM) (l : Loc), s.pfx.lock = false →
    (locate .b8 .write d s.begun = .ok l s1 →
      (∀ v, exec (.movRmbIb d v) s = .next (finished s (s1.storeAt .b8 l v))) ∧
      (∀ r, exec (.movRmbRb d r) s = .next (finished s (s1.storeAt .b8 l (readReg .b8 s.regs r)))) ∧
      (∀ c, CondRule s.flags c → exec (.setcc c d) s = .next (finished s (s1.storeAt .b8 l 1))) ∧
      (∀ c, ¬CondRule s.flags c → exec (.setcc c d) s = .next (finished s (s1.storeAt .b8 l 0)))) ∧
    (locate s.osz.width .write d s.begun = .ok l s1 →
      (∀ v, exec (.movRmvIv d v) s =
        .next (finished s (s1.storeAt s.osz.width l ((Sized.zext v).setWidth _)))) ∧
      (∀ r, exec (.movRmvRv d r) s =
        .next (finished s (s1.storeAt s.osz.width l (readReg s.osz.width s.regs r))))) ∧
    (locate .w16 .write d s.begun = .ok l s1 →
      ∀ sr, exec (.movRmwSreg d sr) s = .next (finished s (s1.storeAt .w16 l (s.segs.get sr).sel)))) ∧
  (∀ (s s1 : State) (r : Reg) (m : RM) (l : Loc), s.pfx.lock = false →
    (locate .b8 .read m s.begun = .ok l s1 →
      (∃ g, WritesReg .b8 r (s1.valueAt .b8 l) s1.regs g ∧
        exec (.movRbRmb r m) s = .next (finished s { s1 with regs := g })) ∧
      (∃ g v, v.toInt = (s1.valueAt .b8 l).toInt ∧ WritesReg s.osz.width r v s1.regs g ∧
        exec (.movsxRvRmb r m) s = .next (finished s { s1 with regs := g })) ∧
      (∃ g v, v.toNat = (s1.valueAt .b8 l).toNat ∧ WritesReg s.osz.width r v s1.regs g ∧
        exec (.movzxRvRmb r m) s = .next (finished s { s1 with regs := g }))) ∧
    (locate s.osz.width .read m s.begun = .ok l s1 →
      ∃ g, WritesReg s.osz.width r (s1.valueAt s.osz.width l) s1.regs g ∧
        exec (.movRvRmv r m) s = .next (finished s { s1 with regs := g })) ∧
    (locate .w16 .read m s.begun = .ok l s1 →
      (∃ g v, v.toInt = (s1.valueAt .w16 l).toInt ∧ WritesReg s.osz.width r v s1.regs g ∧
        exec (.movsxRdRmw r m) s = .next (finished s { s1 with regs := g })) ∧
      (∃ g v, v.toNat = (s1.valueAt .w16 l).toNat ∧ WritesReg s.osz.width r v s1.regs g ∧
        exec (.movzxRdRmw r m) s = .next (finished s { s1 with regs := g })))) ∧
  (∀ (s t : State) (off : Sized), s.pfx.lock = false →
    (∀ v, MemReads .b8 (s.pfx.seg.getD .ds) (Sized.zext off) v s.begun t →
      ∃ g, WritesReg .b8 .al v t.regs g ∧
        exec (.movAlOff off) s = .next (finished s { t with regs := g })) ∧
    (∀ v, MemReads s.osz.width (s.pfx.seg.getD .ds) (Sized.zext off) v s.begun t →
      ∃ g, WritesReg s.osz.width .eax v t.regs g ∧
        exec (.movAxOff off) s = .next (finished s { t with regs := g })) ∧
    (MemWrites .b8 (s.pfx.seg.getD .ds) (Sized.zext off) (readReg .b8 s.regs .al) s.begun t →
      exec (.movOffAl off) s = .next (finished s t)) ∧
    (MemWrites s.osz.width (s.pfx.seg.getD .ds) (Sized.zext off) (readReg s.osz.width s.regs .eax) s.begun t →
      exec (.movOffAx off) s = .next (finished s t))) ∧
  (∀ (s s1 : State) (r : Reg),
    (s.pfx.lock = false → ∀ r', ∃ g g',
      WritesReg s.osz.width r' (readReg s.osz.width s.regs .eax) s.regs g ∧
      WritesReg s.osz.width .eax (readReg s.osz.width s.regs r') g g' ∧
      exec (.xchgAxRv r') s = .next (finished s { s.begun with regs := g' })) ∧
    (∀ m l, s.lockOk (RMisMem m) → locate .b8 .write m s.begun = .ok l s1 →
      ∃ g, WritesReg .b8 r (s1.valueAt .b8 l) (s1.storeAt .b8 l (readReg .b8 s.regs r)).regs g ∧
        exec (.xchgRbRmb r m) s =
          .next (finished s { s1.storeAt .b8 l (readReg .b8 s.regs r) with regs := g })) ∧
    (∀ m l, s.lockOk (RMisMem m) → locate s.osz.width .write m s.begun = .ok l s1 →
      ∃ g, WritesReg s.osz.width r (s1.valueAt s.osz.width l)
          (s1.storeAt s.osz.width l (readReg s.osz.width s.regs r)).regs g ∧
        exec (.xchgRvRmv r m) s =
          .next (finished s { s1.storeAt s.osz.width l (readReg s.osz.width s.regs r) with regs := g })))

/-- MOV and POP to a segment register and LDS, LES, LFS, LGS, LSS in every mode: the load with its checks (R111,
R118); MOV and POP of SS set the interrupt shadow (R64, R262, R278, R287). POP moves (E)SP by the stack size before
the load (log entry 29), a load in modes R and V keeps the access fields (log entry 43), the selector of a pointer in
memory is read at EA + n modulo 2^32 (the model's choice, log entry 55), and a MOV to CS, which no encoding gives, is
exception 6, undone (R262, R556; decision D22 of the spec; log entry 12). -/
def Obligations.SegmentLoads : Prop :=
  ∀ (s t : State), s.pfx.lock = false →
    (∀ sr m l s1, sr ≠ .cs → locate .w16 .read m s.begun = .ok l s1 →
      SegLoads sr (s1.valueAt .w16 l) s1 t →
      exec (.movSregRmw sr m) s = .next (finished s { t with inhibit := t.inhibit || sr == .ss })) ∧
    (∀ v s1, Popped s.osz.width v s.begun s1 →
      ∀ sr i, (sr, i) ∈ [(SReg.ds, Instr.popDs), (.es, .popEs), (.ss, .popSs), (.fs, .popFs), (.gs, .popGs)] →
      SegLoads sr (v.setWidth 16) { s1 with regs := s.regs } t →
      exec i s = .next (finished s { t with regs := s1.regs, inhibit := t.inhibit || sr == .ss })) ∧
    (∀ m, exec (.movSregRmw .cs m) s = .next (deliver exnUD (undo s s.begun))) ∧
    (∀ r m off sel s1, FarPointer m s.begun off sel s1 →
      ∀ sr i, (sr, i) ∈ [(SReg.ds, Instr.lds r m), (.es, .les r m), (.fs, .lfs r m), (.gs, .lgs r m),
        (.ss, .lss r m)] →
      SegLoads sr sel s1 t →
      ∃ g, WritesReg s.osz.width r off t.regs g ∧ exec i s = .next (finished s { t with regs := g }))

/-- A segment load that a check of R118 forbids raises its exception, #GP, #NP or #SS, and the instruction is undone:
MOV and POP to a segment register, LDS, LES, LFS, LGS and LSS in mode P (R262, R278, R287, R556; log entry 12). The
selector of a pointer in memory is read at EA + n modulo 2^32 (the model's choice, log entry 55). -/
def Obligations.SegmentLoadFaults : Prop :=
  ∀ (s t : State) (e : Exn), s.pfx.lock = false →
    (∀ sr m l s1, sr ≠ .cs → locate .w16 .read m s.begun = .ok l s1 →
      SegLoadFails sr (s1.valueAt .w16 l) e s1 t →
      exec (.movSregRmw sr m) s = .next (deliver e (undo s t))) ∧
    (∀ v s1, Popped s.osz.width v s.begun s1 →
      ∀ sr i, (sr, i) ∈ [(SReg.ds, Instr.popDs), (.es, .popEs), (.ss, .popSs), (.fs, .popFs), (.gs, .popGs)] →
      SegLoadFails sr (v.setWidth 16) e { s1 with regs := s.regs } t →
      exec i s = .next (deliver e (undo s t))) ∧
    (∀ r m off sel s1, FarPointer m s.begun off sel s1 →
      ∀ sr i, (sr, i) ∈ [(SReg.ds, Instr.lds r m), (.es, .les r m), (.fs, .lfs r m), (.gs, .lgs r m),
        (.ss, .lss r m)] →
      SegLoadFails sr sel e s1 t → exec i s = .next (deliver e (undo s t)))

/-- PUSH of a register (its value before the decrement), an immediate, an r/m operand, a segment register (the upper
half of a double word is free), and PUSHF (VM and RF read 0) (R140, R270, R283). -/
def Obligations.Pushes : Prop :=
  ∀ (s t : State), s.pfx.lock = false →
    (∀ r, Pushed s.osz.width (readReg s.osz.width s.regs r) s.begun t →
      exec (.pushRv r) s = .next (finished s t)) ∧
    (∀ v : Byte, Pushed s.osz.width (v.signExtend _) s.begun t → exec (.pushIb v) s = .next (finished s t)) ∧
    (∀ v, Pushed s.osz.width ((Sized.zext v).setWidth _) s.begun t →
      exec (.pushIv v) s = .next (finished s t)) ∧
    (∀ m l s1, locate s.osz.width .read m s.begun = .ok l s1 →
      Pushed s.osz.width (s1.valueAt s.osz.width l) s1 t → exec (.pushRmv m) s = .next (finished s t)) ∧
    (∀ sr i, (sr, i) ∈ [(SReg.cs, Instr.pushCs), (.ds, .pushDs), (.es, .pushEs), (.ss, .pushSs), (.fs, .pushFs),
        (.gs, .pushGs)] →
      PushedSel s.osz (s.segs.get sr).sel s.begun t → exec i s = .next (finished s t)) ∧
    ((s.mode = .v86 → s.flags.iopl = 3) →
      Pushed s.osz.width ((s.flags.image &&& 0x00FCFFFF).setWidth _) s.begun t →
      exec .pushf s = .next (finished s t))

/-- POP into a register (POP (E)SP keeps the popped value) and into memory (whose address is computed after the
increment; the form takes memory only, log entry 54) (R141, R275), and POPF: IOPL only at level 0, IF only at a level
up to IOPL, RF and VM never (R284); RF is cleared when POPF ends, as by every instruction (R559). -/
def Obligations.Pops : Prop :=
  ∀ (s s1 : State) (v : BitVec s.osz.width.bits), s.pfx.lock = false → Popped s.osz.width v s.begun s1 →
    (∀ r, ∃ g, WritesReg s.osz.width r v s1.regs g ∧
      exec (.popRv r) s = .next (finished s { s1 with regs := g })) ∧
    (∀ m s2, MemWrites s.osz.width (s.pfx.seg.getD (eaSeg m)) (eaOffset s1.regs m) v s1 s2 →
      exec (.popRmv m) s = .next (finished s s2)) ∧
    ((s.mode = .v86 → s.flags.iopl = 3) →
      ∃ f : Flags, ImageFlags (v.setWidth 32) f ∧
        f.iopl = (if s.level = 0 then (v.setWidth 32).extractLsb' 12 2 else s.flags.iopl) ∧
        f.ifl = (if s.level ≤ s.flags.iopl then v.getLsbD 9 else s.flags.ifl) ∧
        f.rf = s.flags.rf ∧ f.vm = s.flags.vm ∧
        exec .popf s = .next (finished s { s1 with flags := f }))

/-- PUSHA stores the eight registers, (E)SP as it was before; POPA loads seven and discards the image of (E)SP
(R280, R281). That the image of (E)SP is taken by the operand size, all 32 bits of ESP by PUSHAD on a 16-bit stack
too, is the model's choice (DESIGN CHOICE, log entry 58). -/
def Obligations.AllRegisters : Prop :=
  ∀ (s : State), s.pfx.lock = false →
    let w := s.osz.width;
    let v := fun r => readReg w s.regs r;
    (∀ t1 t2 t3 t4 t5 t6 t7 t8,
      ¬(s.mode ≠ .prot ∧ (topOffset s).toNat % 2 = 1 ∧ (topOffset s).toNat ≤ 15) →
      Pushed w (v .eax) s.begun t1 → Pushed w (v .ecx) t1 t2 → Pushed w (v .edx) t2 t3 →
      Pushed w (v .ebx) t3 t4 → Pushed w (v .esp) t4 t5 → Pushed w (v .ebp) t5 t6 →
      Pushed w (v .esi) t6 t7 → Pushed w (v .edi) t7 t8 →
      exec .pusha s = .next (finished s t8)) ∧
    (∀ t1 t2 t3 x t4 t5 t6 t7 t8,
      PoppedInto w .edi s.begun t1 → PoppedInto w .esi t1 t2 → PoppedInto w .ebp t2 t3 →
      Popped w x t3 t4 → PoppedInto w .ebx t4 t5 → PoppedInto w .edx t5 t6 → PoppedInto w .ecx t6 t7 →
      PoppedInto w .eax t7 t8 →
      exec .popa s = .next (finished s t8))

/-- LEA, XLAT, LAHF, SAHF, CBW/CWDE and CWD/CDQ (R286, R293, R298 to R301). -/
def Obligations.AddressAndConvert : Prop :=
  ∀ s : State, s.pfx.lock = false →
    (∀ r m, ∃ g, WritesReg s.osz.width r ((eaOffset s.regs m).setWidth _) s.regs g ∧
      exec (.lea r m) s = .next (finished s { s.begun with regs := g })) ∧
    (∀ v t, MemReads .b8 (s.pfx.seg.getD .ds) (match s.asz with
        | .s16 => BitVec.ofNat 32 ((s.regs.ebx.toNat + (readReg .b8 s.regs .al).toNat) % 2 ^ 16)
        | .s32 => BitVec.ofNat 32 (s.regs.ebx.toNat + (readReg .b8 s.regs .al).toNat)) v s.begun t →
      ∃ g, WritesReg .b8 .al v t.regs g ∧ exec .xlat s = .next (finished s { t with regs := g })) ∧
    (∃ g, ∃ v : Byte, (∀ k, v.getLsbD k = (match k with
        | 0 => s.flags.cf
        | 1 => true
        | 2 => s.flags.pf
        | 4 => s.flags.af
        | 6 => s.flags.zf
        | 7 => s.flags.sf
        | _ => false)) ∧
      WritesReg .b8 .ah v s.regs g ∧ exec .lahf s = .next (finished s { s.begun with regs := g })) ∧
    (let ah := readReg .b8 s.regs .ah;
      exec .sahf s = .next (finished s { s.begun with flags :=
        { s.begun.flags with
          cf := ah.getLsbD 0
          pf := ah.getLsbD 2
          af := ah.getLsbD 4
          zf := ah.getLsbD 6
          sf := ah.getLsbD 7 } })) ∧
    (s.osz = .s16 → ∃ g, ∃ v : Word16, v.toInt = (readReg .b8 s.regs .al).toInt ∧ WritesReg .w16 .eax v s.regs g ∧
      exec .cbw s = .next (finished s { s.begun with regs := g })) ∧
    (s.osz = .s32 → ∃ g, ∃ v : Word32, v.toInt = (readReg .w16 s.regs .eax).toInt ∧ WritesReg .d32 .eax v s.regs g ∧
      exec .cbw s = .next (finished s { s.begun with regs := g })) ∧
    (∃ g v, v.toInt = (if (readReg s.osz.width s.regs .eax).toInt < 0 then -1 else 0) ∧
      WritesReg s.osz.width .edx v s.regs g ∧
      exec .cwd s = .next (finished s { s.begun with regs := g }))

/-- IN and OUT, with the port in the instruction or in DX: the permission check of R152 (log entry 40), then one access,
which the environment answers with an open value or records (R150, R151, R295, R296; log entry 10). -/
def Obligations.PortAccess : Prop :=
  ∀ (s t : State) (wide : Bool) (port : Word16) (i : Instr), s.pfx.lock = false →
    IoPermits port (widthOf s wide).bytes s.begun t →
    ((∃ p : Byte, port = p.setWidth 16 ∧ i = if wide then .inAxIb p else .inAlIb p) ∨
        port = readReg .w16 s.regs .edx ∧ i = (if wide then .inAxDx else .inAlDx) →
      ∃ g, WritesReg (widthOf s wide) .eax
          ((Config.portIn s.ioReads port (widthOf s wide).bytes).setWidth _) t.regs g ∧
        exec i s = .next (finished s { t with regs := g, ioReads := s.ioReads + 1 })) ∧
    ((∃ p : Byte, port = p.setWidth 16 ∧ i = if wide then .outIbAx p else .outIbAl p) ∨
        port = readReg .w16 s.regs .edx ∧ i = (if wide then .outDxAx else .outDxAl) →
      exec i s = .next (finished s { t with ioOut :=
        ⟨port, (widthOf s wide).bytes, (readReg (widthOf s wide) s.regs .eax).setWidth 32⟩ :: s.ioOut }))

/-! Arithmetic and logic. -/

/-- The decimal adjustments (R313 to R318): AL, AH, and the flags they define; the others are undefined. The
constant 10 of AAD and AAM is their second byte, and AAM with a second byte of 0 is exception 0 (R560, which takes this
from general knowledge; log entry 19), undone (R556; log entry 12). -/
def Obligations.DecimalAdjust : Prop :=
  ∀ s : State, s.pfx.lock = false →
    let al := (readReg .b8 s.regs .al).toNat;
    let ah := (readReg .b8 s.regs .ah).toNat;
    let low := al % 16 > 9 ∨ s.flags.af = true;
    let both := fun (i : Instr) (l h : Nat) (rule : Flags → Prop) =>
      ∃ g g' f n, WritesReg .b8 .al (BitVec.ofNat 8 l) s.regs g ∧ WritesReg .b8 .ah (BitVec.ofNat 8 h) g g' ∧
        rule f ∧ OnlyStatus s.begun.flags f ∧
        exec i s = .next (finished s { s.begun with regs := g', flags := f, free := n });
    both .aaa (if low then (al + 6) % 16 else al % 16) (if low then ah + 1 else ah)
      (fun f => (f.af = true ↔ low) ∧ (f.cf = true ↔ low)) ∧
    both .aas (if low then (al + 10) % 16 else al % 16) (if low then ah + 255 else ah)
      (fun f => (f.af = true ↔ low) ∧ (f.cf = true ↔ low)) ∧
    (∀ b : Byte, both (.aad b) (al + b.toNat * ah) 0
      (SzpRule (BitVec.ofNat 8 (al + b.toNat * ah)))) ∧
    (∀ b : Byte, b ≠ 0 → both (.aam b) (al % b.toNat) (al / b.toNat)
      (SzpRule (BitVec.ofNat 8 (al % b.toNat)))) ∧
    exec (.aam 0) s = .next (deliver exnDE (undo s s.begun)) ∧
    (let al1 := if low then (al + 6) % 256 else al;
      let al2 := if al1 > 0x9F ∨ s.flags.cf = true then (al1 + 0x60) % 256 else al1;
      both .daa al2 ah fun f => (f.af = true ↔ low) ∧ (f.cf = true ↔ al1 > 0x9F ∨ s.flags.cf = true) ∧
        SzpRule (BitVec.ofNat 8 al2) f) ∧
    (let al1 := if low then (al + 250) % 256 else al;
      let al2 := if al1 > 0x9F ∨ s.flags.cf = true then (al1 + 0xA0) % 256 else al1;
      both .das al2 ah fun f => (f.af = true ↔ low) ∧ (f.cf = true ↔ al1 > 0x9F ∨ s.flags.cf = true) ∧
        SzpRule (BitVec.ofNat 8 al2) f)

/-- `SZP_N`, `AddFlags_N` and `SubFlags_N` at every width: SF the top bit, ZF a zero result, PF the parity of the low
byte; sum and difference modulo 2^N, CF the carry or borrow, AF that of bit 3, OF signed overflow, and no other flag
changed (R310 to R312). -/
def Obligations.FlagFunctions : Prop :=
  ∀ (w : Width) (a b : BitVec w.bits) (c : Bool) (f : Flags),
    (SzpRule a (szp a f) ∧ szp a f = { f with sf := (szp a f).sf, zf := (szp a f).zf, pf := (szp a f).pf }) ∧
    AddRule a b c f (addResult a b c) (addFlags a b c f) ∧
    SubRule a b c f (subResult a b c) (subFlags a b c f)

/-- The condition codes (R460): the low four bits of the opcodes 70+cc, 0F 80+cc and 0F 90+cc select the test, each of
the table reads the flags as it says, and cc xor 1 is the negation. Jcc and SETcc go by the test in NearTransfers and
Moves. -/
def Obligations.ConditionCodes : Prop :=
  ∃ codes : BitVec 4 → Cond, ∀ cc : BitVec 4,
    (∀ (o a : Size) (d : Byte) (rest : List Byte),
      decodeItem o a ((0x70 + cc.setWidth 8) :: d :: rest) = .ok (.jccShort (codes cc) d) rest) ∧
    (∀ (a : Size) (d0 d1 d2 d3 : Byte) (rest : List Byte),
      decodeItem .s16 a (0x0F :: (0x80 + cc.setWidth 8) :: d0 :: d1 :: rest) =
        .ok (.jccNear (codes cc) (.w (d1 ++ d0))) rest ∧
      decodeItem .s32 a (0x0F :: (0x80 + cc.setWidth 8) :: d0 :: d1 :: d2 :: d3 :: rest) =
        .ok (.jccNear (codes cc) (.d (d3 ++ (d2 ++ (d1 ++ d0))))) rest) ∧
    (∀ (o a : Size) (rest : List Byte),
      decodeItem o a (0x0F :: (0x90 + cc.setWidth 8) :: 0xC0 :: rest) = .ok (.setcc (codes cc) (.reg .al)) rest) ∧
    ∀ f : Flags,
      (f.cond (codes cc) = true ↔ (match cc.toNat with
        | 0x0 => f.of = true
        | 0x1 => f.of = false
        | 0x2 => f.cf = true
        | 0x3 => f.cf = false
        | 0x4 => f.zf = true
        | 0x5 => f.zf = false
        | 0x6 => f.cf = true ∨ f.zf = true
        | 0x7 => f.cf = false ∧ f.zf = false
        | 0x8 => f.sf = true
        | 0x9 => f.sf = false
        | 0xA => f.pf = true
        | 0xB => f.pf = false
        | 0xC => f.sf ≠ f.of
        | 0xD => f.sf = f.of
        | 0xE => f.zf = true ∨ f.sf ≠ f.of
        | _ => f.zf = false ∧ f.sf = f.of)) ∧
      (CondRule f (codes cc) ↔ f.cond (codes cc) = true) ∧
      f.cond (codes (cc ^^^ 1)) = !f.cond (codes cc)

/-- ADD, OR, ADC, SBB, AND, SUB, XOR, CMP (R310 to R312, R319 to R324, R360 to R363; log entry 37) with an r/m
destination and every source: the operand receives the result of the rule, CMP stores nothing, and the flags are those
of the rule; with a register destination, from r/m, or the accumulator with an immediate. TEST: the flags of AND,
nothing stored (R365). -/
def Obligations.TwoOperand : Prop :=
  (∀ (op : AluOp) (d : RM) (x : Src) (s s1 : State) (l : Loc),
    s.lockOk (op.writes && RMisMem d) →
    locate (x.width s) op.access d s.begun = .ok l s1 →
    ∃ r f, AluRule op (s1.valueAt (x.width s) l) (x.value s) s1.flags r f ∧
      exec (aluToRm op d x) s =
        .next (finished s { (if op = .cmp then s1 else s1.storeAt (x.width s) l r) with flags := f })) ∧
  (∀ (op : AluOp) (s : State), s.pfx.lock = false →
    (∀ wide r m l s1, locate (widthOf s wide) .read m s.begun = .ok l s1 →
      ∃ v f g, AluRule op (readReg (widthOf s wide) s1.regs r) (s1.valueAt (widthOf s wide) l) s1.flags v f ∧
        (if op = .cmp then g = s1.regs else WritesReg (widthOf s wide) r v s1.regs g) ∧
        exec (aluFromRm op wide r m) s = .next (finished s { s1 with regs := g, flags := f })) ∧
    (∀ b : Byte, ∃ v f g, AluRule op (readReg .b8 s.regs .al) b s.begun.flags v f ∧
      (if op = .cmp then g = s.regs else WritesReg .b8 .al v s.regs g) ∧
      exec (aluAl op b) s = .next (finished s { s.begun with regs := g, flags := f })) ∧
    (∀ b : Sized, ∃ v f g, AluRule op (readReg s.osz.width s.regs .eax) ((Sized.zext b).setWidth _)
        s.begun.flags v f ∧
      (if op = .cmp then g = s.regs else WritesReg s.osz.width .eax v s.regs g) ∧
      exec (aluAx op b) s = .next (finished s { s.begun with regs := g, flags := f }))) ∧
  (∀ s : State, s.pfx.lock = false →
    (∀ m l s1, locate .b8 .read m s.begun = .ok l s1 →
      (∀ v, ∃ r f, AluRule .and (s1.valueAt .b8 l) v s1.flags r f ∧
        exec (.testRmbIb m v) s = .next (finished s { s1 with flags := f })) ∧
      (∀ q, ∃ r f, AluRule .and (s1.valueAt .b8 l) (readReg .b8 s.regs q) s1.flags r f ∧
        exec (.testRmbRb m q) s = .next (finished s { s1 with flags := f }))) ∧
    (∀ m l s1, locate s.osz.width .read m s.begun = .ok l s1 →
      (∀ v, ∃ r f, AluRule .and (s1.valueAt s.osz.width l) ((Sized.zext v).setWidth _) s1.flags r f ∧
        exec (.testRmvIv m v) s = .next (finished s { s1 with flags := f })) ∧
      (∀ q, ∃ r f, AluRule .and (s1.valueAt s.osz.width l) (readReg s.osz.width s.regs q) s1.flags r f ∧
        exec (.testRmvRv m q) s = .next (finished s { s1 with flags := f }))) ∧
    (∀ v, ∃ r f, AluRule .and (readReg .b8 s.regs .al) v s.begun.flags r f ∧
      exec (.testAlIb v) s = .next (finished s { s.begun with flags := f })) ∧
    (∀ v, ∃ r f, AluRule .and (readReg s.osz.width s.regs .eax) ((Sized.zext v).setWidth _) s.begun.flags r f ∧
      exec (.testAxIv v) s = .next (finished s { s.begun with flags := f })))

/-- INC and DEC (CF kept), NEG, and NOT (no flag), of an r/m operand and of a register (R325 to R327, R364). -/
def Obligations.OneOperand : Prop :=
  ∀ s : State,
    (∀ op wide m l s1, s.lockOk (RMisMem m) → locate (widthOf s wide) .write m s.begun = .ok l s1 →
      ∃ r f, UnRule op (s1.valueAt (widthOf s wide) l) s1.flags r f ∧
        exec (unInstr op wide m) s = .next (finished s { s1.storeAt (widthOf s wide) l r with flags := f })) ∧
    (s.pfx.lock = false → ∀ q,
      (∃ r f g, UnRule .inc (readReg s.osz.width s.regs q) s.begun.flags r f ∧
        WritesReg s.osz.width q r s.regs g ∧
        exec (.incRv q) s = .next (finished s { s.begun with regs := g, flags := f })) ∧
      (∃ r f g, UnRule .dec (readReg s.osz.width s.regs q) s.begun.flags r f ∧
        WritesReg s.osz.width q r s.regs g ∧
        exec (.decRv q) s = .next (finished s { s.begun with regs := g, flags := f })))

/-- MUL and IMUL: the whole product in AX, DX:AX or EDX:EAX, or its low half in a register; CF and OF say whether the
upper half is lost; SF, ZF, AF, PF are undefined (R330, R331). -/
def Obligations.Multiply : Prop :=
  ∀ (s s1 : State) (m : RM) (l : Loc), s.pfx.lock = false →
    (∀ wide, locate (widthOf s wide) .read m s.begun = .ok l s1 →
      let w := widthOf s wide;
      let x := readReg w s1.regs .eax;
      let y := s1.valueAt w l;
      (∃ lo hi g g' f n, lo.toNat + 2 ^ w.bits * hi.toNat = x.toNat * y.toNat ∧
        WritesReg w .eax lo s1.regs g ∧ WritesReg w (if wide then .edx else .ah) hi g g' ∧
        ProductFlags (hi ≠ 0) s1.flags f ∧
        exec (if wide then .mulRmv m else .mulRmb m) s =
          .next (finished s { s1 with regs := g', flags := f, free := n })) ∧
      (∃ lo hi g g' f n, (lo.toNat : Int) + 2 ^ w.bits * hi.toInt = x.toInt * y.toInt ∧
        WritesReg w .eax lo s1.regs g ∧ WritesReg w (if wide then .edx else .ah) hi g g' ∧
        ProductFlags (lo.toInt ≠ x.toInt * y.toInt) s1.flags f ∧
        exec (if wide then .imulRmv m else .imulRmb m) s =
          .next (finished s { s1 with regs := g', flags := f, free := n }))) ∧
    (locate s.osz.width .read m s.begun = .ok l s1 →
      let w := s.osz.width;
      ∀ r i (x y : BitVec w.bits),
        (i = Instr.imulRvRmv r m ∧ x = readReg w s1.regs r ∧ y = s1.valueAt w l) ∨
        (∃ v : Byte, i = .imulRvRmvIb r m v ∧ x = s1.valueAt w l ∧ y = v.signExtend _) ∨
        (∃ v, i = .imulRvRmvIv r m v ∧ x = s1.valueAt w l ∧ y = (Sized.zext v).setWidth _) →
        ∃ lo g f n, ((2 : Int) ^ w.bits ∣ x.toInt * y.toInt - lo.toInt) ∧ WritesReg w r lo s1.regs g ∧
          ProductFlags (lo.toInt ≠ x.toInt * y.toInt) s1.flags f ∧
          exec i s = .next (finished s { s1 with regs := g, flags := f, free := n }))

/-- DIV and IDIV of AX, DX:AX or EDX:EAX: quotient and remainder, no flag (R332, R333); a zero divisor or a quotient
that does not fit is exception 0, and the instruction is undone but for the A and D bits its
operand's translation set (R556, R560; log entry 12). -/
def Obligations.Divide : Prop :=
  ∀ (s s1 : State) (m : RM) (l : Loc) (wide : Bool), s.pfx.lock = false →
    locate (widthOf s wide) .read m s.begun = .ok l s1 →
    let w := widthOf s wide;
    let d := s1.valueAt w l;
    let hi := readReg w s1.regs (if wide then .edx else .ah);
    let lo := readReg w s1.regs .eax;
    (let num := hi.toNat * 2 ^ w.bits + lo.toNat;
      let i := if wide then Instr.divRmv m else .divRmb m;
      (d.toNat ≠ 0 → num / d.toNat < 2 ^ w.bits →
        ∃ q r g g', num = q.toNat * d.toNat + r.toNat ∧ r.toNat < d.toNat ∧
          WritesReg w .eax q s1.regs g ∧ WritesReg w (if wide then .edx else .ah) r g g' ∧
          exec i s = .next (finished s { s1 with regs := g' })) ∧
      (¬(d.toNat ≠ 0 ∧ num / d.toNat < 2 ^ w.bits) → exec i s = .next (deliver exnDE (undo s s1)))) ∧
    (let num : Int := hi.toInt * 2 ^ w.bits + lo.toNat;
      let i := if wide then Instr.idivRmv m else .idivRmb m;
      (d.toInt ≠ 0 → ¬OutOfRange w.bits (num.tdiv d.toInt) →
        ∃ q r g g', num = q.toInt * d.toInt + r.toInt ∧ r.toInt.natAbs < d.toInt.natAbs ∧
          (r.toInt = 0 ∨ (r.toInt < 0 ↔ num < 0)) ∧
          WritesReg w .eax q s1.regs g ∧ WritesReg w (if wide then .edx else .ah) r g g' ∧
          exec i s = .next (finished s { s1 with regs := g' })) ∧
      (¬(d.toInt ≠ 0 ∧ ¬OutOfRange w.bits (num.tdiv d.toInt)) →
        exec i s = .next (deliver exnDE (undo s s1))))

/-- The shifts and rotates by 1, CL or a byte, modulo 32: the whole result, CF, OF after one step, and nothing at all
for a count of 0 (R370 to R379). SHLD and SHRD by CL or a byte, modulo 32; by 16 bits or more of a word the result is
undefined, and so are the status flags (R385, R386). -/
def Obligations.Shifts : Prop :=
  (∀ (op : ShiftOp) (wide : Bool) (c : Count) (m : RM) (s : State), s.pfx.lock = false →
    (c.value s = 0 → exec (shiftInstr op wide c m) s = .next (finished s s.begun)) ∧
    (c.value s ≠ 0 → ∀ l s1, locate (widthOf s wide) .write m s.begun = .ok l s1 →
      ∃ r f n, ShiftRule op (s1.valueAt (widthOf s wide) l) (c.value s) s1.flags r f ∧
        exec (shiftInstr op wide c m) s =
          .next (finished s { s1.storeAt (widthOf s wide) l r with flags := f, free := n }))) ∧
  (∀ (left : Bool) (m : RM) (q : Reg) (k : Option Byte) (s : State), s.pfx.lock = false →
    let c := (k.getD (readReg .b8 s.regs .cl)).toNat % 32;
    let w := s.osz.width;
    (c = 0 → exec (doubleInstr left m q k) s = .next (finished s s.begun)) ∧
    (c ≠ 0 → ∀ l s1, locate w .write m s.begun = .ok l s1 →
      ∃ r f n, (c < w.bits →
          DoubleRule left (s1.valueAt w l) (readReg w s1.regs q) c s1.flags r f) ∧
        OnlyStatus s1.flags f ∧
        exec (doubleInstr left m q k) s = .next (finished s { s1.storeAt w l r with flags := f, free := n })))

/-- BT, BTS, BTR, BTC: CF receives the bit, whose number is taken modulo the width, in memory too (R400 to R404; log
entry 47). BSF and BSR: the number of the lowest or highest set bit; a zero source sets ZF and leaves the destination
undefined (R410, R411; log entry 8). -/
def Obligations.BitOps : Prop :=
  (∀ (op : BitOp) (m : RM) (x : Reg ⊕ Byte) (s s1 : State) (l : Loc),
    s.lockOk (RMisMem m) → locate s.osz.width op.access m s.begun = .ok l s1 →
    let w := s.osz.width;
    let i := (match x with
      | .inl q => (readReg w s.regs q).toNat
      | .inr v => v.toNat) % w.bits;
    ∃ r, BitRule op (s1.valueAt w l) i r ∧
      exec (bitInstr op m x) s = .next (finished s
        { (if op = .bt then s1 else s1.storeAt w l r) with
          flags := { s1.flags with cf := (s1.valueAt w l).getLsbD i } })) ∧
  (∀ (q : Reg) (m : RM) (s s1 : State) (l : Loc), s.pfx.lock = false →
    locate s.osz.width .read m s.begun = .ok l s1 →
    let w := s.osz.width;
    let v := s1.valueAt w l;
    (v ≠ 0 →
      (∃ k g, (k < w.bits ∧ v.getLsbD k = true ∧ ∀ j < k, v.getLsbD j = false) ∧
        WritesReg w q (BitVec.ofNat _ k) s1.regs g ∧
        exec (.bsf q m) s = .next (finished s { s1 with regs := g, flags := { s1.flags with zf := false } })) ∧
      (∃ k g, (k < w.bits ∧ v.getLsbD k = true ∧ ∀ j, k < j → v.getLsbD j = false) ∧
        WritesReg w q (BitVec.ofNat _ k) s1.regs g ∧
        exec (.bsr q m) s = .next (finished s { s1 with regs := g, flags := { s1.flags with zf := false } }))) ∧
    (v = 0 → ∀ i, i = Instr.bsf q m ∨ i = .bsr q m →
      ∃ any g n, WritesReg w q any s1.regs g ∧
        exec i s = .next (finished s { s1 with regs := g, flags := { s1.flags with zf := true }, free := n })))

/-! Strings. -/

/-- A string instruction without a repeat prefix processes one element (R430 to R437). Under a repeat prefix it does
nothing when (E)CX is 0; else it processes one element and decrements (E)CX, and it is at its end when (E)CX is 0 or,
for CMPS and SCAS, ZF ends it (REPE at ZF = 0, REPNE at ZF = 1); else the next step begins it again, RF as it was (R440;
log entries 16 and 48). The ports of INS and OUTS are the environment's (log entry 10). -/
def Obligations.Strings : Prop :=
  (∀ (op : StrOp) (wide : Bool) (s t : State), s.pfx.lock = false → s.pfx.rep = none →
    Element op (widthOf s wide) s.begun t →
    exec (stringInstr op wide) s = .next (finished s t)) ∧
  (∀ (op : StrOp) (wide : Bool) (s : State) (p : Rep), s.pfx.lock = false → s.pfx.rep = some p →
    (atAsz s .ecx = 0 → exec (stringInstr op wide) s = .next (finished s s.begun)) ∧
    (atAsz s .ecx ≠ 0 → ∀ t, Element op (widthOf s wide) s.begun t →
      ∃ g, WritesReg s.asz.width .ecx (readReg s.asz.width t.regs .ecx - 1) t.regs g ∧
        ((readReg s.asz.width g .ecx = 0 ∨ (op = .cmps ∨ op = .scas) ∧ t.flags.zf = (p == .repne)) →
          exec (stringInstr op wide) s = .next (finished s { t with regs := g })) ∧
        (¬(readReg s.asz.width g .ecx = 0 ∨ (op = .cmps ∨ op = .scas) ∧ t.flags.zf = (p == .repne)) →
          exec (stringInstr op wide) s = .next (finished s
            (goTo { t with regs := g, rfKept := true } s.curEip)))))

/-! Control transfer. -/

/-- Jumps and calls within the segment (the second part is CALL and RET): relative to the next instruction or through
r/m, truncated by the operand size (R470 takes this from general knowledge) and checked (R470, R471); Jcc by its
condition (R460, R473), JCXZ by (E)CX (R474), LOOP, LOOPE, LOOPNE by (E)CX after the decrement and ZF (R475 to R477). A
jump not taken goes on. CALL pushes the next instruction's offset; RET pops the target and releases its parameters
(R478, R480). -/
def Obligations.NearTransfers : Prop :=
  (∀ s : State, s.pfx.lock = false →
    let short := fun (d : Byte) => truncated s (s.eip + d.signExtend 32);
    let near := fun (d : Sized) => truncated s (s.eip + Sized.sext d);
    (∀ d, NearOk s (short d) → exec (.jmpShort d) s = .next (finished s (goTo s.begun (short d)))) ∧
    (∀ d, NearOk s (near d) → exec (.jmpNear d) s = .next (finished s (goTo s.begun (near d)))) ∧
    (∀ m l s1, locate s.osz.width .read m s.begun = .ok l s1 →
      NearOk s ((s1.valueAt s.osz.width l).setWidth 32) →
      exec (.jmpRmv m) s =
        .next (finished s (goTo s1 ((s1.valueAt s.osz.width l).setWidth 32)))) ∧
    (∀ c d, (CondRule s.flags c → NearOk s (short d) →
        exec (.jccShort c d) s = .next (finished s (goTo s.begun (short d)))) ∧
      (¬CondRule s.flags c → exec (.jccShort c d) s = .next (finished s s.begun))) ∧
    (∀ c d, (CondRule s.flags c → NearOk s (near d) →
        exec (.jccNear c d) s = .next (finished s (goTo s.begun (near d)))) ∧
      (¬CondRule s.flags c → exec (.jccNear c d) s = .next (finished s s.begun))) ∧
    (∀ d, (atAsz s .ecx = 0 → NearOk s (short d) →
        exec (.jcxz d) s = .next (finished s (goTo s.begun (short d)))) ∧
      (atAsz s .ecx ≠ 0 → exec (.jcxz d) s = .next (finished s s.begun))) ∧
    (∀ d i goesOn, (i, goesOn) ∈ [(Instr.loop d, true), (.loope d, s.flags.zf), (.loopne d, !s.flags.zf)] →
      ∃ g, WritesReg s.asz.width .ecx (readReg s.asz.width s.regs .ecx - 1) s.regs g ∧
        (readReg s.asz.width g .ecx ≠ 0 ∧ goesOn = true → NearOk s (short d) →
          exec i s = .next (finished s (goTo { s.begun with regs := g } (short d)))) ∧
        (¬(readReg s.asz.width g .ecx ≠ 0 ∧ goesOn = true) →
          exec i s = .next (finished s { s.begun with regs := g })))) ∧
  (∀ (s t : State), s.pfx.lock = false →
    (∀ d, let target := truncated s (s.eip + Sized.sext d);
      NearOk s target → Pushed s.osz.width (s.eip.setWidth _) s.begun t →
      exec (.callNear d) s = .next (finished s (goTo t target))) ∧
    (∀ m l s1, locate s.osz.width .read m s.begun = .ok l s1 →
      let target := (s1.valueAt s.osz.width l).setWidth 32;
      NearOk s target → Pushed s.osz.width (s.eip.setWidth _) s1 t →
      exec (.callRmv m) s = .next (finished s (goTo t target))) ∧
    (∀ v, Popped s.osz.width v s.begun t → NearOk s (v.setWidth 32) →
      exec .retNear s = .next (finished s (goTo t (v.setWidth 32))) ∧
      ∀ n : Word16, ∃ g, SpMoved s (n.setWidth 32) t.regs g ∧
        exec (.retNearIw n) s = .next (finished s (goTo { t with regs := g } (v.setWidth 32)))))

/-- A near target beyond the code segment's limit, #GP(0), or beyond 0xFFFF in modes R and V, exception 13 without a
code (log entry 18), ends the transfer before EIP is assigned, and the instruction is undone (R470, R471, R473 to
R478, R480, R556; log entry 12): JMP, Jcc, JCXZ, LOOP where they jump, CALL and RET. -/
def Obligations.NearTransferFaults : Prop :=
  ∀ s : State, s.pfx.lock = false →
    let short := fun (d : Byte) => truncated s (s.eip + d.signExtend 32);
    let near := fun (d : Sized) => truncated s (s.eip + Sized.sext d);
    let bad : Exn := if s.mode = .prot then exnGP 0 else exn13;
    (∀ d, ¬NearOk s (short d) →
      exec (.jmpShort d) s = .next (deliver bad (undo s s.begun)) ∧
      (∀ c, CondRule s.flags c → exec (.jccShort c d) s = .next (deliver bad (undo s s.begun))) ∧
      (atAsz s .ecx = 0 → exec (.jcxz d) s = .next (deliver bad (undo s s.begun))) ∧
      (∀ i goesOn, (i, goesOn) ∈ [(Instr.loop d, true), (.loope d, s.flags.zf), (.loopne d, !s.flags.zf)] →
        ∀ g, WritesReg s.asz.width .ecx (readReg s.asz.width s.regs .ecx - 1) s.regs g →
        readReg s.asz.width g .ecx ≠ 0 → goesOn = true → exec i s = .next (deliver bad (undo s s.begun)))) ∧
    (∀ d, ¬NearOk s (near d) →
      exec (.jmpNear d) s = .next (deliver bad (undo s s.begun)) ∧
      (∀ c, CondRule s.flags c → exec (.jccNear c d) s = .next (deliver bad (undo s s.begun))) ∧
      exec (.callNear d) s = .next (deliver bad (undo s s.begun))) ∧
    (∀ m l s1, locate s.osz.width .read m s.begun = .ok l s1 →
      ¬NearOk s ((s1.valueAt s.osz.width l).setWidth 32) →
      exec (.jmpRmv m) s = .next (deliver bad (undo s s1)) ∧
      exec (.callRmv m) s = .next (deliver bad (undo s s1))) ∧
    (∀ v t, Popped s.osz.width v s.begun t → ¬NearOk s (v.setWidth 32) →
      exec .retNear s = .next (deliver bad (undo s t)) ∧
      ∀ n, exec (.retNearIw n) s = .next (deliver bad (undo s t)))

/-- Far JMP, CALL and RET in modes R and V: the segment load of R111, which keeps the access fields (log entry 43), no
check but that of the offset (R472, R479, R480, R490). -/
def Obligations.FarReal : Prop :=
  ∀ (s : State), s.pfx.lock = false → s.mode ≠ .prot →
    (∀ off sel, (truncated s (Sized.zext off)).toNat ≤ 0xFFFF →
      exec (.jmpFar off sel) s = .next (finished s (inReal s.begun sel (truncated s (Sized.zext off)))) ∧
      ∀ t1 t2, PushedSel s.osz s.segs.cs.sel s.begun t1 → Pushed s.osz.width (s.eip.setWidth _) t1 t2 →
        exec (.callFar off sel) s = .next (finished s (inReal t2 sel (truncated s (Sized.zext off))))) ∧
    (∀ m off sel s1, FarPointer m s.begun off sel s1 → (off.setWidth 32 : Word32).toNat ≤ 0xFFFF →
      exec (.jmpFarMem m) s = .next (finished s (inReal s1 sel (off.setWidth 32))) ∧
      ∀ t1 t2, PushedSel s.osz s.segs.cs.sel s1 t1 → Pushed s.osz.width (s.eip.setWidth _) t1 t2 →
        exec (.callFarMem m) s = .next (finished s (inReal t2 sel (off.setWidth 32)))) ∧
    (∀ off sel t1 t2, Popped s.osz.width off s.begun t1 → Popped s.osz.width sel t1 t2 →
      (off.setWidth 32 : Word32).toNat ≤ 0xFFFF →
      exec .retFar s = .next (finished s (inReal t2 (sel.setWidth 16) (off.setWidth 32))) ∧
      ∀ n : Word16, ∃ g, SpMoved s (n.setWidth 32) t2.regs g ∧
        exec (.retFarIw n) s =
          .next (finished s { inReal t2 (sel.setWidth 16) (off.setWidth 32) with regs := g }))

/-- Far JMP, CALL and RET in mode P to a code segment at the level of the caller: the checks of R490, the accessed
bit, CS with its hidden copy, EIP within the limit. The selector of a pointer in memory is read at EA + n modulo 2^32
(the model's choice, log entry 55). -/
def Obligations.FarProtected : Prop :=
  ∀ (s : State), s.pfx.lock = false → s.mode = .prot →
    (∀ (sel : Word16) (off : Word32) i j s0 d s1, 4 ≤ sel.toNat →
      FarForms s sel off i j s0 →
      DescriptorAt sel d s0 s1 → DirectCode d sel s.cpl → off.toNat ≤ d.limit.toNat →
      (∀ s2, Accessed d s1 s2 → exec i s = .next (finished s (inCode s2 d sel off))) ∧
      (∀ t1 t2 s2, PushedSel s.osz s.segs.cs.sel s1 t1 → Pushed s.osz.width (s.eip.setWidth _) t1 t2 →
        Accessed d t2 s2 → exec j s = .next (finished s (inCode s2 d sel off)))) ∧
    (∀ off sel t1 t2 d s1 s2 (n : Word16), Popped s.osz.width off s.begun t1 → Popped s.osz.width sel t1 t2 →
      let cs : Word16 := sel.setWidth 16;
      4 ≤ cs.toNat → selRpl cs = s.cpl → DescriptorAt cs d t2 s1 → DirectCode d cs s.cpl →
      (off.setWidth 32 : Word32).toNat ≤ d.limit.toNat →
      ∃ g, SpMoved s (n.setWidth 32) s1.regs g ∧
        (Accessed d { s1 with regs := g } s2 →
          exec (.retFarIw n) s = .next (finished s (inCode s2 d cs (off.setWidth 32))) ∧
          (n = 0 → exec .retFar s = .next (finished s (inCode s2 d cs (off.setWidth 32))))))

/-- A JMP or CALL through a call gate (R490; the layout and the privilege tests are the spec's general knowledge, log
entries 27 and 28): the gate and its target may be used; a JMP goes to code of its level or conforming code; a CALL
pushes the return address, and to inner code goes over to the stack of the TSS, with the old SS and (E)SP and the
parameters on it. The selector of a pointer in memory is read at EA + n modulo 2^32 (the model's choice, log entry
55). -/
def Obligations.CallGates : Prop :=
  ∀ (s s0 s1 t : State) (sel : Word16) (off : Word32) (i j : Instr) (g : Desc), s.pfx.lock = false →
    s.mode = .prot → FarForms s sel off i j s0 → 4 ≤ sel.toNat → DescriptorAt sel g s0 s1 →
    g.isCallGate = true → s.cpl ≤ g.dpl → selRpl sel ≤ g.dpl → g.p = true →
    (GateCalled false g s1 t → exec i s = .next (finished s t)) ∧
    (GateCalled true g s1 t → exec j s = .next (finished s t))

/-- Returns that leave their level (R490, R500, R585; log entries 16 and 28): far RET and IRET to an outer level pop
(E)SP and SS too, lower the privilege, release the parameters of RET on both stacks and null the data segments that
are no longer accessible; IRETD at level 0 with VM = 1 in the image goes to a virtual-8086 task with the nine items of
its frame. Every IRET unmasks NMI (R575), this one too, where the pseudocode of R500 stops before it: log entry 17. The
six items that R500 pops after EFLAGS are popped in mode P at level 0, and the popped offset is not checked, which are
the model's choices (log entry 17); the segment registers of the virtual-8086 task keep their access fields and become
valid (R111; log entry 43). -/
def Obligations.OuterReturns : Prop :=
  ∀ (s : State), s.pfx.lock = false → s.mode = .prot →
    (∀ off sel t1 t2 d s1 s2 s3 g (n : Word16), Popped s.osz.width off s.begun t1 → Popped s.osz.width sel t1 t2 →
      let cs : Word16 := sel.setWidth 16;
      4 ≤ cs.toNat → s.cpl < selRpl cs → DescriptorAt cs d t2 s1 → ReturnCode d (selRpl cs) →
      (off.setWidth 32 : Word32).toNat ≤ d.limit.toNat → SpMoved s (n.setWidth 32) s1.regs g →
      OuterStack s.osz.width (selRpl cs) n { s1 with regs := g } s2 → Accessed d s2 s3 →
      exec (.retFarIw n) s = .next (finished s (inCode s3 d cs (off.setWidth 32))) ∧
      (n = 0 → exec .retFar s = .next (finished s (inCode s3 d cs (off.setWidth 32))))) ∧
    (s.flags.nt = false → ∀ off sel img t1 t2 t3 d s1 s2 s3 f, Popped s.osz.width off s.begun t1 →
      Popped s.osz.width sel t1 t2 → Popped s.osz.width img t2 t3 →
      ¬(s.osz = .s32 ∧ img.getLsbD 17 = true ∧ s.cpl = 0) →
      let cs : Word16 := sel.setWidth 16;
      4 ≤ cs.toNat → s.cpl < selRpl cs → DescriptorAt cs d t3 s1 → ReturnCode d (selRpl cs) →
      (off.setWidth 32 : Word32).toNat ≤ d.limit.toNat →
      ImageFlags (img.setWidth 32) f →
      f.iopl = (if s.cpl = 0 then (img.setWidth 32).extractLsb' 12 2 else s.flags.iopl) →
      f.ifl = (if s.cpl ≤ s.flags.iopl then img.getLsbD 9 else s.flags.ifl) →
      f.rf = (if s.osz = .s32 then img.getLsbD 16 else s.flags.rf) → f.vm = false →
      OuterStack s.osz.width (selRpl cs) 0 { s1 with flags := f } s2 → Accessed d s2 s3 →
      exec .iret s = .next (finished s
        { inCode s3 d cs (off.setWidth 32) with nmiMask := false, rfKept := decide (s.osz = .s32) })) ∧
    (s.flags.nt = false → s.osz = .s32 → s.cpl = 0 →
      ∀ off sel img esp ss es ds fs gs t1 t2 t3 t4 t5 t6 t7 t8 t9 f,
      Popped .d32 off s.begun t1 → Popped .d32 sel t1 t2 → Popped .d32 img t2 t3 → img.getLsbD 17 = true →
      Popped .d32 esp t3 t4 → Popped .d32 ss t4 t5 → Popped .d32 es t5 t6 → Popped .d32 ds t6 t7 →
      Popped .d32 fs t7 t8 → Popped .d32 gs t8 t9 →
      ImageFlags img f → f.ifl = img.getLsbD 9 → f.iopl = img.extractLsb' 12 2 → f.rf = img.getLsbD 16 →
      f.vm = true →
      exec .iret s = .next (finished s (goTo { t9 with
        flags := f
        rfKept := true
        nmiMask := false
        cpl := 3
        regs := t9.regs.set .esp esp
        segs :=
          { es := realSeg t9.segs.es (es.setWidth 16)
            cs := realSeg t9.segs.cs (sel.setWidth 16)
            ss := realSeg t9.segs.ss (ss.setWidth 16)
            ds := realSeg t9.segs.ds (ds.setWidth 16)
            fs := realSeg t9.segs.fs (fs.setWidth 16)
            gs := realSeg t9.segs.gs (gs.setWidth 16) } } off)))

/-- The far transfers that R490 forbids raise its exception and are undone (log entry 12; a pointer in memory is read
as log entry 55 says). JMP and CALL: an offset above 0xFFFF in modes R and V is exception 13 (log entry 18); in mode P
a null selector, one outside its table, a descriptor of another kind, a privilege rule, an absent segment, an offset
beyond the limit; the same of a call gate, its target (log entry 27) and its offset, which a CALL meets after its
frame, and a bad stack of the inner level, #TS (log entries 28 and 44); the privilege and the presence of a task gate
(R126, R596). RET and IRET: the checks of their code segment, of SS for an outer level, and of the offset last (log
entry 28). -/
def Obligations.FarTransferFaults : Prop :=
  (∀ (s s0 : State) (sel : Word16) (off : Word32) (i j : Instr), s.pfx.lock = false →
    FarForms s sel off i j s0 →
    let code : Word16 := sel &&& 0xFFFC;
    let fails := fun (e : Exn) (u : State) =>
      exec i s = .next (deliver e (undo s u)) ∧ exec j s = .next (deliver e (undo s u));
    (s.mode ≠ .prot → (truncated s off).toNat > 0xFFFF →
      exec i s = .next (deliver exn13 (undo s s0)) ∧
      ∀ t, ReturnPushed s.osz s0 t → exec j s = .next (deliver exn13 (undo s t))) ∧
    (s.mode = .prot →
      (sel.toNat < 4 → fails (exnGP 0) s0) ∧
      (4 ≤ sel.toNat → OutsideTable s sel → fails (exnGP code) s0) ∧
      (∀ d s1, 4 ≤ sel.toNat → DescriptorAt sel d s0 s1 →
        let may := if d.conforming then d.dpl ≤ s.cpl else selRpl sel ≤ s.cpl ∧ d.dpl = s.cpl;
        let use := s.cpl ≤ d.dpl ∧ selRpl sel ≤ d.dpl;
        (d.isCode = true →
          (¬may → fails (exnGP code) s1) ∧
          (may → d.p = false → fails (exnNP code) s1) ∧
          (may → d.p = true → off.toNat > d.limit.toNat → fails (exnGP 0) s1)) ∧
        (d.isCode = false → d.isCallGate = false → d.isTaskGate = false → d.isTss = false →
          fails (exnGP code) s1) ∧
        (d.isTaskGate = true →
          (¬use → fails (exnGP code) s1) ∧
          (use → d.p = false → fails (exnNP code) s1)) ∧
        (d.isCallGate = true →
          let target : Word16 := d.gateSel &&& 0xFFFC;
          (¬use → fails (exnGP code) s1) ∧
          (use → d.p = false → fails (exnNP code) s1) ∧
          (use → d.p = true →
            (d.gateSel.toNat < 4 → fails (exnGP 0) s1) ∧
            (4 ≤ d.gateSel.toNat → OutsideTable s d.gateSel → fails (exnGP target) s1) ∧
            (∀ c s2, 4 ≤ d.gateSel.toNat → DescriptorAt d.gateSel c s1 s2 →
              (¬(c.isCode = true ∧ c.dpl ≤ s.cpl) → fails (exnGP target) s2) ∧
              (c.isCode = true → c.dpl ≤ s.cpl → c.p = false → fails (exnNP target) s2) ∧
              (c.isCode = true → c.dpl < s.cpl → c.conforming = false → c.p = true →
                exec i s = .next (deliver (exnGP target) (undo s s2)) ∧
                ∀ e u, InnerStackFails c.dpl 0 e s2 u → exec j s = .next (deliver e (undo s u))) ∧
              (c.isCode = true → c.dpl ≤ s.cpl → c.p = true → d.gateOff.toNat > c.limit.toNat →
                (c.conforming = true ∨ c.dpl = s.cpl → exec i s = .next (deliver (exnGP 0) (undo s s2))) ∧
                ∀ u, GateFrame d.gateSize d.gateCount c s2 u →
                  exec j s = .next (deliver (exnGP 0) (undo s u))))))))) ∧
  (∀ (s t1 t2 t3 : State) (off sel img : BitVec s.osz.width.bits) (i : Instr), s.pfx.lock = false →
    Popped s.osz.width off s.begun t1 → Popped s.osz.width sel t1 t2 →
    (t3 = t2 ∧ (i = .retFar ∨ ∃ n, i = .retFarIw n) ∨
      (i = .iret ∧ Popped s.osz.width img t2 t3 ∧ (s.mode = .v86 → s.flags.iopl = 3) ∧
        (s.mode = .prot → s.flags.nt = false ∧ ¬(s.osz = .s32 ∧ img.getLsbD 17 = true ∧ s.cpl = 0)))) →
    let cs : Word16 := sel.setWidth 16;
    let fails := fun (e : Exn) (u : State) => exec i s = .next (deliver e (undo s u));
    (s.mode ≠ .prot → (off.setWidth 32 : Word32).toNat > 0xFFFF → fails exn13 t3) ∧
    (s.mode = .prot →
      (cs.toNat < 4 → fails (exnGP 0) t3) ∧
      (4 ≤ cs.toNat → selRpl cs < s.cpl → fails (exnGP (cs &&& 0xFFFC)) t3) ∧
      (4 ≤ cs.toNat → s.cpl ≤ selRpl cs →
        (OutsideTable s cs → fails (exnGP (cs &&& 0xFFFC)) t3) ∧
        ∀ d s1, DescriptorAt cs d t3 s1 →
          let may := d.isCode = true ∧ (if d.conforming then d.dpl ≤ selRpl cs else d.dpl = selRpl cs);
          let beyond := (off.setWidth 32 : Word32).toNat > d.limit.toNat;
          (¬may → fails (exnGP (cs &&& 0xFFFC)) s1) ∧
          (may → d.p = false → fails (exnNP (cs &&& 0xFFFC)) s1) ∧
          (may → d.p = true → selRpl cs = s.cpl → beyond → fails (exnGP 0) s1) ∧
          (may → d.p = true → s.cpl < selRpl cs → ∀ n s2, BeforeOuter s i n (img.setWidth 32) s1 s2 →
            (∀ e u, OuterStackFails s.osz.width (selRpl cs) e s2 u → fails e u) ∧
            (beyond → ∀ u, OuterStack s.osz.width (selRpl cs) n s2 u → fails (exnGP 0) u)))))

/-- ENTER, with the display of its nesting level modulo 32, and LEAVE (R505, R506; the widths of BP
and SP are log entry 30). BOUND: nothing when the signed
index lies within both bounds, else exception 5 with the instruction undone but for the A and D bits its
operand's translation set (R510, R565; log entry 12), the second bound at EA + n modulo 2^32 (log entry 55). -/
def Obligations.FramesAndBounds : Prop :=
  (∀ (s : State), s.pfx.lock = false →
    let w := s.osz.width;
    (∀ (size : Word16) (level : Byte) t1 t2 t3, Pushed w (readReg w s.regs .ebp) s.begun t1 →
      (if level.toNat % 32 = 0 then t3 = t1
        else DisplayCopied s.osz (level.toNat % 32 - 1) t1 t2 ∧
          Pushed w ((topOffset t1).setWidth _) t2 t3) →
      ∃ g g', WritesReg w .ebp ((topOffset t1).setWidth _) t3.regs g ∧
        SpMoved s (-(size.setWidth 32)) g g' ∧
        exec (.enter size level) s = .next (finished s { t3 with regs := g' })) ∧
    (∀ g v t, WritesReg s.stackSize.width .esp (readReg s.stackSize.width s.regs .ebp) s.regs g →
      Popped w v { s.begun with regs := g } t →
      ∃ g', WritesReg w .ebp v t.regs g' ∧ exec .leave s = .next (finished s { t with regs := g' }))) ∧
  (∀ (s s1 s2 : State) (r : Reg) (m : EA) (lo hi : BitVec s.osz.width.bits), s.pfx.lock = false →
    MemReads s.osz.width (s.pfx.seg.getD (eaSeg m)) (eaOffset s.regs m) lo s.begun s1 →
    MemReads s.osz.width (s.pfx.seg.getD (eaSeg m)) (eaOffset s.regs m + BitVec.ofNat 32 s.osz.width.bytes)
      hi s1 s2 →
    let i := (readReg s.osz.width s.regs r).toInt;
    (lo.toInt ≤ i ∧ i ≤ hi.toInt → exec (.bound r m) s = .next (finished s s2)) ∧
    (¬(lo.toInt ≤ i ∧ i ≤ hi.toInt) → exec (.bound r m) s = .next (deliver exnBR (undo s s2))))

/-! Exceptions and interrupts. -/

/-- Mode R: INT 3, INT n, INTO, and the delivery of an exception or external interrupt (R495, R496, R556, R557, R561,
R567, R568, R570). FLAGS, CS and the return offset are pushed, a fault's that of its instruction and any other's that
of the next, with no error code; IF and TF are cleared and CS:IP read from the vector table at 0; CR2 and DR6 receive
what is reported. The load of CS keeps its access fields (log entry 43). A vector beyond the table is vector 8, which
saves the next offset, and if the table does not hold vector 8 either the processor shuts down (log entry 35). A frame
that meets SP = 1 at its first, second or third push (SP = 1, 3 or 5) shuts it down too, what was pushed stays (R142,
R590; log entry 25). INTO with OF = 0 does nothing. -/
def Obligations.RealDelivery : Prop :=
  (∀ s : State, s.pfx.lock = false → s.flags.of = false → exec .into s = .next (finished s s.begun)) ∧
  (∀ (s t : State) (v : Byte) (i : Instr), s.pfx.lock = false → s.mode = .real →
    (i = Instr.int3 ∧ v = 3) ∨ i = .intIb v ∨ (i = .into ∧ v = 4 ∧ s.flags.of = true) →
    (4 * v.toNat + 3 ≤ s.idtr.limit.toNat → RealEntry v s.eip s.begun t → exec i s = .next (finished s t)) ∧
    (s.idtr.limit.toNat < 4 * v.toNat + 3 → 35 ≤ s.idtr.limit.toNat → RealEntry 8 s.eip s.begun t →
      exec i s = .next (finished s t)) ∧
    (s.idtr.limit.toNat < 4 * v.toNat + 3 → s.idtr.limit.toNat < 35 →
      exec i s = .next { s.begun.settled with shutdown := true }) ∧
    (4 * v.toNat + 3 ≤ s.idtr.limit.toNat ∨ 35 ≤ s.idtr.limit.toNat → RealOverrun s.begun t →
      exec i s = .next { t.settled with shutdown := true })) ∧
  (∀ (e : Exn) (s t : State), s.mode = .real →
    let r := reported e s;
    (4 * e.vector.toNat + 3 ≤ s.idtr.limit.toNat →
      RealEntry e.vector (if e.kind = .fault then s.curEip else s.eip) r t → deliver e s = t.settled) ∧
    (s.idtr.limit.toNat < 4 * e.vector.toNat + 3 → 35 ≤ s.idtr.limit.toNat → RealEntry 8 s.eip r t →
      deliver e s = t.settled) ∧
    (s.idtr.limit.toNat < 4 * e.vector.toNat + 3 → s.idtr.limit.toNat < 35 →
      deliver e s = { r.settled with shutdown := true }) ∧
    (4 * e.vector.toNat + 3 ≤ s.idtr.limit.toNat ∨ 35 ≤ s.idtr.limit.toNat → RealOverrun r t →
      deliver e s = { t.settled with shutdown := true }))

/-- IRET where it stays at its level: EIP, CS and the flags are popped, RF only with 32 bits, VM never, and NMI is
unmasked (R500, R575; an RF that was loaded holds for the next instruction, log entry 16). In modes R and V (there
with IOPL 3; the load of CS keeps its access fields, log entry 43) IOPL is loaded but in mode V; in mode P within a
task, to the same level, IOPL only at level 0 and IF only at a level up to IOPL (R284). -/
def Obligations.InterruptReturns : Prop :=
  (∀ (s t1 t2 t3 : State) (off sel img : BitVec s.osz.width.bits), s.pfx.lock = false →
    s.mode = .real ∨ s.mode = .v86 ∧ s.flags.iopl = 3 →
    Popped s.osz.width off s.begun t1 → Popped s.osz.width sel t1 t2 → Popped s.osz.width img t2 t3 →
    (off.setWidth 32 : Word32).toNat ≤ 0xFFFF →
    ∃ f, ImageFlags (img.setWidth 32) f ∧ f.ifl = img.getLsbD 9 ∧
      f.iopl = (if s.mode = .real then (img.setWidth 32).extractLsb' 12 2 else s.flags.iopl) ∧
      f.rf = (if s.osz = .s32 then img.getLsbD 16 else s.flags.rf) ∧ f.vm = s.flags.vm ∧
      exec .iret s = .next (finished s
        { inReal t3 (sel.setWidth 16) (off.setWidth 32) with
          flags := f, nmiMask := false, rfKept := decide (s.osz = .s32) })) ∧
  (∀ (s t1 t2 t3 s1 s2 : State) (off sel img : BitVec s.osz.width.bits) (d : Desc), s.pfx.lock = false →
    s.mode = .prot → s.flags.nt = false →
    Popped s.osz.width off s.begun t1 → Popped s.osz.width sel t1 t2 → Popped s.osz.width img t2 t3 →
    ¬(s.osz = .s32 ∧ img.getLsbD 17 = true ∧ s.cpl = 0) →
    let cs : Word16 := sel.setWidth 16;
    4 ≤ cs.toNat → selRpl cs = s.cpl → DescriptorAt cs d t3 s1 → DirectCode d cs s.cpl →
    (off.setWidth 32 : Word32).toNat ≤ d.limit.toNat →
    ∃ f, ImageFlags (img.setWidth 32) f ∧
      f.iopl = (if s.cpl = 0 then (img.setWidth 32).extractLsb' 12 2 else s.flags.iopl) ∧
      f.ifl = (if s.cpl ≤ s.flags.iopl then img.getLsbD 9 else s.flags.ifl) ∧
      f.rf = (if s.osz = .s32 then img.getLsbD 16 else s.flags.rf) ∧ f.vm = false ∧
      (Accessed d { s1 with flags := f } s2 →
        exec .iret s = .next (finished s
          { inCode s2 d cs (off.setWidth 32) with nmiMask := false, rfKept := decide (s.osz = .s32) })))

/-- Entry through an interrupt or trap gate in modes P and V (R495, R496, R556, R557, R561, R580): INT n (in mode V with
IOPL 3), INT 3 and INTO with OF = 1, and the delivery of an exception or external interrupt with its error code. Inner
code is entered on the stack of the TSS, with the old SS and (E)SP on it; a virtual-8086 task is left to level 0, its
data segments saved and null. The layout of gates, the changes of stack and what is saved of RF are the model's reading
(log entries 9, 16, 27, 28 and 33). -/
def Obligations.GateEntries : Prop :=
  (∀ (s t : State), s.pfx.lock = false → s.mode ≠ .real →
    (∀ v, (s.mode = .v86 → s.flags.iopl = 3) → GateEntered v .software none s.begun t →
      exec (.intIb v) s = .next (finished s t)) ∧
    (GateEntered 3 .software none s.begun t → exec .int3 s = .next (finished s t)) ∧
    (GateEntered 4 .software none s.begun t → s.flags.of = true → exec .into s = .next (finished s t))) ∧
  (∀ (e : Exn) (s t : State), s.mode ≠ .real → GateEntered e.vector e.kind e.code (reported e s) t →
    deliver e s = t.settled)

/-- Entry through the IDT that fails in modes P and V raises the exception of R580, whose code, where it names a
selector or an IDT entry, has EXT set but for INT n, INT 3 and INTO (R557, general knowledge there; log entry 33,
PRESUMED): a vector beyond the limit, an entry that is no gate, a software interrupt above the gate's DPL, an absent
gate; a target that is null (log entry 27), outside its table, no code, of an outer level or absent; an inner stack that
is bad, #TS (log entries 28 and 44); a virtual-8086 task that would not reach level 0; an offset beyond the target's
limit, met after the frame; and a task switch that fails before its commit. R580 prints the #TS of the inner stack and
the #GP of the virtual-8086 task without EXT: that these two codes have it is the model's choice, log entry 33. INT n,
INT 3 and INTO are undone (log entry 12); what the delivery of another event makes of it is in DoubleFault. -/
def Obligations.EntryFaults : Prop :=
  (∀ (v : Byte) (kind : ExnKind) (code : Option Word16) (s : State), s.mode ≠ .real →
    let ext : Word16 := if kind = .software then 0 else 1;
    let idt : Word16 := BitVec.ofNat 16 (8 * v.toNat + 2) ||| ext;
    let fails := fun (e : Exn) (u : State) => interrupt v kind code s = .error (.exc e) u;
    (s.idtr.limit.toNat < 8 * v.toNat + 7 → fails (exnGP idt) s) ∧
    (∀ g s1, 8 * v.toNat + 7 ≤ s.idtr.limit.toNat →
      readEntry (s.idtr.base + BitVec.ofNat 32 (8 * v.toNat)) s = .ok g s1 →
      let use := kind = .software → s.level ≤ g.dpl;
      (g.isIntGate = false → g.isTaskGate = false → fails (exnGP idt) s1) ∧
      (g.isIntGate = true ∨ g.isTaskGate = true →
        (¬use → fails (exnGP idt) s1) ∧
        (use → g.p = false → fails (exnNP idt) s1)) ∧
      (g.isTaskGate = true → use → g.p = true → ∀ e u,
        taskSwitch .interrupt false g.gateSel (if kind = .fault then s.curEip else s.eip)
          { s.flags with rf := s.flags.rf || decide (kind = ExnKind.fault) }.image ext s1 = .error (.exc e) u →
        fails e u) ∧
      (g.isIntGate = true → use → g.p = true →
        let target : Word16 := (g.gateSel &&& 0xFFFC) ||| ext;
        (g.gateSel.toNat < 4 ∨ OutsideTable s g.gateSel → fails (exnGP target) s1) ∧
        (∀ c s2, 4 ≤ g.gateSel.toNat → DescriptorAt g.gateSel c s1 s2 →
          (¬(c.isCode = true ∧ c.dpl ≤ s.level) → fails (exnGP target) s2) ∧
          (c.isCode = true → c.dpl ≤ s.level →
            (c.p = false → fails (exnNP target) s2) ∧
            (c.p = true → c.conforming = false → c.dpl < s.level →
              (∀ e u, InnerStackFails c.dpl ext e s2 u → fails e u) ∧
              (s.mode = .v86 → c.dpl ≠ 0 → ∀ ss esp d u, InnerStackAt c.dpl ss esp d s2 u →
                fails (exnGP target) u)) ∧
            (c.p = true → s.mode = .v86 → c.conforming = true ∨ c.dpl = s.level → fails (exnGP target) s2) ∧
            (c.p = true → g.gateOff.toNat > c.limit.toNat → ∀ u, GateFramed g c kind code s2 u →
              fails (exnGP 0) u)))))) ∧
  (∀ (s u : State) (e : Exn), s.pfx.lock = false → s.mode ≠ .real →
    (∀ v, (s.mode = .v86 → s.flags.iopl = 3) → interrupt v .software none s.begun = .error (.exc e) u →
      exec (.intIb v) s = .next (deliver e (undo s u))) ∧
    (interrupt 3 .software none s.begun = .error (.exc e) u → exec .int3 s = .next (deliver e (undo s u))) ∧
    (interrupt 4 .software none s.begun = .error (.exc e) u → s.flags.of = true →
      exec .into s = .next (deliver e (undo s u))))

/-- An exception met while another event is delivered in modes P and V (R567, R590; log entry 34): two contributory
ones, or a page fault and then a contributory one or a page fault, make a double fault, exception 8 with code 0, which
keeps the address of a second page fault for CR2; any other pair is delivered as the second; one met while a double
fault is delivered shuts the processor down. Delivery begins again where the first began, its page marks kept, or,
when a task gate has already switched, in the new task (R569). -/
def Obligations.DoubleFault : Prop :=
  ∀ (e e2 : Exn) (s u back base : State),
    (interrupt e.vector e.kind e.code (reported e s) = .error (.exc e2) u ∧ back = undo (reported e s) u ∧
        base = reported e s) ∨
      (interrupt e.vector e.kind e.code (reported e s) = .error (.excNew e2) u ∧ back = u ∧ base = u) →
    let double : Exn := ⟨8, .abort, some 0, e2.cr2, 0⟩;
    let isDouble := e.kind = .fault ∧ Escalates e.vector e2.vector;
    (e.kind = .abort →
      deliver e s = { (reported { e2 with dr6 := 0 } base).settled with shutdown := true }) ∧
    (e.kind ≠ .abort → isDouble →
      (∀ t, Entered 8 .abort (some 0) (reported double back) t → deliver e s = t.settled) ∧
      (∀ e3 u3, interrupt 8 .abort (some 0) (reported double back) = .error (.exc e3) u3 →
        deliver e s = { (reported { e3 with dr6 := 0 } (reported double back)).settled with shutdown := true })) ∧
    (e.kind ≠ .abort → ¬isDouble →
      ∀ t, Entered e2.vector e2.kind e2.code (reported e2 back) t → deliver e s = t.settled)

/-- An INT n in mode R and an IRET executed at once in its handler leave EIP, the segment registers, the general
registers and every flag as they were, but for RF, which is clear after any instruction (R495, R500, R559, R570; log
entry 16); a load of CS keeps its access fields (log entry 43). -/
def Obligations.InterruptRoundTrip : Prop :=
  ∀ (s t : State) (v : Byte), s.mode = .real → s.pfx = Pfx.none → s.flags.vm = false →
    s.eip.toNat ≤ 0xFFFF → s.segs.cs = realSeg s.segs.cs s.segs.cs.sel → s.segs.ss.base.toNat ≤ 0xFFFF0 →
    4 * v.toNat + 3 ≤ s.idtr.limit.toNat → RealEntry v s.eip s.begun t →
    exec (.intIb v) s = .next (finished s t) ∧
    ∃ u, exec .iret (finished s t) = .next u ∧
      u.eip = s.eip ∧ u.segs = s.segs ∧ u.regs = s.regs ∧ u.flags = { s.flags with rf := false }

/-- A LOCK prefix before any instruction not in the list of R530, or before a register form, is exception 6; before one
of the list in mode P with CPL above IOPL it is #GP(0); the instruction is undone (R108, R530, R556; log entry 12). -/
def Obligations.LockTraps : Prop :=
  ∀ (s : State) (i : Instr), s.pfx.lock = true → i.isPrefix = false →
    (¬Lockable i → exec i s = .next (deliver exnUD (undo s s.begun))) ∧
    (Lockable i → s.mode = .prot → ¬s.cpl ≤ s.flags.iopl →
      exec i s = .next (deliver (exnGP 0) (undo s s.begun)))

/-- Where privilege forbids an instruction it is #GP(0), undone (R556; log entry 12): CLI and STI by IOPL, HLT outside
level 0, PUSHF, POPF, INT n and IRET of a virtual-8086 task with IOPL below 3 (R283, R284, R495, R500, R525, R526,
R528, R612); IN, OUT, INS and OUTS, with a repeat prefix too unless (E)CX is 0, above IOPL in mode P and by the
permission map of the TSS in mode V (R152, R295, R296, R436, R437; log entry 40). OUTS reads its source first. -/
def Obligations.PrivilegeTraps : Prop :=
  ∀ s : State, s.pfx.lock = false →
    (∀ i : Instr,
      (i = .cli ∨ i = .sti) ∧ (s.mode = .prot ∧ ¬s.cpl ≤ s.flags.iopl ∨ s.mode = .v86 ∧ s.flags.iopl ≠ 3) ∨
      (i = .hlt ∧ ¬Level0 s) ∨
      (s.mode = .v86 ∧ s.flags.iopl ≠ 3 ∧ (i = .pushf ∨ i = .popf ∨ i = .iret ∨ ∃ v, i = .intIb v)) →
      exec i s = .next (deliver (exnGP 0) (undo s s.begun))) ∧
    (∀ (wide : Bool) (port : Word16) (i : Instr) (t : State), IoDenied port (widthOf s wide).bytes s.begun t →
      (∃ p : Byte, port = p.setWidth 16 ∧
          (i = (if wide then .inAxIb p else .inAlIb p) ∨ i = if wide then .outIbAx p else .outIbAl p)) ∨
        (port = readReg .w16 s.regs .edx ∧
          (i = (if wide then .inAxDx else .inAlDx) ∨ i = if wide then .outDxAx else .outDxAl)) →
      exec i s = .next (deliver (exnGP 0) (undo s t))) ∧
    (s.pfx.rep = none ∨ atAsz s .ecx ≠ 0 → ∀ (wide : Bool) (t : State),
      let port : Word16 := readReg .w16 s.regs .edx;
      (IoDenied port (widthOf s wide).bytes s.begun t →
        exec (stringInstr .ins wide) s = .next (deliver (exnGP 0) (undo s t))) ∧
      (∀ v s1, MemReads (widthOf s wide) (s.pfx.seg.getD .ds) (atAsz s .esi) v s.begun s1 →
        IoDenied port (widthOf s wide).bytes s1 t →
        exec (stringInstr .outs wide) s = .next (deliver (exnGP 0) (undo s t))))

/-- In modes R and V a push with SP = 1 shuts the processor down, whatever pushes: PUSH of a register, an immediate,
an operand or a segment register, PUSHF, near and far CALL, ENTER; a far CALL whose second push meets SP = 1 (SP = 3)
keeps its first; PUSHA with SP = 1, 3 or 5 shuts down with nothing pushed, and with an odd SP from 7 to 15 it is
exception 13, without a code in mode V too (log entry 18), undone (R556; log entry 12) (R142, R270, R280, R283, R478,
R479, R505, R590; log entry 25). The entry of an interrupt is in RealDelivery. -/
def Obligations.StackShutdown : Prop :=
  ∀ (s : State), s.pfx.lock = false → s.mode ≠ .prot →
    let dead := fun t : State => { t.settled with shutdown := true };
    (topOffset s = 1 →
      (∀ r, exec (.pushRv r) s = .next (dead s.begun)) ∧
      (∀ v, exec (.pushIb v) s = .next (dead s.begun)) ∧
      (∀ v, exec (.pushIv v) s = .next (dead s.begun)) ∧
      (∀ m l s1, locate s.osz.width .read m s.begun = .ok l s1 → exec (.pushRmv m) s = .next (dead s1)) ∧
      (∀ i ∈ [Instr.pushCs, .pushDs, .pushEs, .pushSs, .pushFs, .pushGs],
        ∃ n, exec i s = .next (dead { s.begun with free := n })) ∧
      ((s.mode = .v86 → s.flags.iopl = 3) → exec .pushf s = .next (dead s.begun)) ∧
      (∀ d, NearOk s (truncated s (s.eip + Sized.sext d)) → exec (.callNear d) s = .next (dead s.begun)) ∧
      (∀ m l s1, locate s.osz.width .read m s.begun = .ok l s1 →
        NearOk s ((s1.valueAt s.osz.width l).setWidth 32) → exec (.callRmv m) s = .next (dead s1)) ∧
      (∀ sel off i j s0, FarForms s sel off i j s0 → ∃ n, exec j s = .next (dead { s0 with free := n })) ∧
      (∀ size level, exec (.enter size level) s = .next (dead s.begun))) ∧
    (∀ sel off i j s0 t, FarForms s sel off i j s0 → PushedSel s.osz s.segs.cs.sel s0 t → topOffset t = 1 →
      exec j s = .next (dead t)) ∧
    (topOffset s = 1 ∨ topOffset s = 3 ∨ topOffset s = 5 → exec .pusha s = .next (dead s.begun)) ∧
    ((topOffset s).toNat % 2 = 1 → 7 ≤ (topOffset s).toNat → (topOffset s).toNat ≤ 15 →
      exec .pusha s = .next (deliver ⟨13, .fault, none, none, 0⟩ (undo s s.begun)))

/-! Processor control, prefixes, system registers, tasks. -/

/-- CLC, STC, CMC, CLD, STD and NOP, with their encodings (R520 to R524, R533): one flag, or nothing. CLI, STI (with
the interrupt shadow when IF was 0) and HLT where the privilege rules allow them (R64, R525, R526, R528). RF is
cleared when each ends, as by every instruction (R559; log entry 16). -/
def Obligations.FlagControl : Prop :=
  (∀ o a rest,
    decodeItem o a (0xF8 :: rest) = .ok .clc rest ∧ decodeItem o a (0xF9 :: rest) = .ok .stc rest ∧
    decodeItem o a (0xF5 :: rest) = .ok .cmc rest ∧ decodeItem o a (0xFC :: rest) = .ok .cld rest ∧
    decodeItem o a (0xFD :: rest) = .ok .std rest ∧ decodeItem o a (0x90 :: rest) = .ok .nop rest) ∧
  ∀ s : State, s.pfx.lock = false →
    exec .clc s = .next (finished s { s.begun with flags := { s.begun.flags with cf := false } }) ∧
    exec .stc s = .next (finished s { s.begun with flags := { s.begun.flags with cf := true } }) ∧
    exec .cmc s = .next (finished s { s.begun with flags := { s.begun.flags with cf := !s.flags.cf } }) ∧
    exec .cld s = .next (finished s { s.begun with flags := { s.begun.flags with df := false } }) ∧
    exec .std s = .next (finished s { s.begun with flags := { s.begun.flags with df := true } }) ∧
    exec .nop s = .next (finished s s.begun) ∧
    ((s.mode = .prot → s.cpl ≤ s.flags.iopl) → (s.mode = .v86 → s.flags.iopl = 3) →
      exec .cli s = .next (finished s { s.begun with flags := { s.begun.flags with ifl := false } }) ∧
      exec .sti s = .next (finished s { s.begun with
        flags := { s.begun.flags with ifl := true }
        inhibit := s.inhibit || !s.flags.ifl })) ∧
    (Level0 s → exec .hlt s = .next (finished s { s.begun with halted := true }))

/-- WAIT does nothing while BUSY# is inactive and is begun again while it is active; MP and TS make it exception 7,
ERROR# with BUSY# exception 16; ESC does nothing without a coprocessor, EM or TS make it exception 7, ERROR#
exception 16, undone (R529, R539, R556; log entries 12, 31 and 32). -/
def Obligations.Coprocessor : Prop :=
  ∀ s : State, s.pfx.lock = false →
    (s.mp = true ∧ s.ts = true → exec .wait s = .next (deliver exnNM (undo s s.begun))) ∧
    (¬(s.mp = true ∧ s.ts = true) →
      (s.lines.busy = false → exec .wait s = .next (finished s s.begun)) ∧
      (s.lines.busy = true → s.lines.error = true → exec .wait s = .next (deliver exnMF (undo s s.begun))) ∧
      (s.lines.busy = true → s.lines.error = false →
        exec .wait s = .next (goTo s.settled s.curEip))) ∧
    (∀ op ext m, (s.em = true ∨ s.ts = true → exec (.esc op ext m) s = .next (deliver exnNM (undo s s.begun))) ∧
      (s.em = false → s.ts = false → s.lines.error = true →
        exec (.esc op ext m) s = .next (deliver exnMF (undo s s.begun))) ∧
      (s.em = false → s.ts = false → s.lines.error = false →
        exec (.esc op ext m) s = .next (finished s s.begun)))

/-- Each prefix latches what it selects and changes nothing else (R171, R174 to R176, R440, R530). -/
def Obligations.PrefixesLatch : Prop :=
  ∀ (s : State) (i : Instr), i.isPrefix = true → exec i s = .next { s with pfx := latched i s.pfx }

/-- The accesses to CR0 to CR3, DR0 to DR7, GDTR, IDTR, LDTR and TR that the spec names without an encoding (log entry
22). CR1, DR4 and DR5 are exception 6 always. At level 0 the others read and write the register (CR3 with its low 12
bits 0, and the TLB is emptied; CR0 takes every value, PG = 1 with PE = 0 too, log entry 57; the reserved bits of DR6
and DR7 stay 0, log entry 21), and DR7.GD makes each access to a debug register exception 1; outside level 0 all are
#GP(0), before that (log entry 53) (R45 to R58, R136, R558, R561, R611). LDTR and TR are loaded in mode P only, from a
present LDT and from a present available TSS, whatever its limit (log entry 22), which becomes busy. -/
def Obligations.SystemRegisters : Prop :=
  ∀ (s : State) (r : Reg),
    (readCR 1 r s = .error (.exc exnUD) s ∧ writeCR 1 r s = .error (.exc exnUD) s ∧
      ∀ n ∈ [4, 5], readDR n r s = .error (.exc exnUD) s ∧ writeDR n r s = .error (.exc exnUD) s) ∧
    (¬Level0 s →
      (∀ n ∈ [0, 2, 3], readCR n r s = .error (.exc (exnGP 0)) s ∧ writeCR n r s = .error (.exc (exnGP 0)) s) ∧
      (∀ n ∈ [0, 1, 2, 3, 6, 7],
        readDR n r s = .error (.exc (exnGP 0)) s ∧ writeDR n r s = .error (.exc (exnGP 0)) s) ∧
      (∀ x, loadGdtr x s = .error (.exc (exnGP 0)) s ∧ loadIdtr x s = .error (.exc (exnGP 0)) s) ∧
      (s.mode = .prot → ∀ sel, loadLdtrOp sel s = .error (.exc (exnGP 0)) s ∧
        loadTrOp sel s = .error (.exc (exnGP 0)) s)) ∧
    (s.mode ≠ .prot → ∀ sel, loadLdtrOp sel s = .error (.exc exnUD) s ∧ loadTrOp sel s = .error (.exc exnUD) s) ∧
    (Level0 s →
      (∀ n v, (n, v) ∈ [(0, s.cr0), (2, s.cr2), (3, s.cr3)] →
        readCR n r s = .ok () { s with regs := s.regs.set r v }) ∧
      writeCR 2 r s = .ok () { s with cr2 := s.regs.get r } ∧
      writeCR 3 r s = .ok () { s with cr3 := s.regs.get r &&& 0xFFFFF000, tlb := [] } ∧
      (∃ l, writeCR 0 r s = .ok () { s with cr0 := s.regs.get r, cpl := l } ∧ (s.pe = true → l = s.cpl)) ∧
      (s.dr.dr7.getLsbD 13 = false →
        (∀ n v, (n, v) ∈ [(0, s.dr.dr0), (1, s.dr.dr1), (2, s.dr.dr2), (3, s.dr.dr3), (6, s.dr.dr6), (7, s.dr.dr7)] →
          readDR n r s = .ok () { s with regs := s.regs.set r v }) ∧
        (∀ n d, (n, d) ∈ [(0, { s.dr with dr0 := s.regs.get r }), (1, { s.dr with dr1 := s.regs.get r }),
            (2, { s.dr with dr2 := s.regs.get r }), (3, { s.dr with dr3 := s.regs.get r }),
            (6, { s.dr with dr6 := s.regs.get r &&& 0x0000E00F }),
            (7, { s.dr with dr7 := s.regs.get r &&& 0xFFFF23FF })] →
          writeDR n r s = .ok () { s with dr := d })) ∧
      (s.dr.dr7.getLsbD 13 = true → ∀ n ∈ [0, 1, 2, 3, 6, 7],
        readDR n r s = .error (.exc ⟨1, .fault, none, none, 0x2000⟩) s ∧
        writeDR n r s = .error (.exc ⟨1, .fault, none, none, 0x2000⟩) s) ∧
      (∀ x, loadGdtr x s = .ok () { s with gdtr := x } ∧ loadIdtr x s = .ok () { s with idtr := x })) ∧
    (s.mode = .prot → s.cpl = 0 → ∀ sel : Word16,
      let code : Word16 := sel &&& 0xFFFC;
      (sel.toNat < 4 → loadLdtrOp sel s = .ok () { s with ldtr := ⟨sel, 0, 0, false⟩ } ∧
        loadTrOp sel s = .error (.exc (exnGP code)) s) ∧
      (4 ≤ sel.toNat → sel.getLsbD 2 = true ∨ OutsideTable s sel →
        loadLdtrOp sel s = .error (.exc (exnGP code)) s ∧ loadTrOp sel s = .error (.exc (exnGP code)) s) ∧
      (∀ d t, 4 ≤ sel.toNat → sel.getLsbD 2 = false → DescriptorAt sel d s t →
        (d.isLdt = false → loadLdtrOp sel s = .error (.exc (exnGP code)) t) ∧
        (d.isLdt = true → d.p = false → loadLdtrOp sel s = .error (.exc (exnNP code)) t) ∧
        (d.isLdt = true → d.p = true → loadLdtrOp sel s = .ok () { t with ldtr := ⟨sel, d.base, d.limit, true⟩ }) ∧
        (d.isTss = false ∨ d.busy = true → loadTrOp sel s = .error (.exc (exnGP code)) t) ∧
        (d.isTss = true → d.busy = false → d.p = false → loadTrOp sel s = .error (.exc (exnNP code)) t) ∧
        (d.isTss = true → d.busy = false → d.p = true → ∀ u, BusyIf True sel true t u →
          loadTrOp sel s = .ok () { u with tr := ⟨sel, d.base, d.limit, true⟩ })))

/-- Task switches (R44, R47, R53, R57, R58, R136, R569, R596; log entries 16, 26, 33 and 50). A far JMP or CALL that
names a TSS or a task gate, IRET with NT = 1, INT 3, INT n and INTO and the delivery of an event through a task gate
of the IDT go to the new task: the registers, EFLAGS and EIP are saved in the old TSS, the busy bits and the back link
written, TR and CR0.TS loaded, CR3 with paging, and LDTR, EFLAGS, EIP and the registers read from the new TSS, each
segment register checked. IRET with NT = 1 unmasks NMI (R575, R585), where the pseudocode of R500 stops before it: log
entry 17. A far pointer in memory is read as log entry 55 says. The checks of the new TSS come in their order, with
their exceptions. After any switch TR names the new TSS, TS is set, the local breakpoint bits of DR7 are clear, NT is
set by a CALL or an interrupt, and CR3 is page aligned under paging and unchanged without. The segment registers of
a new task with VM = 1 keep their access fields and become valid (R111; log entry 43). -/
def Obligations.TaskSwitches : Prop :=
  (∀ (s s0 s1 t : State) (sel : Word16) (off : Word32) (i j : Instr) (d : Desc), s.pfx.lock = false →
    s.mode = .prot → FarForms s sel off i j s0 → 4 ≤ sel.toNat → DescriptorAt sel d s0 s1 →
    (d.isTss = true →
      (TaskSwitched .jmp true sel s.eip s.flags.image s1 t → exec i s = .next (finished s t)) ∧
      (TaskSwitched .call true sel s.eip s.flags.image s1 t → exec j s = .next (finished s t))) ∧
    (d.isTaskGate = true → s.cpl ≤ d.dpl → selRpl sel ≤ d.dpl → d.p = true →
      (TaskSwitched .jmp false d.gateSel s.eip s.flags.image s1 t → exec i s = .next (finished s t)) ∧
      (TaskSwitched .call false d.gateSel s.eip s.flags.image s1 t → exec j s = .next (finished s t)))) ∧
  (∀ (s s1 t : State) (link : Word16), s.pfx.lock = false → s.mode = .prot → s.flags.nt = true →
    s.tr.valid = true → sysRead16 s.tr.base s.begun = .ok link s1 →
    TaskSwitched .iret false link s.eip s.flags.image s1 t →
    exec .iret s = .next (finished s { t with nmiMask := false })) ∧
  (∀ (s t : State), s.pfx.lock = false → s.mode ≠ .real →
    (∀ v, (s.mode = .v86 → s.flags.iopl = 3) → TaskGateEntered v .software none s.begun t →
      exec (.intIb v) s = .next (finished s t)) ∧
    (TaskGateEntered 3 .software none s.begun t → exec .int3 s = .next (finished s t)) ∧
    (TaskGateEntered 4 .software none s.begun t → s.flags.of = true → exec .into s = .next (finished s t)) ∧
    (∀ (e : Exn) u, TaskGateEntered e.vector e.kind e.code (reported e s) u → deliver e s = u.settled)) ∧
  (∀ (cause : TaskCause) (direct : Bool) (sel : Word16) (ret img : Word32) (ext : Word16) (s : State),
    let code : Word16 := (sel &&& 0xFFFC) ||| ext;
    let bad : Exn := if cause = .iret then exnTS code else exnGP code;
    let fails := fun (e : Exn) (u : State) => taskSwitch cause direct sel ret img ext s = .error (.exc e) u;
    (sel.toNat < 4 ∨ sel.getLsbD 2 = true ∨ OutsideTable s sel → fails bad s) ∧
    (∀ d u, 4 ≤ sel.toNat → sel.getLsbD 2 = false → DescriptorAt sel d s u →
      (d.isTss = false → fails bad u) ∧
      (d.isTss = true → d.p = false → fails (exnNP code) u) ∧
      (d.isTss = true → d.p = true → d.limit.toNat < 103 → fails (exnTS code) u) ∧
      (d.isTss = true → d.p = true → 103 ≤ d.limit.toNat →
        (direct = true → ¬(s.cpl ≤ d.dpl ∧ selRpl sel ≤ d.dpl) → fails (exnGP code) u) ∧
        ((direct = true → s.cpl ≤ d.dpl ∧ selRpl sel ≤ d.dpl) → ¬(d.busy = true ↔ cause = .iret) →
          fails bad u))) ∧
    (∀ t, taskSwitch cause direct sel ret img ext s = .ok () t →
      t.tr.sel = sel ∧ t.tr.valid = true ∧ t.cr0 = s.cr0 ||| 8 ∧ t.dr.dr7 = s.dr.dr7 &&& 0xFFFFFEAA ∧
      (cause = .call ∨ cause = .interrupt → t.flags.nt = true) ∧
      (s.paging = false → t.cr3 = s.cr3) ∧ t.cr3 &&& 0xFFF = (if s.paging then 0 else s.cr3 &&& 0xFFF)))

/-! Frames. -/

/-- A register-only instruction changes no byte of memory, no segment, control or other system register, not EIP, and
of the flags only the status flags, DF and RF. -/
def Obligations.FrameRegisterForms : Prop :=
  ∀ (s : State) (i : Instr), s.pfx.lock = false → RegisterOnly i →
    ∃ t, exec i s = .next t ∧ t.mem = s.mem ∧ t.tlb = s.tlb ∧ SystemSame s t ∧ t.eip = s.eip ∧
      t.flags = { s.flags with
        cf := t.flags.cf
        pf := t.flags.pf
        af := t.flags.af
        zf := t.flags.zf
        sf := t.flags.sf
        of := t.flags.of
        df := t.flags.df
        rf := false }

/-- An instruction that only reads its r/m operand changes no byte of memory but the A bits of the page entries its
translation used, no system register, and not EIP. One that stores to its r/m operand changes no byte but those of the
operand, at the addresses its translation gives, and the A and D bits of the page entries used; no register but the
destination, no system register, and not EIP. -/
def Obligations.FrameOperands : Prop :=
  (∀ (s s1 : State) (i : Instr) (w : Width) (m : RM) (l : Loc), s.pfx.lock = false →
    ReadsOperand s i w m → locate w .read m s.begun = .ok l s1 →
    ∃ t, exec i s = .next t ∧ BytesSame s t (markedAt s1) ∧ SystemSame s t ∧ t.eip = s.eip) ∧
  (∀ (s s1 : State) (i : Instr) (w : Width) (m : RM) (lockable : Bool) (l : Loc), s.lockOk lockable →
    WritesOperand s i w m lockable → locate w .write m s.begun = .ok l s1 →
    ∃ t, exec i s = .next t ∧ BytesSame s t (storedAt l ++ markedAt s1) ∧ SystemSame s t ∧ t.eip = s.eip ∧
      ∀ q, (∀ r, l = .reg r → q ≠ wholeReg w r) → t.regs.get q = s.regs.get q)

/-- An instruction whose r/m operand cannot be translated, for reading or for writing, raises that exception and is
undone (R181, R556, R600; log entry 12), and so does one whose far pointer or pair of bounds fails at its first or at
its second part (R287, R472, R510); the second part stands at EA + n modulo 2^32, with 16-bit addressing too, which is
the model's choice (log entry 55). A translation fails with the fault of the segment (RealOffsets, ProtectedLimits),
else with that of the first of its bytes whose page fails (PageTranslation), and leaves no mark but those of A and D
bits. What is undone has every register, flag, system register and byte of memory of the state before it, but for the
bits of the page entries marked; the TLB stays as it is, or is empty where another CR3 is taken back. -/
def Obligations.OperandFaults : Prop :=
  (∀ (s u : State) (i : Instr) (w : Width) (m : RM) (e : Exn), s.pfx.lock = false → FetchesOperand s i w m →
    locate w .read m s.begun = .error (.exc e) u → exec i s = .next (deliver e (undo s u))) ∧
  (∀ (s u : State) (i : Instr) (w : Width) (m : RM) (lockable : Bool) (e : Exn), s.lockOk lockable →
    ModifiesOperand s i w m lockable →
    locate w .write m s.begun = .error (.exc e) u → exec i s = .next (deliver e (undo s u))) ∧
  (∀ (s u : State) (i : Instr) (m : EA) (second : Width) (e : Exn), s.pfx.lock = false → PairOperand s i m second →
    let at_ := translate .read (s.pfx.seg.getD (eaSeg m));
    (at_ (eaOffset s.regs m) s.osz.width.bytes s.begun = .error (.exc e) u ∨
      ∃ v s1, MemReads s.osz.width (s.pfx.seg.getD (eaSeg m)) (eaOffset s.regs m) v s.begun s1 ∧
        at_ (eaOffset s.regs m + BitVec.ofNat 32 s.osz.width.bytes) second.bytes s1 = .error (.exc e) u) →
    exec i s = .next (deliver e (undo s u))) ∧
  (∀ (w : Width) (kind : Access) (m : EA) (s u : State) (e : Exn),
    translate kind (s.pfx.seg.getD (eaSeg m)) (eaOffset s.regs m) w.bytes s = .error (.exc e) u →
    locate w kind (.mem m) s = .error (.exc e) u) ∧
  (∀ (kind : Access) (sr : SReg) (off : Word32) (n : Nat) (s : State),
    (∀ e, linear s kind sr off n = .error e → translate kind sr off n s = .error (.exc e) s) ∧
    (∀ lin k ps u e v, linear s kind sr off n = .ok lin → k < n → pages kind (s.level == 3) lin k s = .ok ps u →
      page kind (s.level == 3) (lin + BitVec.ofNat 32 k) u = .error (.exc e) v →
      translate kind sr off n s = .error (.exc e) v) ∧
    (∀ u, (∃ ps, translate kind sr off n s = .ok ps u) ∨ (∃ x, translate kind sr off n s = .error x u) →
      ∀ c ∈ u.adMarks, c ∈ s.adMarks ∨ c.2 = 0x20 ∨ c.2 = 0x60)) ∧
  (∀ s u : State,
    let t := undo s u;
    t = { s with tlb := t.tlb, adMarks := t.adMarks, mem := t.mem } ∧
    t.tlb = (if u.cr3 = s.cr3 then u.tlb else []) ∧ t.adMarks = u.adMarks ∧
    ∀ x k, ((Memory.read t.mem x).getLsbD k = true ↔
      (Memory.read s.mem x).getLsbD k = true ∨ ∃ b, (x, b) ∈ u.adMarks ∧ b.getLsbD k = true))

/-- A push of a register, an immediate or the flags changes no byte of memory but the item's and the A and D bits of
the page entries used, and no register but (E)SP. Where the access to the stack fails, the instruction is undone and
raises its exception (R142, R556; log entry 12; OperandFaults says what undo keeps). -/
def Obligations.FramePushes : Prop :=
  ∀ (s : State) (i : Instr), s.pfx.lock = false → PlainPush s i → (s.mode ≠ .prot → topOffset s ≠ 1) →
    let access := translate .write .ss (pushOffset s s.osz.width) s.osz.width.bytes s.begun;
    (∀ ps s1, access = .ok ps s1 →
      ∃ t, exec i s = .next t ∧ BytesSame s t (ps.map (·.toNat) ++ markedAt s1) ∧ SystemSame s t ∧
        t.eip = s.eip ∧ (∀ q, q ≠ .esp → t.regs.get q = s.regs.get q) ∧ t.flags = { s.flags with rf := false }) ∧
    (∀ e u, access = .error (.exc e) u → exec i s = .next (deliver e (undo s u)))
end

