-- ==== Sys2Proof/Laws/State.lean ====
section
/-! SUPPORT. One equation per field and named update of State, and the laws of the register files. -/

namespace Sys2Proof.Machine

@[simp] theorem setReg_regs (s : State) (r : Reg) (v : Word32) : (s.setReg r v).regs = s.regs.set r v := rfl
@[simp] theorem setReg_eip (s : State) (r : Reg) (v : Word32) : (s.setReg r v).eip = s.eip := rfl
@[simp] theorem setReg_curEip (s : State) (r : Reg) (v : Word32) : (s.setReg r v).curEip = s.curEip := rfl
@[simp] theorem setReg_eipPast (s : State) (r : Reg) (v : Word32) : (s.setReg r v).eipPast = s.eipPast := rfl
@[simp] theorem setReg_flags (s : State) (r : Reg) (v : Word32) : (s.setReg r v).flags = s.flags := rfl
@[simp] theorem setReg_segs (s : State) (r : Reg) (v : Word32) : (s.setReg r v).segs = s.segs := rfl
@[simp] theorem setReg_cpl (s : State) (r : Reg) (v : Word32) : (s.setReg r v).cpl = s.cpl := rfl
@[simp] theorem setReg_cr0 (s : State) (r : Reg) (v : Word32) : (s.setReg r v).cr0 = s.cr0 := rfl
@[simp] theorem setReg_cr2 (s : State) (r : Reg) (v : Word32) : (s.setReg r v).cr2 = s.cr2 := rfl
@[simp] theorem setReg_cr3 (s : State) (r : Reg) (v : Word32) : (s.setReg r v).cr3 = s.cr3 := rfl
@[simp] theorem setReg_dr (s : State) (r : Reg) (v : Word32) : (s.setReg r v).dr = s.dr := rfl
@[simp] theorem setReg_gdtr (s : State) (r : Reg) (v : Word32) : (s.setReg r v).gdtr = s.gdtr := rfl
@[simp] theorem setReg_idtr (s : State) (r : Reg) (v : Word32) : (s.setReg r v).idtr = s.idtr := rfl
@[simp] theorem setReg_ldtr (s : State) (r : Reg) (v : Word32) : (s.setReg r v).ldtr = s.ldtr := rfl
@[simp] theorem setReg_tr (s : State) (r : Reg) (v : Word32) : (s.setReg r v).tr = s.tr := rfl
@[simp] theorem setReg_tlb (s : State) (r : Reg) (v : Word32) : (s.setReg r v).tlb = s.tlb := rfl
@[simp] theorem setReg_nmiMask (s : State) (r : Reg) (v : Word32) : (s.setReg r v).nmiMask = s.nmiMask := rfl
@[simp] theorem setReg_nmiPending (s : State) (r : Reg) (v : Word32) : (s.setReg r v).nmiPending = s.nmiPending := rfl
@[simp] theorem setReg_inhibit (s : State) (r : Reg) (v : Word32) : (s.setReg r v).inhibit = s.inhibit := rfl
@[simp] theorem setReg_halted (s : State) (r : Reg) (v : Word32) : (s.setReg r v).halted = s.halted := rfl
@[simp] theorem setReg_shutdown (s : State) (r : Reg) (v : Word32) : (s.setReg r v).shutdown = s.shutdown := rfl
@[simp] theorem setReg_dbg (s : State) (r : Reg) (v : Word32) : (s.setReg r v).dbg = s.dbg := rfl
@[simp] theorem setReg_lines (s : State) (r : Reg) (v : Word32) : (s.setReg r v).lines = s.lines := rfl
@[simp] theorem setReg_ioReads (s : State) (r : Reg) (v : Word32) : (s.setReg r v).ioReads = s.ioReads := rfl
@[simp] theorem setReg_ioOut (s : State) (r : Reg) (v : Word32) : (s.setReg r v).ioOut = s.ioOut := rfl
@[simp] theorem setReg_free (s : State) (r : Reg) (v : Word32) : (s.setReg r v).free = s.free := rfl
@[simp] theorem setReg_rfKept (s : State) (r : Reg) (v : Word32) : (s.setReg r v).rfKept = s.rfKept := rfl
@[simp] theorem setReg_pfx (s : State) (r : Reg) (v : Word32) : (s.setReg r v).pfx = s.pfx := rfl
@[simp] theorem setReg_adMarks (s : State) (r : Reg) (v : Word32) : (s.setReg r v).adMarks = s.adMarks := rfl
@[simp] theorem setReg_mem (s : State) (r : Reg) (v : Word32) : (s.setReg r v).mem = s.mem := rfl

@[simp] theorem setEip_regs (s : State) (v : Word32) : (s.setEip v).regs = s.regs := rfl
@[simp] theorem setEip_eip (s : State) (v : Word32) : (s.setEip v).eip = v := rfl
@[simp] theorem setEip_curEip (s : State) (v : Word32) : (s.setEip v).curEip = s.curEip := rfl
@[simp] theorem setEip_eipPast (s : State) (v : Word32) : (s.setEip v).eipPast = false := rfl
@[simp] theorem setEip_flags (s : State) (v : Word32) : (s.setEip v).flags = s.flags := rfl
@[simp] theorem setEip_segs (s : State) (v : Word32) : (s.setEip v).segs = s.segs := rfl
@[simp] theorem setEip_cpl (s : State) (v : Word32) : (s.setEip v).cpl = s.cpl := rfl
@[simp] theorem setEip_cr0 (s : State) (v : Word32) : (s.setEip v).cr0 = s.cr0 := rfl
@[simp] theorem setEip_cr2 (s : State) (v : Word32) : (s.setEip v).cr2 = s.cr2 := rfl
@[simp] theorem setEip_cr3 (s : State) (v : Word32) : (s.setEip v).cr3 = s.cr3 := rfl
@[simp] theorem setEip_dr (s : State) (v : Word32) : (s.setEip v).dr = s.dr := rfl
@[simp] theorem setEip_gdtr (s : State) (v : Word32) : (s.setEip v).gdtr = s.gdtr := rfl
@[simp] theorem setEip_idtr (s : State) (v : Word32) : (s.setEip v).idtr = s.idtr := rfl
@[simp] theorem setEip_ldtr (s : State) (v : Word32) : (s.setEip v).ldtr = s.ldtr := rfl
@[simp] theorem setEip_tr (s : State) (v : Word32) : (s.setEip v).tr = s.tr := rfl
@[simp] theorem setEip_tlb (s : State) (v : Word32) : (s.setEip v).tlb = s.tlb := rfl
@[simp] theorem setEip_nmiMask (s : State) (v : Word32) : (s.setEip v).nmiMask = s.nmiMask := rfl
@[simp] theorem setEip_nmiPending (s : State) (v : Word32) : (s.setEip v).nmiPending = s.nmiPending := rfl
@[simp] theorem setEip_inhibit (s : State) (v : Word32) : (s.setEip v).inhibit = s.inhibit := rfl
@[simp] theorem setEip_halted (s : State) (v : Word32) : (s.setEip v).halted = s.halted := rfl
@[simp] theorem setEip_shutdown (s : State) (v : Word32) : (s.setEip v).shutdown = s.shutdown := rfl
@[simp] theorem setEip_dbg (s : State) (v : Word32) : (s.setEip v).dbg = s.dbg := rfl
@[simp] theorem setEip_lines (s : State) (v : Word32) : (s.setEip v).lines = s.lines := rfl
@[simp] theorem setEip_ioReads (s : State) (v : Word32) : (s.setEip v).ioReads = s.ioReads := rfl
@[simp] theorem setEip_ioOut (s : State) (v : Word32) : (s.setEip v).ioOut = s.ioOut := rfl
@[simp] theorem setEip_free (s : State) (v : Word32) : (s.setEip v).free = s.free := rfl
@[simp] theorem setEip_rfKept (s : State) (v : Word32) : (s.setEip v).rfKept = s.rfKept := rfl
@[simp] theorem setEip_pfx (s : State) (v : Word32) : (s.setEip v).pfx = s.pfx := rfl
@[simp] theorem setEip_adMarks (s : State) (v : Word32) : (s.setEip v).adMarks = s.adMarks := rfl
@[simp] theorem setEip_mem (s : State) (v : Word32) : (s.setEip v).mem = s.mem := rfl

@[simp] theorem setFlags_regs (s : State) (f : Flags) : (s.setFlags f).regs = s.regs := rfl
@[simp] theorem setFlags_eip (s : State) (f : Flags) : (s.setFlags f).eip = s.eip := rfl
@[simp] theorem setFlags_curEip (s : State) (f : Flags) : (s.setFlags f).curEip = s.curEip := rfl
@[simp] theorem setFlags_eipPast (s : State) (f : Flags) : (s.setFlags f).eipPast = s.eipPast := rfl
@[simp] theorem setFlags_flags (s : State) (f : Flags) : (s.setFlags f).flags = f := rfl
@[simp] theorem setFlags_segs (s : State) (f : Flags) : (s.setFlags f).segs = s.segs := rfl
@[simp] theorem setFlags_cpl (s : State) (f : Flags) : (s.setFlags f).cpl = s.cpl := rfl
@[simp] theorem setFlags_cr0 (s : State) (f : Flags) : (s.setFlags f).cr0 = s.cr0 := rfl
@[simp] theorem setFlags_cr2 (s : State) (f : Flags) : (s.setFlags f).cr2 = s.cr2 := rfl
@[simp] theorem setFlags_cr3 (s : State) (f : Flags) : (s.setFlags f).cr3 = s.cr3 := rfl
@[simp] theorem setFlags_dr (s : State) (f : Flags) : (s.setFlags f).dr = s.dr := rfl
@[simp] theorem setFlags_gdtr (s : State) (f : Flags) : (s.setFlags f).gdtr = s.gdtr := rfl
@[simp] theorem setFlags_idtr (s : State) (f : Flags) : (s.setFlags f).idtr = s.idtr := rfl
@[simp] theorem setFlags_ldtr (s : State) (f : Flags) : (s.setFlags f).ldtr = s.ldtr := rfl
@[simp] theorem setFlags_tr (s : State) (f : Flags) : (s.setFlags f).tr = s.tr := rfl
@[simp] theorem setFlags_tlb (s : State) (f : Flags) : (s.setFlags f).tlb = s.tlb := rfl
@[simp] theorem setFlags_nmiMask (s : State) (f : Flags) : (s.setFlags f).nmiMask = s.nmiMask := rfl
@[simp] theorem setFlags_nmiPending (s : State) (f : Flags) : (s.setFlags f).nmiPending = s.nmiPending := rfl
@[simp] theorem setFlags_inhibit (s : State) (f : Flags) : (s.setFlags f).inhibit = s.inhibit := rfl
@[simp] theorem setFlags_halted (s : State) (f : Flags) : (s.setFlags f).halted = s.halted := rfl
@[simp] theorem setFlags_shutdown (s : State) (f : Flags) : (s.setFlags f).shutdown = s.shutdown := rfl
@[simp] theorem setFlags_dbg (s : State) (f : Flags) : (s.setFlags f).dbg = s.dbg := rfl
@[simp] theorem setFlags_lines (s : State) (f : Flags) : (s.setFlags f).lines = s.lines := rfl
@[simp] theorem setFlags_ioReads (s : State) (f : Flags) : (s.setFlags f).ioReads = s.ioReads := rfl
@[simp] theorem setFlags_ioOut (s : State) (f : Flags) : (s.setFlags f).ioOut = s.ioOut := rfl
@[simp] theorem setFlags_free (s : State) (f : Flags) : (s.setFlags f).free = s.free := rfl
@[simp] theorem setFlags_rfKept (s : State) (f : Flags) : (s.setFlags f).rfKept = s.rfKept := rfl
@[simp] theorem setFlags_pfx (s : State) (f : Flags) : (s.setFlags f).pfx = s.pfx := rfl
@[simp] theorem setFlags_adMarks (s : State) (f : Flags) : (s.setFlags f).adMarks = s.adMarks := rfl
@[simp] theorem setFlags_mem (s : State) (f : Flags) : (s.setFlags f).mem = s.mem := rfl

@[simp] theorem setSeg_regs (s : State) (r : SReg) (g : SegReg) : (s.setSeg r g).regs = s.regs := rfl
@[simp] theorem setSeg_eip (s : State) (r : SReg) (g : SegReg) : (s.setSeg r g).eip = s.eip := rfl
@[simp] theorem setSeg_curEip (s : State) (r : SReg) (g : SegReg) : (s.setSeg r g).curEip = s.curEip := rfl
@[simp] theorem setSeg_eipPast (s : State) (r : SReg) (g : SegReg) : (s.setSeg r g).eipPast = s.eipPast := rfl
@[simp] theorem setSeg_flags (s : State) (r : SReg) (g : SegReg) : (s.setSeg r g).flags = s.flags := rfl
@[simp] theorem setSeg_segs (s : State) (r : SReg) (g : SegReg) : (s.setSeg r g).segs = s.segs.set r g := rfl
@[simp] theorem setSeg_cpl (s : State) (r : SReg) (g : SegReg) : (s.setSeg r g).cpl = s.cpl := rfl
@[simp] theorem setSeg_cr0 (s : State) (r : SReg) (g : SegReg) : (s.setSeg r g).cr0 = s.cr0 := rfl
@[simp] theorem setSeg_cr2 (s : State) (r : SReg) (g : SegReg) : (s.setSeg r g).cr2 = s.cr2 := rfl
@[simp] theorem setSeg_cr3 (s : State) (r : SReg) (g : SegReg) : (s.setSeg r g).cr3 = s.cr3 := rfl
@[simp] theorem setSeg_dr (s : State) (r : SReg) (g : SegReg) : (s.setSeg r g).dr = s.dr := rfl
@[simp] theorem setSeg_gdtr (s : State) (r : SReg) (g : SegReg) : (s.setSeg r g).gdtr = s.gdtr := rfl
@[simp] theorem setSeg_idtr (s : State) (r : SReg) (g : SegReg) : (s.setSeg r g).idtr = s.idtr := rfl
@[simp] theorem setSeg_ldtr (s : State) (r : SReg) (g : SegReg) : (s.setSeg r g).ldtr = s.ldtr := rfl
@[simp] theorem setSeg_tr (s : State) (r : SReg) (g : SegReg) : (s.setSeg r g).tr = s.tr := rfl
@[simp] theorem setSeg_tlb (s : State) (r : SReg) (g : SegReg) : (s.setSeg r g).tlb = s.tlb := rfl
@[simp] theorem setSeg_nmiMask (s : State) (r : SReg) (g : SegReg) : (s.setSeg r g).nmiMask = s.nmiMask := rfl
@[simp] theorem setSeg_nmiPending (s : State) (r : SReg) (g : SegReg) : (s.setSeg r g).nmiPending = s.nmiPending := rfl
@[simp] theorem setSeg_inhibit (s : State) (r : SReg) (g : SegReg) : (s.setSeg r g).inhibit = s.inhibit := rfl
@[simp] theorem setSeg_halted (s : State) (r : SReg) (g : SegReg) : (s.setSeg r g).halted = s.halted := rfl
@[simp] theorem setSeg_shutdown (s : State) (r : SReg) (g : SegReg) : (s.setSeg r g).shutdown = s.shutdown := rfl
@[simp] theorem setSeg_dbg (s : State) (r : SReg) (g : SegReg) : (s.setSeg r g).dbg = s.dbg := rfl
@[simp] theorem setSeg_lines (s : State) (r : SReg) (g : SegReg) : (s.setSeg r g).lines = s.lines := rfl
@[simp] theorem setSeg_ioReads (s : State) (r : SReg) (g : SegReg) : (s.setSeg r g).ioReads = s.ioReads := rfl
@[simp] theorem setSeg_ioOut (s : State) (r : SReg) (g : SegReg) : (s.setSeg r g).ioOut = s.ioOut := rfl
@[simp] theorem setSeg_free (s : State) (r : SReg) (g : SegReg) : (s.setSeg r g).free = s.free := rfl
@[simp] theorem setSeg_rfKept (s : State) (r : SReg) (g : SegReg) : (s.setSeg r g).rfKept = s.rfKept := rfl
@[simp] theorem setSeg_pfx (s : State) (r : SReg) (g : SegReg) : (s.setSeg r g).pfx = s.pfx := rfl
@[simp] theorem setSeg_adMarks (s : State) (r : SReg) (g : SegReg) : (s.setSeg r g).adMarks = s.adMarks := rfl
@[simp] theorem setSeg_mem (s : State) (r : SReg) (g : SegReg) : (s.setSeg r g).mem = s.mem := rfl

@[simp] theorem setMem_regs (s : State) (m : List Host.Cell) : (s.setMem m).regs = s.regs := rfl
@[simp] theorem setMem_eip (s : State) (m : List Host.Cell) : (s.setMem m).eip = s.eip := rfl
@[simp] theorem setMem_curEip (s : State) (m : List Host.Cell) : (s.setMem m).curEip = s.curEip := rfl
@[simp] theorem setMem_eipPast (s : State) (m : List Host.Cell) : (s.setMem m).eipPast = s.eipPast := rfl
@[simp] theorem setMem_flags (s : State) (m : List Host.Cell) : (s.setMem m).flags = s.flags := rfl
@[simp] theorem setMem_segs (s : State) (m : List Host.Cell) : (s.setMem m).segs = s.segs := rfl
@[simp] theorem setMem_cpl (s : State) (m : List Host.Cell) : (s.setMem m).cpl = s.cpl := rfl
@[simp] theorem setMem_cr0 (s : State) (m : List Host.Cell) : (s.setMem m).cr0 = s.cr0 := rfl
@[simp] theorem setMem_cr2 (s : State) (m : List Host.Cell) : (s.setMem m).cr2 = s.cr2 := rfl
@[simp] theorem setMem_cr3 (s : State) (m : List Host.Cell) : (s.setMem m).cr3 = s.cr3 := rfl
@[simp] theorem setMem_dr (s : State) (m : List Host.Cell) : (s.setMem m).dr = s.dr := rfl
@[simp] theorem setMem_gdtr (s : State) (m : List Host.Cell) : (s.setMem m).gdtr = s.gdtr := rfl
@[simp] theorem setMem_idtr (s : State) (m : List Host.Cell) : (s.setMem m).idtr = s.idtr := rfl
@[simp] theorem setMem_ldtr (s : State) (m : List Host.Cell) : (s.setMem m).ldtr = s.ldtr := rfl
@[simp] theorem setMem_tr (s : State) (m : List Host.Cell) : (s.setMem m).tr = s.tr := rfl
@[simp] theorem setMem_tlb (s : State) (m : List Host.Cell) : (s.setMem m).tlb = s.tlb := rfl
@[simp] theorem setMem_nmiMask (s : State) (m : List Host.Cell) : (s.setMem m).nmiMask = s.nmiMask := rfl
@[simp] theorem setMem_nmiPending (s : State) (m : List Host.Cell) : (s.setMem m).nmiPending = s.nmiPending := rfl
@[simp] theorem setMem_inhibit (s : State) (m : List Host.Cell) : (s.setMem m).inhibit = s.inhibit := rfl
@[simp] theorem setMem_halted (s : State) (m : List Host.Cell) : (s.setMem m).halted = s.halted := rfl
@[simp] theorem setMem_shutdown (s : State) (m : List Host.Cell) : (s.setMem m).shutdown = s.shutdown := rfl
@[simp] theorem setMem_dbg (s : State) (m : List Host.Cell) : (s.setMem m).dbg = s.dbg := rfl
@[simp] theorem setMem_lines (s : State) (m : List Host.Cell) : (s.setMem m).lines = s.lines := rfl
@[simp] theorem setMem_ioReads (s : State) (m : List Host.Cell) : (s.setMem m).ioReads = s.ioReads := rfl
@[simp] theorem setMem_ioOut (s : State) (m : List Host.Cell) : (s.setMem m).ioOut = s.ioOut := rfl
@[simp] theorem setMem_free (s : State) (m : List Host.Cell) : (s.setMem m).free = s.free := rfl
@[simp] theorem setMem_rfKept (s : State) (m : List Host.Cell) : (s.setMem m).rfKept = s.rfKept := rfl
@[simp] theorem setMem_pfx (s : State) (m : List Host.Cell) : (s.setMem m).pfx = s.pfx := rfl
@[simp] theorem setMem_adMarks (s : State) (m : List Host.Cell) : (s.setMem m).adMarks = s.adMarks := rfl
@[simp] theorem setMem_mem (s : State) (m : List Host.Cell) : (s.setMem m).mem = m := rfl

@[simp] theorem settled_regs (s : State) : s.settled.regs = s.regs := rfl
@[simp] theorem settled_eip (s : State) : s.settled.eip = s.eip := rfl
@[simp] theorem settled_curEip (s : State) : s.settled.curEip = s.curEip := rfl
@[simp] theorem settled_eipPast (s : State) : s.settled.eipPast = s.eipPast := rfl
@[simp] theorem settled_flags (s : State) : s.settled.flags = s.flags := rfl
@[simp] theorem settled_segs (s : State) : s.settled.segs = s.segs := rfl
@[simp] theorem settled_cpl (s : State) : s.settled.cpl = s.cpl := rfl
@[simp] theorem settled_cr0 (s : State) : s.settled.cr0 = s.cr0 := rfl
@[simp] theorem settled_cr2 (s : State) : s.settled.cr2 = s.cr2 := rfl
@[simp] theorem settled_cr3 (s : State) : s.settled.cr3 = s.cr3 := rfl
@[simp] theorem settled_dr (s : State) : s.settled.dr = s.dr := rfl
@[simp] theorem settled_gdtr (s : State) : s.settled.gdtr = s.gdtr := rfl
@[simp] theorem settled_idtr (s : State) : s.settled.idtr = s.idtr := rfl
@[simp] theorem settled_ldtr (s : State) : s.settled.ldtr = s.ldtr := rfl
@[simp] theorem settled_tr (s : State) : s.settled.tr = s.tr := rfl
@[simp] theorem settled_tlb (s : State) : s.settled.tlb = s.tlb := rfl
@[simp] theorem settled_nmiMask (s : State) : s.settled.nmiMask = s.nmiMask := rfl
@[simp] theorem settled_nmiPending (s : State) : s.settled.nmiPending = s.nmiPending := rfl
@[simp] theorem settled_inhibit (s : State) : s.settled.inhibit = s.inhibit := rfl
@[simp] theorem settled_halted (s : State) : s.settled.halted = s.halted := rfl
@[simp] theorem settled_shutdown (s : State) : s.settled.shutdown = s.shutdown := rfl
@[simp] theorem settled_dbg (s : State) : s.settled.dbg = s.dbg := rfl
@[simp] theorem settled_lines (s : State) : s.settled.lines = s.lines := rfl
@[simp] theorem settled_ioReads (s : State) : s.settled.ioReads = s.ioReads := rfl
@[simp] theorem settled_ioOut (s : State) : s.settled.ioOut = s.ioOut := rfl
@[simp] theorem settled_free (s : State) : s.settled.free = s.free := rfl
@[simp] theorem settled_rfKept (s : State) : s.settled.rfKept = false := rfl
@[simp] theorem settled_pfx (s : State) : s.settled.pfx = Pfx.none := rfl
@[simp] theorem settled_adMarks (s : State) : s.settled.adMarks = [] := rfl
@[simp] theorem settled_mem (s : State) : s.settled.mem = s.mem := rfl

@[simp] theorem finished_regs (s t : State) : (finished s t).regs = t.regs := rfl
@[simp] theorem finished_eip (s t : State) : (finished s t).eip = t.eip := rfl
@[simp] theorem finished_curEip (s t : State) : (finished s t).curEip = t.curEip := rfl
@[simp] theorem finished_eipPast (s t : State) : (finished s t).eipPast = t.eipPast := rfl
@[simp] theorem finished_flags (s t : State) : (finished s t).flags = { t.flags with rf := t.rfKept && t.flags.rf } := rfl
@[simp] theorem finished_segs (s t : State) : (finished s t).segs = t.segs := rfl
@[simp] theorem finished_cpl (s t : State) : (finished s t).cpl = t.cpl := rfl
@[simp] theorem finished_cr0 (s t : State) : (finished s t).cr0 = t.cr0 := rfl
@[simp] theorem finished_cr2 (s t : State) : (finished s t).cr2 = t.cr2 := rfl
@[simp] theorem finished_cr3 (s t : State) : (finished s t).cr3 = t.cr3 := rfl
@[simp] theorem finished_dr (s t : State) : (finished s t).dr = t.dr := rfl
@[simp] theorem finished_gdtr (s t : State) : (finished s t).gdtr = t.gdtr := rfl
@[simp] theorem finished_idtr (s t : State) : (finished s t).idtr = t.idtr := rfl
@[simp] theorem finished_ldtr (s t : State) : (finished s t).ldtr = t.ldtr := rfl
@[simp] theorem finished_tr (s t : State) : (finished s t).tr = t.tr := rfl
@[simp] theorem finished_tlb (s t : State) : (finished s t).tlb = t.tlb := rfl
@[simp] theorem finished_nmiMask (s t : State) : (finished s t).nmiMask = t.nmiMask := rfl
@[simp] theorem finished_nmiPending (s t : State) : (finished s t).nmiPending = t.nmiPending := rfl
@[simp] theorem finished_inhibit (s t : State) : (finished s t).inhibit = t.inhibit := rfl
@[simp] theorem finished_halted (s t : State) : (finished s t).halted = t.halted := rfl
@[simp] theorem finished_shutdown (s t : State) : (finished s t).shutdown = t.shutdown := rfl
@[simp] theorem finished_dbg (s t : State) : (finished s t).dbg = { t.dbg with bs := t.dbg.bs || s.flags.tf } := rfl
@[simp] theorem finished_lines (s t : State) : (finished s t).lines = t.lines := rfl
@[simp] theorem finished_ioReads (s t : State) : (finished s t).ioReads = t.ioReads := rfl
@[simp] theorem finished_ioOut (s t : State) : (finished s t).ioOut = t.ioOut := rfl
@[simp] theorem finished_free (s t : State) : (finished s t).free = t.free := rfl
@[simp] theorem finished_rfKept (s t : State) : (finished s t).rfKept = false := rfl
@[simp] theorem finished_pfx (s t : State) : (finished s t).pfx = Pfx.none := rfl
@[simp] theorem finished_adMarks (s t : State) : (finished s t).adMarks = [] := rfl
@[simp] theorem finished_mem (s t : State) : (finished s t).mem = t.mem := rfl

@[simp] theorem begun_regs (s : State) : s.begun.regs = s.regs := rfl
@[simp] theorem begun_eip (s : State) : s.begun.eip = s.eip := rfl
@[simp] theorem begun_curEip (s : State) : s.begun.curEip = s.curEip := rfl
@[simp] theorem begun_eipPast (s : State) : s.begun.eipPast = s.eipPast := rfl
@[simp] theorem begun_flags (s : State) : s.begun.flags = s.flags := rfl
@[simp] theorem begun_segs (s : State) : s.begun.segs = s.segs := rfl
@[simp] theorem begun_cpl (s : State) : s.begun.cpl = s.cpl := rfl
@[simp] theorem begun_cr0 (s : State) : s.begun.cr0 = s.cr0 := rfl
@[simp] theorem begun_cr2 (s : State) : s.begun.cr2 = s.cr2 := rfl
@[simp] theorem begun_cr3 (s : State) : s.begun.cr3 = s.cr3 := rfl
@[simp] theorem begun_dr (s : State) : s.begun.dr = s.dr := rfl
@[simp] theorem begun_gdtr (s : State) : s.begun.gdtr = s.gdtr := rfl
@[simp] theorem begun_idtr (s : State) : s.begun.idtr = s.idtr := rfl
@[simp] theorem begun_ldtr (s : State) : s.begun.ldtr = s.ldtr := rfl
@[simp] theorem begun_tr (s : State) : s.begun.tr = s.tr := rfl
@[simp] theorem begun_tlb (s : State) : s.begun.tlb = s.tlb := rfl
@[simp] theorem begun_nmiMask (s : State) : s.begun.nmiMask = s.nmiMask := rfl
@[simp] theorem begun_nmiPending (s : State) : s.begun.nmiPending = s.nmiPending := rfl
@[simp] theorem begun_inhibit (s : State) : s.begun.inhibit = s.inhibit := rfl
@[simp] theorem begun_halted (s : State) : s.begun.halted = s.halted := rfl
@[simp] theorem begun_shutdown (s : State) : s.begun.shutdown = s.shutdown := rfl
@[simp] theorem begun_dbg (s : State) : s.begun.dbg = s.dbg := rfl
@[simp] theorem begun_lines (s : State) : s.begun.lines = s.lines := rfl
@[simp] theorem begun_ioReads (s : State) : s.begun.ioReads = s.ioReads := rfl
@[simp] theorem begun_ioOut (s : State) : s.begun.ioOut = s.ioOut := rfl
@[simp] theorem begun_free (s : State) : s.begun.free = s.free := rfl
@[simp] theorem begun_rfKept (s : State) : s.begun.rfKept = false := rfl
@[simp] theorem begun_pfx (s : State) : s.begun.pfx = s.pfx := rfl
@[simp] theorem begun_adMarks (s : State) : s.begun.adMarks = s.adMarks := rfl
@[simp] theorem begun_mem (s : State) : s.begun.mem = s.mem := rfl

@[simp] theorem stepOver_regs (s : State) (n : Nat) : (s.stepOver n).regs = s.regs := rfl
@[simp] theorem stepOver_eip (s : State) (n : Nat) : (s.stepOver n).eip = s.eip + BitVec.ofNat 32 n := rfl
@[simp] theorem stepOver_curEip (s : State) (n : Nat) : (s.stepOver n).curEip = s.curEip := rfl
@[simp] theorem stepOver_eipPast (s : State) (n : Nat) :
    (s.stepOver n).eipPast = decide (2 ^ 32 ≤ s.eip.toNat + n) := rfl
@[simp] theorem stepOver_flags (s : State) (n : Nat) : (s.stepOver n).flags = s.flags := rfl
@[simp] theorem stepOver_segs (s : State) (n : Nat) : (s.stepOver n).segs = s.segs := rfl
@[simp] theorem stepOver_cpl (s : State) (n : Nat) : (s.stepOver n).cpl = s.cpl := rfl
@[simp] theorem stepOver_cr0 (s : State) (n : Nat) : (s.stepOver n).cr0 = s.cr0 := rfl
@[simp] theorem stepOver_cr2 (s : State) (n : Nat) : (s.stepOver n).cr2 = s.cr2 := rfl
@[simp] theorem stepOver_cr3 (s : State) (n : Nat) : (s.stepOver n).cr3 = s.cr3 := rfl
@[simp] theorem stepOver_dr (s : State) (n : Nat) : (s.stepOver n).dr = s.dr := rfl
@[simp] theorem stepOver_gdtr (s : State) (n : Nat) : (s.stepOver n).gdtr = s.gdtr := rfl
@[simp] theorem stepOver_idtr (s : State) (n : Nat) : (s.stepOver n).idtr = s.idtr := rfl
@[simp] theorem stepOver_ldtr (s : State) (n : Nat) : (s.stepOver n).ldtr = s.ldtr := rfl
@[simp] theorem stepOver_tr (s : State) (n : Nat) : (s.stepOver n).tr = s.tr := rfl
@[simp] theorem stepOver_tlb (s : State) (n : Nat) : (s.stepOver n).tlb = s.tlb := rfl
@[simp] theorem stepOver_nmiMask (s : State) (n : Nat) : (s.stepOver n).nmiMask = s.nmiMask := rfl
@[simp] theorem stepOver_nmiPending (s : State) (n : Nat) : (s.stepOver n).nmiPending = s.nmiPending := rfl
@[simp] theorem stepOver_inhibit (s : State) (n : Nat) : (s.stepOver n).inhibit = s.inhibit := rfl
@[simp] theorem stepOver_halted (s : State) (n : Nat) : (s.stepOver n).halted = s.halted := rfl
@[simp] theorem stepOver_shutdown (s : State) (n : Nat) : (s.stepOver n).shutdown = s.shutdown := rfl
@[simp] theorem stepOver_dbg (s : State) (n : Nat) : (s.stepOver n).dbg = s.dbg := rfl
@[simp] theorem stepOver_lines (s : State) (n : Nat) : (s.stepOver n).lines = s.lines := rfl
@[simp] theorem stepOver_ioReads (s : State) (n : Nat) : (s.stepOver n).ioReads = s.ioReads := rfl
@[simp] theorem stepOver_ioOut (s : State) (n : Nat) : (s.stepOver n).ioOut = s.ioOut := rfl
@[simp] theorem stepOver_free (s : State) (n : Nat) : (s.stepOver n).free = s.free := rfl
@[simp] theorem stepOver_rfKept (s : State) (n : Nat) : (s.stepOver n).rfKept = s.rfKept := rfl
@[simp] theorem stepOver_pfx (s : State) (n : Nat) : (s.stepOver n).pfx = s.pfx := rfl
@[simp] theorem stepOver_adMarks (s : State) (n : Nat) : (s.stepOver n).adMarks = s.adMarks := rfl
@[simp] theorem stepOver_mem (s : State) (n : Nat) : (s.stepOver n).mem = s.mem := rfl

@[simp] theorem withCr3_regs (s : State) (v : Word32) : (s.withCr3 v).regs = s.regs := rfl
@[simp] theorem withCr3_eip (s : State) (v : Word32) : (s.withCr3 v).eip = s.eip := rfl
@[simp] theorem withCr3_curEip (s : State) (v : Word32) : (s.withCr3 v).curEip = s.curEip := rfl
@[simp] theorem withCr3_eipPast (s : State) (v : Word32) : (s.withCr3 v).eipPast = s.eipPast := rfl
@[simp] theorem withCr3_flags (s : State) (v : Word32) : (s.withCr3 v).flags = s.flags := rfl
@[simp] theorem withCr3_segs (s : State) (v : Word32) : (s.withCr3 v).segs = s.segs := rfl
@[simp] theorem withCr3_cpl (s : State) (v : Word32) : (s.withCr3 v).cpl = s.cpl := rfl
@[simp] theorem withCr3_cr0 (s : State) (v : Word32) : (s.withCr3 v).cr0 = s.cr0 := rfl
@[simp] theorem withCr3_cr2 (s : State) (v : Word32) : (s.withCr3 v).cr2 = s.cr2 := rfl
@[simp] theorem withCr3_cr3 (s : State) (v : Word32) : (s.withCr3 v).cr3 = v &&& 0xFFFFF000 := rfl
@[simp] theorem withCr3_dr (s : State) (v : Word32) : (s.withCr3 v).dr = s.dr := rfl
@[simp] theorem withCr3_gdtr (s : State) (v : Word32) : (s.withCr3 v).gdtr = s.gdtr := rfl
@[simp] theorem withCr3_idtr (s : State) (v : Word32) : (s.withCr3 v).idtr = s.idtr := rfl
@[simp] theorem withCr3_ldtr (s : State) (v : Word32) : (s.withCr3 v).ldtr = s.ldtr := rfl
@[simp] theorem withCr3_tr (s : State) (v : Word32) : (s.withCr3 v).tr = s.tr := rfl
@[simp] theorem withCr3_tlb (s : State) (v : Word32) : (s.withCr3 v).tlb = [] := rfl
@[simp] theorem withCr3_nmiMask (s : State) (v : Word32) : (s.withCr3 v).nmiMask = s.nmiMask := rfl
@[simp] theorem withCr3_nmiPending (s : State) (v : Word32) : (s.withCr3 v).nmiPending = s.nmiPending := rfl
@[simp] theorem withCr3_inhibit (s : State) (v : Word32) : (s.withCr3 v).inhibit = s.inhibit := rfl
@[simp] theorem withCr3_halted (s : State) (v : Word32) : (s.withCr3 v).halted = s.halted := rfl
@[simp] theorem withCr3_shutdown (s : State) (v : Word32) : (s.withCr3 v).shutdown = s.shutdown := rfl
@[simp] theorem withCr3_dbg (s : State) (v : Word32) : (s.withCr3 v).dbg = s.dbg := rfl
@[simp] theorem withCr3_lines (s : State) (v : Word32) : (s.withCr3 v).lines = s.lines := rfl
@[simp] theorem withCr3_ioReads (s : State) (v : Word32) : (s.withCr3 v).ioReads = s.ioReads := rfl
@[simp] theorem withCr3_ioOut (s : State) (v : Word32) : (s.withCr3 v).ioOut = s.ioOut := rfl
@[simp] theorem withCr3_free (s : State) (v : Word32) : (s.withCr3 v).free = s.free := rfl
@[simp] theorem withCr3_rfKept (s : State) (v : Word32) : (s.withCr3 v).rfKept = s.rfKept := rfl
@[simp] theorem withCr3_pfx (s : State) (v : Word32) : (s.withCr3 v).pfx = s.pfx := rfl
@[simp] theorem withCr3_adMarks (s : State) (v : Word32) : (s.withCr3 v).adMarks = s.adMarks := rfl
@[simp] theorem withCr3_mem (s : State) (v : Word32) : (s.withCr3 v).mem = s.mem := rfl

@[simp] theorem enterTss_regs (s : State) (c : Word16) (d : Desc) : (s.enterTss c d).regs = s.regs := rfl
@[simp] theorem enterTss_eip (s : State) (c : Word16) (d : Desc) : (s.enterTss c d).eip = s.eip := rfl
@[simp] theorem enterTss_curEip (s : State) (c : Word16) (d : Desc) : (s.enterTss c d).curEip = s.curEip := rfl
@[simp] theorem enterTss_eipPast (s : State) (c : Word16) (d : Desc) : (s.enterTss c d).eipPast = s.eipPast := rfl
@[simp] theorem enterTss_flags (s : State) (c : Word16) (d : Desc) : (s.enterTss c d).flags = s.flags := rfl
@[simp] theorem enterTss_segs (s : State) (c : Word16) (d : Desc) : (s.enterTss c d).segs = s.segs := rfl
@[simp] theorem enterTss_cpl (s : State) (c : Word16) (d : Desc) : (s.enterTss c d).cpl = s.cpl := rfl
@[simp] theorem enterTss_cr0 (s : State) (c : Word16) (d : Desc) : (s.enterTss c d).cr0 = s.cr0 ||| 8 := rfl
@[simp] theorem enterTss_cr2 (s : State) (c : Word16) (d : Desc) : (s.enterTss c d).cr2 = s.cr2 := rfl
@[simp] theorem enterTss_cr3 (s : State) (c : Word16) (d : Desc) : (s.enterTss c d).cr3 = s.cr3 := rfl
@[simp] theorem enterTss_dr (s : State) (c : Word16) (d : Desc) : (s.enterTss c d).dr = s.dr := rfl
@[simp] theorem enterTss_gdtr (s : State) (c : Word16) (d : Desc) : (s.enterTss c d).gdtr = s.gdtr := rfl
@[simp] theorem enterTss_idtr (s : State) (c : Word16) (d : Desc) : (s.enterTss c d).idtr = s.idtr := rfl
@[simp] theorem enterTss_ldtr (s : State) (c : Word16) (d : Desc) : (s.enterTss c d).ldtr = s.ldtr := rfl
@[simp] theorem enterTss_tr (s : State) (c : Word16) (d : Desc) :
    (s.enterTss c d).tr = ⟨c, d.base, d.limit, true⟩ := rfl
@[simp] theorem enterTss_tlb (s : State) (c : Word16) (d : Desc) : (s.enterTss c d).tlb = s.tlb := rfl
@[simp] theorem enterTss_nmiMask (s : State) (c : Word16) (d : Desc) : (s.enterTss c d).nmiMask = s.nmiMask := rfl
@[simp] theorem enterTss_nmiPending (s : State) (c : Word16) (d : Desc) :
    (s.enterTss c d).nmiPending = s.nmiPending := rfl
@[simp] theorem enterTss_inhibit (s : State) (c : Word16) (d : Desc) : (s.enterTss c d).inhibit = s.inhibit := rfl
@[simp] theorem enterTss_halted (s : State) (c : Word16) (d : Desc) : (s.enterTss c d).halted = s.halted := rfl
@[simp] theorem enterTss_shutdown (s : State) (c : Word16) (d : Desc) : (s.enterTss c d).shutdown = s.shutdown := rfl
@[simp] theorem enterTss_dbg (s : State) (c : Word16) (d : Desc) : (s.enterTss c d).dbg = s.dbg := rfl
@[simp] theorem enterTss_lines (s : State) (c : Word16) (d : Desc) : (s.enterTss c d).lines = s.lines := rfl
@[simp] theorem enterTss_ioReads (s : State) (c : Word16) (d : Desc) : (s.enterTss c d).ioReads = s.ioReads := rfl
@[simp] theorem enterTss_ioOut (s : State) (c : Word16) (d : Desc) : (s.enterTss c d).ioOut = s.ioOut := rfl
@[simp] theorem enterTss_free (s : State) (c : Word16) (d : Desc) : (s.enterTss c d).free = s.free := rfl
@[simp] theorem enterTss_rfKept (s : State) (c : Word16) (d : Desc) : (s.enterTss c d).rfKept = s.rfKept := rfl
@[simp] theorem enterTss_pfx (s : State) (c : Word16) (d : Desc) : (s.enterTss c d).pfx = s.pfx := rfl
@[simp] theorem enterTss_adMarks (s : State) (c : Word16) (d : Desc) : (s.enterTss c d).adMarks = s.adMarks := rfl
@[simp] theorem enterTss_mem (s : State) (c : Word16) (d : Desc) : (s.enterTss c d).mem = s.mem := rfl

@[simp] theorem onInnerStack_regs (s : State) (l : BitVec 2) (k : InnerStack) :
    (s.onInnerStack l k).regs = s.regs.set .esp k.esp := rfl
@[simp] theorem onInnerStack_eip (s : State) (l : BitVec 2) (k : InnerStack) : (s.onInnerStack l k).eip = s.eip := rfl
@[simp] theorem onInnerStack_curEip (s : State) (l : BitVec 2) (k : InnerStack) :
    (s.onInnerStack l k).curEip = s.curEip := rfl
@[simp] theorem onInnerStack_eipPast (s : State) (l : BitVec 2) (k : InnerStack) :
    (s.onInnerStack l k).eipPast = s.eipPast := rfl
@[simp] theorem onInnerStack_flags (s : State) (l : BitVec 2) (k : InnerStack) :
    (s.onInnerStack l k).flags = s.flags := rfl
@[simp] theorem onInnerStack_segs (s : State) (l : BitVec 2) (k : InnerStack) :
    (s.onInnerStack l k).segs = s.segs.set .ss (k.desc.toSeg k.sel) := rfl
@[simp] theorem onInnerStack_cpl (s : State) (l : BitVec 2) (k : InnerStack) : (s.onInnerStack l k).cpl = l := rfl
@[simp] theorem onInnerStack_cr0 (s : State) (l : BitVec 2) (k : InnerStack) : (s.onInnerStack l k).cr0 = s.cr0 := rfl
@[simp] theorem onInnerStack_cr2 (s : State) (l : BitVec 2) (k : InnerStack) : (s.onInnerStack l k).cr2 = s.cr2 := rfl
@[simp] theorem onInnerStack_cr3 (s : State) (l : BitVec 2) (k : InnerStack) : (s.onInnerStack l k).cr3 = s.cr3 := rfl
@[simp] theorem onInnerStack_dr (s : State) (l : BitVec 2) (k : InnerStack) : (s.onInnerStack l k).dr = s.dr := rfl
@[simp] theorem onInnerStack_gdtr (s : State) (l : BitVec 2) (k : InnerStack) :
    (s.onInnerStack l k).gdtr = s.gdtr := rfl
@[simp] theorem onInnerStack_idtr (s : State) (l : BitVec 2) (k : InnerStack) :
    (s.onInnerStack l k).idtr = s.idtr := rfl
@[simp] theorem onInnerStack_ldtr (s : State) (l : BitVec 2) (k : InnerStack) :
    (s.onInnerStack l k).ldtr = s.ldtr := rfl
@[simp] theorem onInnerStack_tr (s : State) (l : BitVec 2) (k : InnerStack) : (s.onInnerStack l k).tr = s.tr := rfl
@[simp] theorem onInnerStack_tlb (s : State) (l : BitVec 2) (k : InnerStack) : (s.onInnerStack l k).tlb = s.tlb := rfl
@[simp] theorem onInnerStack_nmiMask (s : State) (l : BitVec 2) (k : InnerStack) :
    (s.onInnerStack l k).nmiMask = s.nmiMask := rfl
@[simp] theorem onInnerStack_nmiPending (s : State) (l : BitVec 2) (k : InnerStack) :
    (s.onInnerStack l k).nmiPending = s.nmiPending := rfl
@[simp] theorem onInnerStack_inhibit (s : State) (l : BitVec 2) (k : InnerStack) :
    (s.onInnerStack l k).inhibit = s.inhibit := rfl
@[simp] theorem onInnerStack_halted (s : State) (l : BitVec 2) (k : InnerStack) :
    (s.onInnerStack l k).halted = s.halted := rfl
@[simp] theorem onInnerStack_shutdown (s : State) (l : BitVec 2) (k : InnerStack) :
    (s.onInnerStack l k).shutdown = s.shutdown := rfl
@[simp] theorem onInnerStack_dbg (s : State) (l : BitVec 2) (k : InnerStack) : (s.onInnerStack l k).dbg = s.dbg := rfl
@[simp] theorem onInnerStack_lines (s : State) (l : BitVec 2) (k : InnerStack) :
    (s.onInnerStack l k).lines = s.lines := rfl
@[simp] theorem onInnerStack_ioReads (s : State) (l : BitVec 2) (k : InnerStack) :
    (s.onInnerStack l k).ioReads = s.ioReads := rfl
@[simp] theorem onInnerStack_ioOut (s : State) (l : BitVec 2) (k : InnerStack) :
    (s.onInnerStack l k).ioOut = s.ioOut := rfl
@[simp] theorem onInnerStack_free (s : State) (l : BitVec 2) (k : InnerStack) :
    (s.onInnerStack l k).free = s.free := rfl
@[simp] theorem onInnerStack_rfKept (s : State) (l : BitVec 2) (k : InnerStack) :
    (s.onInnerStack l k).rfKept = s.rfKept := rfl
@[simp] theorem onInnerStack_pfx (s : State) (l : BitVec 2) (k : InnerStack) : (s.onInnerStack l k).pfx = s.pfx := rfl
@[simp] theorem onInnerStack_adMarks (s : State) (l : BitVec 2) (k : InnerStack) :
    (s.onInnerStack l k).adMarks = s.adMarks := rfl
@[simp] theorem onInnerStack_mem (s : State) (l : BitVec 2) (k : InnerStack) : (s.onInnerStack l k).mem = s.mem := rfl

@[simp] theorem enterTask_regs (s : State) (t : TssImage) (n : Bool) : (s.enterTask t n).regs = t.regs := rfl
@[simp] theorem enterTask_eip (s : State) (t : TssImage) (n : Bool) : (s.enterTask t n).eip = t.eip := rfl
@[simp] theorem enterTask_curEip (s : State) (t : TssImage) (n : Bool) : (s.enterTask t n).curEip = t.eip := rfl
@[simp] theorem enterTask_eipPast (s : State) (t : TssImage) (n : Bool) : (s.enterTask t n).eipPast = false := rfl
@[simp] theorem enterTask_flags (s : State) (t : TssImage) (n : Bool) :
    (s.enterTask t n).flags = { Flags.ofImage t.eflags with nt := (Flags.ofImage t.eflags).nt || n } := rfl
@[simp] theorem enterTask_segs (s : State) (t : TssImage) (n : Bool) :
    (s.enterTask t n).segs = SegRegs.ofTss s.segs t := rfl
@[simp] theorem enterTask_cpl (s : State) (t : TssImage) (n : Bool) :
    (s.enterTask t n).cpl = (if (Flags.ofImage t.eflags).vm then 3 else selRpl t.cs) := rfl
@[simp] theorem enterTask_cr0 (s : State) (t : TssImage) (n : Bool) : (s.enterTask t n).cr0 = s.cr0 := rfl
@[simp] theorem enterTask_cr2 (s : State) (t : TssImage) (n : Bool) : (s.enterTask t n).cr2 = s.cr2 := rfl
@[simp] theorem enterTask_cr3 (s : State) (t : TssImage) (n : Bool) : (s.enterTask t n).cr3 = s.cr3 := rfl
@[simp] theorem enterTask_dr (s : State) (t : TssImage) (n : Bool) :
    (s.enterTask t n).dr = { s.dr with dr7 := dr7AfterSwitch s.dr.dr7 } := rfl
@[simp] theorem enterTask_gdtr (s : State) (t : TssImage) (n : Bool) : (s.enterTask t n).gdtr = s.gdtr := rfl
@[simp] theorem enterTask_idtr (s : State) (t : TssImage) (n : Bool) : (s.enterTask t n).idtr = s.idtr := rfl
@[simp] theorem enterTask_ldtr (s : State) (t : TssImage) (n : Bool) :
    (s.enterTask t n).ldtr = ⟨t.ldt, 0, 0, false⟩ := rfl
@[simp] theorem enterTask_tr (s : State) (t : TssImage) (n : Bool) : (s.enterTask t n).tr = s.tr := rfl
@[simp] theorem enterTask_tlb (s : State) (t : TssImage) (n : Bool) : (s.enterTask t n).tlb = s.tlb := rfl
@[simp] theorem enterTask_nmiMask (s : State) (t : TssImage) (n : Bool) : (s.enterTask t n).nmiMask = s.nmiMask := rfl
@[simp] theorem enterTask_nmiPending (s : State) (t : TssImage) (n : Bool) :
    (s.enterTask t n).nmiPending = s.nmiPending := rfl
@[simp] theorem enterTask_inhibit (s : State) (t : TssImage) (n : Bool) : (s.enterTask t n).inhibit = s.inhibit := rfl
@[simp] theorem enterTask_halted (s : State) (t : TssImage) (n : Bool) : (s.enterTask t n).halted = s.halted := rfl
@[simp] theorem enterTask_shutdown (s : State) (t : TssImage) (n : Bool) :
    (s.enterTask t n).shutdown = s.shutdown := rfl
@[simp] theorem enterTask_dbg (s : State) (t : TssImage) (n : Bool) : (s.enterTask t n).dbg = s.dbg := rfl
@[simp] theorem enterTask_lines (s : State) (t : TssImage) (n : Bool) : (s.enterTask t n).lines = s.lines := rfl
@[simp] theorem enterTask_ioReads (s : State) (t : TssImage) (n : Bool) : (s.enterTask t n).ioReads = s.ioReads := rfl
@[simp] theorem enterTask_ioOut (s : State) (t : TssImage) (n : Bool) : (s.enterTask t n).ioOut = s.ioOut := rfl
@[simp] theorem enterTask_free (s : State) (t : TssImage) (n : Bool) : (s.enterTask t n).free = s.free := rfl
@[simp] theorem enterTask_rfKept (s : State) (t : TssImage) (n : Bool) : (s.enterTask t n).rfKept = true := rfl
@[simp] theorem enterTask_pfx (s : State) (t : TssImage) (n : Bool) : (s.enterTask t n).pfx = s.pfx := rfl
@[simp] theorem enterTask_adMarks (s : State) (t : TssImage) (n : Bool) : (s.enterTask t n).adMarks = s.adMarks := rfl
@[simp] theorem enterTask_mem (s : State) (t : TssImage) (n : Bool) : (s.enterTask t n).mem = s.mem := rfl

@[simp] theorem begun_mode (s : State) : s.begun.mode = s.mode := rfl
@[simp] theorem begun_paging (s : State) : s.begun.paging = s.paging := rfl
@[simp] theorem begun_level (s : State) : s.begun.level = s.level := rfl
@[simp] theorem begun_osz (s : State) : s.begun.osz = s.osz := rfl
@[simp] theorem begun_asz (s : State) : s.begun.asz = s.asz := rfl
@[simp] theorem begun_sp (s : State) : s.begun.sp = s.sp := rfl
@[simp] theorem begun_stackSize (s : State) : s.begun.stackSize = s.stackSize := rfl

/-- A register reads as it was written (R20). -/
@[simp] theorem get_set_same (g : GRegs) (r : Reg) (v : Word32) : (g.set r v).get r = v := by
  cases r <;> rfl

/-- Writing a register leaves every other (R20). -/
theorem get_set_other (g : GRegs) (r r' : Reg) (v : Word32) (h : r' ≠ r) : (g.set r v).get r' = g.get r' := by
  cases r <;> cases r' <;> first | rfl | exact absurd rfl h

/-- A segment register reads as it was written (R41). -/
@[simp] theorem seg_get_set_same (g : SegRegs) (r : SReg) (v : SegReg) : (g.set r v).get r = v := by
  cases r <;> rfl

/-- Writing a segment register leaves every other (R41). -/
theorem seg_get_set_other (g : SegRegs) (r r' : SReg) (v : SegReg) (h : r' ≠ r) :
    (g.set r v).get r' = g.get r' := by
  cases r <;> cases r' <;> first | rfl | exact absurd rfl h


theorem extract_setHighByte (x : Word32) (v : Byte) : (setHighByte x v).extractLsb' 8 8 = v := by
  unfold setHighByte
  apply BitVec.eq_of_getLsbD_eq
  intro i hi
  rw [BitVec.getLsbD_extractLsb', BitVec.getLsbD_append, BitVec.getLsbD_append]
  have h : 8 + i < 16 := by omega
  simp [hi, h]

theorem extract_setLowByte (x : Word32) (v : Byte) : (setLowByte x v).extractLsb' 0 8 = v := by
  unfold setLowByte
  apply BitVec.eq_of_getLsbD_eq
  intro i hi
  rw [BitVec.getLsbD_extractLsb', BitVec.getLsbD_append]
  simp [hi]

theorem extract_setLowWord (x : Word32) (v : Word16) : (setLowWord x v).extractLsb' 0 16 = v := by
  unfold setLowWord
  apply BitVec.eq_of_getLsbD_eq
  intro i hi
  rw [BitVec.getLsbD_extractLsb', BitVec.getLsbD_append]
  simp [hi]

/-- A register of any width reads as it was written (R20 to R22). -/
@[simp] theorem readReg_writeReg (w : Width) (g : GRegs) (r : Reg) (v : BitVec w.bits) :
    readReg w (writeReg w g r v) r = v := by
  cases w
  · simp only [readReg, writeReg, get_set_same]
    split
    · exact extract_setHighByte _ _
    · exact extract_setLowByte _ _
  · simp only [readReg, writeReg, get_set_same]
    exact extract_setLowWord _ _
  · exact get_set_same _ _ _

/-- Writing a register of any width leaves every 32-bit register but the one it lies in (R20 to R22). -/
theorem writeReg_get_other (w : Width) (g : GRegs) (r r' : Reg) (v : BitVec w.bits) (h : r' ≠ Safety.wholeReg w r) :
    (writeReg w g r v).get r' = g.get r' := by
  cases w <;> exact get_set_other _ _ _ _ h

theorem setHighByte_rest (x : Word32) (v : Byte) : setHighByte x v &&& ~~~0xFF00 = x &&& ~~~0xFF00 := by
  unfold setHighByte
  apply BitVec.eq_of_getLsbD_eq
  intro i hi
  simp only [BitVec.getLsbD_and, BitVec.getLsbD_append, BitVec.getLsbD_extractLsb']
  by_cases h1 : i < 8
  · simp [h1, Nat.lt_of_lt_of_le h1 (by decide : 8 ≤ 16)]
  · by_cases h2 : i < 16
    · have : (~~~(0xFF00 : Word32)).getLsbD i = false := by
        interval_cases i <;> rfl
      rw [this, Bool.and_false, Bool.and_false]
    · have h3 : i - 16 < 16 := by omega
      have h4 : 16 + (i - 16) = i := by omega
      simp [h2, h3, h4]

theorem setLowByte_rest (x : Word32) (v : Byte) : setLowByte x v &&& ~~~0xFF = x &&& ~~~0xFF := by
  unfold setLowByte
  apply BitVec.eq_of_getLsbD_eq
  intro i hi
  simp only [BitVec.getLsbD_and, BitVec.getLsbD_append, BitVec.getLsbD_extractLsb']
  by_cases h1 : i < 8
  · have : (~~~(0xFF : Word32)).getLsbD i = false := by
      interval_cases i <;> rfl
    rw [this, Bool.and_false, Bool.and_false]
  · have h3 : i - 8 < 24 := by omega
    have h4 : 8 + (i - 8) = i := by omega
    simp [h1, h3, h4]

theorem setLowWord_rest (x : Word32) (v : Word16) : setLowWord x v &&& ~~~0xFFFF = x &&& ~~~0xFFFF := by
  unfold setLowWord
  apply BitVec.eq_of_getLsbD_eq
  intro i hi
  simp only [BitVec.getLsbD_and, BitVec.getLsbD_append, BitVec.getLsbD_extractLsb']
  by_cases h1 : i < 16
  · have : (~~~(0xFFFF : Word32)).getLsbD i = false := by
      interval_cases i <;> rfl
    rw [this, Bool.and_false, Bool.and_false]
  · have h3 : i - 16 < 16 := by omega
    have h4 : 16 + (i - 16) = i := by omega
    simp [h1, h3, h4]

/-- Everything that writing a register of any width does (R20 to R22). -/
theorem writesReg_writeReg (w : Width) (g : GRegs) (r : Reg) (v : BitVec w.bits) :
    Safety.WritesReg w r v g (writeReg w g r v) := by
  refine ⟨readReg_writeReg w g r v, fun r' h => writeReg_get_other w g r r' v h, ?_⟩
  cases w
  · simp only [writeReg, Safety.wholeReg, Safety.fieldMask, get_set_same]
    split
    · exact setHighByte_rest _ _
    · exact setLowByte_rest _ _
  · simp only [writeReg, Safety.wholeReg, Safety.fieldMask, get_set_same]
    exact setLowWord_rest _ _
  · simp [writeReg, Safety.wholeReg, Safety.fieldMask]

end Sys2Proof.Machine
end

