-- ==== Sys2Proof/Laws/Memory.lean ====
section
/-! SUPPORT. The laws of physical memory: what a read gives after a write, that every write keeps the
canonical form, and that equal reads make equal memories. -/

namespace Sys2Proof.Machine

/-- Reading after an insertion. -/
theorem read_insert (m : List Host.Cell) (a x : Nat) (b : Byte) :
    Memory.read (Memory.insert a b m) x = if x = a then b else Memory.read m x := by
  induction m with
  | nil =>
    by_cases h : x = a
    · simp [Memory.insert, Memory.read, h]
    · simp [Memory.insert, Memory.read, h, Ne.symm h]
  | cons c m ih =>
    simp only [Memory.insert]
    split
    · by_cases h : x = a
      · simp [Memory.read, h]
      · simp [Memory.read, h, Ne.symm h]
    · split
      · next h2 =>
        by_cases h : x = a
        · simp [Memory.read, h]
        · simp [Memory.read, h, Ne.symm h, h2]
      · next h2 =>
        by_cases h : x = a
        · subst h
          simp [Memory.read, h2, ih]
        · simp [Memory.read, h, ih]

/-- Reading after the entries of an address are removed. -/
theorem read_filter (m : List Host.Cell) (a x : Nat) :
    Memory.read (m.filter fun c => c.1 != a) x = if x = a then 0 else Memory.read m x := by
  induction m with
  | nil => simp [Memory.read]
  | cons c m ih =>
    by_cases hc : c.1 = a
    · rw [List.filter_cons_of_neg (by simp [hc]), ih]
      by_cases h : x = a
      · simp [h]
      · have : c.1 ≠ x := fun e => h (e ▸ hc)
        simp [h, Memory.read, this]
    · rw [List.filter_cons_of_pos (by simp [hc])]
      simp only [Memory.read, ih]
      by_cases h : x = a
      · simp [h, hc]
      · simp [h]

/-- A byte reads as it was last written, and a write leaves every other byte (R100). -/
theorem read_write (m : List Host.Cell) (a x : Nat) (b : Byte) :
    Memory.read (Memory.write m a b) x = if x = a then b else Memory.read m x := by
  unfold Memory.write
  split
  · next h => rw [read_filter, h]
  · exact read_insert m a x b

@[simp] theorem read_write_same (m : List Host.Cell) (a : Nat) (b : Byte) :
    Memory.read (Memory.write m a b) a = b := by
  rw [read_write, if_pos rfl]

theorem read_write_other (m : List Host.Cell) (a x : Nat) (b : Byte) (h : x ≠ a) :
    Memory.read (Memory.write m a b) x = Memory.read m x := by
  rw [read_write, if_neg h]

/-- Storing bytes leaves every byte at another address (R121). -/
theorem read_writePhys_other (ps : List Word32) (bs : List Byte) (m : List Host.Cell) (x : Nat)
    (h : x ∉ ps.map (·.toNat)) : Memory.read (writePhys m ps bs) x = Memory.read m x := by
  induction ps generalizing m bs with
  | nil => rfl
  | cons p ps ih =>
    cases bs with
    | nil => rfl
    | cons b bs =>
      simp only [List.map_cons, List.mem_cons, not_or] at h
      simp only [writePhys]
      rw [ih _ _ h.2, read_write_other _ _ _ _ h.1]

/-- Bytes stored at distinct addresses read back in order (R101, R121). -/
theorem readPhys_writePhys (ps : List Word32) (bs : List Byte) (m : List Host.Cell)
    (hl : ps.length = bs.length) (hd : (ps.map (·.toNat)).Nodup) :
    readPhys (writePhys m ps bs) ps = bs := by
  induction ps generalizing m bs with
  | nil =>
    cases bs with
    | nil => rfl
    | cons b bs => cases hl
  | cons p ps ih =>
    cases bs with
    | nil => cases hl
    | cons b bs =>
      simp only [List.map_cons, List.nodup_cons] at hd
      simp only [List.length_cons, Nat.add_right_cancel_iff] at hl
      have hrest := ih bs (Memory.write m p.toNat b) hl hd.2
      simp only [readPhys] at hrest
      simp only [readPhys, writePhys, List.map_cons]
      rw [read_writePhys_other _ _ _ _ hd.1, read_write_same, hrest]

/-- Setting bits of one byte of memory (R129). -/
theorem read_orByte (m : List Host.Cell) (c : Host.Cell) (x : Nat) :
    Memory.read (orByte m c) x = if x = c.1 then Memory.read m c.1 ||| c.2 else Memory.read m x :=
  read_write m c.1 x _

/-- Setting bits of bytes leaves every byte at another address (R129). -/
theorem read_foldl_orByte_other (cs : List Host.Cell) (m : List Host.Cell) (x : Nat)
    (h : x ∉ cs.map (·.1)) : Memory.read (cs.foldl orByte m) x = Memory.read m x := by
  induction cs generalizing m with
  | nil => rfl
  | cons c cs ih =>
    simp only [List.map_cons, List.mem_cons, not_or] at h
    rw [List.foldl_cons, ih _ h.2, read_orByte, if_neg h.1]

/-! The canonical form. -/

theorem wfFrom_cons (lo : Nat) (c : Host.Cell) (m : List Host.Cell) :
    Memory.wfFrom lo (c :: m) = true ↔
      lo ≤ c.1 ∧ c.1 < 2 ^ 32 ∧ c.2 ≠ 0 ∧ Memory.wfFrom (c.1 + 1) m = true := by
  simp [Memory.wfFrom, and_assoc]

theorem wfFrom_mono {lo lo' : Nat} (h : lo' ≤ lo) {m : List Host.Cell} (hm : Memory.wfFrom lo m = true) :
    Memory.wfFrom lo' m = true := by
  cases m with
  | nil => rfl
  | cons c m =>
    rw [wfFrom_cons] at hm ⊢
    exact ⟨h.trans hm.1, hm.2⟩

theorem wfFrom_insert (m : List Host.Cell) (lo a : Nat) (b : Byte) (hlo : lo ≤ a) (ha : a < 2 ^ 32)
    (hb : b ≠ 0) (hm : Memory.wfFrom lo m = true) : Memory.wfFrom lo (Memory.insert a b m) = true := by
  induction m generalizing lo with
  | nil =>
    rw [Memory.insert, wfFrom_cons]
    exact ⟨hlo, ha, hb, rfl⟩
  | cons c m ih =>
    rw [wfFrom_cons] at hm
    simp only [Memory.insert]
    split
    · next h =>
      rw [wfFrom_cons, wfFrom_cons]
      exact ⟨hlo, ha, hb, h, hm.2⟩
    · split
      · next h =>
        rw [wfFrom_cons]
        exact ⟨hlo, ha, hb, h ▸ hm.2.2.2⟩
      · next h1 h2 =>
        rw [wfFrom_cons]
        exact ⟨hm.1, hm.2.1, hm.2.2.1, ih (c.1 + 1) (by omega) hm.2.2.2⟩

theorem wfFrom_filter (m : List Host.Cell) (lo a : Nat) (hm : Memory.wfFrom lo m = true) :
    Memory.wfFrom lo (m.filter fun c => c.1 != a) = true := by
  induction m generalizing lo with
  | nil => rfl
  | cons c m ih =>
    rw [wfFrom_cons] at hm
    have hrest := ih (c.1 + 1) hm.2.2.2
    by_cases hc : c.1 = a
    · rw [List.filter_cons_of_neg (by simp [hc])]
      exact wfFrom_mono (by omega) hrest
    · rw [List.filter_cons_of_pos (by simp [hc]), wfFrom_cons]
      exact ⟨hm.1, hm.2.1, hm.2.2.1, hrest⟩

/-- A write to an address of the 32-bit space keeps the canonical form (log entry 4). -/
theorem wf_write (m : List Host.Cell) (a : Nat) (b : Byte) (ha : a < 2 ^ 32) (hm : Memory.wf m = true) :
    Memory.wf (Memory.write m a b) = true := by
  unfold Memory.write
  split
  · exact wfFrom_filter m 0 a hm
  · next hb => exact wfFrom_insert m 0 a b (Nat.zero_le a) ha hb hm

theorem wf_writePhys (ps : List Word32) (bs : List Byte) (m : List Host.Cell) (hm : Memory.wf m = true) :
    Memory.wf (writePhys m ps bs) = true := by
  induction ps generalizing m bs with
  | nil => exact hm
  | cons p ps ih =>
    cases bs with
    | nil => exact hm
    | cons b bs => exact ih bs _ (wf_write m p.toNat b p.isLt hm)

theorem wf_orByte (m : List Host.Cell) (c : Host.Cell) (hc : c.1 < 2 ^ 32) (hm : Memory.wf m = true) :
    Memory.wf (orByte m c) = true :=
  wf_write m c.1 _ hc hm

theorem wf_foldl_orByte (cs : List Host.Cell) (m : List Host.Cell) (hc : ∀ c ∈ cs, c.1 < 2 ^ 32)
    (hm : Memory.wf m = true) : Memory.wf (cs.foldl orByte m) = true := by
  induction cs generalizing m with
  | nil => exact hm
  | cons c cs ih =>
    simp only [List.mem_cons, forall_eq_or_imp] at hc
    exact ih _ hc.2 (wf_orByte m c hc.1 hm)

/-- Memory after reset is in canonical form. -/
theorem wf_reset : Memory.wf State.reset.mem = true := rfl

theorem read_of_lt {lo : Nat} {m : List Host.Cell} (hm : Memory.wfFrom lo m = true) {x : Nat} (h : x < lo) :
    Memory.read m x = 0 := by
  induction m generalizing lo with
  | nil => rfl
  | cons c m ih =>
    rw [wfFrom_cons] at hm
    have hc : c.1 ≠ x := by omega
    rw [Memory.read, if_neg hc]
    exact ih hm.2.2.2 (by omega)

theorem eq_of_read_from (m m' : List Host.Cell) (lo : Nat) (hm : Memory.wfFrom lo m = true)
    (hm' : Memory.wfFrom lo m' = true) (h : ∀ x, Memory.read m x = Memory.read m' x) : m = m' := by
  induction m generalizing m' lo with
  | nil =>
    cases m' with
    | nil => rfl
    | cons c' m' =>
      rw [wfFrom_cons] at hm'
      have := h c'.1
      simp only [Memory.read, if_true] at this
      exact absurd this.symm hm'.2.2.1
  | cons c m ih =>
    rw [wfFrom_cons] at hm
    cases m' with
    | nil =>
      have := h c.1
      simp only [Memory.read, if_true] at this
      exact absurd this hm.2.2.1
    | cons c' m' =>
      rw [wfFrom_cons] at hm'
      have key : c.1 = c'.1 := by
        by_contra hne
        rcases Nat.lt_or_gt_of_ne hne with hlt | hlt
        · have h1 := h c.1
          rw [Memory.read, if_pos rfl, Memory.read, if_neg (Ne.symm hne), read_of_lt hm'.2.2.2 (by omega)] at h1
          exact hm.2.2.1 h1
        · have h1 := h c'.1
          rw [Memory.read, if_neg hne, Memory.read, if_pos rfl, read_of_lt hm.2.2.2 (by omega)] at h1
          exact hm'.2.2.1 h1.symm
      have val : c.2 = c'.2 := by
        have h1 := h c.1
        rwa [Memory.read, if_pos rfl, Memory.read, if_pos key.symm] at h1
      have hcc : c = c' := Prod.ext key val
      subst hcc
      congr 1
      refine ih m' (c.1 + 1) hm.2.2.2 hm'.2.2.2 fun x => ?_
      by_cases hx : c.1 = x
      · subst hx
        rw [read_of_lt hm.2.2.2 (by omega), read_of_lt hm'.2.2.2 (by omega)]
      · have h1 := h x
        rwa [Memory.read, if_neg hx, Memory.read, if_neg hx] at h1

/-- Memories in canonical form that read alike are equal. -/
theorem eq_of_read (m m' : List Host.Cell) (hm : Memory.wf m = true) (hm' : Memory.wf m' = true)
    (h : ∀ x, Memory.read m x = Memory.read m' x) : m = m' :=
  eq_of_read_from m m' 0 hm hm' h

/-! Little-endian operands. -/

@[simp] theorem length_leBytes {w : Nat} (n : Nat) (v : BitVec w) : (leBytes n v).length = n := by
  simp [leBytes]

/-- The bytes of an operand give back its value (R101). -/
theorem valueOf_leBytes (w : Width) (v : BitVec w.bits) : valueOf w (leBytes w.bytes v) = v := by
  cases w
  · apply BitVec.eq_of_toNat_eq
    simp [valueOf, leBytes, leNat, byteOf, Width.bytes, List.range_succ]
  · apply BitVec.eq_of_toNat_eq
    have hv : v.toNat < 2 ^ 16 := v.isLt
    simp [valueOf, leBytes, leNat, byteOf, Width.bytes, List.range_succ, Nat.shiftRight_eq_div_pow]
    change _ % 2 ^ 16 = _
    omega
  · apply BitVec.eq_of_toNat_eq
    have hv : v.toNat < 2 ^ 32 := v.isLt
    simp [valueOf, leBytes, leNat, byteOf, Width.bytes, List.range_succ, Nat.shiftRight_eq_div_pow]
    change _ % 2 ^ 32 = _
    omega

/-- A location of distinct bytes reads as it was stored (R101, R121). -/
theorem valueAt_storeAt (s : State) (w : Width) (l : Loc) (v : BitVec w.bits)
    (h : ∀ ps, l = .mem ps → ps.length = w.bytes ∧ (ps.map (·.toNat)).Nodup) :
    (s.storeAt w l v).valueAt w l = v := by
  cases l with
  | reg r => exact readReg_writeReg w s.regs r v
  | mem ps =>
    obtain ⟨hl, hd⟩ := h ps rfl
    simp only [State.storeAt, State.valueAt, setMem_mem]
    rw [readPhys_writePhys ps _ s.mem (by simp [hl]) hd, valueOf_leBytes]

end Sys2Proof.Machine
end

