-- ==== Sys2Proof/Laws/Monad.lean ====
section
/-! SUPPORT. How the actions of an instruction run: one equation per way to build an action, and what
`runInstr` gives by how the action ends. -/

namespace Sys2Proof.Machine

variable {α β : Type}

@[simp] theorem pure_run (a : α) (s : State) : (pure a : M α) s = .ok a s := rfl

@[simp] theorem get_run (s : State) : (get : M State) s = .ok s s := rfl

@[simp] theorem set_run (t s : State) : (set t : M PUnit) s = .ok () t := rfl

@[simp] theorem modify_run (f : State → State) (s : State) : (modify f : M PUnit) s = .ok () (f s) := rfl

@[simp] theorem throw_run (e : Stop) (s : State) : (throw e : M α) s = .error e s := rfl

@[simp] theorem raise_run (e : Exn) (s : State) : (raise e : M α) s = .error (.exc e) s := rfl

@[simp] theorem require_true_run (e : Exn) (s : State) : require true e s = .ok () s := rfl

@[simp] theorem require_false_run (e : Exn) (s : State) : require false e s = .error (.exc e) s := rfl

theorem require_run (c : Bool) (e : Exn) (s : State) :
    require c e s = if c then .ok () s else .error (.exc e) s := by
  cases c <;> rfl

theorem bind_run (x : M α) (f : α → M β) (s : State) :
    (x >>= f) s = match x s with
      | .ok a s' => f a s'
      | .error e s' => .error e s' := by
  change EStateM.bind x f s = _
  unfold EStateM.bind
  cases x s <;> rfl

theorem bind_run_ok {x : M α} {f : α → M β} {s t : State} {a : α} (h : x s = .ok a t) :
    (x >>= f) s = f a t := by
  rw [bind_run, h]

theorem bind_run_error {x : M α} {f : α → M β} {s t : State} {e : Stop} (h : x s = .error e t) :
    (x >>= f) s = .error e t := by
  rw [bind_run, h]

@[simp] theorem get_bind_run (f : State → M β) (s : State) : ((get : M State) >>= f) s = f s s := rfl

@[simp] theorem pure_bind_run (a : α) (f : α → M β) (s : State) : ((pure a : M α) >>= f) s = f a s := rfl

@[simp] theorem modify_bind_run (g : State → State) (f : PUnit → M β) (s : State) :
    ((modify g : M PUnit) >>= f) s = f () (g s) := rfl

@[simp] theorem set_bind_run (t : State) (f : PUnit → M β) (s : State) :
    ((set t : M PUnit) >>= f) s = f () t := rfl

@[simp] theorem raise_bind_run (e : Exn) (f : α → M β) (s : State) :
    ((raise e : M α) >>= f) s = .error (.exc e) s := rfl

@[simp] theorem throw_bind_run (e : Stop) (f : α → M β) (s : State) :
    ((throw e : M α) >>= f) s = .error e s := rfl

@[simp] theorem require_true_bind_run (e : Exn) (f : PUnit → M β) (s : State) :
    (require true e >>= f) s = f () s := rfl

@[simp] theorem require_false_bind_run (e : Exn) (f : PUnit → M β) (s : State) :
    (require false e >>= f) s = .error (.exc e) s := rfl

/-- Two actions that end well, in sequence. -/
theorem seq_ok {x : M α} {f : α → M β} {s s' t : State} {a : α} {b : β} (h : x s = .ok a s')
    (h' : f a s' = .ok b t) : (x >>= f) s = .ok b t := by
  rw [bind_run_ok h, h']

/-- A sequence whose second action ends badly. -/
theorem seq_error {x : M α} {f : α → M β} {s s' t : State} {a : α} {e : Stop} (h : x s = .ok a s')
    (h' : f a s' = .error e t) : (x >>= f) s = .error e t := by
  rw [bind_run_ok h, h']

/-- A sequence that ends well does so through a state in the middle. -/
theorem bind_run_eq_ok {x : M α} {f : α → M β} {s t : State} {b : β} (h : (x >>= f) s = .ok b t) :
    ∃ a s', x s = .ok a s' ∧ f a s' = .ok b t := by
  rw [bind_run] at h
  split at h
  · exact ⟨_, _, by assumption, h⟩
  · cases h

/-- What `require` lets pass, it leaves as it was. -/
theorem require_run_eq_ok {c : Bool} {e : Exn} {s t : State} (h : require c e s = .ok () t) :
    c = true ∧ t = s := by
  cases c
  · cases h
  · cases h
    exact ⟨rfl, rfl⟩

/-- Without LOCK, or where LOCK is allowed, `checkLock` does nothing (R108, R530). -/
theorem checkLock_run_ok {lockable : Bool} {s : State}
    (h : s.lockOk lockable) :
    checkLock lockable s = .ok () s := by
  unfold checkLock
  rw [get_bind_run]
  cases hl : s.pfx.lock
  · rfl
  · obtain ⟨h1, h2⟩ := h hl
    subst h1
    simp only [if_true, require_true_bind_run, require_run]
    by_cases hm : s.mode = .prot
    · simp [hm, h2 hm]
    · simp [hm]

/-- LOCK before an instruction that may not take it is exception 6 (R530). -/
theorem checkLock_run_invalid {s : State} (h : s.pfx.lock = true) :
    checkLock false s = .error (.exc exnUD) s := by
  unfold checkLock
  rw [get_bind_run, h]
  rfl


/-- An instruction whose actions end well leaves the finished state. -/
theorem runInstr_ok {lockable : Bool} {m : M Unit} {s t : State}
    (h : s.lockOk lockable)
    (hm : m s.begun = .ok () t) : runInstr lockable m s = .next (finished s t) := by
  have hl : checkLock lockable s.begun = .ok () s.begun := checkLock_run_ok (s := s.begun) h
  simp only [runInstr, bind_run, hl, hm, conclude]

/-- An instruction whose actions raise an exception is undone and the exception delivered (R556). -/
theorem runInstr_exc {lockable : Bool} {m : M Unit} {s t : State} {e : Exn}
    (h : s.lockOk lockable)
    (hm : m s.begun = .error (.exc e) t) : runInstr lockable m s = .next (deliver e (undo s t)) := by
  have hl : checkLock lockable s.begun = .ok () s.begun := checkLock_run_ok (s := s.begun) h
  simp only [runInstr, bind_run, hl, hm, conclude]

/-- An instruction whose actions shut the processor down (R590). -/
theorem runInstr_shutdown {lockable : Bool} {m : M Unit} {s t : State}
    (h : s.lockOk lockable)
    (hm : m s.begun = .error .shutdown t) :
    runInstr lockable m s = .next { t.settled with shutdown := true } := by
  have hl : checkLock lockable s.begun = .ok () s.begun := checkLock_run_ok (s := s.begun) h
  simp only [runInstr, bind_run, hl, hm, conclude]

/-- An instruction under a LOCK it may not take is exception 6 (R530). -/
theorem runInstr_lock_invalid {m : M Unit} {s : State} (h : s.pfx.lock = true) :
    runInstr false m s = .next (deliver exnUD (undo s s.begun)) := by
  have hl : checkLock false s.begun = .error (.exc exnUD) s.begun := checkLock_run_invalid h
  simp only [runInstr, bind_run, hl, conclude]

end Sys2Proof.Machine
end

