-- ==== Sys2Proof/Laws/Access.lean ====
section
/-! SUPPORT. What a memory access can change besides the bytes it stores, and the rule that lets a property
be followed through the actions of an instruction. -/

namespace Sys2Proof.Machine

variable {α β : Type}

/-- The state in which actions end, well or not. -/
def endState : EStateM.Result Stop State α → State
  | .ok _ s => s
  | .error _ s => s

/-- Actions that keep a property of the state, however they end. -/
def Keeps (P : State → Prop) (m : M α) : Prop := ∀ s, P s → P (endState (m s))

theorem keeps_ok {P : State → Prop} {m : M α} (h : Keeps P m) {s t : State} {a : α} (hs : P s)
    (hm : m s = .ok a t) : P t := by
  have := h s hs
  rwa [hm] at this

theorem keeps_error {P : State → Prop} {m : M α} (h : Keeps P m) {s t : State} {e : Stop} (hs : P s)
    (hm : m s = .error e t) : P t := by
  have := h s hs
  rwa [hm] at this

theorem keeps_pure {P : State → Prop} (a : α) : Keeps P (pure a : M α) := fun _ h => h

theorem keeps_get {P : State → Prop} : Keeps P (get : M State) := fun _ h => h

theorem keeps_throw {P : State → Prop} (e : Stop) : Keeps P (throw e : M α) := fun _ h => h

theorem keeps_raise {P : State → Prop} (e : Exn) : Keeps P (raise e : M α) := fun _ h => h

theorem keeps_require {P : State → Prop} (c : Bool) (e : Exn) : Keeps P (require c e) := by
  intro s h
  cases c <;> exact h

theorem keeps_modify {P : State → Prop} {f : State → State} (h : ∀ s, P s → P (f s)) :
    Keeps P (modify f : M PUnit) := h

theorem keeps_bind {P : State → Prop} {x : M α} {f : α → M β} (hx : Keeps P x) (hf : ∀ a, Keeps P (f a)) :
    Keeps P (x >>= f) := by
  intro s h
  rw [bind_run]
  have h1 := hx s h
  split
  · next a s' he =>
    rw [he] at h1
    exact hf a s' h1
  · next e s' he =>
    rw [he] at h1
    exact h1

/-- What a read of the state is followed by may use that it read the state itself. -/
theorem keeps_get_bind {P : State → Prop} {f : State → M β}
    (h : ∀ s, P s → P (endState (f s s))) : Keeps P ((get : M State) >>= f) := h

theorem keeps_ite {P : State → Prop} {c : Prop} [Decidable c] {x y : M α} (hx : Keeps P x) (hy : Keeps P y) :
    Keeps P (if c then x else y) := by
  split
  · exact hx
  · exact hy

/-! The frame of an access. -/

theorem or_and_eq_zero {u v m : Byte} (hu : u &&& m = 0) (hv : v &&& m = 0) : (u ||| v) &&& m = 0 := by
  apply BitVec.eq_of_getLsbD_eq
  intro i hi
  have a := congrArg (fun x => x.getLsbD i) hu
  have b := congrArg (fun x => x.getLsbD i) hv
  simp only [BitVec.getLsbD_and, BitVec.getLsbD_or] at a b ⊢
  revert a b
  cases u.getLsbD i <;> cases v.getLsbD i <;> cases m.getLsbD i <;> simp

/-- What an access may change: the TLB, the data breakpoints noted, and, with paging on, bits 5 and 6 of
the page-entry bytes listed in `adMarks` (R120, R128, R129). -/
structure AccessFrame (s t : State) : Prop where
  same : t = { s with tlb := t.tlb, dbg := t.dbg, mem := t.mem, adMarks := t.adMarks }
  bytes : ∃ ms, t.adMarks = ms ++ s.adMarks ∧
    ∀ x, x ∉ ms.map (·.1) → Memory.read t.mem x = Memory.read s.mem x
  bits : ∀ x, ∃ v : Byte, v &&& 0x9F = 0 ∧ Memory.read t.mem x = Memory.read s.mem x ||| v
  off : s.paging = false → t.mem = s.mem ∧ t.tlb = s.tlb ∧ t.adMarks = s.adMarks

theorem accessFrame_refl (s : State) : AccessFrame s s :=
  ⟨rfl, ⟨[], rfl, fun _ _ => rfl⟩, fun _ => ⟨0, rfl, by simp⟩, fun _ => ⟨rfl, rfl, rfl⟩⟩

theorem accessFrame_paging {s t : State} (h : AccessFrame s t) : t.paging = s.paging := by
  rw [h.same]
  rfl

theorem accessFrame_trans {s t u : State} (h1 : AccessFrame s t) (h2 : AccessFrame t u) : AccessFrame s u := by
  refine ⟨?_, ?_, ?_, ?_⟩
  · rw [h2.same, h1.same]
  · obtain ⟨m1, a1, b1⟩ := h1.bytes
    obtain ⟨m2, a2, b2⟩ := h2.bytes
    refine ⟨m2 ++ m1, by rw [a2, a1, List.append_assoc], fun x hx => ?_⟩
    simp only [List.map_append, List.mem_append, not_or] at hx
    rw [b2 x hx.1, b1 x hx.2]
  · intro x
    obtain ⟨v1, a1, b1⟩ := h1.bits x
    obtain ⟨v2, a2, b2⟩ := h2.bits x
    exact ⟨v1 ||| v2, or_and_eq_zero a1 a2, by rw [b2, b1, BitVec.or_assoc]⟩
  · intro hp
    obtain ⟨a1, b1, c1⟩ := h1.off hp
    obtain ⟨a2, b2, c2⟩ := h2.off (by rw [accessFrame_paging h1, hp])
    exact ⟨a2.trans a1, b2.trans b1, c2.trans c1⟩

/-- Every byte but those of page entries reads as before an access. -/
theorem accessFrame_read {s t : State} (h : AccessFrame s t) {x : Nat} (hx : x ∉ t.adMarks.map (·.1)) :
    Memory.read t.mem x = Memory.read s.mem x := by
  obtain ⟨ms, ha, hm⟩ := h.bytes
  rw [ha] at hx
  simp only [List.map_append, List.mem_append, not_or] at hx
  exact hm x hx.1

theorem keeps_accessFrame {m : M α} (h : ∀ s, AccessFrame s (endState (m s))) (s0 : State) :
    Keeps (AccessFrame s0) m := fun s hs => accessFrame_trans hs (h s)

theorem accessFrame_of_keeps {m : M α} (h : ∀ s0, Keeps (AccessFrame s0) m) (s : State) :
    AccessFrame s (endState (m s)) := h s s (accessFrame_refl s)

/-- With paging off a linear address is the physical one (R110, R128). -/
theorem pageLookup_off {s : State} {kind : Access} {user : Bool} {lin : Word32} (h : s.paging = false) :
    pageLookup s kind user lin = .ok { phys := lin, tlb := s.tlb, marks := [] } := by
  simp [pageLookup, h]

/-- A mark of a translation: an address of the 32-bit space, and bits 5 and 6 at most (R129). -/
def MarkOk (c : Host.Cell) : Prop := c.1 < 2 ^ 32 ∧ c.2 &&& 0x9F = 0

theorem pageWalk_marks {s : State} {kind : Access} {user : Bool} {lin : Word32} {p : PageHit}
    (h : pageWalk s kind user lin = .ok p) : ∀ c ∈ p.marks, MarkOk c := by
  unfold pageWalk at h
  dsimp only at h
  split at h
  · split at h
    · split at h
      · cases h
        intro c hc
        simp only [List.mem_cons, List.not_mem_nil, or_false] at hc
        rcases hc with rfl | rfl
        · exact ⟨(pdeAddr _ _).isLt, (by decide : (0x20 : Byte) &&& 0x9F = 0)⟩
        · refine ⟨(pteAddr _ _).isLt, ?_⟩
          change (if kind.isWrite = true then (0x60 : Byte) else 0x20) &&& 0x9F = 0
          cases kind <;> decide
      · cases h
    · cases h
  · cases h

theorem pageLookup_marks {s : State} {kind : Access} {user : Bool} {lin : Word32} {p : PageHit}
    (h : pageLookup s kind user lin = .ok p) : ∀ c ∈ p.marks, MarkOk c := by
  unfold pageLookup at h
  split at h
  · split at h
    · split at h
      · exact pageWalk_marks h
      · split at h
        · cases h
          simp
        · cases h
    · exact pageWalk_marks h
  · cases h
    simp

theorem read_foldl_orByte_bits (cs : List Host.Cell) (hcs : ∀ c ∈ cs, MarkOk c) (m : List Host.Cell)
    (x : Nat) : ∃ v : Byte, v &&& 0x9F = 0 ∧
      Memory.read (cs.foldl orByte m) x = Memory.read m x ||| v := by
  induction cs generalizing m with
  | nil => exact ⟨0, rfl, by simp⟩
  | cons c cs ih =>
    simp only [List.mem_cons, forall_eq_or_imp] at hcs
    obtain ⟨v, hv, he⟩ := ih hcs.2 (orByte m c)
    rw [List.foldl_cons, he, read_orByte]
    by_cases h : x = c.1
    · refine ⟨c.2 ||| v, or_and_eq_zero hcs.1.2 hv, ?_⟩
      rw [if_pos h, h, BitVec.or_assoc]
    · exact ⟨v, hv, by rw [if_neg h]⟩

/-- What translating one byte can do (R110, R128, R129). -/
theorem page_frame (kind : Access) (user : Bool) (lin : Word32) (s : State) :
    AccessFrame s (endState (page kind user lin s)) := by
  unfold page
  rw [get_bind_run]
  cases hp : pageLookup s kind user lin with
  | error e => exact accessFrame_refl s
  | ok p =>
    have hm := pageLookup_marks hp
    refine ⟨rfl, ⟨p.marks, rfl, fun x hx => read_foldl_orByte_other _ _ _ hx⟩,
      fun x => read_foldl_orByte_bits _ hm _ x, fun hoff => ?_⟩
    rw [pageLookup_off hoff] at hp
    cases hp
    exact ⟨rfl, rfl, rfl⟩

theorem keeps_page (s0 : State) (kind : Access) (user : Bool) (lin : Word32) :
    Keeps (AccessFrame s0) (page kind user lin) :=
  keeps_accessFrame (page_frame kind user lin) s0

theorem keeps_pages (s0 : State) (kind : Access) (user : Bool) (lin : Word32) (n : Nat) :
    Keeps (AccessFrame s0) (pages kind user lin n) := by
  induction n generalizing lin with
  | zero => exact keeps_pure _
  | succ n ih =>
    unfold pages
    exact keeps_bind (keeps_page s0 kind user lin) fun _ => keeps_bind (ih (lin + 1)) fun _ => keeps_pure _

theorem keeps_noteData (s0 : State) (write : Bool) (lin : Word32) (k : Nat) :
    Keeps (AccessFrame s0) (noteData write lin k) :=
  keeps_modify fun _ h => accessFrame_trans h
    ⟨rfl, ⟨[], rfl, fun _ _ => rfl⟩, fun _ => ⟨0, rfl, by simp⟩, fun _ => ⟨rfl, rfl, rfl⟩⟩

theorem keeps_translate (s0 : State) (kind : Access) (sr : SReg) (off : Word32) (n : Nat) :
    Keeps (AccessFrame s0) (translate kind sr off n) := by
  unfold translate
  refine keeps_bind keeps_get fun s => ?_
  split
  · exact keeps_raise _
  · exact keeps_bind (keeps_pages s0 _ _ _ _) fun _ =>
      keeps_bind (keeps_noteData s0 _ _ _) fun _ => keeps_pure _

theorem keeps_loadBytes (s0 : State) (ps : List Word32) : Keeps (AccessFrame s0) (loadBytes ps) :=
  keeps_bind keeps_get fun _ => keeps_pure _

theorem keeps_memRead (s0 : State) (w : Width) (sr : SReg) (off : Word32) :
    Keeps (AccessFrame s0) (memRead w sr off) :=
  keeps_bind (keeps_translate s0 _ _ _ _) fun _ => keeps_bind (keeps_loadBytes s0 _) fun _ => keeps_pure _

theorem keeps_locate (s0 : State) (w : Width) (kind : Access) (rm : RM) :
    Keeps (AccessFrame s0) (locate w kind rm) := by
  cases rm with
  | reg r => exact keeps_pure _
  | mem m =>
    exact keeps_bind (keeps_bind keeps_get fun _ => keeps_translate s0 _ _ _ _) fun _ => keeps_pure _

theorem keeps_readLoc (s0 : State) (w : Width) (l : Loc) : Keeps (AccessFrame s0) (readLoc w l) :=
  keeps_bind keeps_get fun _ => keeps_pure _

theorem keeps_readRM (s0 : State) (w : Width) (rm : RM) : Keeps (AccessFrame s0) (readRM w rm) :=
  keeps_bind (keeps_locate s0 _ _ _) fun _ => keeps_readLoc s0 _ _

theorem keeps_sysRead (s0 : State) (lin : Word32) (n : Nat) : Keeps (AccessFrame s0) (sysRead lin n) :=
  keeps_bind (keeps_pages s0 _ _ _ _) fun _ => keeps_loadBytes s0 _

theorem keeps_sysRead16 (s0 : State) (lin : Word32) : Keeps (AccessFrame s0) (sysRead16 lin) :=
  keeps_bind (keeps_sysRead s0 _ _) fun _ => keeps_pure _

theorem keeps_sysRead32 (s0 : State) (lin : Word32) : Keeps (AccessFrame s0) (sysRead32 lin) :=
  keeps_bind (keeps_sysRead s0 _ _) fun _ => keeps_pure _

/-- What locating an operand can do: nothing but what an access may (R120, R121). -/
theorem locate_frame {w : Width} {kind : Access} {rm : RM} {s t : State} {l : Loc}
    (h : locate w kind rm s = .ok l t) : AccessFrame s t :=
  keeps_ok (keeps_locate s w kind rm) (accessFrame_refl s) h

/-- What translating an operand can do: nothing but what an access may (R120, R121). -/
theorem translate_frame {kind : Access} {sr : SReg} {off : Word32} {n : Nat} {s t : State} {ps : List Word32}
    (h : translate kind sr off n s = .ok ps t) : AccessFrame s t :=
  keeps_ok (keeps_translate s kind sr off n) (accessFrame_refl s) h

/-- A register operand lies where it is. -/
@[simp] theorem locate_reg_run (w : Width) (kind : Access) (r : Reg) (s : State) :
    locate w kind (.reg r) s = .ok (.reg r) s := rfl

@[simp] theorem readLoc_run (w : Width) (l : Loc) (s : State) : readLoc w l s = .ok (s.valueAt w l) s := rfl

@[simp] theorem writeLoc_run (w : Width) (l : Loc) (v : BitVec w.bits) (s : State) :
    writeLoc w l v s = .ok () (s.storeAt w l v) := rfl

/-- Reading a located operand (R181). -/
theorem readRM_run_ok {w : Width} {rm : RM} {s t : State} {l : Loc} (h : locate w .read rm s = .ok l t) :
    readRM w rm s = .ok (t.valueAt w l) t := by
  unfold readRM
  rw [bind_run_ok h]
  rfl

/-- Writing a located operand (R181). -/
theorem writeRM_run_ok {w : Width} {rm : RM} {s t : State} {l : Loc} (v : BitVec w.bits)
    (h : locate w .write rm s = .ok l t) : writeRM w rm v s = .ok () (t.storeAt w l v) := by
  unfold writeRM
  rw [bind_run_ok h]
  rfl

/-- Reading a translated operand (R120). -/
theorem memRead_run_ok {w : Width} {sr : SReg} {off : Word32} {s t : State} {ps : List Word32}
    (h : translate .read sr off w.bytes s = .ok ps t) :
    memRead w sr off s = .ok (t.valueAt w (.mem ps)) t := by
  unfold memRead
  rw [bind_run_ok h]
  rfl

/-- Storing a translated operand (R121). -/
theorem memWrite_run_ok {w : Width} {sr : SReg} {off : Word32} {s t : State} {ps : List Word32}
    (v : BitVec w.bits) (h : translate .write sr off w.bytes s = .ok ps t) :
    memWrite w sr off v s = .ok () (t.storeAt w (.mem ps) v) := by
  unfold memWrite
  rw [bind_run_ok h]
  rfl

/-! Accesses with paging off. -/

theorem page_run_off {s : State} (h : s.paging = false) (kind : Access) (user : Bool) (lin : Word32) :
    page kind user lin s = .ok lin s := by
  unfold page
  rw [get_bind_run, pageLookup_off h]
  rfl

/-- Consecutive linear addresses, modulo 2^32 (R110). -/
def addressesFrom (lin : Word32) : Nat → List Word32
  | 0 => []
  | n + 1 => lin :: addressesFrom (lin + 1) n

theorem pages_run_off {s : State} (h : s.paging = false) (kind : Access) (user : Bool) (lin : Word32)
    (n : Nat) : pages kind user lin n s = .ok (addressesFrom lin n) s := by
  induction n generalizing lin with
  | zero => rfl
  | succ n ih =>
    unfold pages
    rw [bind_run_ok (page_run_off h kind user lin), bind_run_ok (ih (lin + 1))]
    rfl

/-- The state after the data breakpoints of an access are noted (R120, R121). -/
def State.noted (s : State) (write : Bool) (lin : Word32) (k : Nat) : State :=
  { s with dbg :=
    { s.dbg with
      b0 := s.dbg.b0 || s.dr.dataMatch 0 write lin k
      b1 := s.dbg.b1 || s.dr.dataMatch 1 write lin k
      b2 := s.dbg.b2 || s.dr.dataMatch 2 write lin k
      b3 := s.dbg.b3 || s.dr.dataMatch 3 write lin k } }

/-- With paging off an operand lies at its linear address (R110). -/
theorem translate_run_off {s : State} (h : s.paging = false) {kind : Access} {sr : SReg} {off lin : Word32}
    {n : Nat} (hl : linear s kind sr off n = .ok lin) :
    translate kind sr off n s = .ok (addressesFrom lin n) (s.noted kind.isWrite lin n) := by
  unfold translate
  rw [get_bind_run, hl]
  simp only
  rw [bind_run_ok (pages_run_off h _ _ _ _)]
  rfl

theorem addressesFrom_toNat (lin : Word32) (n : Nat) :
    (addressesFrom lin n).map (·.toNat) = (List.range n).map fun k => (lin.toNat + k) % 2 ^ 32 := by
  induction n generalizing lin with
  | zero => rfl
  | succ n ih =>
    rw [List.range_succ_eq_map, addressesFrom, List.map_cons, ih]
    simp [BitVec.toNat_add, Nat.add_assoc, Nat.add_comm 1]
    exact (Nat.mod_eq_of_lt lin.isLt).symm

@[simp] theorem length_addressesFrom (lin : Word32) (n : Nat) : (addressesFrom lin n).length = n := by
  induction n generalizing lin with
  | zero => rfl
  | succ n ih => simp [addressesFrom, ih]

/-- Fewer than 2^32 consecutive addresses are distinct. -/
theorem addressesFrom_nodup (lin : Word32) (n : Nat) (h : n ≤ 2 ^ 32) :
    ((addressesFrom lin n).map (·.toNat)).Nodup := by
  rw [addressesFrom_toNat]
  apply List.Nodup.map_on _ List.nodup_range
  intro a ha b hb hab
  rw [List.mem_range] at ha hb
  omega

end Sys2Proof.Machine
end

