-- ==== Sys2Proof/Laws/Stack.lean ====
section
/-! SUPPORT. The words of the claims about registers, memory and the stack, each equal to what the machine's
operation does: one lemma per shared operation. -/

namespace Sys2Proof.Machine

open Sys2Proof.Safety Sys2Proof.Claims

theorem gregs_ext {g h : GRegs} (e : ∀ r, g.get r = h.get r) : g = h := by
  cases g
  cases h
  have a := e .eax
  have b := e .ecx
  have c := e .edx
  have d := e .ebx
  have f := e .esp
  have i := e .ebp
  have j := e .esi
  have k := e .edi
  simp only [GRegs.get] at a b c d f i j k
  subst a b c d f i j k
  rfl

theorem word_eq_of_bits {x y : Word32} (m : Word32) (h1 : x &&& m = y &&& m) (h2 : x &&& ~~~m = y &&& ~~~m) :
    x = y := by
  apply BitVec.eq_of_getLsbD_eq
  intro i hi
  have a := congrArg (fun z => z.getLsbD i) h1
  have b := congrArg (fun z => z.getLsbD i) h2
  simp only [BitVec.getLsbD_and, BitVec.getLsbD_not, hi, decide_true, Bool.true_and] at a b
  revert a b
  cases x.getLsbD i <;> cases y.getLsbD i <;> cases m.getLsbD i <;> simp

theorem and_eq_of_extract {x y : Word32} (start len : Nat) (m : Word32)
    (hm : ∀ i, i < 32 → m.getLsbD i = true → start ≤ i ∧ i < start + len)
    (h : x.extractLsb' start len = y.extractLsb' start len) : x &&& m = y &&& m := by
  apply BitVec.eq_of_getLsbD_eq
  intro i hi
  rw [BitVec.getLsbD_and, BitVec.getLsbD_and]
  cases hmi : m.getLsbD i
  · simp
  · obtain ⟨h1, h2⟩ := hm i hi hmi
    have := congrArg (fun z => z.getLsbD (i - start)) h
    simp only [BitVec.getLsbD_extractLsb'] at this
    have h3 : i - start < len := by omega
    have h4 : start + (i - start) = i := by omega
    simpa [h3, h4] using this

/-- Writing a register is the one way to meet the rule of a register write (R20 to R22). -/
theorem writesReg_iff {w : Width} {r : Reg} {v : BitVec w.bits} {g g' : GRegs} :
    WritesReg w r v g g' ↔ g' = writeReg w g r v := by
  constructor
  · intro h
    have k := writesReg_writeReg w g r v
    apply gregs_ext
    intro q
    by_cases hq : q = wholeReg w r
    · subst hq
      apply word_eq_of_bits (fieldMask w r)
      · have hv := h.value.trans k.value.symm
        cases w
        · simp only [readReg] at hv
          simp only [wholeReg, fieldMask]
          cases hr : Reg.isHighByte r
          · simp only [hr] at hv
            exact and_eq_of_extract 0 8 _ (by decide) (by simpa using hv)
          · simp only [hr] at hv
            exact and_eq_of_extract 8 8 _ (by decide) (by simpa using hv)
        · exact and_eq_of_extract 0 16 0xFFFF (by decide) hv
        · exact congrArg (· &&& _) hv
      · exact h.bits.trans k.bits.symm
    · exact (h.others q hq).trans (k.others q hq).symm
  · rintro rfl
    exact writesReg_writeReg w g r v

theorem wrap_eq (z : Size) (v : Word32) :
    wrap z v = match z with
      | .s16 => (v.extractLsb' 0 16).setWidth 32
      | .s32 => v := rfl

/-- A register at a size, zero-extended (R176, R430). -/
theorem wrap_get (z : Size) (g : GRegs) (r : Reg) : wrap z (g.get r) = (readReg z.width g r).setWidth 32 := by
  cases z
  · rfl
  · exact (BitVec.setWidth_eq _).symm

/-- A register replaced at a size (R21, R140). -/
theorem set_setSized (z : Size) (g : GRegs) (r : Reg) (v : Word32) :
    g.set r (setSized z (g.get r) v) = writeReg z.width g r (v.setWidth _) := by
  cases z
  · simp only [setSized, writeReg, Size.width]
    congr 2
  · simp [setSized, writeReg, Size.width]

theorem extract16_sub (a b : Word32) :
    (a - b).extractLsb' 0 16 = a.extractLsb' 0 16 - b.extractLsb' 0 16 := by
  apply BitVec.eq_of_toNat_eq
  simp only [BitVec.extractLsb'_toNat, BitVec.toNat_sub, Nat.shiftRight_zero]
  have := a.isLt
  have := b.isLt
  omega

theorem extract16_add (a b : Word32) :
    (a + b).extractLsb' 0 16 = a.extractLsb' 0 16 + b.extractLsb' 0 16 := by
  apply BitVec.eq_of_toNat_eq
  simp only [BitVec.extractLsb'_toNat, BitVec.toNat_add, Nat.shiftRight_zero]
  omega

theorem setWidth16_eq (a : Word32) : a.setWidth 16 = a.extractLsb' 0 16 := by
  apply BitVec.eq_of_getLsbD_eq
  intro i hi
  simp [hi]

theorem extract16_setWidth (a : Word16) : (a.setWidth 32).extractLsb' 0 16 = a := by
  apply BitVec.eq_of_getLsbD_eq
  intro i hi
  simp [BitVec.getLsbD_setWidth, hi]
  omega

theorem sp_eq_topOffset (s : State) : s.sp = topOffset s := by
  unfold State.sp topOffset
  cases s.stackSize <;> rfl

/-- The offset of a pushed item (R140). -/
theorem wrap_sp_sub (s : State) (w : Width) : wrap s.stackSize (s.sp - Width.off w) = pushOffset s w := by
  unfold State.sp pushOffset
  cases s.stackSize
  · simp only [wrap, extract16_sub, extract16_setWidth]
    congr 1
    cases w <;> rfl
  · rfl

/-- Moving (E)SP by a sum is the rule of a moved stack pointer (R140, R141). -/
theorem spMoved_iff {s : State} {d : Word32} {g g' : GRegs} :
    SpMoved s d g g' ↔ g' = g.set .esp (setSized s.stackSize (g.get .esp) (wrap s.stackSize (g.get .esp) + d)) := by
  rw [SpMoved, writesReg_iff, set_setSized]
  cases s.stackSize
  · simp only [wrap, Size.width, setWidth16_eq, extract16_add, extract16_setWidth]
    rfl
  · simp [wrap, Size.width]
    rfl

theorem frame_regs {s t : State} (h : AccessFrame s t) : t.regs = s.regs := by rw [h.same]
theorem frame_flags {s t : State} (h : AccessFrame s t) : t.flags = s.flags := by rw [h.same]
theorem frame_segs {s t : State} (h : AccessFrame s t) : t.segs = s.segs := by rw [h.same]
theorem frame_mode {s t : State} (h : AccessFrame s t) : t.mode = s.mode := by rw [h.same]; rfl
theorem frame_stackSize {s t : State} (h : AccessFrame s t) : t.stackSize = s.stackSize := by rw [h.same]; rfl
theorem frame_osz {s t : State} (h : AccessFrame s t) : t.osz = s.osz := by rw [h.same]; rfl
theorem frame_asz {s t : State} (h : AccessFrame s t) : t.asz = s.asz := by rw [h.same]; rfl

/-- `MemRead` in the words of the claims (R120). -/
theorem memReads_iff {w : Width} {sr : SReg} {off : Word32} {v : BitVec w.bits} {s t : State} :
    MemReads w sr off v s t ↔ memRead w sr off s = .ok v t := by
  constructor
  · rintro ⟨ps, h, rfl⟩
    exact memRead_run_ok h
  · intro h
    obtain ⟨ps, s1, h1, h2⟩ := bind_run_eq_ok h
    obtain ⟨bs, s2, h3, h4⟩ := bind_run_eq_ok h2
    cases h3
    cases h4
    exact ⟨ps, h1, rfl⟩

/-- `MemWrite` in the words of the claims (R121). -/
theorem memWrites_iff {w : Width} {sr : SReg} {off : Word32} {v : BitVec w.bits} {s t : State} :
    MemWrites w sr off v s t ↔ memWrite w sr off v s = .ok () t := by
  constructor
  · rintro ⟨ps, s1, h, rfl⟩
    exact memWrite_run_ok v h
  · intro h
    obtain ⟨ps, s1, h1, h2⟩ := bind_run_eq_ok h
    cases h2
    exact ⟨ps, s1, h1, rfl⟩

theorem pushShutsDown_eq_false {s : State} (h : s.mode ≠ .prot → topOffset s ≠ 1) :
    s.pushShutsDown = false := by
  unfold State.pushShutsDown
  rw [sp_eq_topOffset]
  cases hm : s.mode <;> simp_all

/-- (E)SP after a push (R140). -/
theorem regsWithSp_push {s s1 : State} (hf : AccessFrame s s1) (w : Width) (l : Loc) (v : BitVec w.bits)
    (hl : ∃ ps, l = .mem ps) :
    (s1.storeAt w l v).regsWithSp (wrap s.stackSize (s.sp - Width.off w)) =
      s1.regs.set .esp (setSized s.stackSize (s1.regs.get .esp)
        (wrap s.stackSize (s1.regs.get .esp) + -(BitVec.ofNat 32 w.bytes))) := by
  obtain ⟨ps, rfl⟩ := hl
  have hz : (s1.storeAt w (.mem ps) v).stackSize = s.stackSize := (frame_stackSize hf : s1.stackSize = _)
  have hr : (s1.storeAt w (.mem ps) v).regs = s.regs := (frame_regs hf : s1.regs = _)
  unfold State.regsWithSp State.sp Width.off
  rw [hz, hr, frame_regs hf]
  have he : s.regs.get .esp = s.regs.esp := rfl
  rw [he]
  cases s.stackSize
  · simp only [setSized, wrap, BitVec.sub_eq_add_neg, extract16_setWidth]
  · simp only [setSized, wrap, BitVec.sub_eq_add_neg]

/-- `Push_n(v)` in the words of the claims (R140, R142). -/
theorem pushed_iff {w : Width} {v : BitVec w.bits} {s t : State} :
    Pushed w v s t ↔ push w v s = .ok () t := by
  constructor
  · rintro ⟨h0, ps, s1, g, h1, h2, rfl⟩
    rw [spMoved_iff] at h2
    unfold push
    rw [get_bind_run, pushShutsDown_eq_false h0]
    simp only [Bool.false_eq_true, if_false]
    have h3 := memWrite_run_ok v h1
    rw [← wrap_sp_sub] at h3
    rw [bind_run_ok h3]
    unfold putSp
    rw [modify_run, h2, ← regsWithSp_push (translate_frame h1) w _ v ⟨ps, rfl⟩]
  · intro h
    unfold push at h
    rw [get_bind_run] at h
    split at h
    · cases h
    next hs =>
      obtain ⟨_, s2, h1, h2⟩ := bind_run_eq_ok h
      obtain ⟨ps, s1, h3, rfl⟩ := memWrites_iff.mpr h1
      rw [wrap_sp_sub] at h3
      unfold putSp at h2
      rw [modify_run] at h2
      cases h2
      refine ⟨?_, ps, s1, _, h3, spMoved_iff.mpr rfl, ?_⟩
      · intro hm ht
        apply hs
        unfold State.pushShutsDown
        rw [sp_eq_topOffset, ht]
        cases h' : s.mode <;> simp_all
      · rw [← regsWithSp_push (translate_frame h3) w _ v ⟨ps, rfl⟩]

/-- `Pop_n()` in the words of the claims (R141). -/
theorem popped_iff {w : Width} {v : BitVec w.bits} {s t : State} :
    Popped w v s t ↔ pop w s = .ok v t := by
  have key : ∀ s1, AccessFrame s s1 → s1.regsWithSp (s.sp + Width.off w) =
      s1.regs.set .esp (setSized s.stackSize (s1.regs.get .esp)
        (wrap s.stackSize (s1.regs.get .esp) + BitVec.ofNat 32 w.bytes)) := by
    intro s1 hf
    unfold State.regsWithSp State.sp Width.off
    rw [frame_stackSize hf, frame_regs hf]
    rfl
  constructor
  · rintro ⟨ps, s1, g, h1, rfl, h2, rfl⟩
    rw [spMoved_iff] at h2
    unfold pop
    rw [get_bind_run, sp_eq_topOffset, bind_run_ok (memRead_run_ok h1)]
    unfold putSp
    rw [modify_bind_run, pure_run, ← sp_eq_topOffset, key s1 (translate_frame h1), h2]
  · intro h
    unfold pop at h
    rw [get_bind_run, sp_eq_topOffset] at h
    obtain ⟨v', s1, h1, h2⟩ := bind_run_eq_ok h
    obtain ⟨ps, h3, rfl⟩ := memReads_iff.mpr h1
    unfold putSp at h2
    rw [modify_bind_run, pure_run, ← sp_eq_topOffset, key s1 (translate_frame h3)] at h2
    cases h2
    exact ⟨ps, s1, _, h3, rfl, spMoved_iff.mpr rfl, rfl⟩

end Sys2Proof.Machine
end

