-- ==== Sys2Proof/Laws/Segments.lean ====
section
/-! SUPPORT. The words of the claims about ports, descriptors, segment loads, conditions, index registers and
transfers, each equal to what the machine's operation does. -/

namespace Sys2Proof.Machine

open Sys2Proof.Safety Sys2Proof.Claims

theorem sysRead_one {a : Word32} {bs : List Byte} {s t : State} (h : sysRead a 1 s = .ok bs t) : ∃ v, bs = [v] := by
  obtain ⟨ps, u, h1, h2⟩ := bind_run_eq_ok h
  obtain ⟨p, u1, _, h3⟩ := bind_run_eq_ok h1
  cases h3
  cases h2
  exact ⟨_, rfl⟩

theorem testBit_one (v : Byte) (k : Nat) : (leNat [v]).testBit k = v.getLsbD k := by
  simp [leNat, BitVec.getLsbD]

/-- The bits of the permission map in the words of the claims (R152). -/
theorem mapBits_iff {map : Nat} : ∀ {n port : Nat} {ok : Bool} {s t : State},
    MapBits map port n ok s t ↔ ioBitsClear s.tr.base s.tr.limit.toNat map port n s = .ok ok t := by
  intro n
  induction n with
  | zero =>
    intro port ok s t
    constructor
    · rintro ⟨rfl, rfl⟩
      rfl
    · intro h
      cases h
      exact ⟨rfl, rfl⟩
  | succ n ih =>
    intro port ok s t
    unfold MapBits ioBitsClear
    by_cases hl : s.tr.limit.toNat < map + port / 8
    · simp only [hl, if_true]
      constructor
      · rintro (⟨_, rfl, rfl⟩ | ⟨h, _⟩)
        · rfl
        · omega
      · intro h
        cases h
        exact .inl ⟨trivial, rfl, rfl⟩
    · simp only [hl, if_false]
      constructor
      · rintro (⟨h, _⟩ | ⟨_, v, u, rest, h1, h2, rfl⟩)
        · exact h.elim
        · have e : u.tr = s.tr := by rw [(keeps_ok (keeps_sysRead s _ _) (accessFrame_refl s) h1).same]
          have h3 := ih.mp h2
          rw [e] at h3
          rw [bind_run_ok h1, bind_run_ok h3, testBit_one]
          rfl
      · intro h
        obtain ⟨bs, u, h1, h⟩ := bind_run_eq_ok h
        obtain ⟨rest, u2, h2, h⟩ := bind_run_eq_ok h
        obtain ⟨v, rfl⟩ := sysRead_one h1
        have e : u.tr = s.tr := by rw [(keeps_ok (keeps_sysRead s _ _) (accessFrame_refl s) h1).same]
        rw [testBit_one] at h
        cases h
        refine .inr ⟨by omega, v, u, rest, h1, ih.mpr ?_, rfl⟩
        rw [e]
        exact h2

/-- The permission map in the words of the claims (R152). -/
theorem ioMap_iff {port : Word16} {n : Nat} {ok : Bool} {s t : State} :
    IoMap port n ok s t ↔ ioMapAllows port n s = .ok ok t := by
  unfold IoMap ioMapAllows
  rw [get_bind_run]
  by_cases hv : s.tr.valid = true ∧ 0x67 ≤ s.tr.limit.toNat
  · have hc : (!s.tr.valid || decide (s.tr.limit.toNat < 0x67)) = false := by simp [hv.1, hv.2]
    simp only [hc, Bool.false_eq_true, if_false]
    constructor
    · rintro (⟨h, _⟩ | ⟨_, _, map, u, h1, h2⟩)
      · exact absurd hv h
      · have e : u.tr = s.tr := by rw [(keeps_ok (keeps_sysRead16 s _) (accessFrame_refl s) h1).same]
        have h3 := mapBits_iff.mp h2
        rw [e] at h3
        rw [bind_run_ok h1]
        exact h3
    · intro h
      obtain ⟨map, u, h1, h2⟩ := bind_run_eq_ok h
      have e : u.tr = s.tr := by rw [(keeps_ok (keeps_sysRead16 s _) (accessFrame_refl s) h1).same]
      refine .inr ⟨hv.1, hv.2, map, u, h1, mapBits_iff.mpr ?_⟩
      rw [e]
      exact h2
  · have hc : (!s.tr.valid || decide (s.tr.limit.toNat < 0x67)) = true := by
      by_cases h1 : s.tr.valid = true
      · have : ¬0x67 ≤ s.tr.limit.toNat := fun h => hv ⟨h1, h⟩
        simp [h1]
        omega
      · simp [h1]
    simp only [hc, if_true]
    constructor
    · rintro (⟨_, rfl, rfl⟩ | ⟨h1, h2, _⟩)
      · rfl
      · exact absurd ⟨h1, h2⟩ hv
    · intro h
      cases h
      exact .inl ⟨hv, rfl, rfl⟩

/-- `IoCheck` in the words of the claims (R152). -/
theorem ioPermits_iff {port : Word16} {n : Nat} {s t : State} :
    IoPermits port n s t ↔ ioCheck port n s = .ok () t := by
  unfold IoPermits ioCheck
  rw [get_bind_run]
  cases s.mode with
  | real =>
    constructor
    · rintro rfl
      rfl
    · intro h
      cases h
      rfl
  | prot =>
    simp only [require_run]
    constructor
    · rintro ⟨h, rfl⟩
      simp [h]
    · intro h
      split at h
      · next hc =>
        cases h
        exact ⟨by simpa using hc, rfl⟩
      · cases h
  | v86 =>
    constructor
    · intro h
      simp only
      rw [bind_run_ok (ioMap_iff.mp h)]
      rfl
    · intro h
      obtain ⟨ok, s1, h1, h2⟩ := bind_run_eq_ok h
      obtain ⟨rfl, rfl⟩ := require_run_eq_ok h2
      exact ioMap_iff.mpr h1

/-- A denied port, in the words of the claims (R152). -/
theorem ioDenied_run {port : Word16} {n : Nat} {s t : State} (h : IoDenied port n s t) :
    ioCheck port n s = .error (.exc (exnGP 0)) t := by
  unfold IoDenied at h
  unfold ioCheck
  rw [get_bind_run]
  cases hm : s.mode with
  | real => exact (by simp [hm] at h : False).elim
  | prot =>
    obtain ⟨h1, rfl⟩ : ¬s.cpl ≤ s.flags.iopl ∧ t = s := by simpa [hm] using h
    simp only [require_run]
    simp [h1]
  | v86 =>
    simp only [hm] at h
    simp only
    rw [bind_run_ok (ioMap_iff.mp h)]
    rfl

/-- The condition codes in the words of the claims (R460). -/
theorem condRule_iff {f : Flags} {c : Cond} : CondRule f c ↔ f.cond c = true := by
  cases c <;> simp [CondRule, Flags.cond]

/-- An index register at the address size (R430). -/
theorem atAsz_eq (s : State) (r : Reg) : atAsz s r = wrap s.asz (s.regs.get r) := by
  unfold atAsz
  cases s.asz <;> rfl

/-- `Advance` in the words of the claims (R430). -/
theorem advanced_iff {s : State} {w : Width} {r : Reg} {g g' : GRegs} :
    Advanced s w r g g' ↔ g' = g.set r (setSized s.asz (g.get r)
      (if s.flags.df then g.get r - Width.off w else g.get r + Width.off w)) := by
  rw [Advanced, writesReg_iff, set_setSized]
  cases s.asz
  · cases s.flags.df
    · simp only [Size.width, setWidth16_eq, Bool.false_eq_true, if_false, extract16_add]
      cases w <;> rfl
    · simp only [Size.width, setWidth16_eq, if_true, extract16_sub]
      cases w <;> rfl
  · cases s.flags.df
    · simp [Size.width, Width.off, readReg]
    · simp [Size.width, Width.off, readReg]

/-- A count register decremented at the address size (R440, R475). -/
theorem decremented_iff {z : Size} {r : Reg} {g g' : GRegs} :
    WritesReg z.width r (readReg z.width g r - 1) g g' ↔ g' = g.set r (setSized z (g.get r) (g.get r - 1)) := by
  rw [writesReg_iff, set_setSized]
  cases z
  · simp only [Size.width, setWidth16_eq, extract16_sub]
    rfl
  · simp [Size.width, readReg]

/-- A null selector (R116). -/
theorem selNull_iff {sel : Word16} : selNull sel = true ↔ sel.toNat < 4 := by
  unfold selNull
  rw [beq_iff_eq, ← BitVec.toNat_inj, BitVec.extractLsb'_toNat, Nat.shiftRight_eq_div_pow]
  have := sel.isLt
  change sel.toNat / 4 % 16384 = 0 ↔ sel.toNat < 4
  omega

/-- The hidden copy of a load in modes R and V (R111). -/
theorem loadReal_eq (g : SegReg) (sel : Word16) : g.loadReal sel = realSeg g sel := by
  unfold SegReg.loadReal realSeg
  congr 1
  apply BitVec.eq_of_toNat_eq
  have := sel.isLt
  simp only [BitVec.toNat_shiftLeft, BitVec.toNat_setWidth, BitVec.toNat_ofNat, Nat.shiftLeft_eq]
  omega

/-- The hidden copy of a descriptor (R114, R118, R125). -/
theorem toSeg_eq (d : Desc) (sel : Word16) : d.toSeg sel = protSeg d sel := by
  have hlo := d.lo.isLt
  have hhi := d.hi.isLt
  have hb : d.base = (protSeg d sel).base := by
    apply BitVec.eq_of_toNat_eq
    simp only [Desc.base, protSeg, BitVec.toNat_append, BitVec.extractLsb'_toNat, Nat.shiftRight_eq_div_pow,
      BitVec.toNat_ofNat, Nat.pow_zero, Nat.div_one]
    have h1 := Nat.shiftLeft_add_eq_or_of_lt (i := 16) (b := d.lo.toNat / 2 ^ 16 % 2 ^ 16) (by omega)
      (d.hi.toNat % 2 ^ 8)
    have h2 := Nat.shiftLeft_add_eq_or_of_lt (i := 24)
      (b := (d.hi.toNat % 2 ^ 8) <<< 16 + d.lo.toNat / 2 ^ 16 % 2 ^ 16) (by simp only [Nat.shiftLeft_eq]; omega)
      (d.hi.toNat / 2 ^ 24 % 2 ^ 8)
    rw [← h1]
    refine h2.symm.trans ?_
    simp only [Nat.shiftLeft_eq]
    omega
  have hl : d.limit = (protSeg d sel).limit := by
    apply BitVec.eq_of_toNat_eq
    have hf : d.limitField.toNat = d.hi.toNat / 2 ^ 16 % 2 ^ 4 * 2 ^ 16 + d.lo.toNat % 2 ^ 16 := by
      simp only [Desc.limitField, BitVec.toNat_append, BitVec.extractLsb'_toNat, Nat.shiftRight_eq_div_pow,
        Nat.pow_zero, Nat.div_one]
      rw [← Nat.shiftLeft_add_eq_or_of_lt (by omega)]
      simp only [Nat.shiftLeft_eq]
    unfold Desc.limit protSeg
    simp only
    split
    · rw [BitVec.toNat_append, hf, BitVec.toNat_ofNat]
      change _ <<< 12 ||| 4095 = _
      rw [← Nat.shiftLeft_add_eq_or_of_lt (by omega)]
      simp only [Nat.shiftLeft_eq]
      omega
    · simp only [BitVec.toNat_setWidth, hf, BitVec.toNat_ofNat]
  unfold Desc.toSeg
  rw [hb, hl]
  rfl

/-- Setting A in the words of the claims (R118). -/
theorem accessed_iff {d : Desc} {s t : State} : Accessed d s t ↔ markAccessed d s = .ok () t := by
  unfold Accessed markAccessed Desc.a
  split
  · constructor
    · rintro rfl
      rfl
    · intro h
      cases h
      rfl
  · rfl

/-- A descriptor that was read is the one its selector names, whatever would have been raised (R116). -/
theorem descriptorAt_of {sel : Word16} {e : Exn} {d : Desc} {s t : State}
    (h : readDescriptor sel e s = .ok d t) : DescriptorAt sel d s t := by
  intro e'
  unfold readDescriptor at h ⊢
  rw [get_bind_run] at h ⊢
  by_cases h1 : selTi sel = true
  · simp only [h1, if_true] at h ⊢
    split at h
    · cases h
    · next h2 => rw [if_neg h2, h]
  · simp only [h1, Bool.false_eq_true, if_false] at h ⊢
    split at h
    · cases h
    · next h2 => rw [if_neg h2, h]

theorem require_of {c : Bool} {e : Exn} {s : State} (h : c = true) : require c e s = .ok () s := by
  rw [h]
  rfl

theorem require_bind_of {β : Type} {c : Bool} {e : Exn} {f : PUnit → M β} {s : State} (h : c = true) :
    (require c e >>= f) s = f () s := by
  rw [h]
  rfl

theorem require_bind_eq_ok {β : Type} {c : Bool} {e : Exn} {f : PUnit → M β} {s t : State} {b : β}
    (h : (require c e >>= f) s = .ok b t) : c = true ∧ f () s = .ok b t := by
  cases c
  · cases h
  · exact ⟨rfl, h⟩

/-- `LoadSeg` in the words of the claims (R111, R118). -/
theorem segLoads_iff {sr : SReg} {sel : Word16} {s t : State} :
    SegLoads sr sel s t ↔ loadSeg sr sel s = .ok () t := by
  unfold SegLoads loadSeg
  rw [get_bind_run]
  cases hm : s.mode
  case real | v86 =>
    simp only [loadSegReal, get_bind_run, putSeg, modify_run, loadReal_eq, State.setSeg]
    constructor
    · rintro rfl
      rfl
    · intro h
      cases h
      rfl
  case prot =>
    simp only
    by_cases hn : sel.toNat < 4
    · have hn' := selNull_iff.mpr hn
      simp only [hn, if_true]
      by_cases hs : sr = .ss
      · simp [hs, loadStackSeg, hn']
      · simp only [hs, if_false, loadDataSeg, hn', if_true, get_bind_run, putSeg, modify_run, State.setSeg,
          SegReg.loadNull]
        constructor
        · rintro ⟨_, rfl⟩
          rfl
        · intro h
          cases h
          exact ⟨hs, rfl⟩
    · have hn' : ¬selNull sel = true := fun h => hn (selNull_iff.mp h)
      simp only [hn, if_false]
      by_cases hs : sr = .ss
      · subst hs
        simp only [if_true, loadStackSeg, hn', Bool.false_eq_true, if_false]
        constructor
        · rintro ⟨d, s1, s2, h1, ⟨c1, c2, c3⟩, h2, h3, rfl⟩
          rw [bind_run_ok (h1 _), require_bind_of (by simp [c1, c2, c3]), require_bind_of h2,
            bind_run_ok (accessed_iff.mp h3)]
          simp only [putSeg, modify_run, State.setSeg, toSeg_eq]
        · intro h
          obtain ⟨d, s1, h1, h⟩ := bind_run_eq_ok h
          obtain ⟨c, h⟩ := require_bind_eq_ok h
          obtain ⟨c', h⟩ := require_bind_eq_ok h
          obtain ⟨_, s2, h4, h⟩ := bind_run_eq_ok h
          simp only [putSeg, State.setSeg, toSeg_eq] at h
          cases h
          simp only [Bool.and_eq_true, beq_iff_eq] at c
          exact ⟨d, _, s2, descriptorAt_of h1, ⟨c.1.1, c.1.2, c.2⟩, c', accessed_iff.mpr h4, rfl⟩
      · simp only [hs, if_false, loadDataSeg, hn', Bool.false_eq_true]
        constructor
        · rintro ⟨d, s1, s2, h1, ⟨c1, c2⟩, h2, h3, rfl⟩
          rw [bind_run_ok (h1 _), require_bind_of c1, require_bind_of (by simpa using c2), require_bind_of h2,
            bind_run_ok (accessed_iff.mp h3)]
          simp only [putSeg, modify_run, State.setSeg, toSeg_eq]
        · intro h
          obtain ⟨d, s1, h1, h⟩ := bind_run_eq_ok h
          obtain ⟨c, h⟩ := require_bind_eq_ok h
          obtain ⟨c', h⟩ := require_bind_eq_ok h
          obtain ⟨c2, h⟩ := require_bind_eq_ok h
          obtain ⟨_, s2, h4, h⟩ := bind_run_eq_ok h
          simp only [putSeg, State.setSeg, toSeg_eq] at h
          cases h
          exact ⟨d, _, s2, descriptorAt_of h1, ⟨c, by simpa using c'⟩, c2, accessed_iff.mpr h4, rfl⟩

/-- A push of a selector in the words of the claims (R140, R270). -/
theorem pushedSel_iff {z : Size} {sel : Word16} {s t : State} :
    PushedSel z sel s t ↔ pushSelector z sel s = .ok () t := by
  unfold PushedSel pushSelector selectorSlot
  cases z
  · exact pushed_iff
  · exact pushed_iff

/-- A pop into a register in the words of the claims (R275). -/
theorem poppedInto_iff {w : Width} {r : Reg} {s t : State} :
    PoppedInto w r s t ↔ (pop w >>= fun v => putReg w r v) s = .ok () t := by
  constructor
  · rintro ⟨v, t1, g, h1, h2, rfl⟩
    rw [bind_run_ok (popped_iff.mp h1), writesReg_iff.mp h2]
    rfl
  · intro h
    obtain ⟨v, t1, h1, h2⟩ := bind_run_eq_ok h
    cases h2
    exact ⟨v, t1, _, popped_iff.mpr h1, writesReg_iff.mpr rfl, rfl⟩

/-- The check of a near target (R470). -/
theorem nearTarget_run {s : State} {t : Word32} (h : NearOk s (truncated s t)) :
    nearTarget t s = .ok (truncated s t) s := by
  have hw : wrap s.osz t = truncated s t := by
    unfold truncated
    cases s.osz
    · simp only [wrap]
      apply BitVec.eq_of_toNat_eq
      rw [BitVec.toNat_setWidth, BitVec.extractLsb'_toNat, BitVec.toNat_and]
      change t.toNat >>> 0 % 2 ^ 16 % 2 ^ 32 = t.toNat &&& (2 ^ 16 - 1)
      rw [Nat.and_two_pow_sub_one_eq_mod, Nat.shiftRight_zero]
      omega
    · rfl
  unfold nearTarget
  rw [get_bind_run]
  simp only [hw]
  obtain ⟨h1, h2⟩ := h
  cases hm : s.mode with
  | prot =>
    have := h1 hm
    simp only [BitVec.le_def, this, decide_true, require_true_bind_run, pure_run]
  | real | v86 =>
    have h3 := h2 (by rw [hm]; decide)
    have h4 : truncated s t ≤ 0xFFFF := h3
    simp only [h4, decide_true, require_true_bind_run, pure_run]

end Sys2Proof.Machine
end

