-- ==== Sys2Proof/Laws/Transfers.lean ====
section
/-! SUPPORT. Far transfers, gate entries, returns to an outer level and task switches: what the words of the claims
say of each, the machine's operation does. -/

namespace Sys2Proof.Machine

open Sys2Proof.Safety Sys2Proof.Claims

theorem not_selNull {sel : Word16} (h : 4 ≤ sel.toNat) : selNull sel = false := by
  cases hn : selNull sel
  · rfl
  · have := selNull_iff.mp hn
    omega

theorem selTi_eq (sel : Word16) : selTi sel = sel.getLsbD 2 := rfl

theorem selIndex_toNat (sel : Word16) : (selIndex sel).toNat = sel.toNat / 8 := by
  have := sel.isLt
  simp only [selIndex, BitVec.extractLsb'_toNat, Nat.shiftRight_eq_div_pow]
  omega

theorem keeps_readEntry (s0 : State) (addr : Word32) : Keeps (AccessFrame s0) (readEntry addr) :=
  keeps_bind (keeps_sysRead32 s0 _) fun _ => keeps_bind (keeps_sysRead32 s0 _) fun _ => keeps_pure _

theorem keeps_readDescriptor (s0 : State) (sel : Word16) (e : Exn) :
    Keeps (AccessFrame s0) (readDescriptor sel e) :=
  keeps_bind keeps_get fun _ => keeps_ite (keeps_ite (keeps_raise _) (keeps_readEntry s0 _))
    (keeps_ite (keeps_raise _) (keeps_readEntry s0 _))

/-- Reading a descriptor changes nothing but what an access may (R115, R116). -/
theorem descriptorAt_frame {sel : Word16} {d : Desc} {s t : State} (h : DescriptorAt sel d s t) : AccessFrame s t :=
  keeps_ok (keeps_readDescriptor s sel exnUD) (accessFrame_refl s) (h _)

theorem readEntry_frame {a : Word32} {d : Desc} {s t : State} (h : readEntry a s = .ok d t) : AccessFrame s t :=
  keeps_ok (keeps_readEntry s a) (accessFrame_refl s) h

theorem sysRead16_frame {a : Word32} {v : Word16} {s t : State} (h : sysRead16 a s = .ok v t) : AccessFrame s t :=
  keeps_ok (keeps_sysRead16 s a) (accessFrame_refl s) h

theorem sysRead32_frame {a : Word32} {v : Word32} {s t : State} (h : sysRead32 a s = .ok v t) : AccessFrame s t :=
  keeps_ok (keeps_sysRead32 s a) (accessFrame_refl s) h

theorem frame_level {s t : State} (h : AccessFrame s t) : t.level = s.level := by rw [h.same]; rfl
theorem frame_eip {s t : State} (h : AccessFrame s t) : t.eip = s.eip := by rw [h.same]
theorem frame_curEip {s t : State} (h : AccessFrame s t) : t.curEip = s.curEip := by rw [h.same]
theorem frame_cpl {s t : State} (h : AccessFrame s t) : t.cpl = s.cpl := by rw [h.same]
theorem frame_pe {s t : State} (h : AccessFrame s t) : t.pe = s.pe := by
  rw [h.same]
  rfl
theorem frame_tr {s t : State} (h : AccessFrame s t) : t.tr = s.tr := by rw [h.same]

/-- The stack of an inner level is read and accepted (R127, R490, R580). -/
theorem innerStack_run {level : BitVec 2} {ss ext : Word16} {esp : Word32} {d : Desc} {s t : State}
    (h : InnerStackAt level ss esp d s t) : innerStack level ext s = .ok ⟨d, ss, esp⟩ t := by
  obtain ⟨hv, hl, s1, s2, h1, h2, hn, hd, c1, c2, c3, c4⟩ := h
  have e3 : 4 + 8 * level.toNat = 8 * level.toNat + 4 := by omega
  unfold innerStack tssStack
  have hlt : ¬(s.tr.limit.toNat < 8 * level.toNat + 11) := by omega
  rw [bind_run_ok (a := (ss, esp)) (t := s2)]
  · simp only [not_selNull hn, Bool.not_false, require_true_bind_run]
    rw [bind_run_ok (hd _), require_bind_of (by simp [c1, c2, c3, c4])]
    rfl
  · rw [get_bind_run]
    simp only [e3, hv, hlt, decide_false, Bool.not_true, Bool.false_or, Bool.false_eq_true, if_false]
    rw [bind_run_ok h1, bind_run_ok h2]
    rfl

theorem innerStackAt_frame {level : BitVec 2} {ss : Word16} {esp : Word32} {d : Desc} {s t : State}
    (h : InnerStackAt level ss esp d s t) : AccessFrame s t := by
  obtain ⟨_, _, s1, s2, h1, h2, _, hd, _⟩ := h
  exact accessFrame_trans (sysRead16_frame h1) (accessFrame_trans (sysRead32_frame h2) (descriptorAt_frame hd))

theorem onStack_eq (s : State) (level : BitVec 2) (ss : Word16) (esp : Word32) (d : Desc) :
    s.onInnerStack level ⟨d, ss, esp⟩ = onStack s level ss esp d := by
  unfold State.onInnerStack onStack
  rw [toSeg_eq]

/-- Loading CS from a code descriptor at a level, then going to an offset in it (R490, R580). -/
theorem loadCodeSeg_run {d : Desc} {sel : Word16} {cpl : BitVec 2} {off : Word32} {s t : State}
    (h : Accessed d s t) : (loadCodeSeg d sel cpl >>= fun _ => putEip off) s =
      .ok () (inCode { t with cpl := cpl } d sel off) := by
  unfold loadCodeSeg putEip
  rw [bind_run, bind_run_ok (accessed_iff.mp h)]
  simp only [putSeg, modify_bind_run, modify_run, State.setSeg, State.setEip, inCode, goTo, toSeg_eq, selWithRpl]

/-- The data selectors of a V86 task go onto the level-0 stack (R580). -/
theorem leaveV86_run {o : SegRegs} {s t : State} (h : DataPushed o s t) : leaveV86 o s = .ok () t := by
  obtain ⟨t1, t2, t3, t4, h1, h2, h3, h4, rfl⟩ := h
  unfold leaveV86
  rw [bind_run_ok (pushed_iff.mp h1), bind_run_ok (pushed_iff.mp h2), bind_run_ok (pushed_iff.mp h3),
    bind_run_ok (pushed_iff.mp h4)]
  rfl

theorem pushCode_run {z : Size} {code : Option Word16} {s t : State}
    (h : CodePushed z.width code s t) : pushCode z code s = .ok () t := by
  cases code with
  | none =>
    cases h
    rfl
  | some x => exact pushed_iff.mp h

theorem savedFlags_eq (s : State) (kind : ExnKind) :
    s.savedFlags kind = { s.flags with rf := s.flags.rf || decide (kind = ExnKind.fault) }.image := by
  unfold State.savedFlags
  cases kind <;> simp

theorem returnEip_eq (s : State) (kind : ExnKind) :
    s.returnEip kind = if kind = .fault then s.curEip else s.eip := by
  cases kind <;> rfl

theorem mode_prot_vm {s : State} (h : s.mode = .prot) : s.flags.vm = false := by
  unfold State.mode at h
  split at h
  · split at h
    · cases h
    · next h' => simpa using h'
  · cases h

theorem mode_v86_vm {s : State} (h : s.mode = .v86) : s.flags.vm = true := by
  unfold State.mode at h
  split at h
  · split at h
    · assumption
    · cases h
  · cases h

theorem onlyIf_true_run {m : M Unit} {s : State} : onlyIf true m s = m s := rfl
theorem onlyIf_false_run {m : M Unit} {s : State} : onlyIf false m s = .ok () s := rfl

/-- The stack of a gate's frame, in the words of the claims (R580). -/
theorem frameStack_run {z : Size} {c : Desc} {s t : State} {ext : Word16} {e : Exn}
    (h : FrameStack z c s t) : frameStack z c ext e s = .ok () t := by
  unfold frameStack
  rw [get_bind_run]
  rcases h with ⟨hm, hc, rfl⟩ | ⟨hc, hl, ss, esp, d, s1, s2, s3, s4, h1, h2, h3, h4, h5⟩
  · have : (!c.conforming && decide (c.dpl < t.level)) = false := by
      rcases hc with hc | hc <;> simp [hc]
    simp only [this, Bool.false_eq_true, if_false, mode_prot_vm hm, Bool.not_false, require_true_run]
  · have : (!c.conforming && decide (c.dpl < s.level)) = true := by simp [hc, hl]
    simp only [this, if_true]
    rw [bind_run_ok (innerStack_run h1)]
    rcases h2 with ⟨hm, rfl⟩ | ⟨hm, hz, h2⟩
    · have hv := mode_prot_vm hm
      have h1v : s1.flags.vm = false := by
        rw [frame_flags (innerStackAt_frame h1), hv]
      have : (s1.setFlags { s1.flags with vm := false }) = s1 := by
        unfold State.setFlags
        rw [← h1v]
      simp only [hv, Bool.not_false, Bool.true_or, require_true_bind_run, modify_bind_run, this, onStack_eq]
      rw [bind_run_ok onlyIf_false_run, bind_run_ok (pushedSel_iff.mp h3), bind_run_ok (pushed_iff.mp h4),
        accessed_iff.mp h5]
    · have hv := mode_v86_vm hm
      simp only [hv, hz, beq_self_eq_true, Bool.or_true, require_true_bind_run, modify_bind_run, onStack_eq]
      have h2' := leaveV86_run h2
      change leaveV86 s.segs (onStack (s1.setFlags { s1.flags with vm := false }) 0 ss esp d) = _ at h2'
      rw [bind_run_ok (onlyIf_true_run.trans h2'), bind_run_ok (pushedSel_iff.mp h3), bind_run_ok (pushed_iff.mp h4),
        accessed_iff.mp h5]

/-- A return address is pushed (R479, R490). -/
theorem pushReturn_run {z : Size} {cs : Word16} {ret : Word32} {s t u : State} (h1 : PushedSel z cs s t)
    (h2 : Pushed z.width (ret.setWidth _) t u) : pushReturn z cs ret s = .ok () u := by
  unfold pushReturn
  rw [bind_run_ok (pushedSel_iff.mp h1), pushed_iff.mp h2]

theorem inHandler_eq (f : Flags) (g : Desc) : f.inHandler g =
    { f with
      tf := false
      nt := false
      vm := false
      ifl := f.ifl && g.hi.getLsbD 8 } := by
  have : g.sysType.getLsbD 0 = g.hi.getLsbD 8 := by simp [Desc.sysType]
  unfold Flags.inHandler
  rw [this]
  cases g.hi.getLsbD 8 <;> simp

theorem not_taskGate {g : Desc} (h : g.isIntGate = true) : g.isTaskGate = false := by
  unfold Desc.isIntGate at h
  unfold Desc.isTaskGate
  revert h
  cases g.s
  · generalize g.sysType = y
    revert y
    decide
  · simp

/-- Entry through an interrupt or trap gate, in the words of the claims (R580). -/
theorem gateEntered_run {v : Byte} {kind : ExnKind} {code : Option Word16} {s t : State} (hm : s.mode ≠ .real)
    (h : GateEntered v kind code s t) : interrupt v kind code s = .ok () t := by
  obtain ⟨hl, g, c, s1, s2, t4, t5, hg, hgt, hsw, hp, ⟨hn, hc, hcc, hcd, hcp, hco⟩,
    ⟨s3, t1, t2, t3, t4, hst, p1, p2, p3, p4, rfl⟩, ha, rfl⟩ := h
  have hco' : decide (g.gateOff ≤ c.limit) = true := decide_eq_true hco
  have f1 := readEntry_frame hg
  have hi : interrupt v kind code s = interruptProt v kind code s := by
    unfold interrupt
    rw [get_bind_run]
    cases hm' : s.mode
    · exact absurd hm' hm
    · rfl
    · rfl
  rw [hi]
  unfold interruptProt
  rw [get_bind_run]
  rw [require_bind_of (by simpa using hl), bind_run_ok hg, require_bind_of (by simp [hgt]),
    require_bind_of (by
      by_cases hk : kind = .software
      · simp [hk, hsw hk]
      · simp [hk]),
    require_bind_of hp]
  simp only [not_taskGate hgt, Bool.false_eq_true, if_false]
  unfold enterGate
  rw [get_bind_run]
  simp only [not_selNull hn, Bool.not_false, require_true_bind_run]
  rw [bind_run_ok (hc _), require_bind_of (by simp [hcc, frame_level f1, hcd]), require_bind_of hcp,
    bind_run_ok (frameStack_run hst)]
  have f2 := descriptorAt_frame hc
  rw [frame_flags f2] at p1
  rw [frame_segs f2] at p2
  rw [frame_curEip f2, frame_eip f2] at p3
  rw [savedFlags_eq, bind_run_ok (pushed_iff.mp p1), returnEip_eq, bind_run_ok (pushReturn_run p2 p3),
    bind_run_ok (pushCode_run p4), modify_bind_run, require_bind_of hco', inHandler_eq]
  rw [← frame_level f1]
  exact loadCodeSeg_run ha

/-- Delivery through an interrupt or trap gate (R556, R580). -/
theorem deliver_gate {e : Exn} {s t : State} (hm : s.mode ≠ .real)
    (h : GateEntered e.vector e.kind e.code (reported e s) t) : deliver e s = t.settled := by
  have h1 : interrupt e.vector e.kind e.code (report e s) = .ok () t :=
    gateEntered_run (s := reported e s) hm h
  unfold deliver deliverFuel deliverWithin
  simp only [h1]

/-- Far returns and IRET to an outer level: the stack part (R490, R500). -/
theorem outerStack_run {z : Size} {rpl : BitVec 2} {n : Word16} {s t : State} (h : OuterStack z.width rpl n s t) :
    returnOuter z rpl n s = .ok () t := by
  obtain ⟨sp, ss, s1, s2, s3, s4, d, h1, h2, hn, hd, c1, c2, c3, c4, ha, rfl⟩ := h
  have drop : ∀ (sr : SReg) (u : State), dropInaccessible sr rpl u =
      .ok () { u with segs := u.segs.set sr (keptAt rpl (u.segs.get sr)) } := by
    intro sr u
    unfold dropInaccessible
    rw [get_bind_run]
    unfold SegReg.accessibleAt SegReg.isCode keptAt
    by_cases hk : (u.segs.get sr).valid = false ∨
        ((u.segs.get sr).type.getLsbD 2 = true ∧ (u.segs.get sr).type.getLsbD 1 = true) ∨ rpl ≤ (u.segs.get sr).dpl
    · have : (!(u.segs.get sr).valid || (u.segs.get sr).type.getLsbD 2 && (u.segs.get sr).type.getLsbD 1 ||
          decide (rpl ≤ (u.segs.get sr).dpl)) = true := by
        rcases hk with hk | ⟨hk, hk'⟩ | hk <;> simp [*]
      simp only [this, if_true, hk, pure_run]
      congr 2
      cases sr <;> rfl
    · have : (!(u.segs.get sr).valid || (u.segs.get sr).type.getLsbD 2 && (u.segs.get sr).type.getLsbD 1 ||
          decide (rpl ≤ (u.segs.get sr).dpl)) = false := by
        simp only [not_or, not_and] at hk
        simp [hk.2.2, hk.1]
        simpa using hk.2.1
      simp only [this, Bool.false_eq_true, if_false, hk]
      rfl
  unfold returnOuter
  rw [bind_run_ok (popped_iff.mp h1), bind_run_ok (popped_iff.mp h2)]
  have hl : loadStackSeg (ss.setWidth 16) rpl (exnGP 0) exnGP exnSS s2 =
      .ok () { s4 with segs := s4.segs.set .ss (protSeg d (ss.setWidth 16)) } := by
    unfold loadStackSeg
    simp only [not_selNull hn, Bool.false_eq_true, if_false]
    rw [bind_run_ok (hd _), require_bind_of (by simp [c1, c2, c3]), require_bind_of c4,
      bind_run_ok (accessed_iff.mp ha)]
    simp only [putSeg, modify_run, State.setSeg, toSeg_eq]
  rw [bind_run_ok hl, modify_bind_run, bind_run_ok (drop _ _), bind_run_ok (drop _ _), bind_run_ok (drop _ _), drop]
  rfl

/-! Call gates. -/

theorem returnPushed_run {z : Size} {s t : State} (h : ReturnPushed z s t) :
    pushReturn z s.segs.cs.sel s.eip s = .ok () t := by
  obtain ⟨u, h1, h2⟩ := h
  exact pushReturn_run h1 h2

theorem aboveTop_eq (s : State) (k : Nat) : aboveTop s k = wrap s.stackSize (s.sp + BitVec.ofNat 32 k) := by
  unfold aboveTop State.sp
  cases s.stackSize
  · simp only [wrap, extract16_add, extract16_setWidth]
    congr 2
    apply BitVec.eq_of_toNat_eq
    simp
  · rfl

/-- The parameters of a call gate are read from the old stack (R490). -/
theorem readParams_run {w : Width} (s0 : State) {vs : List (BitVec w.bits)} : ∀ {k : Nat} {s t : State},
    AccessFrame s0 s → ParamsRead w k vs s t →
      readParams w (s0.sp + BitVec.ofNat 32 k) vs.length s = .ok vs t ∧ AccessFrame s0 t := by
  induction vs with
  | nil =>
    rintro k s t hf rfl
    exact ⟨rfl, hf⟩
  | cons v vs ih =>
    rintro k s t hf ⟨u, h1, h2⟩
    have hz := frame_stackSize hf
    have hsp : s.sp = s0.sp := by
      unfold State.sp
      rw [hz, frame_regs hf]
    obtain ⟨ps, h3, h4⟩ := h1
    have fu : AccessFrame s0 u := accessFrame_trans hf (translate_frame h3)
    obtain ⟨e1, e2⟩ := ih fu h2
    refine ⟨?_, e2⟩
    have h5 := memReads_iff.mp ⟨ps, h3, h4⟩
    rw [aboveTop_eq, hsp] at h5
    simp only [readParams, List.length_cons, get_bind_run]
    rw [bind_run_ok h5]
    have : s0.sp + BitVec.ofNat 32 k + Width.off w = s0.sp + BitVec.ofNat 32 (k + w.bytes) := by
      rw [BitVec.ofNat_add, BitVec.add_assoc]
      rfl
    rw [this, bind_run_ok e1]
    rfl

theorem pushedAll_run {w : Width} {vs : List (BitVec w.bits)} : ∀ {s t : State}, PushedAll w vs s t →
    pushAll w vs s = .ok () t := by
  induction vs with
  | nil =>
    rintro s t rfl
    rfl
  | cons v vs ih =>
    rintro s t ⟨u, h1, h2⟩
    exact seq_ok (pushed_iff.mp h1) (ih h2)

theorem push_segs {w : Width} {v : BitVec w.bits} {s t : State} (h : Pushed w v s t) :
    t.segs = s.segs ∧ t.eip = s.eip := by
  obtain ⟨_, ps, s1, g, h1, _, rfl⟩ := h
  have f := translate_frame h1
  have e1 := frame_segs f
  have e2 := frame_eip f
  exact ⟨e1, e2⟩

theorem pushedAll_eip {w : Width} {vs : List (BitVec w.bits)} : ∀ {s t : State}, PushedAll w vs s t →
    t.segs = s.segs ∧ t.eip = s.eip := by
  induction vs with
  | nil =>
    rintro s t rfl
    exact ⟨rfl, rfl⟩
  | cons v vs ih =>
    rintro s t ⟨u, h1, h2⟩
    have a := push_segs h1
    have b := ih h2
    exact ⟨b.1.trans a.1, b.2.trans a.2⟩

theorem pushedSel_eip {z : Size} {v : Word16} {s t : State} (h : PushedSel z v s t) :
    t.segs = s.segs ∧ t.eip = s.eip := by
  cases z
  · exact push_segs h
  · exact push_segs (s := { s with free := s.free + 1 }) h

/-- The frame of a CALL through a gate, in the words of the claims (R490). -/
theorem gateFrame_run {z : Size} {n : Nat} {c : Desc} {s t : State} (h : GateFrame z n c s t) :
    gateFrame z n c s = .ok () t := by
  unfold gateFrame
  rw [get_bind_run]
  rcases h with ⟨hc, h⟩ | ⟨hc, hl, ss, esp, d, vs, s1, s2, t1, t2, t3, t4, h1, rfl, h2, h3, h4, h5, h6, h7⟩
  · have : (!c.conforming && decide (c.dpl < s.cpl)) = false := by
      rcases hc with hc | hc <;> simp [hc]
    simp only [this, Bool.false_eq_true, if_false]
    exact returnPushed_run h
  · have : (!c.conforming && decide (c.dpl < s.cpl)) = true := by simp [hc, hl]
    simp only [this, if_true]
    have f1 := innerStackAt_frame h1
    obtain ⟨e1, f2⟩ := readParams_run s f1 h2
    have e1' : readParams z.width s.sp vs.length s1 = .ok vs s2 := by simpa using e1
    rw [bind_run_ok (innerStack_run h1), bind_run_ok e1', modify_bind_run, onStack_eq,
      bind_run_ok (pushedSel_iff.mp h3), bind_run_ok (pushed_iff.mp h4), bind_run_ok (pushedAll_run h5)]
    have a3 := pushedSel_eip h3
    have a4 := push_segs h4
    have a5 := pushedAll_eip h5
    have hs : t3.segs.cs = s.segs.cs := by
      rw [a5.1, a4.1, a3.1]
      change s2.segs.cs = _
      rw [frame_segs f2]
    have he : t3.eip = s.eip := by
      rw [a5.2, a4.2, a3.2]
      change s2.eip = _
      rw [frame_eip f2]
    have h6' := returnPushed_run h6
    rw [hs, he] at h6'
    rw [bind_run_ok h6', accessed_iff.mp h7]

/-- A transfer through a call gate, in the words of the claims (R490). -/
theorem gateCalled_run {call : Bool} {sel : Word16} {g : Desc} {s t : State} (h1 : s.cpl ≤ g.dpl)
    (h2 : selRpl sel ≤ g.dpl) (h3 : g.p = true) (h : GateCalled call g s t) : gateCall call sel g s = .ok () t := by
  obtain ⟨c, s1, s2, s3, ⟨hn, hc, c1, c2, c3, c4⟩, hj, hf, ha, rfl⟩ := h
  have c4' : decide (g.gateOff ≤ c.limit) = true := decide_eq_true c4
  unfold gateCall
  rw [get_bind_run, require_bind_of (by simp [h1, h2]), require_bind_of h3]
  simp only [not_selNull hn, Bool.not_false, require_true_bind_run]
  rw [bind_run_ok (hc _), require_bind_of (by simp [c1, c2]), require_bind_of c3, require_bind_of (by
    cases call
    · rcases hj rfl with hj | hj <;> simp [hj]
    · simp)]
  have hf' : onlyIf call (gateFrame g.gateSize g.gateCount c) s1 = .ok () s2 := by
    cases call
    · cases hf
      rfl
    · exact gateFrame_run hf
  rw [bind_run_ok hf', require_bind_of c4']
  exact loadCodeSeg_run ha

/-! Segment loads that fail. -/

theorem readDescriptor_outside {sel : Word16} {e : Exn} {s : State} (h : OutsideTable s sel) :
    readDescriptor sel e s = .error (.exc e) s := by
  unfold OutsideTable at h
  rw [← selTi_eq, ← selIndex_toNat] at h
  unfold readDescriptor
  rw [get_bind_run]
  by_cases ht : selTi sel = true
  · rw [if_pos ht] at h
    have : (!s.ldtr.valid || decide (s.ldtr.limit.toNat < 8 * (selIndex sel).toNat + 7)) = true := by
      rcases h with h | h
      · simp [h]
      · simp [show s.ldtr.limit.toNat < 8 * (selIndex sel).toNat + 7 by omega]
    simp only [ht, if_true, this, raise_run]
  · rw [if_neg ht] at h
    have : s.gdtr.limit.toNat < 8 * (selIndex sel).toNat + 7 := by omega
    simp only [ht, Bool.false_eq_true, if_false, this, if_true, raise_run]

theorem require_bind_fail {β : Type} {c : Bool} {e : Exn} {f : PUnit → M β} {s : State} (h : c = false) :
    (require c e >>= f) s = .error (.exc e) s := by
  rw [h]
  rfl

/-- A segment load that fails, in the words of the claims (R118). -/
theorem segLoadFails_run {sr : SReg} {sel : Word16} {e : Exn} {s t : State} (h : SegLoadFails sr sel e s t) :
    loadSeg sr sel s = .error (.exc e) t := by
  obtain ⟨hm, h⟩ := h
  unfold loadSeg
  rw [get_bind_run]
  simp only [hm]
  rcases h with ⟨hn, rfl, rfl, rfl⟩ | ⟨hn, ho, rfl, rfl⟩ | ⟨hn, d, hd, h⟩
  · simp [loadStackSeg, selNull_iff.mpr hn]
  · by_cases hs : sr = .ss
    · simp only [hs, if_true, loadStackSeg, not_selNull hn, Bool.false_eq_true, if_false]
      exact bind_run_error (readDescriptor_outside ho)
    · simp only [hs, if_false, loadDataSeg, not_selNull hn, Bool.false_eq_true]
      exact bind_run_error (readDescriptor_outside ho)
  · rcases h with ⟨rfl, hc, rfl⟩ | ⟨rfl, ⟨c1, c2, c3⟩, hp, rfl⟩ | ⟨hs, hc, rfl⟩ | ⟨hs, ⟨c1, c2⟩, hp, rfl⟩
    · simp only [if_true, loadStackSeg, not_selNull hn, Bool.false_eq_true, if_false]
      rw [bind_run_ok (hd _), require_bind_fail (by
        rw [Bool.eq_false_iff]
        intro hx
        simp only [Bool.and_eq_true, beq_iff_eq] at hx
        exact hc ⟨hx.1.1, hx.1.2, hx.2⟩)]
      rfl
    · simp only [if_true, loadStackSeg, not_selNull hn, Bool.false_eq_true, if_false]
      rw [bind_run_ok (hd _), require_bind_of (by simp [c1, c2, c3]), require_bind_fail hp]
      rfl
    · simp only [hs, if_false, loadDataSeg, not_selNull hn, Bool.false_eq_true]
      rw [bind_run_ok (hd _)]
      by_cases c1 : d.loadable = true
      · rw [require_bind_of c1, require_bind_fail (by
          rw [Bool.eq_false_iff]
          intro hx
          exact hc ⟨c1, by simpa using hx⟩)]
        rfl
      · rw [require_bind_fail (by simpa using c1)]
        rfl
    · simp only [hs, if_false, loadDataSeg, not_selNull hn, Bool.false_eq_true]
      rw [bind_run_ok (hd _), require_bind_of c1, require_bind_of (by simpa using c2), require_bind_fail hp]
      rfl

/-- A bad inner stack raises #TS (R490, R580). -/
theorem innerStackFails_run {level : BitVec 2} {ext : Word16} {e : Exn} {s t : State}
    (h : InnerStackFails level ext e s t) : innerStack level ext s = .error (.exc e) t := by
  unfold innerStack tssStack
  rcases h with ⟨hv, rfl, rfl⟩ | ⟨hv, hl, ss, esp, s1, s2, h1, h2, rfl, h3⟩
  · have hc : (!t.tr.valid || decide (t.tr.limit.toNat < 4 + 8 * level.toNat + 7)) = true := by
      by_cases h1 : t.tr.valid = true
      · have : ¬8 * level.toNat + 11 ≤ t.tr.limit.toNat := fun h => hv ⟨h1, h⟩
        simp only [h1, Bool.not_true, Bool.false_or, decide_eq_true_eq]
        omega
      · simp [h1]
    simp only [bind_assoc]
    rw [get_bind_run]
    simp only [hc, if_true]
    rfl
  · have hc : (!s.tr.valid || decide (s.tr.limit.toNat < 4 + 8 * level.toNat + 7)) = false := by
      have : ¬s.tr.limit.toNat < 4 + 8 * level.toNat + 7 := by omega
      simp [hv, this]
    have e1 : 4 + 8 * level.toNat + 4 = 8 * level.toNat + 8 := by omega
    have e2 : 4 + 8 * level.toNat = 8 * level.toNat + 4 := by omega
    simp only [bind_assoc]
    rw [get_bind_run]
    simp only [hc, Bool.false_eq_true, if_false, bind_assoc, e1]
    rw [bind_run_ok h1, e2, bind_run_ok h2]
    simp only [pure_bind]
    rcases h3 with ⟨hn | ho, rfl⟩ | ⟨hn, d, hd, hb⟩
    · rw [require_bind_fail (by simp [selNull_iff.mpr hn])]
      rfl
    · by_cases hn : ss.toNat < 4
      · rw [require_bind_fail (by simp [selNull_iff.mpr hn])]
        rfl
      · simp only [not_selNull (Nat.le_of_not_lt hn), Bool.not_false, require_true_bind_run]
        exact bind_run_error (readDescriptor_outside ho)
    · simp only [not_selNull hn, Bool.not_false, require_true_bind_run]
      rw [bind_run_ok (hd _), require_bind_fail]
      · rfl
      · rw [Bool.eq_false_iff]
        intro hx
        apply hb
        simpa [and_assoc] using hx

/-- A return to an outer level with a bad SS (R118, R490, R500). -/
theorem outerStackFails_run {z : Size} {rpl : BitVec 2} {n : Word16} {e : Exn} {s t : State}
    (h : OuterStackFails z.width rpl e s t) : returnOuter z rpl n s = .error (.exc e) t := by
  obtain ⟨sp, slot, s1, s2, h1, h2, h3⟩ := h
  unfold returnOuter
  rw [bind_run_ok (popped_iff.mp h1), bind_run_ok (popped_iff.mp h2)]
  apply bind_run_error
  unfold loadStackSeg
  rcases h3 with ⟨hn, rfl, rfl⟩ | ⟨hn, ho, rfl, rfl⟩ | ⟨hn, d, hd, ⟨hb, rfl⟩ | ⟨hb, hp, rfl⟩⟩
  · simp only [selNull_iff.mpr hn, if_true]
    rfl
  · simp only [not_selNull hn, Bool.false_eq_true, if_false]
    exact bind_run_error (readDescriptor_outside ho)
  · simp only [not_selNull hn, Bool.false_eq_true, if_false]
    rw [bind_run_ok (hd _), require_bind_fail]
    · rfl
    · rw [Bool.eq_false_iff]
      intro hx
      apply hb
      simpa [and_assoc] using hx
  · simp only [not_selNull hn, Bool.false_eq_true, if_false]
    rw [bind_run_ok (hd _), require_bind_of (by simp [hb]), require_bind_fail hp]
    rfl

/-! Task switches. -/

theorem leNat_bytes16 (v : Word16) : BitVec.ofNat 16 (leNat (bytes16 v)) = v := by
  apply BitVec.eq_of_toNat_eq
  have := v.isLt
  simp [bytes16, leNat, byteOf, BitVec.extractLsb'_toNat, Nat.shiftRight_eq_div_pow]
  omega

theorem leNat_bytes32 (v : Word32) : BitVec.ofNat 32 (leNat (bytes32 v)) = v := by
  apply BitVec.eq_of_toNat_eq
  have := v.isLt
  simp [bytes32, leNat, byteOf, BitVec.extractLsb'_toNat, Nat.shiftRight_eq_div_pow]
  omega

theorem sysRead16_of {a : Word32} {v : Word16} {s t : State} (h : sysRead a (bytes16 v).length s = .ok (bytes16 v) t) :
    sysRead16 a s = .ok v t := by
  unfold sysRead16
  have h' : sysRead a 2 s = .ok (bytes16 v) t := h
  rw [bind_run_ok h', leNat_bytes16]
  rfl

theorem sysRead32_of {a : Word32} {v : Word32} {s t : State} (h : sysRead a (bytes32 v).length s = .ok (bytes32 v) t) :
    sysRead32 a s = .ok v t := by
  unfold sysRead32
  have h' : sysRead a 4 s = .ok (bytes32 v) t := h
  rw [bind_run_ok h', leNat_bytes32]
  rfl

/-- The registers of a task are saved (R127, R596). -/
theorem saveTss_run {ret img : Word32} {s t : State} (h : TssWrites s.tr.base (savedItems s ret img) s t) :
    saveTss ret img s = .ok () t := by
  obtain ⟨_, h1, _, h2, _, h3, _, h4, _, h5, _, h6, _, h7, _, h8, _, h9, _, h10, _, h11, _, h12, _, h13, _, h14, _,
    h15, _, h16, rfl⟩ := h
  unfold saveTss
  rw [get_bind_run]
  exact seq_ok h1 (seq_ok h2 (seq_ok h3 (seq_ok h4 (seq_ok h5 (seq_ok h6 (seq_ok h7 (seq_ok h8 (seq_ok h9
    (seq_ok h10 (seq_ok h11 (seq_ok h12 (seq_ok h13 (seq_ok h14 (seq_ok h15 h16))))))))))))))

/-- The registers of a task are read (R127, R596). -/
theorem readTss_run {base : Word32} {k : TssImage} {s t : State} (h : TssReads base (loadedItems k) s t) :
    readTss base s = .ok k t := by
  obtain ⟨_, h1, _, h2, _, h3, _, h4, _, h5, _, h6, _, h7, _, h8, _, h9, _, h10, _, h11, _, h12, _, h13, _, h14, _,
    h15, _, h16, _, h17, rfl⟩ := h
  unfold readTss
  exact seq_ok (sysRead16_of h1) (seq_ok (sysRead32_of h2) (seq_ok (sysRead32_of h3) (seq_ok (sysRead32_of h4)
    (seq_ok (sysRead32_of h5) (seq_ok (sysRead32_of h6) (seq_ok (sysRead32_of h7) (seq_ok (sysRead32_of h8)
    (seq_ok (sysRead32_of h9) (seq_ok (sysRead32_of h10) (seq_ok (sysRead32_of h11) (seq_ok (sysRead16_of h12)
    (seq_ok (sysRead16_of h13) (seq_ok (sysRead16_of h14) (seq_ok (sysRead16_of h15) (seq_ok (sysRead16_of h16)
    (seq_ok (sysRead16_of h17) rfl))))))))))))))))

/-- The busy bit of a descriptor is set or cleared (R119, R596). -/
theorem setBusy_run {c : Prop} {q b : Bool} {sel : Word16} {s t : State} (hq : q = true ↔ c)
    (h : BusyIf c sel b s t) : onlyIf q (setBusy sel b) s = .ok () t := by
  rcases h with ⟨hc, rfl⟩ | ⟨hc, v, u, h1, h2⟩
  · have : q = false := by
      rw [Bool.eq_false_iff]
      exact fun hx => hc (hq.mp hx)
    rw [this]
    rfl
  · rw [hq.mpr hc]
    change setBusy sel b s = _
    unfold setBusy
    rw [get_bind_run]
    have ha : s.gdtr.base + BitVec.ofNat 32 (8 * (selIndex sel).toNat) + 5 =
        s.gdtr.base + BitVec.ofNat 32 (8 * (sel.toNat / 8) + 5) := by
      rw [selIndex_toNat, BitVec.ofNat_add, BitVec.add_assoc]
      rfl
    have hv : BitVec.ofNat 8 (leNat [v]) = v := by
      apply BitVec.eq_of_toNat_eq
      have := v.isLt
      simp [leNat]
    simp only [ha]
    rw [bind_run_ok h1]
    simp only [hv]
    exact h2

theorem enterTss_paging (s : State) (sel : Word16) (d : Desc) : (s.enterTss sel d).paging = s.paging := by
  simp [State.paging, State.pg, State.pe, State.enterTss]

theorem frame_paging {s t : State} (h : AccessFrame s t) : t.paging = s.paging := by
  rw [h.same]
  rfl

theorem frame_gdtr {s t : State} (h : AccessFrame s t) : t.gdtr = s.gdtr := by rw [h.same]

theorem sysRead_frame {a : Word32} {n : Nat} {v : List Byte} {s t : State} (h : sysRead a n s = .ok v t) :
    AccessFrame s t :=
  keeps_ok (keeps_sysRead s a n) (accessFrame_refl s) h

theorem tssReads_frame {base : Word32} {l : List (Nat × List Byte)} : ∀ {s t : State}, TssReads base l s t →
    AccessFrame s t := by
  induction l with
  | nil =>
    rintro s t rfl
    exact accessFrame_refl t
  | cons x r ih =>
    rintro s t ⟨u, h1, h2⟩
    exact accessFrame_trans (sysRead_frame h1) (ih h2)

/-- Nothing but memory, the TLB, the pending breakpoints and the page marks differs. -/
def MemoryOnly (s t : State) : Prop :=
  t = { s with tlb := t.tlb, dbg := t.dbg, mem := t.mem, adMarks := t.adMarks }

theorem memoryOnly_trans {s t u : State} (h1 : MemoryOnly s t) (h2 : MemoryOnly t u) : MemoryOnly s u := by
  unfold MemoryOnly at *
  rw [h2, h1]

theorem sysWrite_frame {a : Word32} {v : List Byte} {s t : State} (h : sysWrite a v s = .ok () t) :
    MemoryOnly s t := by
  unfold sysWrite at h
  obtain ⟨ps, u, h1, h2⟩ := bind_run_eq_ok h
  have f := (keeps_ok (keeps_pages s .write false a v.length) (accessFrame_refl s) h1).same
  cases h2
  unfold MemoryOnly
  rw [f]
  rfl

theorem tssWrites_frame {base : Word32} {l : List (Nat × List Byte)} : ∀ {s t : State}, TssWrites base l s t →
    MemoryOnly s t := by
  induction l with
  | nil =>
    rintro s t rfl
    rfl
  | cons x r ih =>
    rintro s t ⟨u, h1, h2⟩
    exact memoryOnly_trans (sysWrite_frame h1) (ih h2)

theorem busyIf_frame {c : Prop} {sel : Word16} {b : Bool} {s t : State} (h : BusyIf c sel b s t) :
    MemoryOnly s t := by
  rcases h with ⟨_, rfl⟩ | ⟨_, v, u, h1, h2⟩
  · rfl
  · exact memoryOnly_trans (sysRead_frame h1).same (sysWrite_frame h2)

theorem accessed_frame {d : Desc} {s t : State} (h : Accessed d s t) : MemoryOnly s t := by
  unfold Accessed at h
  split at h
  · cases h
    rfl
  · exact sysWrite_frame h

/-- The level and the parts of the mode are the same. -/
structure SameLevel (s t : State) : Prop where
  cpl : t.cpl = s.cpl
  cr0 : t.cr0 = s.cr0
  vm : t.flags.vm = s.flags.vm

theorem sameLevel_mode {s t : State} (h : SameLevel s t) : t.mode = s.mode := by
  unfold State.mode State.pe
  rw [h.cr0, h.vm]

theorem sameLevel_trans {s t u : State} (h1 : SameLevel s t) (h2 : SameLevel t u) : SameLevel s u :=
  ⟨h2.cpl.trans h1.cpl, h2.cr0.trans h1.cr0, h2.vm.trans h1.vm⟩

theorem memoryOnly_level {s t : State} (h : MemoryOnly s t) : SameLevel s t := by
  unfold MemoryOnly at h
  rw [h]
  exact ⟨rfl, rfl, rfl⟩

/-- A segment load keeps the level and the mode (R118). -/
theorem segLoads_level {sr : SReg} {sel : Word16} {s t : State} (h : SegLoads sr sel s t) : SameLevel s t := by
  unfold SegLoads at h
  split at h
  · split at h
    · obtain ⟨_, rfl⟩ := h
      exact ⟨rfl, rfl, rfl⟩
    · obtain ⟨d, s1, s2, h1, _, _, h2, rfl⟩ := h
      have := sameLevel_trans (memoryOnly_level (descriptorAt_frame h1).same) (memoryOnly_level (accessed_frame h2))
      exact ⟨this.cpl, this.cr0, this.vm⟩
  · cases h
    exact ⟨rfl, rfl, rfl⟩

theorem ldtLoaded_level {sel : Word16} {s t : State} (h : LdtLoaded sel s t) : SameLevel s t := by
  unfold LdtLoaded at h
  split at h
  · cases h
    exact ⟨rfl, rfl, rfl⟩
  · obtain ⟨_, d, u, h1, _, _, rfl⟩ := h
    have := memoryOnly_level (descriptorAt_frame h1).same
    exact ⟨this.cpl, this.cr0, this.vm⟩

theorem taskCode_level {sel : Word16} {s t : State} (h : TaskCodeLoads sel s t) : SameLevel s t := by
  unfold TaskCodeLoads at h
  split at h
  · obtain ⟨_, d, s1, s2, h1, _, h2, rfl⟩ := h
    have := sameLevel_trans (memoryOnly_level (descriptorAt_frame h1).same) (memoryOnly_level (accessed_frame h2))
    exact ⟨this.cpl, this.cr0, this.vm⟩
  · exact segLoads_level h

theorem segLoads_stack {sel : Word16} {s t : State} {e : Exn} {f g : Word16 → Exn} (hm : s.mode = .prot)
    (h : SegLoads .ss sel s t) : loadStackSeg sel s.cpl e f g s = .ok () t := by
  unfold SegLoads at h
  simp only [hm] at h
  split at h
  · exact absurd rfl h.1
  · next hn =>
    obtain ⟨d, s1, s2, h1, ⟨c1, c2, c3⟩, h2, h3, rfl⟩ := h
    simp only [loadStackSeg, not_selNull (by omega : 4 ≤ sel.toNat), Bool.false_eq_true, if_false]
    rw [bind_run_ok (h1 _), require_bind_of (by simp [c1, c2, c3]), require_bind_of h2,
      bind_run_ok (accessed_iff.mp h3)]
    simp only [putSeg, modify_run, State.setSeg, toSeg_eq]

theorem segLoads_data {sr : SReg} {sel : Word16} {s t : State} {f g : Word16 → Exn} (hm : s.mode = .prot)
    (hs : sr ≠ .ss) (h : SegLoads sr sel s t) : loadDataSeg sr sel s.cpl f g s = .ok () t := by
  unfold SegLoads at h
  simp only [hm, hs, if_false] at h
  split at h
  · next hn =>
    obtain ⟨_, rfl⟩ := h
    simp only [loadDataSeg, selNull_iff.mpr hn, if_true, get_bind_run, putSeg, modify_run, State.setSeg,
      SegReg.loadNull]
  · next hn =>
    obtain ⟨d, s1, s2, h1, ⟨c1, c2⟩, h2, h3, rfl⟩ := h
    simp only [loadDataSeg, not_selNull (by omega : 4 ≤ sel.toNat), Bool.false_eq_true, if_false]
    rw [bind_run_ok (h1 _), require_bind_of c1, require_bind_of (by simpa using c2), require_bind_of h2,
      bind_run_ok (accessed_iff.mp h3)]
    simp only [putSeg, modify_run, State.setSeg, toSeg_eq]

theorem segLoads_real {sr : SReg} {sel : Word16} {s t : State} (hm : s.mode = .v86) (h : SegLoads sr sel s t) :
    loadSegReal sr sel s = .ok () t := by
  have h' := segLoads_iff.mp h
  unfold loadSeg at h'
  rw [get_bind_run] at h'
  simpa only [hm] using h'

/-- LDTR of the new task (R57, R596). -/
theorem ldtLoaded_run {sel ext : Word16} {s t : State} (h : LdtLoaded sel s t) : loadLdtr sel ext s = .ok () t := by
  unfold LdtLoaded at h
  unfold loadLdtr
  split at h
  · next hn =>
    cases h
    simp only [selNull_iff.mpr hn, if_true, modify_run]
  · next hn =>
    obtain ⟨ht, d, u, h1, h2, h3, rfl⟩ := h
    simp only [not_selNull (by omega : 4 ≤ sel.toNat), Bool.false_eq_true, if_false, selTi_eq, ht, Bool.not_false,
      require_true_bind_run]
    rw [bind_run_ok (h1 _), require_bind_of (by simp [h2, h3]), modify_run]

/-- The segment registers and LDTR of the new task (R596). -/
theorem loadTaskSegs_run {k : TssImage} {ext : Word16} {n0 n1 n2 n3 n4 n5 n6 n7 : State} (hpe : n0.pe = true)
    (h0 : LdtLoaded k.ldt n0 n1) (h1 : TaskCodeLoads k.cs n1 n2) (h2 : SegLoads .ss k.ss n2 n3)
    (h3 : SegLoads .ds k.ds n3 n4) (h4 : SegLoads .es k.es n4 n5) (h5 : SegLoads .fs k.fs n5 n6)
    (h6 : SegLoads .gs k.gs n6 n7) : loadTaskSegs k ext n0 = .ok () n7 := by
  have l0 := ldtLoaded_level h0
  have l1 := taskCode_level h1
  have l2 := segLoads_level h2
  have l3 := segLoads_level h3
  have l4 := segLoads_level h4
  have l5 := segLoads_level h5
  have p1 : n1.pe = true := by
    unfold State.pe at *
    rw [l0.cr0, hpe]
  unfold loadTaskSegs
  rw [bind_run_ok (ldtLoaded_run h0), get_bind_run]
  cases hv : n1.flags.vm
  · have m1 : n1.mode = .prot := by simp [State.mode, p1, hv]
    have m2 := (sameLevel_mode l1).trans m1
    have m3 := (sameLevel_mode l2).trans m2
    have m4 := (sameLevel_mode l3).trans m3
    have m5 := (sameLevel_mode l4).trans m4
    have m6 := (sameLevel_mode l5).trans m5
    have c2 := l1.cpl
    have c3 := l2.cpl.trans c2
    have c4 := l3.cpl.trans c3
    have c5 := l4.cpl.trans c4
    have c6 := l5.cpl.trans c5
    have hc : loadTaskCode k.cs ext n1 = .ok () n2 := by
      unfold TaskCodeLoads at h1
      simp only [m1] at h1
      obtain ⟨hn, d, s1, s2, a1, ⟨b1, b2, b3⟩, a2, rfl⟩ := h1
      unfold loadTaskCode
      simp only [not_selNull hn, Bool.not_false, require_true_bind_run]
      rw [bind_run_ok (a1 _), require_bind_of (by
        rw [b1]
        cases hf : d.conforming <;> simpa [hf] using b3), require_bind_of b2, bind_run_ok (accessed_iff.mp a2)]
      simp only [putSeg, modify_run, State.setSeg, toSeg_eq]
    simp only [Bool.false_eq_true, if_false]
    rw [bind_run_ok hc]
    have e2 := segLoads_stack (e := exnTS (selCode k.ss ||| ext)) (f := fun c => exnTS (c ||| ext))
      (g := fun c => exnSS (c ||| ext)) m2 h2
    rw [c2] at e2
    rw [bind_run_ok e2]
    have e3 := segLoads_data (f := fun c => exnTS (c ||| ext)) (g := fun c => exnNP (c ||| ext)) m3 (by decide) h3
    rw [c3] at e3
    rw [bind_run_ok e3]
    have e4 := segLoads_data (f := fun c => exnTS (c ||| ext)) (g := fun c => exnNP (c ||| ext)) m4 (by decide) h4
    rw [c4] at e4
    rw [bind_run_ok e4]
    have e5 := segLoads_data (f := fun c => exnTS (c ||| ext)) (g := fun c => exnNP (c ||| ext)) m5 (by decide) h5
    rw [c5] at e5
    rw [bind_run_ok e5]
    have e6 := segLoads_data (f := fun c => exnTS (c ||| ext)) (g := fun c => exnNP (c ||| ext)) m6 (by decide) h6
    rw [c6] at e6
    exact e6
  · have m1 : n1.mode = .v86 := by simp [State.mode, p1, hv]
    have m2 := (sameLevel_mode l1).trans m1
    have m3 := (sameLevel_mode l2).trans m2
    have m4 := (sameLevel_mode l3).trans m3
    have m5 := (sameLevel_mode l4).trans m4
    have m6 := (sameLevel_mode l5).trans m5
    have h1' : SegLoads .cs k.cs n1 n2 := by
      unfold TaskCodeLoads at h1
      simpa only [m1] using h1
    simp only [if_true]
    rw [bind_run_ok (segLoads_real m1 h1'), bind_run_ok (segLoads_real m2 h2), bind_run_ok (segLoads_real m3 h3),
      bind_run_ok (segLoads_real m4 h4), bind_run_ok (segLoads_real m5 h5), segLoads_real m6 h6]

/-- The flags of an image, by their rules (R26). -/
theorem imageFlags_eq {v : Word32} {f : Flags} (h : ImageFlags v f) (h1 : f.ifl = v.getLsbD 9)
    (h2 : f.iopl = v.extractLsb' 12 2) (h3 : f.rf = v.getLsbD 16) (h4 : f.vm = v.getLsbD 17) :
    f = Flags.ofImage v := by
  obtain ⟨a, b, c, d, e, g, i, j, k⟩ := h
  cases f
  simp only at *
  subst a b c d e g i j k h1 h2 h3 h4
  rfl

/-- The checks of a task switch (R596). -/
theorem checkTask_run {cause : TaskCause} {direct : Bool} {sel ext : Word16} {d : Desc} {s s1 : State}
    (hn : 4 ≤ sel.toNat) (ht : sel.getLsbD 2 = false) (hd : DescriptorAt sel d s s1) (h1 : d.isTss = true)
    (h2 : d.p = true) (h3 : 103 ≤ d.limit.toNat) (h4 : direct = true → s.cpl ≤ d.dpl ∧ selRpl sel ≤ d.dpl)
    (h5 : d.busy = true ↔ cause = .iret) (h6 : s.tr.valid = true) (h7 : 103 ≤ s.tr.limit.toNat) :
    checkTask cause direct sel ext s = .ok d s1 := by
  unfold checkTask
  rw [get_bind_run]
  simp only [selTi_eq, ht, not_selNull hn, Bool.not_false, Bool.and_self, require_true_bind_run]
  rw [bind_run_ok (hd _), require_bind_of h1, require_bind_of h2, require_bind_of (by simpa using h3),
    require_bind_of (by
      cases direct
      · rfl
      · have := h4 rfl
        simp [this.1, this.2]),
    require_bind_of (by
      by_cases hc : cause = .iret
      · simp [hc, h5.mpr hc]
      · have : d.busy = false := by
          rw [Bool.eq_false_iff]
          exact fun hx => hc (h5.mp hx)
        simp [hc, this]),
    require_bind_of (by simp [h6, h7])]
  rfl

/-- A task switch, in the words of the claims (R596). -/
theorem taskSwitched_run {cause : TaskCause} {direct : Bool} {sel ext : Word16} {ret img : Word32} {s t : State}
    (hpe : s.pe = true) (h : TaskSwitched cause direct sel ret img s t) :
    taskSwitch cause direct sel ret img ext s = .ok () t := by
  obtain ⟨hn, ht, d, s1, s2, s3, s4, s5, s6, s7, k, hd, c1, c2, c3, c4, c5, c6, c7, hw, hb, hl, hb2, h3, hr,
    f, n0, n1, n2, n3, n4, n5, n6, n7, lo, hi, hf, hfi, hfp, hfr, hfv, rfl, l0, l1, l2, l3, l4, l5, l6, u, hu, rfl⟩ := h
  have f1 := descriptorAt_frame hd
  have m5 : MemoryOnly s1 s5 := by
    refine memoryOnly_trans (tssWrites_frame hw) (memoryOnly_trans (busyIf_frame hb) (memoryOnly_trans ?_
      (busyIf_frame hb2)))
    split at hl
    · exact tssWrites_frame hl
    · cases hl
      rfl
  have m5' : MemoryOnly s s5 := memoryOnly_trans f1.same m5
  have pg : s5.paging = s.paging := by
    unfold MemoryOnly at m5'
    rw [m5']
    rfl
  unfold taskSwitch
  rw [bind_run_ok (checkTask_run hn ht hd c1 c2 c3 c4 c5 c6 c7), get_bind_run, frame_tr f1]
  rw [← frame_tr f1] at hw
  have hs : saveTss ret (if cause = .iret then img &&& 0xFFFFBFFF else img) s1 = .ok () s2 := by
    apply saveTss_run
    unfold savedItems at hw ⊢
    rw [frame_regs f1, frame_segs f1]
    exact hw
  rw [bind_run_ok hs, bind_run_ok (setBusy_run (by cases cause <;> simp) hb)]
  have hl' : onlyIf (cause == .call || cause == .interrupt) (sysWrite16 d.base s.tr.sel) s3 = .ok () s4 := by
    split at hl
    · next hc =>
      have : (cause == .call || cause == .interrupt) = true := by
        rcases hc with hc | hc <;> simp [hc]
      rw [this]
      obtain ⟨w, a1, rfl⟩ := hl
      have e : d.base + BitVec.ofNat 32 0 = d.base := by simp
      rw [e] at a1
      exact a1
    · next hc =>
      have : (cause == .call || cause == .interrupt) = false := by
        cases cause <;> simp_all
      rw [this, hl]
      rfl
  rw [bind_run_ok hl', bind_run_ok (setBusy_run (by cases cause <;> simp) hb2), modify_bind_run]
  have h3' : loadTaskCr3 d.base (s5.enterTss sel d) = .ok () s6 := by
    unfold loadTaskCr3
    rw [get_bind_run, enterTss_paging, pg]
    simp only at h3
    split at h3
    · next hp =>
      obtain ⟨v, w, ⟨w', a1, hw'⟩, rfl⟩ := h3
      cases hw'
      have a2 : sysRead32 (d.base + 0x1C) (s5.enterTss sel d) = .ok v w := sysRead32_of a1
      simp only [hp, if_true]
      rw [bind_run_ok a2, modify_run]
      rfl
    · next hp =>
      simp only [hp, Bool.false_eq_true, if_false, h3]
      rfl
  rw [bind_run_ok h3', bind_run_ok (readTss_run hr), modify_bind_run]
  have he : ∀ n, n = decide (cause = .call ∨ cause = .interrupt) → s7.enterTask k n = goTo { s7 with
        curEip := k.eip
        flags := { f with nt := f.nt || (cause == .call || cause == .interrupt) }
        rfKept := true
        regs := k.regs
        segs :=
          { es := { s7.segs.es with sel := k.es, valid := false }
            cs := { s7.segs.cs with sel := k.cs, valid := false }
            ss := { s7.segs.ss with sel := k.ss, valid := false }
            ds := { s7.segs.ds with sel := k.ds, valid := false }
            fs := { s7.segs.fs with sel := k.fs, valid := false }
            gs := { s7.segs.gs with sel := k.gs, valid := false } }
        ldtr := ⟨k.ldt, 0, 0, false⟩
        cpl := if f.vm then 3 else selRpl k.cs
        dr := { s7.dr with dr7 := s7.dr.dr7 &&& 0xFFFFFEAA } } k.eip := by
    rintro n rfl
    rw [imageFlags_eq hf hfi hfp hfr hfv]
    cases cause <;> rfl
  rw [he _ (by cases cause <;> rfl)]
  have p6 : s6.pe = true := by
    simp only at h3
    have e5 : (s5.enterTss sel d).pe = true := by
      unfold MemoryOnly at m5'
      have : s5.cr0 = s.cr0 := by rw [m5']
      simp only [State.pe, State.enterTss, this, BitVec.getLsbD_or]
      simp only [State.pe] at hpe
      simp [hpe]
    split at h3
    · obtain ⟨v, u', ⟨w, a1, rfl⟩, rfl⟩ := h3
      have := (sysRead_frame a1).same
      unfold State.pe at e5 ⊢
      rw [this]
      exact e5
    · rw [h3]
      exact e5
  have p7 : s7.pe = true := by
    have := (tssReads_frame hr).same
    unfold State.pe at p6 ⊢
    rw [this]
    exact p6
  have e1 := loadTaskSegs_run (ext := ext) (by exact p7) l0 l1 l2 l3 l4 l5 l6
  have e2 : noteTaskTrap d.base n7 = .ok () { u with dbg := { u.dbg with bt := u.dbg.bt || lo.getLsbD 0 } } := by
    obtain ⟨w, a1, hw'⟩ := hu
    cases hw'
    have a2 : sysRead16 (d.base + 0x64) n7 = .ok (BitVec.ofNat 16 (leNat [lo, hi])) u := by
      unfold sysRead16
      have a1' : sysRead (d.base + 0x64) 2 n7 = .ok [lo, hi] u := a1
      rw [bind_run_ok a1']
      rfl
    have hb : (BitVec.ofNat 16 (leNat [lo, hi])).getLsbD 0 = lo.getLsbD 0 := by
      simp only [leNat, BitVec.getLsbD, Nat.testBit_zero, BitVec.toNat_ofNat]
      congr 1
      simp only [eq_iff_iff]
      omega
    unfold noteTaskTrap
    rw [bind_run_ok a2, hb]
    cases lo.getLsbD 0 <;> simp
  unfold inNewTask
  rw [bind_run_ok e1, e2]

theorem inNewTask_ok {m : M Unit} {s t : State} (h : m s = .ok () t) : inNewTask m s = .ok () t := by
  unfold inNewTask
  rw [h]

/-- Entry through a task gate, in the words of the claims (R580, R596). -/
theorem taskGateEntered_run {v : Byte} {kind : ExnKind} {code : Option Word16} {s t : State} (hm : s.mode ≠ .real)
    (h : TaskGateEntered v kind code s t) : interrupt v kind code s = .ok () t := by
  obtain ⟨hl, g, s1, s2, hg, hgt, hsw, hp, ht, hc⟩ := h
  have f1 := readEntry_frame hg
  have hpe : s.pe = true := by
    unfold State.mode at hm
    by_contra hx
    exact hm (by simp [hx])
  have hpe1 : s1.pe = true := (frame_pe f1).trans hpe
  have hi : interrupt v kind code s = interruptProt v kind code s := by
    unfold interrupt
    rw [get_bind_run]
    cases hm' : s.mode
    · exact absurd hm' hm
    · rfl
    · rfl
  rw [hi]
  unfold interruptProt
  rw [get_bind_run, require_bind_of (by simpa using hl), bind_run_ok hg, require_bind_of (by simp [hgt]),
    require_bind_of (by
      by_cases hk : kind = .software
      · simp [hk, hsw hk]
      · simp [hk]),
    require_bind_of hp]
  simp only [hgt, if_true]
  rw [← returnEip_eq, ← savedFlags_eq] at ht
  rw [bind_run_ok (taskSwitched_run hpe1 ht)]
  exact inNewTask_ok (pushCode_run (z := .s32) hc)

/-- Entry through a gate, in the words of the claims (R580). -/
theorem entered_run {v : Byte} {kind : ExnKind} {code : Option Word16} {s t : State} (h : Entered v kind code s t) :
    interrupt v kind code s = .ok () t :=
  h.2.elim (gateEntered_run h.1) (taskGateEntered_run h.1)

end Sys2Proof.Machine
end

