-- ==== Sys2Proof/Tests/Slice0.lean ====
section
/-! SUPPORT. Tests of our own: ill-formed terms are refused, every row of the opcode table decodes from bytes
written out from its notation, worked values of spec/95_test_vectors.md, and for each obligation with hypotheses
a state and operands that meet them. -/

namespace Sys2Proof.Tests

-- One declaration at a time: each kernel evaluation otherwise waits in a thread of its own.
set_option Elab.async false

open Sys2Proof.Machine Sys2Proof.Safety Sys2Proof.Claims

/-! Well-formedness: one ill-formed term for each check. -/

theorem test_wf_operand_size : (Instr.movRvIv .eax (.d 1)).wf .s16 .s16 = false := rfl

theorem test_wf_address_size : (Instr.movAlOff (.w 1)).wf .s16 .s32 = false := rfl

theorem test_wf_m16_in_32_bit_code : (EA.m16 .bxSi .none).wf .s32 = false := rfl

theorem test_wf_bp_without_displacement : (EA.m16 .bp .none).wf .s16 = false := rfl

theorem test_wf_dir16_in_32_bit_code : (EA.dir16 1).wf .s32 = false := rfl

theorem test_wf_m32_in_16_bit_code : (EA.m32 .eax .none).wf .s16 = false := rfl

theorem test_wf_esp_base_without_sib : (EA.m32 .esp .none).wf .s32 = false := rfl

theorem test_wf_ebp_without_displacement : (EA.m32 .ebp .none).wf .s32 = false := rfl

theorem test_wf_dir32_in_16_bit_code : (EA.dir32 1).wf .s16 = false := rfl

theorem test_wf_sib_in_16_bit_code : (EA.sib 0 none (some .eax) .none).wf .s16 = false := rfl

theorem test_wf_esp_index : (EA.sib 0 (some .esp) (some .eax) .none).wf .s32 = false := rfl

theorem test_wf_no_base_without_d32 : (EA.sib 0 (some .eax) none (.d8 1)).wf .s32 = false := rfl

theorem test_wf_sib_ebp_without_displacement : (EA.sib 0 none (some .ebp) .none).wf .s32 = false := rfl

theorem test_wf_operand : (Instr.addRmbRb (.mem (.m16 .bp .none)) .eax).wf .s16 .s16 = false := rfl

theorem test_wf_operand_and_immediate : (Instr.addRmvIv (.reg .eax) (.d 1)).wf .s16 .s16 = false := rfl

theorem test_wf_mov_to_cs : (Instr.movSregRmw .cs (.reg .eax)).wf .s16 .s16 = false := rfl

theorem test_wf_xchg_ax_ax : (Instr.xchgAxRv .eax).wf .s16 .s16 = false := rfl

theorem test_wf_memory_only : (Instr.lea .eax (.m32 .eax .none)).wf .s16 .s16 = false := rfl

theorem test_wf_pop_memory : (Instr.popRmv (.m32 .eax .none)).wf .s16 .s16 = false := rfl

theorem test_wf_far_pointer : (Instr.jmpFar (.d 1) 1).wf .s16 .s16 = false := rfl

/-! Decoding: every row of the opcode table from its notation, in 16-bit code; r/m is CX or [BP+DI-2]. -/

/-- The bytes are exactly one item, the given one. -/
def reads (z : Size) (b : List Byte) (i : Instr) : Bool :=
  match decodeItem z z b with
  | .ok j [] => decide (j = i)
  | _ => false

/-- Every pair of a list is one of bytes and the item they are. -/
def allRead (l : List (List Byte × Instr)) : Bool := l.all fun p => reads .s16 p.1 p.2

theorem test_decode_prefixes : allRead [
    ([0xF0], .lock),
    ([0xF2], .repne),
    ([0xF3], .rep),
    ([0x26], .segEs),
    ([0x2E], .segCs),
    ([0x36], .segSs),
    ([0x3E], .segDs),
    ([0x64], .segFs),
    ([0x65], .segGs),
    ([0x66], .opSize),
    ([0x67], .addrSize)] = true := by decide +kernel

theorem test_decode_moves : allRead [
    ([0xB3, 0x7F], .movRbIb .ebx 0x7F),
    ([0xBB, 0x34, 0x12], .movRvIv .ebx (.w 0x1234)),
    ([0xC6, 0x43, 0xFE, 0x7F], .movRmbIb (.mem (.m16 .bpDi (.d8 0xFE))) 0x7F),
    ([0xC7, 0xC1, 0x34, 0x12], .movRmvIv (.reg .ecx) (.w 0x1234)),
    ([0xA0, 0x34, 0x12], .movAlOff (.w 0x1234)),
    ([0xA1, 0x34, 0x12], .movAxOff (.w 0x1234)),
    ([0xA2, 0x34, 0x12], .movOffAl (.w 0x1234)),
    ([0xA3, 0x34, 0x12], .movOffAx (.w 0x1234)),
    ([0x88, 0x5B, 0xFE], .movRmbRb (.mem (.m16 .bpDi (.d8 0xFE))) .ebx),
    ([0x89, 0xD9], .movRmvRv (.reg .ecx) .ebx),
    ([0x8A, 0x5B, 0xFE], .movRbRmb .ebx (.mem (.m16 .bpDi (.d8 0xFE)))),
    ([0x8B, 0xD9], .movRvRmv .ebx (.reg .ecx)),
    ([0x8C, 0x5B, 0xFE], .movRmwSreg (.mem (.m16 .bpDi (.d8 0xFE))) .ds),
    ([0x8E, 0xD9], .movSregRmw .ds (.reg .ecx)),
    ([0x0F, 0xBE, 0x5B, 0xFE], .movsxRvRmb .ebx (.mem (.m16 .bpDi (.d8 0xFE)))),
    ([0x0F, 0xBF, 0xD9], .movsxRdRmw .ebx (.reg .ecx)),
    ([0x0F, 0xB6, 0x5B, 0xFE], .movzxRvRmb .ebx (.mem (.m16 .bpDi (.d8 0xFE)))),
    ([0x0F, 0xB7, 0xD9], .movzxRdRmw .ebx (.reg .ecx)),
    ([0x93], .xchgAxRv .ebx),
    ([0x86, 0xD9], .xchgRbRmb .ebx (.reg .ecx)),
    ([0x87, 0x5B, 0xFE], .xchgRvRmv .ebx (.mem (.m16 .bpDi (.d8 0xFE))))] = true := by decide +kernel

theorem test_decode_stack : allRead [
    ([0xFF, 0xF1], .pushRmv (.reg .ecx)),
    ([0x53], .pushRv .ebx),
    ([0x6A, 0x7F], .pushIb 0x7F),
    ([0x68, 0x34, 0x12], .pushIv (.w 0x1234)),
    ([0x0E], .pushCs),
    ([0x1E], .pushDs),
    ([0x06], .pushEs),
    ([0x16], .pushSs),
    ([0x0F, 0xA0], .pushFs),
    ([0x0F, 0xA8], .pushGs),
    ([0x8F, 0x43, 0xFE], .popRmv (.m16 .bpDi (.d8 0xFE))),
    ([0x5B], .popRv .ebx),
    ([0x1F], .popDs),
    ([0x07], .popEs),
    ([0x17], .popSs),
    ([0x0F, 0xA1], .popFs),
    ([0x0F, 0xA9], .popGs),
    ([0x60], .pusha),
    ([0x61], .popa),
    ([0x9C], .pushf),
    ([0x9D], .popf)] = true := by decide +kernel

theorem test_decode_addresses_and_ports : allRead [
    ([0x8D, 0x5B, 0xFE], .lea .ebx (.m16 .bpDi (.d8 0xFE))),
    ([0xC5, 0x5B, 0xFE], .lds .ebx (.m16 .bpDi (.d8 0xFE))),
    ([0xC4, 0x5B, 0xFE], .les .ebx (.m16 .bpDi (.d8 0xFE))),
    ([0x0F, 0xB4, 0x5B, 0xFE], .lfs .ebx (.m16 .bpDi (.d8 0xFE))),
    ([0x0F, 0xB5, 0x5B, 0xFE], .lgs .ebx (.m16 .bpDi (.d8 0xFE))),
    ([0x0F, 0xB2, 0x5B, 0xFE], .lss .ebx (.m16 .bpDi (.d8 0xFE))),
    ([0xD7], .xlat),
    ([0xE4, 0x7F], .inAlIb 0x7F),
    ([0xE5, 0x7F], .inAxIb 0x7F),
    ([0xEC], .inAlDx),
    ([0xED], .inAxDx),
    ([0xE6, 0x7F], .outIbAl 0x7F),
    ([0xE7, 0x7F], .outIbAx 0x7F),
    ([0xEE], .outDxAl),
    ([0xEF], .outDxAx),
    ([0x9F], .lahf),
    ([0x9E], .sahf),
    ([0x98], .cbw),
    ([0x99], .cwd),
    ([0x37], .aaa),
    ([0xD5, 0x0A], .aad 0x0A),
    ([0xD4, 0x0A], .aam 0x0A),
    ([0x3F], .aas),
    ([0x27], .daa),
    ([0x2F], .das)] = true := by decide +kernel

theorem test_decode_alu_1 : allRead [
    ([0x00, 0xD9], .addRmbRb (.reg .ecx) .ebx),
    ([0x01, 0x5B, 0xFE], .addRmvRv (.mem (.m16 .bpDi (.d8 0xFE))) .ebx),
    ([0x02, 0xD9], .addRbRmb .ebx (.reg .ecx)),
    ([0x03, 0x5B, 0xFE], .addRvRmv .ebx (.mem (.m16 .bpDi (.d8 0xFE)))),
    ([0x04, 0x7F], .addAlIb 0x7F),
    ([0x05, 0x34, 0x12], .addAxIv (.w 0x1234)),
    ([0x80, 0xC1, 0x7F], .addRmbIb (.reg .ecx) 0x7F),
    ([0x81, 0x43, 0xFE, 0x34, 0x12], .addRmvIv (.mem (.m16 .bpDi (.d8 0xFE))) (.w 0x1234)),
    ([0x83, 0xC1, 0x7F], .addRmvIb (.reg .ecx) 0x7F),
    ([0x08, 0x5B, 0xFE], .orRmbRb (.mem (.m16 .bpDi (.d8 0xFE))) .ebx),
    ([0x09, 0xD9], .orRmvRv (.reg .ecx) .ebx),
    ([0x0A, 0x5B, 0xFE], .orRbRmb .ebx (.mem (.m16 .bpDi (.d8 0xFE)))),
    ([0x0B, 0xD9], .orRvRmv .ebx (.reg .ecx)),
    ([0x0C, 0x7F], .orAlIb 0x7F),
    ([0x0D, 0x34, 0x12], .orAxIv (.w 0x1234)),
    ([0x80, 0x4B, 0xFE, 0x7F], .orRmbIb (.mem (.m16 .bpDi (.d8 0xFE))) 0x7F),
    ([0x81, 0xC9, 0x34, 0x12], .orRmvIv (.reg .ecx) (.w 0x1234)),
    ([0x83, 0x4B, 0xFE, 0x7F], .orRmvIb (.mem (.m16 .bpDi (.d8 0xFE))) 0x7F),
    ([0x10, 0xD9], .adcRmbRb (.reg .ecx) .ebx),
    ([0x11, 0x5B, 0xFE], .adcRmvRv (.mem (.m16 .bpDi (.d8 0xFE))) .ebx),
    ([0x12, 0xD9], .adcRbRmb .ebx (.reg .ecx)),
    ([0x13, 0x5B, 0xFE], .adcRvRmv .ebx (.mem (.m16 .bpDi (.d8 0xFE)))),
    ([0x14, 0x7F], .adcAlIb 0x7F),
    ([0x15, 0x34, 0x12], .adcAxIv (.w 0x1234)),
    ([0x80, 0xD1, 0x7F], .adcRmbIb (.reg .ecx) 0x7F),
    ([0x81, 0x53, 0xFE, 0x34, 0x12], .adcRmvIv (.mem (.m16 .bpDi (.d8 0xFE))) (.w 0x1234)),
    ([0x83, 0xD1, 0x7F], .adcRmvIb (.reg .ecx) 0x7F),
    ([0x18, 0x5B, 0xFE], .sbbRmbRb (.mem (.m16 .bpDi (.d8 0xFE))) .ebx),
    ([0x19, 0xD9], .sbbRmvRv (.reg .ecx) .ebx),
    ([0x1A, 0x5B, 0xFE], .sbbRbRmb .ebx (.mem (.m16 .bpDi (.d8 0xFE)))),
    ([0x1B, 0xD9], .sbbRvRmv .ebx (.reg .ecx)),
    ([0x1C, 0x7F], .sbbAlIb 0x7F),
    ([0x1D, 0x34, 0x12], .sbbAxIv (.w 0x1234)),
    ([0x80, 0x5B, 0xFE, 0x7F], .sbbRmbIb (.mem (.m16 .bpDi (.d8 0xFE))) 0x7F),
    ([0x81, 0xD9, 0x34, 0x12], .sbbRmvIv (.reg .ecx) (.w 0x1234)),
    ([0x83, 0x5B, 0xFE, 0x7F], .sbbRmvIb (.mem (.m16 .bpDi (.d8 0xFE))) 0x7F)] = true := by decide +kernel

theorem test_decode_alu_2 : allRead [
    ([0x20, 0xD9], .andRmbRb (.reg .ecx) .ebx),
    ([0x21, 0x5B, 0xFE], .andRmvRv (.mem (.m16 .bpDi (.d8 0xFE))) .ebx),
    ([0x22, 0xD9], .andRbRmb .ebx (.reg .ecx)),
    ([0x23, 0x5B, 0xFE], .andRvRmv .ebx (.mem (.m16 .bpDi (.d8 0xFE)))),
    ([0x24, 0x7F], .andAlIb 0x7F),
    ([0x25, 0x34, 0x12], .andAxIv (.w 0x1234)),
    ([0x80, 0xE1, 0x7F], .andRmbIb (.reg .ecx) 0x7F),
    ([0x81, 0x63, 0xFE, 0x34, 0x12], .andRmvIv (.mem (.m16 .bpDi (.d8 0xFE))) (.w 0x1234)),
    ([0x83, 0xE1, 0x7F], .andRmvIb (.reg .ecx) 0x7F),
    ([0x28, 0x5B, 0xFE], .subRmbRb (.mem (.m16 .bpDi (.d8 0xFE))) .ebx),
    ([0x29, 0xD9], .subRmvRv (.reg .ecx) .ebx),
    ([0x2A, 0x5B, 0xFE], .subRbRmb .ebx (.mem (.m16 .bpDi (.d8 0xFE)))),
    ([0x2B, 0xD9], .subRvRmv .ebx (.reg .ecx)),
    ([0x2C, 0x7F], .subAlIb 0x7F),
    ([0x2D, 0x34, 0x12], .subAxIv (.w 0x1234)),
    ([0x80, 0x6B, 0xFE, 0x7F], .subRmbIb (.mem (.m16 .bpDi (.d8 0xFE))) 0x7F),
    ([0x81, 0xE9, 0x34, 0x12], .subRmvIv (.reg .ecx) (.w 0x1234)),
    ([0x83, 0x6B, 0xFE, 0x7F], .subRmvIb (.mem (.m16 .bpDi (.d8 0xFE))) 0x7F),
    ([0x30, 0xD9], .xorRmbRb (.reg .ecx) .ebx),
    ([0x31, 0x5B, 0xFE], .xorRmvRv (.mem (.m16 .bpDi (.d8 0xFE))) .ebx),
    ([0x32, 0xD9], .xorRbRmb .ebx (.reg .ecx)),
    ([0x33, 0x5B, 0xFE], .xorRvRmv .ebx (.mem (.m16 .bpDi (.d8 0xFE)))),
    ([0x34, 0x7F], .xorAlIb 0x7F),
    ([0x35, 0x34, 0x12], .xorAxIv (.w 0x1234)),
    ([0x80, 0xF1, 0x7F], .xorRmbIb (.reg .ecx) 0x7F),
    ([0x81, 0x73, 0xFE, 0x34, 0x12], .xorRmvIv (.mem (.m16 .bpDi (.d8 0xFE))) (.w 0x1234)),
    ([0x83, 0xF1, 0x7F], .xorRmvIb (.reg .ecx) 0x7F),
    ([0x38, 0x5B, 0xFE], .cmpRmbRb (.mem (.m16 .bpDi (.d8 0xFE))) .ebx),
    ([0x39, 0xD9], .cmpRmvRv (.reg .ecx) .ebx),
    ([0x3A, 0x5B, 0xFE], .cmpRbRmb .ebx (.mem (.m16 .bpDi (.d8 0xFE)))),
    ([0x3B, 0xD9], .cmpRvRmv .ebx (.reg .ecx)),
    ([0x3C, 0x7F], .cmpAlIb 0x7F),
    ([0x3D, 0x34, 0x12], .cmpAxIv (.w 0x1234)),
    ([0x80, 0x7B, 0xFE, 0x7F], .cmpRmbIb (.mem (.m16 .bpDi (.d8 0xFE))) 0x7F),
    ([0x81, 0xF9, 0x34, 0x12], .cmpRmvIv (.reg .ecx) (.w 0x1234)),
    ([0x83, 0x7B, 0xFE, 0x7F], .cmpRmvIb (.mem (.m16 .bpDi (.d8 0xFE))) 0x7F)] = true := by decide +kernel

theorem test_decode_one_operand_and_products : allRead [
    ([0xFE, 0xC1], .incRmb (.reg .ecx)),
    ([0xFF, 0x43, 0xFE], .incRmv (.mem (.m16 .bpDi (.d8 0xFE)))),
    ([0x43], .incRv .ebx),
    ([0xFE, 0x4B, 0xFE], .decRmb (.mem (.m16 .bpDi (.d8 0xFE)))),
    ([0xFF, 0xC9], .decRmv (.reg .ecx)),
    ([0x4B], .decRv .ebx),
    ([0xF6, 0xC1, 0x7F], .testRmbIb (.reg .ecx) 0x7F),
    ([0xF7, 0x43, 0xFE, 0x34, 0x12], .testRmvIv (.mem (.m16 .bpDi (.d8 0xFE))) (.w 0x1234)),
    ([0xF6, 0xD1], .notRmb (.reg .ecx)),
    ([0xF7, 0x53, 0xFE], .notRmv (.mem (.m16 .bpDi (.d8 0xFE)))),
    ([0xF6, 0xD9], .negRmb (.reg .ecx)),
    ([0xF7, 0x5B, 0xFE], .negRmv (.mem (.m16 .bpDi (.d8 0xFE)))),
    ([0xF6, 0xE1], .mulRmb (.reg .ecx)),
    ([0xF7, 0x63, 0xFE], .mulRmv (.mem (.m16 .bpDi (.d8 0xFE)))),
    ([0xF6, 0xE9], .imulRmb (.reg .ecx)),
    ([0xF7, 0x6B, 0xFE], .imulRmv (.mem (.m16 .bpDi (.d8 0xFE)))),
    ([0xF6, 0xF1], .divRmb (.reg .ecx)),
    ([0xF7, 0x73, 0xFE], .divRmv (.mem (.m16 .bpDi (.d8 0xFE)))),
    ([0xF6, 0xF9], .idivRmb (.reg .ecx)),
    ([0xF7, 0x7B, 0xFE], .idivRmv (.mem (.m16 .bpDi (.d8 0xFE)))),
    ([0x0F, 0xAF, 0xD9], .imulRvRmv .ebx (.reg .ecx)),
    ([0x6B, 0x5B, 0xFE, 0x7F], .imulRvRmvIb .ebx (.mem (.m16 .bpDi (.d8 0xFE))) 0x7F),
    ([0x69, 0xD9, 0x34, 0x12], .imulRvRmvIv .ebx (.reg .ecx) (.w 0x1234)),
    ([0xA8, 0x7F], .testAlIb 0x7F),
    ([0xA9, 0x34, 0x12], .testAxIv (.w 0x1234)),
    ([0x84, 0x5B, 0xFE], .testRmbRb (.mem (.m16 .bpDi (.d8 0xFE))) .ebx),
    ([0x85, 0xD9], .testRmvRv (.reg .ecx) .ebx)] = true := by decide +kernel

theorem test_decode_shifts : allRead [
    ([0xD0, 0x43, 0xFE], .rolRmbOne (.mem (.m16 .bpDi (.d8 0xFE)))),
    ([0xD2, 0xC1], .rolRmbCl (.reg .ecx)),
    ([0xC0, 0x43, 0xFE, 0x7F], .rolRmbIb (.mem (.m16 .bpDi (.d8 0xFE))) 0x7F),
    ([0xD1, 0xC1], .rolRmvOne (.reg .ecx)),
    ([0xD3, 0x43, 0xFE], .rolRmvCl (.mem (.m16 .bpDi (.d8 0xFE)))),
    ([0xC1, 0xC1, 0x7F], .rolRmvIb (.reg .ecx) 0x7F),
    ([0xD0, 0x4B, 0xFE], .rorRmbOne (.mem (.m16 .bpDi (.d8 0xFE)))),
    ([0xD2, 0xC9], .rorRmbCl (.reg .ecx)),
    ([0xC0, 0x4B, 0xFE, 0x7F], .rorRmbIb (.mem (.m16 .bpDi (.d8 0xFE))) 0x7F),
    ([0xD1, 0xC9], .rorRmvOne (.reg .ecx)),
    ([0xD3, 0x4B, 0xFE], .rorRmvCl (.mem (.m16 .bpDi (.d8 0xFE)))),
    ([0xC1, 0xC9, 0x7F], .rorRmvIb (.reg .ecx) 0x7F),
    ([0xD0, 0x53, 0xFE], .rclRmbOne (.mem (.m16 .bpDi (.d8 0xFE)))),
    ([0xD2, 0xD1], .rclRmbCl (.reg .ecx)),
    ([0xC0, 0x53, 0xFE, 0x7F], .rclRmbIb (.mem (.m16 .bpDi (.d8 0xFE))) 0x7F),
    ([0xD1, 0xD1], .rclRmvOne (.reg .ecx)),
    ([0xD3, 0x53, 0xFE], .rclRmvCl (.mem (.m16 .bpDi (.d8 0xFE)))),
    ([0xC1, 0xD1, 0x7F], .rclRmvIb (.reg .ecx) 0x7F),
    ([0xD0, 0x5B, 0xFE], .rcrRmbOne (.mem (.m16 .bpDi (.d8 0xFE)))),
    ([0xD2, 0xD9], .rcrRmbCl (.reg .ecx)),
    ([0xC0, 0x5B, 0xFE, 0x7F], .rcrRmbIb (.mem (.m16 .bpDi (.d8 0xFE))) 0x7F),
    ([0xD1, 0xD9], .rcrRmvOne (.reg .ecx)),
    ([0xD3, 0x5B, 0xFE], .rcrRmvCl (.mem (.m16 .bpDi (.d8 0xFE)))),
    ([0xC1, 0xD9, 0x7F], .rcrRmvIb (.reg .ecx) 0x7F),
    ([0xD0, 0x63, 0xFE], .shlRmbOne (.mem (.m16 .bpDi (.d8 0xFE)))),
    ([0xD2, 0xE1], .shlRmbCl (.reg .ecx)),
    ([0xC0, 0x63, 0xFE, 0x7F], .shlRmbIb (.mem (.m16 .bpDi (.d8 0xFE))) 0x7F),
    ([0xD1, 0xE1], .shlRmvOne (.reg .ecx)),
    ([0xD3, 0x63, 0xFE], .shlRmvCl (.mem (.m16 .bpDi (.d8 0xFE)))),
    ([0xC1, 0xE1, 0x7F], .shlRmvIb (.reg .ecx) 0x7F),
    ([0xD0, 0x6B, 0xFE], .shrRmbOne (.mem (.m16 .bpDi (.d8 0xFE)))),
    ([0xD2, 0xE9], .shrRmbCl (.reg .ecx)),
    ([0xC0, 0x6B, 0xFE, 0x7F], .shrRmbIb (.mem (.m16 .bpDi (.d8 0xFE))) 0x7F),
    ([0xD1, 0xE9], .shrRmvOne (.reg .ecx)),
    ([0xD3, 0x6B, 0xFE], .shrRmvCl (.mem (.m16 .bpDi (.d8 0xFE)))),
    ([0xC1, 0xE9, 0x7F], .shrRmvIb (.reg .ecx) 0x7F),
    ([0xD0, 0x7B, 0xFE], .sarRmbOne (.mem (.m16 .bpDi (.d8 0xFE)))),
    ([0xD2, 0xF9], .sarRmbCl (.reg .ecx)),
    ([0xC0, 0x7B, 0xFE, 0x7F], .sarRmbIb (.mem (.m16 .bpDi (.d8 0xFE))) 0x7F),
    ([0xD1, 0xF9], .sarRmvOne (.reg .ecx)),
    ([0xD3, 0x7B, 0xFE], .sarRmvCl (.mem (.m16 .bpDi (.d8 0xFE)))),
    ([0xC1, 0xF9, 0x7F], .sarRmvIb (.reg .ecx) 0x7F)] = true := by decide +kernel

theorem test_decode_bits : allRead [
    ([0x0F, 0xA4, 0x5B, 0xFE, 0x7F], .shldIb (.mem (.m16 .bpDi (.d8 0xFE))) .ebx 0x7F),
    ([0x0F, 0xA5, 0xD9], .shldCl (.reg .ecx) .ebx),
    ([0x0F, 0xAC, 0x5B, 0xFE, 0x7F], .shrdIb (.mem (.m16 .bpDi (.d8 0xFE))) .ebx 0x7F),
    ([0x0F, 0xAD, 0xD9], .shrdCl (.reg .ecx) .ebx),
    ([0x0F, 0xA3, 0x5B, 0xFE], .btRmvRv (.mem (.m16 .bpDi (.d8 0xFE))) .ebx),
    ([0x0F, 0xBA, 0xE1, 0x7F], .btRmvIb (.reg .ecx) 0x7F),
    ([0x0F, 0xAB, 0x5B, 0xFE], .btsRmvRv (.mem (.m16 .bpDi (.d8 0xFE))) .ebx),
    ([0x0F, 0xBA, 0xE9, 0x7F], .btsRmvIb (.reg .ecx) 0x7F),
    ([0x0F, 0xB3, 0x5B, 0xFE], .btrRmvRv (.mem (.m16 .bpDi (.d8 0xFE))) .ebx),
    ([0x0F, 0xBA, 0xF1, 0x7F], .btrRmvIb (.reg .ecx) 0x7F),
    ([0x0F, 0xBB, 0x5B, 0xFE], .btcRmvRv (.mem (.m16 .bpDi (.d8 0xFE))) .ebx),
    ([0x0F, 0xBA, 0xF9, 0x7F], .btcRmvIb (.reg .ecx) 0x7F),
    ([0x0F, 0xBC, 0x5B, 0xFE], .bsf .ebx (.mem (.m16 .bpDi (.d8 0xFE)))),
    ([0x0F, 0xBD, 0xD9], .bsr .ebx (.reg .ecx)),
    ([0x0F, 0x95, 0x43, 0xFE], .setcc .ne (.mem (.m16 .bpDi (.d8 0xFE))))] = true := by decide +kernel

theorem test_decode_strings : allRead [
    ([0xA4], .movsb),
    ([0xA5], .movsv),
    ([0xA6], .cmpsb),
    ([0xA7], .cmpsv),
    ([0xAA], .stosb),
    ([0xAB], .stosv),
    ([0xAC], .lodsb),
    ([0xAD], .lodsv),
    ([0xAE], .scasb),
    ([0xAF], .scasv),
    ([0x6C], .insb),
    ([0x6D], .insv),
    ([0x6E], .outsb),
    ([0x6F], .outsv)] = true := by decide +kernel

theorem test_decode_transfers : allRead [
    ([0xEB, 0x7F], .jmpShort 0x7F),
    ([0xE9, 0x34, 0x12], .jmpNear (.w 0x1234)),
    ([0xFF, 0xE1], .jmpRmv (.reg .ecx)),
    ([0xEA, 0x34, 0x12, 0x78, 0x56], .jmpFar (.w 0x1234) 0x5678),
    ([0xFF, 0x6B, 0xFE], .jmpFarMem (.m16 .bpDi (.d8 0xFE))),
    ([0x75, 0x7F], .jccShort .ne 0x7F),
    ([0x0F, 0x85, 0x34, 0x12], .jccNear .ne (.w 0x1234)),
    ([0xE3, 0x7F], .jcxz 0x7F),
    ([0xE2, 0x7F], .loop 0x7F),
    ([0xE1, 0x7F], .loope 0x7F),
    ([0xE0, 0x7F], .loopne 0x7F),
    ([0xE8, 0x34, 0x12], .callNear (.w 0x1234)),
    ([0xFF, 0xD1], .callRmv (.reg .ecx)),
    ([0x9A, 0x34, 0x12, 0x78, 0x56], .callFar (.w 0x1234) 0x5678),
    ([0xFF, 0x5B, 0xFE], .callFarMem (.m16 .bpDi (.d8 0xFE))),
    ([0xC3], .retNear),
    ([0xC2, 0x34, 0x12], .retNearIw 0x1234),
    ([0xCB], .retFar),
    ([0xCA, 0x34, 0x12], .retFarIw 0x1234),
    ([0xCC], .int3),
    ([0xCD, 0x7F], .intIb 0x7F),
    ([0xCE], .into),
    ([0xCF], .iret),
    ([0xC8, 0x34, 0x12, 0x7F], .enter 0x1234 0x7F),
    ([0xC9], .leave),
    ([0x62, 0x5B, 0xFE], .bound .ebx (.m16 .bpDi (.d8 0xFE)))] = true := by decide +kernel

theorem test_decode_control : allRead [
    ([0xF8], .clc),
    ([0xF9], .stc),
    ([0xF5], .cmc),
    ([0xFC], .cld),
    ([0xFD], .std),
    ([0xFA], .cli),
    ([0xFB], .sti),
    ([0xF4], .hlt),
    ([0x9B], .wait),
    ([0x90], .nop),
    ([0xDB, 0xD9], .esc 3 3 (.reg .ecx))] = true := by decide +kernel

/-- Listing 7.2 (A1.4): SUB ESI,FS:01234567H[EDX][EBX*8] after its prefix, in 32-bit code. -/
theorem test_decode_sib : reads .s32 [0x2B, 0xB4, 0xDA, 0x67, 0x45, 0x23, 0x01]
    (.subRvRmv .esi (.mem (.sib 3 (some .ebx) (some .edx) (.d32 0x01234567)))) = true := by decide +kernel

/-- Listing 7.3 (A1.6) in 16-bit code: four prefixes and 15 bytes. -/
theorem test_decode_longest : decode .s16
    [0xF0, 0x67, 0x66, 0x64, 0x81, 0x84, 0x9F, 0x78, 0x56, 0x34, 0x12, 0x02, 0xDE, 0xBC, 0x9A, 0x90] =
    .ok [.lock, .addrSize, .opSize, .segFs]
      (.addRmvIv (.mem (.sib 2 (some .ebx) (some .edi) (.d32 0x12345678))) (.d 0x9ABCDE02)) 15 := by decide +kernel

/-- Listing 7.3 as printed (A1.5): 0F BA with reg = 2 is exception 6. -/
theorem test_decode_invalid : decode .s16
    [0xF0, 0x67, 0x66, 0x64, 0x0F, 0xBA, 0x94, 0x9F, 0x78, 0x56, 0x34, 0x12, 0x18, 0x90, 0x90] =
    .invalid 7 := by decide +kernel

/-- 8F [0] with mod = 3 is exception 6 (R181). -/
theorem test_decode_pop_register : decode .s16 [0x8F, 0xC1] = .invalid 2 := by decide +kernel

/-- More than 15 bytes are no instruction (R173). -/
theorem test_decode_too_long : decode .s16 (List.replicate 15 0x66) = .more := by decide +kernel

/-- The host's words: 80 /2 ib is 0x8010 in the table. -/
theorem test_table_word : decodeTableWord 16 0x8010 = some (.adcRmbIb (.mem (.m16 .bxSi .none)) 0) := by
  decide +kernel

/-! Worked values, one step each. -/

/-- Mode R, registers 0 but SP = 0x100, the instruction at 0:1000 of two bytes. -/
def real : State :=
  { State.reset with
    regs := ⟨0, 0, 0, 0, 0x100, 0, 0, 0⟩
    eip := 0x1002
    curEip := 0x1000
    segs := ⟨SegReg.resetData, SegReg.resetData, SegReg.resetData, SegReg.resetData, SegReg.resetData,
      SegReg.resetData⟩
    cr0 := 0 }

/-- The same after an operand-size prefix. -/
def real32 : State := { real with pfx := { Pfx.none with opSize := true } }

/-- The state with EAX, ECX, EDX and EBX. -/
def State.with4 (s : State) (a c d b : Word32) : State :=
  { s with regs := { s.regs with eax := a, ecx := c, edx := d, ebx := b } }

/-- The instruction leaves a next state with the property. -/
def gives (i : Instr) (s : State) (p : State → Bool) : Bool :=
  match exec i s with
  | .next t => p t
  | _ => false

/-- A2.8: 124 + 15 overflows. -/
theorem test_add_overflow : gives (.addAlIb 0x0F) (State.with4 real 0x7C 0 0 0)
    (fun t => t.regs.eax == 0x8B && t.flags.of && !t.flags.cf && t.flags.sf) = true := by decide +kernel

/-- A5: ADC AH,BH with a carry in. -/
theorem test_adc : gives (.adcRbRmb .ah (.reg .bh))
    { State.with4 real 0x331 0 0 0x175 with flags := { Flags.reset with cf := true } }
    (fun t => t.regs.eax == 0x531 && !t.flags.cf) = true := by decide +kernel

/-- A5: SBB AH,BH with a borrow in. -/
theorem test_sbb : gives (.sbbRbRmb .ah (.reg .bh))
    { State.with4 real 0x5BC 0 0 0x175 with flags := { Flags.reset with cf := true } }
    (fun t => t.regs.eax == 0x3BC && !t.flags.cf) = true := by decide +kernel

/-- A2.6: -17 - 3. -/
theorem test_sub : gives (.subAlIb 3) (State.with4 real 0xEF 0 0 0)
    (fun t => t.regs.eax == 0xEC && !t.flags.cf && !t.flags.of && t.flags.sf) = true := by decide +kernel

/-- A5: CMP AX,BX stores nothing. -/
theorem test_cmp : gives (.cmpRvRmv .eax (.reg .ebx)) (State.with4 real 956 0 0 373)
    (fun t => t.regs.eax == 956 && t.flags.pf && !t.flags.cf && !t.flags.af && !t.flags.zf) = true := by
  decide +kernel

/-- R325: INC keeps CF; 0xFFFF increments to 0. -/
theorem test_inc : gives (.incRv .eax)
    { State.with4 real 0xABCDFFFF 0 0 0 with flags := { Flags.reset with cf := true } }
    (fun t => t.regs.eax == 0xABCD0000 && t.flags.zf && t.flags.af && t.flags.cf && !t.flags.of) = true := by
  decide +kernel

/-- A5: NEG of 579B. -/
theorem test_neg : gives (.negRmv (.reg .eax)) (State.with4 real 0x579B 0 0 0)
    (fun t => t.regs.eax == 0xA865 && t.flags.cf) = true := by decide +kernel

/-- A4.5: 9 + 8, then AAA, gives 0107. -/
theorem test_aaa : gives .aaa { State.with4 real 0x11 0 0 0 with flags := { Flags.reset with af := true } }
    (fun t => t.regs.eax == 0x107 && t.flags.cf && t.flags.af) = true := by decide +kernel

/-- A5: AAS of 02FD. -/
theorem test_aas : gives .aas { State.with4 real 0x2FD 0 0 0 with flags := { Flags.reset with af := true } }
    (fun t => t.regs.eax == 0x107 && t.flags.cf && t.flags.af) = true := by decide +kernel

/-- A5: AAD of 0405, and AAM of 0F. -/
theorem test_aad : gives (.aad 10) (State.with4 real 0x405 0 0 0) (fun t => t.regs.eax == 0x2D) = true := by
  decide +kernel

theorem test_aam : gives (.aam 10) (State.with4 real 0xF 0 0 0) (fun t => t.regs.eax == 0x105) = true := by
  decide +kernel

/-- A5: DAA of 1E, and DAS of 0E with AF. -/
theorem test_daa : gives .daa (State.with4 real 0x1E 0 0 0)
    (fun t => t.regs.eax == 0x24 && t.flags.af && !t.flags.cf) = true := by decide +kernel

theorem test_das : gives .das { State.with4 real 0x0E 0 0 0 with flags := { Flags.reset with af := true } }
    (fun t => t.regs.eax == 0x08 && t.flags.af && !t.flags.cf) = true := by decide +kernel

/-- A4.3: products and quotients of bytes. -/
theorem test_mul : gives (.mulRmb (.reg .dl)) (State.with4 real 0x84 0 0x12 0)
    (fun t => t.regs.eax == 0x948 && t.flags.cf && t.flags.of) = true := by decide +kernel

theorem test_imul : gives (.imulRmb (.reg .dl)) (State.with4 real 0x84 0 0x12 0)
    (fun t => t.regs.eax == 0xF748 && t.flags.cf && t.flags.of) = true := by decide +kernel

theorem test_div : gives (.divRmb (.reg .dl)) (State.with4 real 0x4BF 0 0x9A 0)
    (fun t => t.regs.eax == 0x8907) = true := by decide +kernel

theorem test_idiv : gives (.idivRmb (.reg .dl)) (State.with4 real 0x4BF 0 0x9A 0)
    (fun t => t.regs.eax == 0x5DF5) = true := by decide +kernel

/-- A6.5: the quotient 80H is returned. -/
theorem test_idiv_lowest : gives (.idivRmb (.reg .dl)) (State.with4 real 0xFF00 0 2 0)
    (fun t => t.regs.eax == 0x80) = true := by decide +kernel

/-- R332, R560, R570: division by 0 saves IP of the DIV itself and enters vector 0. -/
theorem test_divide_error : gives (.divRmb (.reg .dl)) { real with mem := [(0, 0x34), (2, 0x12)] }
    (fun t => t.eip == 0x34 && t.segs.cs.sel == 0x12 && t.regs.esp == 0xFA &&
      Memory.read t.mem 0xFB == 0x10 && Memory.read t.mem 0xFE == 0x02) = true := by decide +kernel

/-- A4.7: ROR and RCR of 6699. -/
theorem test_ror : gives (.rorRmvOne (.reg .eax)) (State.with4 real 0x6699 0 0 0)
    (fun t => t.regs.eax == 0xB34C && t.flags.cf && t.flags.of) = true := by decide +kernel

theorem test_rcr : gives (.rcrRmvOne (.reg .eax)) (State.with4 real 0x6699 0 0 0)
    (fun t => t.regs.eax == 0x334C && t.flags.cf && !t.flags.of) = true := by decide +kernel

/-- A5: RCL and SAR of CADE4956 by 3. -/
theorem test_rcl : gives (.rclRmvIb (.reg .eax) 3)
    { State.with4 real32 0xCADE4956 0 0 0 with flags := { Flags.reset with cf := true } }
    (fun t => t.regs.eax == 0x56F24AB7 && !t.flags.cf) = true := by decide +kernel

theorem test_sar : gives (.sarRmvIb (.reg .eax) 3) (State.with4 real32 0xCADE4956 0 0 0)
    (fun t => t.regs.eax == 0xF95BC92A && t.flags.cf) = true := by decide +kernel

/-- A6.6: only five bits of the count. -/
theorem test_shift_count : gives (.shlRmbCl (.reg .al)) (State.with4 real 0x81 0x20 0 0)
    (fun t => t.regs.eax == 0x81) = true := by decide +kernel

/-- A4.8: BSR and BTC. -/
theorem test_bsr : gives (.bsr .ebx (.reg .eax)) (State.with4 real32 0x004037BF 0 0 0)
    (fun t => t.regs.ebx == 0x16 && !t.flags.zf) = true := by decide +kernel

theorem test_btc : gives (.btcRmvIb (.reg .eax) 22) (State.with4 real32 0x004037BF 0 0 0)
    (fun t => t.regs.eax == 0x37BF && t.flags.cf) = true := by decide +kernel

/-- A2.9: the extensions of ED. -/
theorem test_movsx : gives (.movsxRvRmb .eax (.reg .bl)) (State.with4 real 0 0 0 0xED)
    (fun t => t.regs.eax == 0xFFED) = true := by decide +kernel

theorem test_movzx : gives (.movzxRvRmb .eax (.reg .bl)) (State.with4 real 0 0 0 0xED)
    (fun t => t.regs.eax == 0xED) = true := by decide +kernel

/-- A4.12: LES EDI,MEMLOC. -/
theorem test_les : gives (.les .edi (.dir16 0x500))
    { real32 with mem := [(0x501, 1), (0x504, 0x42), (0x505, 2)] }
    (fun t => t.regs.edi == 0x100 && t.segs.es.sel == 0x242 && t.segs.es.base == 0x2420) = true := by
  decide +kernel

/-- A6.7: PUSH SP stores the value before the decrement. -/
theorem test_push_sp : gives (.pushRv .esp) real
    (fun t => t.regs.esp == 0xFE && Memory.read t.mem 0xFF == 1 && Memory.read t.mem 0xFE == 0) = true := by
  decide +kernel

/-- A6.2: PUSHA with SP = 3 shuts the processor down. -/
theorem test_pusha_shutdown : gives .pusha { real with regs := { real.regs with esp := 3 } }
    (fun t => t.shutdown) = true := by decide +kernel

/-- A6.8: a word at offset FFFF is exception 13. -/
theorem test_offset_wrap : gives (.movAxOff (.w 0xFFFF)) { real with mem := [(0x34, 0x77)] }
    (fun t => t.eip == 0x77) = true := by decide +kernel

/-- A5: SETLE after 5 - 7. -/
theorem test_setle : gives (.setcc .le (.reg .al)) { real with flags := { Flags.reset with sf := true, cf := true } }
    (fun t => t.regs.eax == 1) = true := by decide +kernel

/-- A5: BOUND of 100 in 0 to 99 is interrupt 5. -/
theorem test_bound : gives (.bound .eax (.dir16 0x500))
    { State.with4 real 100 0 0 0 with mem := [(0x14, 0x88), (0x502, 99)] }
    (fun t => t.eip == 0x88) = true := by decide +kernel

/-- A4.10: the first byte of REP MOVSB; the instruction stands to be repeated. -/
theorem test_rep_movsb : gives .movsb
    { State.with4 real 0 5 0 0 with
      regs := ⟨0, 5, 0, 0, 0x100, 0, 0x200, 0x300⟩
      pfx := { Pfx.none with rep := some .rep }
      mem := [(0x200, 0xA1)] }
    (fun t => Memory.read t.mem 0x300 == 0xA1 && t.regs.ecx == 4 && t.regs.esi == 0x201 && t.regs.edi == 0x301 &&
      t.eip == 0x1000) = true := by decide +kernel

/-- R496: INTO with OF = 1 is interrupt 4. -/
theorem test_into : gives .into { real with flags := { Flags.reset with of := true }, mem := [(0x10, 0x55)] }
    (fun t => t.eip == 0x55 && t.regs.esp == 0xFA) = true := by decide +kernel

/-- R505: ENTER 4,1 stores BP and the new frame pointer. -/
theorem test_enter : gives (.enter 4 1) real
    (fun t => t.regs.ebp == 0xFE && t.regs.esp == 0xF8 && Memory.read t.mem 0xFC == 0xFE) = true := by
  decide +kernel

/-- R480: RET 4 releases its parameters. -/
theorem test_ret : gives (.retNearIw 4) { real with mem := [(0x100, 0x78), (0x101, 0x56)] }
    (fun t => t.eip == 0x5678 && t.regs.esp == 0x106) = true := by decide +kernel

/-- The instruction that the host places is the first after reset (log entry 15). -/
theorem test_fetch_word :
    (match step ({ State.reset with cr0 := 0 }.withFetchWord 16 0xB412) with
      | .next t => t.regs.eax == 0x1200 && t.eip == 0xFFF2
      | _ => false) = true := by decide +kernel

/-! Witnesses: for every obligation with hypotheses, states and operands that meet them, clause by clause. -/

/-- Mode P at level 0: flat 32-bit segments, GDT at 2000 (8: code, 10: data), IDT at 3000 (3: an interrupt gate to
8:1234). -/
def prot : State :=
  { real with
    cr0 := 1
    segs := ⟨⟨0x10, 0, 0xFFFFFFFF, true, true, 0, true, 1, true, true⟩,
      ⟨8, 0, 0xFFFFFFFF, true, true, 0, true, 5, true, true⟩,
      ⟨0x10, 0, 0xFFFFFFFF, true, true, 0, true, 1, true, true⟩,
      ⟨0x10, 0, 0xFFF, true, true, 0, true, 1, true, true⟩,
      ⟨0x10, 0, 0xFFF, true, true, 0, true, 3, true, false⟩,
      ⟨0x10, 0, 0xFFF, true, true, 0, true, 0, true, true⟩⟩
    gdtr := ⟨0x2000, 0x17⟩
    idtr := ⟨0x3000, 0x1F⟩
    mem := [(0x200, 0x34), (0x201, 0x12), (0x204, 8), (0x2008, 0xFF), (0x2009, 0xFF), (0x200D, 0x9A), (0x200E, 0xCF),
      (0x2010, 0xFF), (0x2011, 0xFF), (0x2015, 0x92), (0x2016, 0xCF), (0x3018, 0x34), (0x3019, 0x12), (0x301A, 8),
      (0x301D, 0x8E)] }

/-- Mode V with IOPL 3. -/
def virtual : State :=
  { real with cr0 := 1, flags := { Flags.reset with vm := true, iopl := 3 } }

/-- Paging with a directory at 1000 whose entry 1 names a table at 2000: entry 3 a user page, entry 4 one that may
not be written, entry 5 absent. -/
def paged : State :=
  { prot with
    cr0 := 0x80000001
    segs := { prot.segs with ds := prot.segs.ss }
    cr3 := 0x1000
    mem := [(0x1004, 7), (0x1005, 0x20), (0x200C, 7), (0x200D, 0x50), (0x2010, 5), (0x2011, 0x60)] }

/-- The machine after RESET with MOV AH,12 to run. -/
def running : State := { State.reset with cr0 := 0 }.withFetchWord 16 0xB412

/-- A memory operand at offset 500. -/
def there : EA := .dir16 0x500

/-- The state an action leaves. -/
def after {α : Type} (m : M α) (s : State) : State :=
  match m s with
  | .ok _ t => t
  | .error _ t => t

/-- Whether an action succeeds. -/
def runs {α : Type} (m : M α) (s : State) : Bool :=
  match m s with
  | .ok _ _ => true
  | .error _ _ => false

theorem run_of_runs {m : M Unit} {s : State} (h : runs m s = true) : m s = .ok () (after m s) := by
  unfold runs at h
  unfold after
  cases hm : m s with
  | ok _ t => rfl
  | error _ t =>
    rw [hm] at h
    exact absurd h Bool.false_ne_true

theorem value_of_runs {α : Type} {m : M α} {s : State} (h : runs m s = true) : ∃ v, m s = .ok v (after m s) := by
  unfold runs at h
  unfold after
  cases hm : m s with
  | ok v t => exact ⟨v, rfl⟩
  | error _ t =>
    rw [hm] at h
    exact absurd h Bool.false_ne_true

theorem value_pair {α : Type} {m : M α} {s u : State} (h : ∃ v, m s = .ok v u) : ∃ v t, m s = .ok v t :=
  h.elim fun v hv => ⟨v, u, hv⟩

/-- Whether an action fails with the stop. -/
def failsWith {α : Type} (m : M α) (s : State) (e : Stop) : Bool :=
  match m s with
  | .ok _ _ => false
  | .error e' _ => decide (e' = e)

theorem error_of_fails {α : Type} {m : M α} {s : State} {e : Stop} (h : failsWith m s e = true) :
    m s = .error e (after m s) := by
  unfold failsWith at h
  unfold after
  cases hm : m s with
  | ok _ t =>
    rw [hm] at h
    exact absurd h Bool.false_ne_true
  | error e' t =>
    rw [hm] at h
    exact congrArg (EStateM.Result.error · t) (of_decide_eq_true h)

/-- Whether an action succeeds with the value. -/
def givesValue {α : Type} [DecidableEq α] (m : M α) (s : State) (v : α) : Bool :=
  match m s with
  | .ok a _ => decide (a = v)
  | .error _ _ => false

theorem ok_of_gives {α : Type} [DecidableEq α] {m : M α} {s : State} {v : α} (h : givesValue m s v = true) :
    m s = .ok v (after m s) := by
  unfold givesValue at h
  unfold after
  cases hm : m s with
  | ok a t =>
    rw [hm] at h
    exact congrArg (EStateM.Result.ok · t) (of_decide_eq_true h)
  | error _ t =>
    rw [hm] at h
    exact absurd h Bool.false_ne_true

theorem witness_DecodeEncode : (Instr.movRbIb .ah 0x12).wf .s16 .s16 = true := rfl

theorem witness_DecodedWellFormed : decodeItem .s16 .s16 [0xB4, 0x12] = .ok (.movRbIb .ah 0x12) [] := rfl

theorem witness_StepKeepsInvariant : Inv running ∧ ∃ t, step running = .next t :=
  ⟨⟨by decide +kernel, by decide +kernel, ⟨fun _ => Nat.zero_le _, List.nodup_nil⟩, rfl, rfl, rfl⟩, _, rfl⟩

/-- `bs` at CS:EIP. -/
def fetching (s : State) (bs : List Byte) : State := placeCode s bs 0

theorem quiet_of {s : State} (h1 : s.lines.reset = false ∧ s.shutdown = false ∧ s.halted = false)
    (h2 : s.inhibit = true ∨
      s.dbg.any = false ∧ (s.nmiPending = false ∨ s.nmiMask = true) ∧ (s.flags.ifl = false ∨ s.lines.intr = []))
    (h3 : s.flags.rf = true ∨ ∀ n < 4, ¬BreaksHere s n) : Quiet s :=
  ⟨⟨h1.1, h1.2.1, h1.2.2, h2⟩, h3⟩

/-- An instruction of two bytes, and one that ends at the last offset of all. -/
theorem witness_StepRunsInstruction :
    (Quiet running ∧
      decode running.defaultSize (fetchBytes (atBoundary running) maxLength 0).1 = .ok [] (.movRbIb .ah 0x12) 2 ∧
      ∃ s1, touchCode 2 (atBoundary running) = .ok () s1) ∧
    let s := fetching { prot with eip := 0xFFFFFFFF } [0x90];
    Quiet s ∧ decode s.defaultSize (fetchBytes (atBoundary s) maxLength 0).1 = .ok [] .nop 1 ∧
      ∃ s1, touchCode 1 (atBoundary s) = .ok () s1 :=
  ⟨⟨quiet_of (by decide +kernel) (by decide +kernel) (by unfold BreaksHere; decide +kernel), by decide +kernel, _,
      run_of_runs (by decide +kernel)⟩,
    quiet_of (by decide +kernel) (by decide +kernel) (by unfold BreaksHere; decide +kernel), by decide +kernel, _,
    run_of_runs (by decide +kernel)⟩

/-- Whether a byte can be fetched. -/
def canFetch (s : State) (k : Nat) : Bool :=
  match fetchAddr s k with
  | .ok _ => true
  | .error _ => false

theorem fetch_of_can {s : State} {k : Nat} (h : canFetch s k = true) : ∃ a, fetchAddr s k = .ok a := by
  unfold canFetch at h
  cases hf : fetchAddr s k with
  | ok a => exact ⟨a, rfl⟩
  | error _ =>
    rw [hf] at h
    exact absurd h Bool.false_ne_true

/-- Breakpoint 0 at the instruction. -/
def stopping : State := { real with dr := { real.dr with dr0 := 0x1002, dr7 := 2 } }

/-- A breakpoint; a MOV to CS; fifteen prefixes; a prefix at the last offset, alone; an offset beyond every limit; each
bound of an offset; an absent page. -/
theorem witness_StepFaults :
    (NoEvent stopping ∧ stopping.flags.rf = false ∧
      (∀ k, (1 : Word32).getLsbD k = true ↔ k < 4 ∧ BreaksHere stopping k) ∧ (1 : Word32) ≠ 0) ∧
    (let s := fetching real [0x8E, 0xC8];
      Quiet s ∧ decode s.defaultSize (fetchBytes (atBoundary s) maxLength 0).1 = .invalid 2 ∧
        ∃ s1, touchCode 2 (atBoundary s) = .ok () s1) ∧
    (let s := fetching real (List.replicate 15 0x66);
      Quiet s ∧ decode s.defaultSize (fetchBytes (atBoundary s) maxLength 0).1 = .more ∧
        (∀ k < 15, ∃ a, fetchAddr (atBoundary s) k = .ok a) ∧ ∃ s1, touchCode 15 (atBoundary s) = .ok () s1) ∧
    (let s := fetching { real with eip := 0xFFFF } [0x66];
      Quiet s ∧ decode s.defaultSize (fetchBytes (atBoundary s) maxLength 0).1 = .more ∧
        fetchAddr (atBoundary s) 1 = .error exn13 ∧ (∀ j < 1, ∃ a, fetchAddr (atBoundary s) j = .ok a) ∧
        ∃ s1, touchCode 1 (atBoundary s) = .ok () s1) ∧
    { prot with eipPast := true }.eipPast = true ∧
    (2 ^ 32 ≤ (0xFFFFFFFF : Word32).toNat + 1 ∧ 0xFFFF < (0xFFFF : Word32).toNat + 1 ∧ real.mode ≠ .prot) ∧
    (let s := { prot with segs := { prot.segs with cs := { prot.segs.cs with limit := 0xFFF } }, eip := 0xFFF };
      s.mode = .prot ∧ s.segs.cs.type.getLsbD 2 = true ∧ s.segs.cs.limit.toNat < s.eip.toNat + 1) ∧
    let s := { paged with eip := 0x00404FFF };
    s.eipPast = false ∧ s.eip.toNat + 1 < 2 ^ 32 ∧
      linear (atBoundary s) .exec .cs (s.eip + BitVec.ofNat 32 1) 1 = .ok 0x00405000 ∧
      pageLookup (atBoundary s) .exec (s.level == 3) 0x00405000 = .error (exnPF 0x00405000 0) := by
  refine ⟨⟨⟨rfl, rfl, rfl, .inr (by decide)⟩, rfl, fun k => ?_, by decide⟩,
    ⟨quiet_of (by decide +kernel) (by decide +kernel) (by unfold BreaksHere; decide +kernel), by decide +kernel, _,
      run_of_runs (by decide +kernel)⟩,
    ⟨quiet_of (by decide +kernel) (by decide +kernel) (by unfold BreaksHere; decide +kernel), by decide +kernel,
      fun k hk => fetch_of_can (by revert k; decide +kernel), _, run_of_runs (by decide +kernel)⟩,
    ⟨quiet_of (by decide +kernel) (by decide +kernel) (by unfold BreaksHere; decide +kernel), by decide +kernel, rfl,
      fun k hk => fetch_of_can (by revert k; decide +kernel), _, run_of_runs (by decide +kernel)⟩,
    rfl, by decide, by decide, by decide, by decide, rfl, rfl⟩
  have here : ∀ k < 4, ((1 : Word32).getLsbD k = true ↔ BreaksHere stopping k) := by
    unfold BreaksHere
    decide +kernel
  by_cases hk : k < 4
  · exact (here k hk).trans ⟨fun h => ⟨hk, h⟩, fun h => h.2⟩
  · have : k ≠ 0 := by omega
    simp [BitVec.getLsbD_one, hk, this]

theorem witness_BoundaryOrder :
    { real with lines := ⟨true, [], false, false⟩ }.lines.reset = true ∧
    (real.lines.reset = false ∧ { real with shutdown := true }.shutdown = true) ∧
    (let s := { real with inhibit := true };
      s.shutdown = false ∧ s.inhibit = true ∧ s.halted = false ∧ { s with halted := true }.halted = true) ∧
    (real.inhibit = false ∧ { real with dbg := { DebugCauses.none with b3 := true } }.dbg.any = true) ∧
    (real.dbg.any = false ∧ { real with nmiPending := true }.nmiPending = true ∧ real.nmiMask = false) ∧
    (let s := { real with flags := { Flags.reset with ifl := true }, lines := ⟨false, [8, 9], false, false⟩ };
      ¬(s.nmiPending = true ∧ s.nmiMask = false) ∧ s.flags.ifl = true ∧ s.lines.intr = 8 :: [9]) ∧
    (real.flags.ifl = false ∧ { real with halted := true }.halted = true) := by decide

/-- Breakpoint 0 for a write of the byte at 500. -/
def watching : State := { real with dr := { real.dr with dr0 := 0x500, dr7 := 0x10001 } }

/-- A write and a read of the word at 4FF, of which the write meets the breakpoint; a memory operand. -/
theorem witness_DebugTraps :
    (∀ kind : Access, kind = .write ∨ kind = .read → linear watching kind .ds 0x4FF 2 = .ok 0x4FF ∧
      ∃ ps t, translate kind .ds 0x4FF 2 watching = .ok ps t) ∧
    (watching.dr.dr7.extractLsb' 16 2 ≠ 2 ∧ watching.dr.dr7.extractLsb' 18 2 ≠ 2) ∧
    BreaksOnData watching 0 true 0x4FF 2 ∧ ¬BreaksOnData watching 0 false 0x4FF 2 ∧
    ∃ l t, locate .b8 .write (.mem there) watching = .ok l t :=
  ⟨fun kind h => by rcases h with rfl | rfl <;> exact ⟨rfl, _, _, rfl⟩, by decide,
    ⟨.inl (by decide), .inl ⟨by decide, rfl⟩, 0, 1, 0x500, 1, 0, by decide, by decide, rfl, by decide, by decide, by decide⟩,
    fun h => h.2.1.elim (fun h => absurd h.2 (by decide)) (fun h => absurd h (by decide)), _, _, rfl⟩

/-- Paging off; a page to walk to, by level 3, at its last byte; a TLB entry that is clean, one that is dirty, one of
the supervisor and one that may not be written; a page that may not be written, an absent page, an absent table. -/
theorem witness_PageTranslation :
    let pde := readPhys32 paged.mem 0x1004;
    let pte := readPhys32 paged.mem 0x200C;
    let held := fun e : TlbEntry => { paged with tlb := [e] };
    let at_ := (0x00403FFF : Word32).extractLsb' 12 20;
    real.paging = false ∧ paged.paging = true ∧ tlbFind paged.tlb at_ = none ∧
    ((paged.cr3 &&& 0xFFFFF000).toNat + 4 * ((0x00403FFF : Word32).toNat / 2 ^ 22) = 0x1004 ∧
      (pde &&& 0xFFFFF000).toNat + 4 * ((0x00403FFF : Word32).toNat / 2 ^ 12 % 2 ^ 10) = 0x200C) ∧
    (pde.getLsbD 0 = true ∧ pte.getLsbD 0 = true ∧
      (pde.getLsbD 2 = true ∧ pte.getLsbD 2 = true) ∧ pde.getLsbD 1 = true ∧ pte.getLsbD 1 = true) ∧
    (tlbFind (held ⟨at_, 5, true, true, false⟩).tlb at_ = some ⟨at_, 5, true, true, false⟩ ∧
      tlbFind (held ⟨at_, 5, true, true, true⟩).tlb at_ = some ⟨at_, 5, true, true, true⟩ ∧
      (TlbEntry.mk at_ 5 false true true).user = false ∧ (TlbEntry.mk at_ 5 true false true).writable = false) ∧
    (let pte4 := readPhys32 paged.mem 0x2010;
      pte4.getLsbD 0 = true ∧ pte4.getLsbD 1 = false ∧
      (pde &&& 0xFFFFF000).toNat + 4 * ((0x00404000 : Word32).toNat / 2 ^ 12 % 2 ^ 10) = 0x2010) ∧
    ((readPhys32 paged.mem 0x2014).getLsbD 0 = false ∧
      (pde &&& 0xFFFFF000).toNat + 4 * ((0x00405000 : Word32).toNat / 2 ^ 12 % 2 ^ 10) = 0x2014) ∧
    (readPhys32 paged.mem 0x1008).getLsbD 0 = false := by decide +kernel

/-- The last offset for one byte, one too far for two, and an offset past the end. -/
theorem witness_RealOffsets : real.mode ≠ .prot ∧ virtual.mode ≠ .prot ∧
    ((0xFFFF : Word32).toNat ≤ 0xFFFF ∧ (0xFFFF : Word32).toNat + 1 - 1 ≤ 0xFFFF) ∧
    (0xFFFF : Word32).toNat + 2 - 1 > 0xFFFF ∧ (0x10000 : Word32).toNat > 0xFFFF := by decide

/-- DS ends at FFF, FS expands down to 1000, GS may not be written. -/
theorem witness_ProtectedLimits : prot.mode = .prot ∧
    (let g := prot.segs.get .ds;
      g.valid = true ∧ g.type.getLsbD 2 = false ∧ g.type.getLsbD 1 = false ∧ g.type.getLsbD 0 = true ∧
      (0xFFC : Word32).toNat + 4 - 1 ≤ g.limit.toNat ∧ ¬(0xFFD : Word32).toNat + 4 - 1 ≤ g.limit.toNat) ∧
    (let g := prot.segs.get .fs;
      g.type.getLsbD 2 = false ∧ g.type.getLsbD 1 = true ∧
      (0x1000 : Word32).toNat > g.limit.toNat ∧ ¬(0xFFF : Word32).toNat > g.limit.toNat ∧
      (0xFFFF : Word32).toNat + 1 - 1 ≤ 0xFFFF ∧ g.db = false) ∧
    (let g := prot.segs.get .gs;
      g.valid = true ∧ (0 : Word32).toNat + 1 - 1 ≤ g.limit.toNat ∧ ¬(g.type.getLsbD 0 = true)) := by decide

theorem witness_LittleEndian :
    ([0x10, 0x11, 0x12, 0x13] : List Word32).length = Width.d32.bytes ∧
    (([0xFFFFFFFF, 0] : List Word32).length = Width.w16.bytes) ∧
    (([0x10, 0x11, 0x12, 0x13] : List Word32).map (·.toNat)).Nodup ∧
    (([0xFFFFFFFF, 0] : List Word32).map (·.toNat)).Nodup := by decide

/-- A register, and the last byte and word of the segment; a condition that holds and one that does not. -/
theorem witness_Moves_to : real.pfx.lock = false ∧
    (∃ l s1, locate .b8 .write (.reg .ah) real.begun = .ok l s1) ∧
    (∃ l s1, locate .b8 .write (.mem (.dir16 0xFFFF)) real.begun = .ok l s1) ∧
    (∃ l s1, locate .w16 .write (.mem (.dir16 0xFFFE)) real.begun = .ok l s1) ∧
    (∃ l s1, locate real32.osz.width .write (.mem (.dir16 0xFFFC)) real32.begun = .ok l s1) ∧
    CondRule real.flags .ne ∧ ¬CondRule real.flags .e :=
  ⟨rfl, ⟨_, _, rfl⟩, ⟨_, _, rfl⟩, ⟨_, _, rfl⟩, ⟨_, _, rfl⟩, rfl, Bool.false_ne_true⟩

theorem witness_Moves_from : real.pfx.lock = false ∧
    (∃ l s1, locate .b8 .read (.mem (.dir16 0xFFFF)) real.begun = .ok l s1) ∧
    (∃ l s1, locate real.osz.width .read (.reg .esp) real.begun = .ok l s1) ∧
    (∃ l s1, locate .w16 .read (.mem (.dir16 0xFFFE)) real.begun = .ok l s1) :=
  ⟨rfl, ⟨_, _, rfl⟩, ⟨_, _, rfl⟩, ⟨_, _, rfl⟩⟩

theorem witness_Moves_direct : real.pfx.lock = false ∧
    (∃ v t, MemReads .b8 (real.pfx.seg.getD .ds) (Sized.zext (.w 0xFFFF)) v real.begun t) ∧
    (∃ v t, MemReads real.osz.width (real.pfx.seg.getD .ds) (Sized.zext (.w 0xFFFE)) v real.begun t) ∧
    (∃ t, MemWrites .b8 (real.pfx.seg.getD .ds) (Sized.zext (.w 0xFFFF)) (readReg .b8 real.regs .al) real.begun t) ∧
    ∃ t, MemWrites real.osz.width (real.pfx.seg.getD .ds) (Sized.zext (.w 0)) (readReg _ real.regs .eax)
      real.begun t :=
  ⟨rfl, ⟨_, _, _, rfl, rfl⟩, ⟨_, _, _, rfl, rfl⟩, ⟨_, _, _, rfl, rfl⟩, ⟨_, _, _, rfl, rfl⟩⟩

/-- Loads in mode R, of a null selector (3) and a descriptor (10) in mode P, and of SS. -/
theorem witness_SegmentLoads : real.pfx.lock = false ∧
    (∃ l s1 t, locate .w16 .read (.reg .eax) real.begun = .ok l s1 ∧ SegLoads .ss (s1.valueAt .w16 l) s1 t) ∧
    (∃ t, SegLoads .ds 3 prot.begun t) ∧ (∃ t, SegLoads .ds 0x10 prot.begun t) ∧
    (∃ t, SegLoads .ss 0x10 prot.begun t) ∧
    (∃ v s1 t, Popped real.osz.width v real.begun s1 ∧
      SegLoads .ss (v.setWidth 16) { s1 with regs := real.regs } t) ∧
    ∃ off sel s1 t, FarPointer there real.begun off sel s1 ∧ SegLoads .es sel s1 t :=
  ⟨rfl, ⟨_, _, _, rfl, segLoads_iff.mpr rfl⟩, ⟨_, segLoads_iff.mpr rfl⟩, ⟨_, segLoads_iff.mpr rfl⟩,
    ⟨_, segLoads_iff.mpr rfl⟩, ⟨_, _, _, popped_iff.mpr rfl, segLoads_iff.mpr rfl⟩,
    ⟨_, _, _, _, ⟨_, ⟨_, rfl, rfl⟩, _, rfl, rfl⟩, segLoads_iff.mpr rfl⟩⟩

/-- A LOCK prefix before a memory form, and none before a register form. -/
theorem witness_Moves_exchange : real.pfx.lock = false ∧ real.lockOk (RMisMem (.reg .eax)) ∧
    { real with pfx := { Pfx.none with lock := true } }.lockOk (RMisMem (.mem there)) ∧
    (∃ l s1, locate .b8 .write (.mem there) real.begun = .ok l s1) ∧
    ∃ l s1, locate real.osz.width .write (.reg .ecx) real.begun = .ok l s1 :=
  ⟨rfl, fun h => absurd h (by decide), fun _ => ⟨rfl, fun h => absurd h (by decide)⟩, ⟨_, _, rfl⟩, ⟨_, _, rfl⟩⟩

/-- SP = 0 wraps and SP = 2 reaches offset 0. -/
theorem witness_Pushes : real.pfx.lock = false ∧ (virtual.mode = .v86 → virtual.flags.iopl = 3) ∧
    (∃ t, Pushed real.osz.width (readReg real.osz.width real.regs .esp) real.begun t) ∧
    (∃ t, Pushed .w16 5 { real with regs := { real.regs with esp := 0 } } t) ∧
    (∃ t, Pushed .w16 5 { real with regs := { real.regs with esp := 2 } } t) ∧
    (∃ l s1 t, locate real.osz.width .read (.mem there) real.begun = .ok l s1 ∧
      Pushed real.osz.width (s1.valueAt real.osz.width l) s1 t) ∧
    (∃ t, PushedSel real.osz 5 real.begun t) ∧ (∃ t, PushedSel real32.osz 5 real32.begun t) ∧
    ∃ t, Pushed virtual.osz.width ((virtual.flags.image &&& 0x00FCFFFF).setWidth _) virtual.begun t :=
  ⟨rfl, fun _ => rfl, ⟨_, pushed_iff.mpr rfl⟩, ⟨_, pushed_iff.mpr rfl⟩, ⟨_, pushed_iff.mpr rfl⟩,
    ⟨_, _, _, rfl, pushed_iff.mpr rfl⟩, ⟨_, pushedSel_iff.mpr rfl⟩, ⟨_, pushedSel_iff.mpr rfl⟩,
    ⟨_, pushed_iff.mpr rfl⟩⟩

theorem witness_Pops : real.pfx.lock = false ∧ (real.mode = .v86 → real.flags.iopl = 3) ∧
    (∃ v s1, Popped real.osz.width v real.begun s1 ∧
      ∃ s2, MemWrites real.osz.width (real.pfx.seg.getD (eaSeg there)) (eaOffset s1.regs there) v s1 s2) ∧
    (∃ v s1, Popped virtual.osz.width v virtual.begun s1) ∧ ∃ v s1, Popped prot.osz.width v prot.begun s1 :=
  ⟨rfl, fun h => absurd h (by decide), ⟨_, _, popped_iff.mpr rfl, _, memWrites_iff.mpr rfl⟩,
    ⟨_, _, popped_iff.mpr rfl⟩, ⟨_, _, popped_iff.mpr rfl⟩⟩

/-- The state after pushing zeros `n` times. -/
def pushedZeros : Nat → State
  | 0 => real.begun
  | n + 1 => after (push .w16 0) (pushedZeros n)

/-- The state after the registers up to the `n`-th are popped. -/
def poppedRegs : List Reg → State
  | [] => real.begun
  | r :: rs => after (pop .w16 >>= fun v => putReg .w16 r v) (poppedRegs rs)

theorem witness_AllRegisters : real.pfx.lock = false ∧
    ¬(real.mode ≠ .prot ∧ (topOffset real).toNat % 2 = 1 ∧ (topOffset real).toNat ≤ 15) ∧
    (∃ t1 t2 t3 t4 t5 t6 t7 t8, Pushed .w16 0 real.begun t1 ∧ Pushed .w16 0 t1 t2 ∧ Pushed .w16 0 t2 t3 ∧
      Pushed .w16 0 t3 t4 ∧ Pushed .w16 0x100 t4 t5 ∧ Pushed .w16 0 t5 t6 ∧ Pushed .w16 0 t6 t7 ∧
      Pushed .w16 0 t7 t8) ∧
    ∃ t1 t2 t3 x t4 t5 t6 t7 t8, PoppedInto .w16 .edi real.begun t1 ∧ PoppedInto .w16 .esi t1 t2 ∧
      PoppedInto .w16 .ebp t2 t3 ∧ Popped .w16 x t3 t4 ∧ PoppedInto .w16 .ebx t4 t5 ∧ PoppedInto .w16 .edx t5 t6 ∧
      PoppedInto .w16 .ecx t6 t7 ∧ PoppedInto .w16 .eax t7 t8 := by
  have p : ∀ v s, runs (push .w16 v) s = true → Pushed .w16 v s (after (push .w16 v) s) :=
    fun _ _ h => pushed_iff.mpr (run_of_runs h)
  have q : ∀ r s, runs (pop .w16 >>= fun v => putReg .w16 r v) s = true →
      PoppedInto .w16 r s (after (pop .w16 >>= fun v => putReg .w16 r v) s) :=
    fun _ _ h => poppedInto_iff.mpr (run_of_runs h)
  let t5 := after (push .w16 0x100) (pushedZeros 4)
  let t4 := after (pop .w16) (poppedRegs [.ebp, .esi, .edi])
  let u5 := after (pop .w16 >>= fun v => putReg .w16 .ebx v) t4
  let u6 := after (pop .w16 >>= fun v => putReg .w16 .edx v) u5
  let u7 := after (pop .w16 >>= fun v => putReg .w16 .ecx v) u6
  obtain ⟨x, hx⟩ := value_of_runs (m := pop .w16) (s := poppedRegs [.ebp, .esi, .edi]) (by decide +kernel)
  exact ⟨rfl, by decide,
    ⟨pushedZeros 1, pushedZeros 2, pushedZeros 3, pushedZeros 4, t5, after (push .w16 0) t5,
      after (push .w16 0) (after (push .w16 0) t5), _, p _ _ (by decide +kernel), p _ _ (by decide +kernel),
      p _ _ (by decide +kernel), p _ _ (by decide +kernel), p _ _ (by decide +kernel), p _ _ (by decide +kernel),
      p _ _ (by decide +kernel), p _ _ (by decide +kernel)⟩,
    ⟨poppedRegs [.edi], poppedRegs [.esi, .edi], poppedRegs [.ebp, .esi, .edi], x, t4, u5, u6, u7, _,
      q _ _ (by decide +kernel), q _ _ (by decide +kernel), q _ _ (by decide +kernel), popped_iff.mpr hx,
      q _ _ (by decide +kernel), q _ _ (by decide +kernel), q _ _ (by decide +kernel), q _ _ (by decide +kernel)⟩⟩

theorem witness_AddressAndConvert : real.pfx.lock = false ∧ real.osz = .s16 ∧ real32.osz = .s32 ∧
    (∃ v t, MemReads .b8 (real.pfx.seg.getD .ds)
      (BitVec.ofNat 32 ((real.regs.ebx.toNat + (readReg .b8 real.regs .al).toNat) % 2 ^ 16)) v real.begun t) ∧
    ∃ v t, MemReads .b8 (prot.pfx.seg.getD .ds)
      (BitVec.ofNat 32 (prot.regs.ebx.toNat + (readReg .b8 prot.regs .al).toNat)) v prot.begun t :=
  ⟨rfl, by decide, by decide, ⟨_, _, _, rfl, rfl⟩, ⟨_, _, _, rfl, rfl⟩⟩

/-- A V86 task whose TSS at 4000 has a permission map of zeros at 68. -/
theorem witness_PortAccess : real.pfx.lock = false ∧ IoPermits 0x20 2 real.begun real.begun ∧
    IoPermits 0xFFFF 1 prot.begun prot.begun ∧
    ∃ t, IoPermits 0x20 2
      { virtual with tr := ⟨0x28, 0x4000, 0xFF, true⟩, mem := [(0x4066, 0x68)] } t :=
  ⟨rfl, rfl, ⟨by decide, rfl⟩, _, ioPermits_iff.mpr rfl⟩

theorem witness_DecimalAdjust : real.pfx.lock = false ∧ (10 : Byte) ≠ 0 := by decide

theorem witness_TwoOperand_operand : real.lockOk (AluOp.add.writes && RMisMem (.reg .ebx)) ∧
    { real with pfx := { Pfx.none with lock := true } }.lockOk (AluOp.add.writes && RMisMem (.mem there)) ∧
    (∃ l s1, locate ((Src.rb .ah).width real) AluOp.add.access (.reg .bh) real.begun = .ok l s1) ∧
    (∃ l s1, locate ((Src.sx 0xFF).width real) AluOp.sub.access (.mem there) real.begun = .ok l s1) ∧
    ∃ l s1, locate ((Src.iv (.w 1)).width real) AluOp.cmp.access (.mem there) real.begun = .ok l s1 :=
  ⟨fun h => absurd h (by decide), fun _ => ⟨rfl, fun h => absurd h (by decide)⟩, ⟨_, _, rfl⟩, ⟨_, _, rfl⟩,
    ⟨_, _, rfl⟩⟩

theorem witness_TwoOperand_register : real.pfx.lock = false ∧
    (∃ l s1, locate (widthOf real true) .read (.reg .ebx) real.begun = .ok l s1) ∧
    (∃ l s1, locate (widthOf real false) .read (.mem there) real.begun = .ok l s1) ∧
    (∃ l s1, locate .b8 .read (.mem there) real.begun = .ok l s1) ∧
    ∃ l s1, locate real.osz.width .read (.mem there) real.begun = .ok l s1 :=
  ⟨rfl, ⟨_, _, rfl⟩, ⟨_, _, rfl⟩, ⟨_, _, rfl⟩, ⟨_, _, rfl⟩⟩

theorem witness_OneOperand : real.pfx.lock = false ∧ real.lockOk (RMisMem (.mem there)) ∧
    (∃ l s1, locate (widthOf real true) .write (.mem there) real.begun = .ok l s1) ∧
    ∃ l s1, locate (widthOf real false) .write (.reg .dh) real.begun = .ok l s1 :=
  ⟨rfl, fun h => absurd h (by decide), ⟨_, _, rfl⟩, ⟨_, _, rfl⟩⟩

theorem witness_Multiply : real.pfx.lock = false ∧
    (∃ l s1, locate (widthOf real false) .read (.reg .bl) real.begun = .ok l s1) ∧
    (∃ l s1, locate (widthOf real true) .read (.mem there) real.begun = .ok l s1) ∧
    ∃ l s1, locate real.osz.width .read (.reg .ebx) real.begun = .ok l s1 :=
  ⟨rfl, ⟨_, _, rfl⟩, ⟨_, _, rfl⟩, ⟨_, _, rfl⟩⟩

/-- The largest quotient of DIV and one too large; the least of IDIV and one below it; a zero divisor. -/
theorem witness_Divide : real.pfx.lock = false ∧
    (∃ l s1, locate (widthOf real false) .read (.reg .bl) real.begun = .ok l s1) ∧
    (∃ l s1, locate (widthOf real true) .read (.mem there) real.begun = .ok l s1) ∧
    (1 * 2 ^ Width.b8.bits + 0xFF) / 2 < 2 ^ Width.b8.bits ∧ ¬(2 * 2 ^ Width.b8.bits) / 2 < 2 ^ Width.b8.bits ∧
    ¬OutOfRange Width.b8.bits ((-256 : Int).tdiv 2) ∧ OutOfRange Width.b8.bits ((-258 : Int).tdiv 2) :=
  ⟨rfl, ⟨_, _, rfl⟩, ⟨_, _, rfl⟩, by decide, by decide, by unfold OutOfRange; decide, by unfold OutOfRange; decide⟩

/-- Counts 0 (and 32), 1 and 31. -/
theorem witness_Shifts : real.pfx.lock = false ∧ (Count.imm 32).value real = 0 ∧ Count.one.value real ≠ 0 ∧
    (Count.imm 31).value real ≠ 0 ∧ Count.cl.value { real with regs := { real.regs with ecx := 1 } } ≠ 0 ∧
    (∃ l s1, locate (widthOf real true) .write (.mem there) real.begun = .ok l s1) ∧
    ∃ l s1, locate (widthOf real false) .write (.reg .ah) real.begun = .ok l s1 :=
  ⟨rfl, by decide, by decide, by decide, by decide, ⟨_, _, rfl⟩, ⟨_, _, rfl⟩⟩

/-- Counts 0, 15 and 16 of a word. -/
theorem witness_Shifts_double : real.pfx.lock = false ∧
    ((some (32 : Byte)).getD (readReg .b8 real.regs .cl)).toNat % 32 = 0 ∧
    ((some (15 : Byte)).getD (readReg .b8 real.regs .cl)).toNat % 32 < real.osz.width.bits ∧
    ¬((some (16 : Byte)).getD (readReg .b8 real.regs .cl)).toNat % 32 < real.osz.width.bits ∧
    ∃ l s1, locate real.osz.width .write (.mem there) real.begun = .ok l s1 :=
  ⟨rfl, by decide, by decide, by decide, _, _, rfl⟩

theorem witness_BitOps_test : real.lockOk (RMisMem (.reg .eax)) ∧
    { real with pfx := { Pfx.none with lock := true } }.lockOk (RMisMem (.mem there)) ∧
    (∃ l s1, locate real.osz.width BitOp.bt.access (.mem there) real.begun = .ok l s1) ∧
    ∃ l s1, locate real.osz.width BitOp.btc.access (.reg .eax) real.begun = .ok l s1 :=
  ⟨fun h => absurd h (by decide), fun _ => ⟨rfl, fun h => absurd h (by decide)⟩, ⟨_, _, rfl⟩, ⟨_, _, rfl⟩⟩

/-- A zero source, and one with bit 8 set. -/
theorem witness_BitOps_scan : real.pfx.lock = false ∧
    (∃ l s1, locate real.osz.width .read (.reg .ebx) real.begun = .ok l s1 ∧ s1.valueAt real.osz.width l = 0) ∧
    ∃ l s1, locate real.osz.width .read (.reg .esp) real.begun = .ok l s1 ∧ s1.valueAt real.osz.width l ≠ 0 :=
  ⟨rfl, ⟨_, _, rfl, by decide +kernel⟩, _, _, rfl, by decide +kernel⟩

/-- MOVS with DF = 1, LODS at the last offset, and INS. -/
theorem witness_Strings_once : real.pfx.lock = false ∧ real.pfx.rep = none ∧
    (∃ t, Element .movs .b8 { real with flags := { Flags.reset with df := true } } t) ∧
    (∃ t, Element .lods .w16 { real with regs := { real.regs with esi := 0xFFFE } } t) ∧
    ∃ t, Element .ins (widthOf real true) real.begun t :=
  ⟨rfl, rfl, ⟨_, _, _, _, _, _, ⟨_, rfl, rfl⟩, ⟨_, _, rfl, rfl⟩, writesReg_iff.mpr rfl, writesReg_iff.mpr rfl, rfl⟩,
    ⟨_, _, _, _, _, ⟨_, rfl, rfl⟩, writesReg_iff.mpr rfl, writesReg_iff.mpr rfl, rfl⟩,
    ⟨_, _, _, _, _, rfl, ⟨_, _, rfl, rfl⟩, rfl, writesReg_iff.mpr rfl, rfl⟩⟩

/-- A REPE prefix with CX = 2. -/
def repeating : State :=
  { real with regs := { real.regs with ecx := 2 }, pfx := { Pfx.none with rep := some .rep } }

/-- The flags of 0 - 0. -/
def flagsZero : Flags := { Flags.reset with zf := true, pf := true }

theorem subRule_zero : SubRule (0 : Byte) 0 false Flags.reset 0 flagsZero :=
  ⟨by decide, by decide, by decide, by unfold OutOfRange; decide, ⟨by decide, by decide, by decide⟩, rfl⟩

/-- CX = 0; one of two elements; the last element; CMPS whose ZF goes on under REPE and ends REPNE. -/
theorem witness_Strings_repeated : real.pfx.lock = false ∧ repeating.pfx.rep = some .rep ∧
    atAsz { repeating with regs := real.regs } .ecx = 0 ∧ atAsz repeating .ecx ≠ 0 ∧
    (∃ t, Element .stos (widthOf repeating true) repeating.begun t) ∧
    (∃ t, Element .cmps .b8 repeating.begun t ∧ t.flags.zf = true ∧ (Rep.rep == .repne) = false ∧
      (Rep.repne == .repne) = true) ∧
    (∃ g, WritesReg .w16 .ecx (readReg .w16 repeating.regs .ecx - 1) repeating.regs g ∧
      readReg .w16 g .ecx ≠ 0) ∧
    ∃ g, WritesReg .w16 .ecx (1 - 1) repeating.regs g ∧ readReg .w16 g .ecx = 0 :=
  ⟨rfl, rfl, by decide, by decide,
    ⟨_, _, _, ⟨_, _, rfl, rfl⟩, writesReg_iff.mpr rfl, rfl⟩,
    ⟨_, ⟨0, 0, _, _, 0, flagsZero, _, _, ⟨_, rfl, by decide +kernel⟩, ⟨_, rfl, by decide +kernel⟩, subRule_zero,
      writesReg_iff.mpr rfl, writesReg_iff.mpr rfl, rfl⟩, rfl, rfl, rfl⟩,
    ⟨_, writesReg_iff.mpr rfl, by decide +kernel⟩, ⟨_, writesReg_iff.mpr rfl, by decide +kernel⟩⟩

/-- Jumps to the first and the last offset, taken and not, and in mode P to the segment limit. -/
theorem witness_NearTransfers_jumps : real.pfx.lock = false ∧
    NearOk { real with eip := 0x80 } (truncated real (0x80 + (0x80 : Byte).signExtend 32)) ∧
    NearOk real (truncated real (real.eip + Sized.sext (.w 0xEFFD))) ∧ NearOk prot 0xFFFFFFFF ∧
    (∃ l s1, locate real.osz.width .read (.reg .ebx) real.begun = .ok l s1 ∧
      NearOk real ((s1.valueAt real.osz.width l).setWidth 32)) ∧
    CondRule real.flags .ne ∧ ¬CondRule real.flags .e ∧ atAsz real .ecx = 0 ∧ atAsz repeating .ecx ≠ 0 ∧
    (∃ g, WritesReg real.asz.width .ecx (readReg real.asz.width real.regs .ecx - 1) real.regs g ∧
      readReg real.asz.width g .ecx ≠ 0) ∧
    ∃ g, WritesReg .w16 .ecx (1 - 1) real.regs g ∧ ¬(readReg .w16 g .ecx ≠ 0) :=
  ⟨rfl, ⟨fun h => absurd h (by decide), fun _ => by decide +kernel⟩,
    ⟨fun h => absurd h (by decide), fun _ => by decide +kernel⟩,
    ⟨fun _ => by decide +kernel, fun h => absurd rfl h⟩,
    ⟨_, _, rfl, fun h => absurd h (by decide), fun _ => by decide +kernel⟩,
    rfl, Bool.false_ne_true, by decide, by decide, ⟨_, writesReg_iff.mpr rfl, by decide +kernel⟩,
    ⟨_, writesReg_iff.mpr rfl, by decide +kernel⟩⟩

theorem witness_NearTransfers_calls : real.pfx.lock = false ∧ NearOk real (truncated real (real.eip + Sized.sext (.w 0x10))) ∧
    (∃ t, Pushed real.osz.width (real.eip.setWidth _) real.begun t) ∧
    (∃ l s1 t, locate real.osz.width .read (.reg .ebx) real.begun = .ok l s1 ∧
      NearOk real ((s1.valueAt real.osz.width l).setWidth 32) ∧ Pushed real.osz.width (real.eip.setWidth _) s1 t) ∧
    ∃ v t, Popped .w16 v real.begun t ∧ NearOk real (v.setWidth 32) :=
  ⟨rfl, ⟨fun h => absurd h (by decide), fun _ => by decide +kernel⟩, ⟨_, pushed_iff.mpr rfl⟩,
    ⟨_, _, _, rfl, ⟨fun h => absurd h (by decide), fun _ => by decide +kernel⟩, pushed_iff.mpr rfl⟩,
    ⟨_, _, popped_iff.mpr rfl, fun h => absurd h (by decide), fun _ => by decide +kernel⟩⟩

theorem witness_FarReal : real.pfx.lock = false ∧ real.mode ≠ .prot ∧ virtual.mode ≠ .prot ∧
    (truncated real (Sized.zext (.w 0xFFFF))).toNat ≤ 0xFFFF ∧
    (∃ t1 t2, PushedSel real.osz real.segs.cs.sel real.begun t1 ∧
      Pushed real.osz.width (real.eip.setWidth _) t1 t2) ∧
    (∃ off sel s1 t1 t2, FarPointer there real.begun off sel s1 ∧ (off.setWidth 32 : Word32).toNat ≤ 0xFFFF ∧
      PushedSel real.osz real.segs.cs.sel s1 t1 ∧ Pushed real.osz.width (real.eip.setWidth _) t1 t2) ∧
    ∃ off sel t1 t2, Popped .w16 off real.begun t1 ∧ Popped .w16 sel t1 t2 ∧
      (off.setWidth 32 : Word32).toNat ≤ 0xFFFF :=
  ⟨rfl, by decide, by decide, by decide, ⟨_, _, pushedSel_iff.mpr rfl, pushed_iff.mpr rfl⟩,
    ⟨_, _, _, _, _, ⟨_, ⟨_, rfl, rfl⟩, _, rfl, rfl⟩, by decide +kernel, pushedSel_iff.mpr rfl, pushed_iff.mpr rfl⟩,
    ⟨_, _, _, _, popped_iff.mpr rfl, popped_iff.mpr rfl, by decide +kernel⟩⟩

/-- The code descriptor of `prot`. -/
def code8 : Desc := ⟨0x0000FFFF, 0x00CF9A00, 0x2008⟩

theorem code8_at {s : State} (h : givesValue (readDescriptor 8 exnUD) s code8 = true) :
    DescriptorAt 8 code8 s (after (readDescriptor 8 exnUD) s) :=
  descriptorAt_of (ok_of_gives h)

/-- `prot` with a far pointer 8:1234 at 200 and on the stack. -/
def protStack : State := { prot with regs := { prot.regs with esp := 0x200 } }

theorem witness_FarProtected : prot.pfx.lock = false ∧ prot.mode = .prot ∧ 4 ≤ (8 : Word16).toNat ∧
    DirectCode code8 8 prot.cpl ∧ (0xFFFFFFFF : Word32).toNat ≤ code8.limit.toNat ∧
    (∃ s1 s2, DescriptorAt 8 code8 prot.begun s1 ∧ Accessed code8 s1 s2) ∧
    (∃ s1 t1 t2 s2, DescriptorAt 8 code8 prot.begun s1 ∧ PushedSel prot.osz prot.segs.cs.sel s1 t1 ∧
      Pushed prot.osz.width (prot.eip.setWidth _) t1 t2 ∧ Accessed code8 t2 s2) ∧
    (∃ o s0, FarPointer (.dir32 0x200) prot.begun o 8 s0 ∧ o.setWidth 32 = (0x1234 : Word32)) ∧
    ∃ t1 t2 s1 s2, Popped .d32 0x1234 protStack.begun t1 ∧ Popped .d32 8 t1 t2 ∧
      selRpl ((8 : Word32).setWidth 16) = protStack.cpl ∧ DescriptorAt 8 code8 t2 s1 ∧
      ∃ g, SpMoved protStack ((0 : Word16).setWidth 32) s1.regs g ∧ Accessed code8 { s1 with regs := g } s2 := by
  let s1 := after (readDescriptor 8 exnUD) prot.begun
  let t1 := after (pushSelector prot.osz prot.segs.cs.sel) s1
  let t2 := after (push prot.osz.width (prot.eip.setWidth _)) t1
  let u1 := after (pop .d32) protStack.begun
  let u2 := after (pop .d32) u1
  let u3 := after (readDescriptor 8 exnUD) u2
  exact ⟨rfl, rfl, by decide, ⟨rfl, rfl, by decide⟩, by decide,
    ⟨s1, _, code8_at (by decide +kernel), accessed_iff.mpr (run_of_runs (by decide +kernel))⟩,
    ⟨s1, t1, t2, _, code8_at (by decide +kernel), pushedSel_iff.mpr (run_of_runs (by decide +kernel)),
      pushed_iff.mpr (run_of_runs (by decide +kernel)), accessed_iff.mpr (run_of_runs (by decide +kernel))⟩,
    ⟨0x1234, _, ⟨_, memReads_iff.mpr (ok_of_gives (by decide +kernel)),
      memReads_iff.mpr (ok_of_gives (by decide +kernel))⟩, by decide⟩,
    ⟨u1, u2, u3, _, popped_iff.mpr (ok_of_gives (by decide +kernel)), popped_iff.mpr (ok_of_gives (by decide +kernel)),
      by decide, code8_at (by decide +kernel), _, spMoved_iff.mpr rfl,
      accessed_iff.mpr (run_of_runs (by decide +kernel))⟩⟩

/-- A frame at 200. -/
def framed : State := { real with regs := { real.regs with ebp := 0x200 } }

/-- ENTER at levels 0 and 2, LEAVE, and BOUND with the index on a bound and past it. -/
theorem witness_FramesAndBounds : framed.pfx.lock = false ∧
    (∃ t1, Pushed .w16 0x200 framed.begun t1) ∧
    (∃ t1 t2 t3, Pushed .w16 0x200 framed.begun t1 ∧ DisplayCopied .s16 1 t1 t2 ∧
      Pushed .w16 ((topOffset t1).setWidth _) t2 t3) ∧
    (∃ g v t, WritesReg .w16 .esp 0x200 framed.regs g ∧ Popped .w16 v { framed.begun with regs := g } t) ∧
    (∃ s1 s2, MemReads .w16 (real.pfx.seg.getD (eaSeg there)) (eaOffset real.regs there) 0 real.begun s1 ∧
      MemReads .w16 (real.pfx.seg.getD (eaSeg there)) (eaOffset real.regs there + BitVec.ofNat 32 2) 0 s1 s2) ∧
    ((0 : Word16).toInt ≤ (readReg .w16 real.regs .eax).toInt ∧
      (readReg .w16 real.regs .eax).toInt ≤ (0 : Word16).toInt) ∧
    ¬(readReg .w16 real.regs .esp).toInt ≤ (0 : Word16).toInt := by
  let t1 := after (push .w16 0x200) framed.begun
  let g := writeReg .w16 t1.regs .ebp (readReg .w16 t1.regs .ebp - 2)
  let r := after (memRead .w16 .ss ((readReg .w16 g .ebp).setWidth 32)) { t1 with regs := g }
  have hr : MemReads .w16 .ss ((readReg .w16 g .ebp).setWidth 32) 0 { t1 with regs := g } r :=
    memReads_iff.mpr (ok_of_gives (by decide +kernel))
  let t2 := after (push .w16 0) r
  let s1 := after (memRead .w16 .ds 0x500) real.begun
  let s2 := after (memRead .w16 .ds 0x502) s1
  let l := writeReg .w16 framed.regs .esp 0x200
  exact ⟨rfl, ⟨_, pushed_iff.mpr (run_of_runs (by decide +kernel))⟩,
    ⟨t1, t2, _, pushed_iff.mpr (run_of_runs (by decide +kernel)),
      ⟨g, 0, r, t2, writesReg_iff.mpr rfl, hr, pushed_iff.mpr (run_of_runs (by decide +kernel)), rfl⟩,
      pushed_iff.mpr (run_of_runs (by decide +kernel))⟩,
    ⟨l, 0, after (pop .w16) { framed.begun with regs := l }, writesReg_iff.mpr rfl,
      popped_iff.mpr (ok_of_gives (by decide +kernel))⟩,
    ⟨s1, s2, memReads_iff.mpr (ok_of_gives (by decide +kernel)), memReads_iff.mpr (ok_of_gives (by decide +kernel))⟩,
    by decide, by decide⟩

theorem witness_InterruptReturns_real : real.pfx.lock = false ∧ real.mode = .real ∧
    (virtual.mode = .v86 ∧ virtual.flags.iopl = 3) ∧
    (∃ off sel img t1 t2 t3, Popped .w16 off real.begun t1 ∧ Popped .w16 sel t1 t2 ∧ Popped .w16 img t2 t3 ∧
      (off.setWidth 32 : Word32).toNat ≤ 0xFFFF) ∧
    ∃ off sel img t1 t2 t3, Popped .w16 off virtual.begun t1 ∧ Popped .w16 sel t1 t2 ∧ Popped .w16 img t2 t3 ∧
      (off.setWidth 32 : Word32).toNat ≤ 0xFFFF :=
  ⟨rfl, rfl, ⟨rfl, rfl⟩,
    ⟨_, _, _, _, _, _, popped_iff.mpr rfl, popped_iff.mpr rfl, popped_iff.mpr rfl, by decide +kernel⟩,
    ⟨_, _, _, _, _, _, popped_iff.mpr rfl, popped_iff.mpr rfl, popped_iff.mpr rfl, by decide +kernel⟩⟩

theorem witness_InterruptReturns_protected : protStack.pfx.lock = false ∧ protStack.mode = .prot ∧
    protStack.flags.nt = false ∧ selRpl ((8 : Word32).setWidth 16) = protStack.cpl ∧ DirectCode code8 8 protStack.cpl ∧
    ((0x1234 : Word32).setWidth 32 : Word32).toNat ≤ code8.limit.toNat ∧
    ¬(protStack.osz = .s32 ∧ (0 : Word32).getLsbD 17 = true ∧ protStack.cpl = 0) ∧
    ∃ t1 t2 t3 s1, Popped .d32 0x1234 protStack.begun t1 ∧ Popped .d32 8 t1 t2 ∧ Popped .d32 0 t2 t3 ∧
      DescriptorAt 8 code8 t3 s1 ∧ ∃ s2, Accessed code8 { s1 with flags := Flags.reset } s2 := by
  let u1 := after (pop .d32) protStack.begun
  let u2 := after (pop .d32) u1
  let u3 := after (pop .d32) u2
  let u4 := after (readDescriptor 8 exnUD) u3
  exact ⟨rfl, rfl, rfl, by decide, ⟨rfl, rfl, by decide⟩, by decide, by decide,
    ⟨u1, u2, u3, u4, popped_iff.mpr (ok_of_gives (by decide +kernel)),
      popped_iff.mpr (ok_of_gives (by decide +kernel)), popped_iff.mpr (ok_of_gives (by decide +kernel)),
      code8_at (by decide +kernel), _, accessed_iff.mpr (run_of_runs (by decide +kernel))⟩⟩

theorem witness_InterruptRoundTrip : real.mode = .real ∧ real.pfx = Pfx.none ∧ real.flags.vm = false ∧
    real.eip.toNat ≤ 0xFFFF ∧ real.segs.cs = realSeg real.segs.cs real.segs.cs.sel ∧
    real.segs.ss.base.toNat ≤ 0xFFFF0 ∧ 4 * (0x21 : Byte).toNat + 3 ≤ real.idtr.limit.toNat ∧
    ∃ t, RealEntry 0x21 real.eip real.begun t :=
  ⟨rfl, rfl, rfl, by decide, by decide, by decide, by decide, _, _, _, _, pushed_iff.mpr rfl, pushed_iff.mpr rfl,
    pushed_iff.mpr rfl, rfl⟩

/-- Mode P at level 3 with IOPL 0. -/
def user : State := { prot with cpl := 3, pfx := { Pfx.none with lock := true } }

theorem witness_LockTraps : user.pfx.lock = true ∧ (Instr.nop).isPrefix = false ∧
    ¬Lockable .nop ∧ Lockable (aluToRm .add (.mem there) (.rb .eax)) ∧ user.mode = .prot ∧
    ¬user.cpl ≤ user.flags.iopl := by
  refine ⟨rfl, rfl, ?_, .inl ⟨.add, there, .rb .eax, by decide, rfl⟩, rfl, by decide⟩
  rintro (⟨op, m, x, -, h⟩ | ⟨op, wide, m, h⟩ | ⟨op, m, x, h⟩ | ⟨r, m, h | h⟩)
  · cases op <;> cases x <;> cases h
  · cases op <;> cases wide <;> cases h
  · cases op <;> cases x <;> cases h
  · cases h
  · cases h

/-- A V86 task with a TSS at 4000 up to 7F whose permission map at 68 denies port 4. -/
def mapped : State := { virtual with tr := ⟨0x28, 0x4000, 0x7F, true⟩, mem := [(0x4066, 0x68), (0x4068, 0x10)] }

theorem denied_at {port : Word16} {n : Nat} {s : State} (h : s.mode = .v86)
    (hm : givesValue (ioMapAllows port n) s false = true) : IoDenied port n s (after (ioMapAllows port n) s) := by
  unfold IoDenied
  rw [h]
  exact ioMap_iff.mpr (ok_of_gives hm)

/-- Mode P at level 3 and mode V with IOPL 0; ports denied in mode P, without a TSS, by the map, past the map; strings
with and without a repeat prefix. -/
theorem witness_PrivilegeTraps :
    (let s : State := { user with pfx := Pfx.none }; s.pfx.lock = false ∧ s.pfx.rep = none ∧
      s.mode = .prot ∧ ¬s.cpl ≤ s.flags.iopl ∧ ¬Level0 s ∧ IoDenied 0x20 2 s.begun s.begun ∧
      ∃ v s1, MemReads .b8 .ds (atAsz s .esi) v s.begun s1 ∧ IoDenied (readReg .w16 s.regs .edx) 1 s1 s1) ∧
    (let s : State := { virtual with flags := { virtual.flags with iopl := 0 } };
      s.pfx.lock = false ∧ s.mode = .v86 ∧ s.flags.iopl ≠ 3 ∧ ¬Level0 s) ∧
    (let s : State := { virtual with tr := { virtual.tr with valid := false } };
      s.pfx.lock = false ∧ IoDenied 0x20 1 s.begun s.begun) ∧
    (∃ t, IoDenied 4 1 mapped.begun t) ∧ (∃ t, IoDenied 3 2 mapped.begun t) ∧ (∃ t, IoDenied 0xC0 1 mapped.begun t) ∧
    let s : State := { State.with4 mapped 0 1 4 0 with pfx := { Pfx.none with rep := some .rep } };
      s.pfx.lock = false ∧ atAsz s .ecx ≠ 0 ∧
      (∃ t, IoDenied (readReg .w16 s.regs .edx) 2 s.begun t) ∧
      ∃ v s1 t, MemReads .w16 .ds (atAsz s .esi) v s.begun s1 ∧ IoDenied (readReg .w16 s.regs .edx) 2 s1 t :=
  ⟨⟨rfl, rfl, rfl, by decide, by unfold Level0; decide, ⟨by decide, rfl⟩,
      ⟨_, _, memReads_iff.mpr rfl, by decide, rfl⟩⟩,
    ⟨rfl, rfl, by decide, by unfold Level0; decide⟩, ⟨rfl, .inl ⟨by decide, rfl, rfl⟩⟩,
    ⟨_, denied_at rfl (by decide +kernel)⟩, ⟨_, denied_at rfl (by decide +kernel)⟩, ⟨_, denied_at rfl (by decide +kernel)⟩,
    rfl, by decide, ⟨_, denied_at rfl (by decide +kernel)⟩, _, _, _, memReads_iff.mpr rfl,
    denied_at rfl (by decide +kernel)⟩

theorem witness_FlagControl : real.pfx.lock = false ∧ (prot.mode = .prot → prot.cpl ≤ prot.flags.iopl) ∧
    (virtual.mode = .v86 → virtual.flags.iopl = 3) ∧ Level0 real ∧ Level0 prot :=
  ⟨rfl, fun _ => by decide, fun _ => rfl, .inl rfl, .inr ⟨rfl, rfl⟩⟩

theorem witness_Coprocessor : real.pfx.lock = false ∧ ¬(real.mp = true ∧ real.ts = true) ∧
    (let s : State := { real with cr0 := 0xA }; s.mp = true ∧ s.ts = true) ∧
    ({ real with cr0 := 4 }.em = true ∧ real.em = false ∧ real.ts = false) ∧
    (real.lines.busy = false ∧ real.lines.error = false) ∧
    (let s : State := { real with lines := ⟨false, [], true, true⟩ }; s.lines.busy = true ∧ s.lines.error = true) := by
  decide

theorem witness_PrefixesLatch : (Instr.lock).isPrefix = true ∧ (Instr.addrSize).isPrefix = true := by decide

theorem witness_FrameRegisterForms : real.pfx.lock = false ∧ RegisterOnly (aluToRm .add (.reg .ah) (.rb .bh)) ∧
    RegisterOnly .daa :=
  ⟨rfl, .inl ⟨_, _, _, rfl⟩, by unfold RegisterOnly; simp⟩

theorem witness_FrameOperands_load : real.pfx.lock = false ∧
    ReadsOperand real (aluFromRm .add true .eax (.mem there)) .w16 (.mem there) ∧
    (∃ l s1, locate .w16 .read (.mem there) real.begun = .ok l s1) ∧
    ∃ l s1, locate .w16 .read (.mem (.dir32 0x00403004)) paged.begun = .ok l s1 :=
  ⟨rfl, .inl ⟨_, _, _, rfl, rfl⟩, ⟨_, _, rfl⟩, value_pair (value_of_runs (by decide +kernel))⟩

theorem witness_FrameOperands_store : real.lockOk true ∧ { real with pfx := { Pfx.none with lock := true } }.lockOk true ∧
    WritesOperand real (aluToRm .add (.mem there) (.rv .eax)) .w16 (.mem there) true ∧
    WritesOperand real (.movRmbRb (.reg .ah) .bl) .b8 (.reg .ah) false ∧
    (∃ l s1, locate .w16 .write (.mem there) real.begun = .ok l s1) ∧
    (∃ l s1, locate .b8 .write (.reg .ah) real.begun = .ok l s1) ∧
    ∃ l s1, locate .w16 .write (.mem (.dir32 0x00403004)) paged.begun = .ok l s1 :=
  ⟨fun h => absurd h (by decide), fun _ => ⟨rfl, fun h => absurd h (by decide)⟩,
    .inl ⟨.add, .rv .eax, by decide, rfl, rfl, rfl⟩,
    .inr (.inr (.inr ⟨rfl, .inr (.inr (.inl ⟨rfl, .inl ⟨_, rfl⟩⟩))⟩)), ⟨_, _, rfl⟩, ⟨_, _, rfl⟩,
    value_pair (value_of_runs (by decide +kernel))⟩

/-- An operand beyond the limit of DS in `prot`. -/
def beyond : EA := .dir16 0x1500

/-- An operand whose second byte lies in an absent page of `paged`. -/
def straddling : EA := .dir32 0x00404FFF

theorem witness_OperandFaults_fetch : prot.pfx.lock = false ∧ paged.pfx.lock = false ∧
    FetchesOperand prot (.movRvRmv .eax (.mem beyond)) .d32 (.mem beyond) ∧
    FetchesOperand paged (.movRvRmv .eax (.mem straddling)) .d32 (.mem straddling) ∧
    FetchesOperand prot (.divRmb (.mem beyond)) .b8 (.mem beyond) ∧
    FetchesOperand prot (.pushRmv (.mem beyond)) .d32 (.mem beyond) ∧
    FetchesOperand prot (.movSregRmw .ds (.mem beyond)) .w16 (.mem beyond) ∧
    (∀ w ∈ [Width.b8, .w16, .d32], ∃ u, locate w .read (.mem beyond) prot.begun = .error (.exc (exnGP 0)) u) ∧
    ∃ u, locate .d32 .read (.mem straddling) paged.begun = .error (.exc (exnPF 0x00405000 0)) u := by
  have h : ∀ (s : State) (m : RM), FetchesOperand s (.movRvRmv .eax m) s.osz.width m := fun _ _ =>
    .inl (.inr (.inr (.inr (.inr ⟨rfl, .inl ⟨_, .inl rfl⟩⟩))))
  refine ⟨rfl, rfl, h _ _, h _ _, .inr (.inl ⟨false, rfl, .inl rfl⟩), .inr (.inr (.inl ⟨rfl, .inl rfl⟩)),
    .inr (.inr (.inr ⟨rfl, _, by decide, rfl⟩)), fun w hw => ?_, _, error_of_fails (by decide +kernel)⟩
  fin_cases hw <;> exact ⟨_, error_of_fails (by decide +kernel)⟩

theorem witness_OperandFaults_modify : prot.lockOk false ∧ prot.lockOk (RMisMem (.mem beyond)) ∧
    ModifiesOperand prot (aluToRm .add (.mem beyond) (.rv .eax)) .d32 (.mem beyond) (RMisMem (.mem beyond)) ∧
    ModifiesOperand prot (shiftInstr .shl true .one (.mem beyond)) .d32 (.mem beyond) false ∧
    ModifiesOperand prot (doubleInstr true (.mem beyond) .eax (some 4)) .d32 (.mem beyond) false ∧
    ModifiesOperand prot (.xchgRvRmv .eax (.mem beyond)) .d32 (.mem beyond) (RMisMem (.mem beyond)) ∧
    ∃ u, locate .d32 .write (.mem beyond) prot.begun = .error (.exc (exnGP 0)) u := by
  refine ⟨fun h => absurd h (by decide), fun h => absurd h (by decide),
    .inl ⟨.inl ⟨.add, .rv .eax, by decide, rfl, rfl, rfl⟩, ?_, ?_⟩,
    .inl ⟨.inr (.inr (.inr ⟨rfl, .inl ⟨.shl, true, .one, rfl, rfl⟩⟩)), ?_, ?_⟩,
    .inl ⟨.inr (.inr (.inr ⟨rfl, .inr (.inl ⟨true, .eax, some 4, rfl, rfl⟩)⟩)), ?_, ?_⟩,
    .inr ⟨rfl, .eax, .inr ⟨rfl, rfl⟩⟩, _, error_of_fails (by decide +kernel)⟩
  all_goals
    intro a b c h
    cases a <;> cases b <;> cases c <;> cases h <;> decide

theorem witness_OperandFaults_pair : PairOperand prot (.lss .eax beyond) beyond .w16 ∧
    PairOperand prot (.bound .eax (.dir16 0xFFC)) (.dir16 0xFFC) .d32 ∧
    (∃ u, translate .read .ds (eaOffset prot.regs beyond) prot.osz.width.bytes prot.begun = .error (.exc (exnGP 0)) u) ∧
    ∃ v s1, MemReads prot.osz.width (prot.pfx.seg.getD (eaSeg (.dir16 0xFFC))) (eaOffset prot.regs (.dir16 0xFFC)) v
        prot.begun s1 ∧
      ∃ u, translate .read (prot.pfx.seg.getD (eaSeg (.dir16 0xFFC)))
        (eaOffset prot.regs (.dir16 0xFFC) + BitVec.ofNat 32 prot.osz.width.bytes) 4 s1 = .error (.exc (exnGP 0)) u :=
  ⟨.inl ⟨rfl, .inl ⟨_, .inr (.inr (.inr (.inr rfl)))⟩⟩, .inr ⟨rfl, _, rfl⟩, ⟨_, error_of_fails (by decide +kernel)⟩,
    _, _, ⟨_, rfl, rfl⟩, _, error_of_fails (by decide +kernel)⟩

theorem witness_OperandFaults_access :
    (∃ u, translate .read (prot.pfx.seg.getD (eaSeg beyond)) (eaOffset prot.regs beyond) 2 prot =
      .error (.exc (exnGP 0)) u) ∧
    linear prot .read .ds 0x1500 2 = .error (exnGP 0) ∧ linear paged .read .ds 0x00404FFF 2 = .ok 0x00404FFF ∧
    (∃ ps, pages .read (paged.level == 3) 0x00404FFF 1 paged =
      .ok ps (after (pages .read (paged.level == 3) 0x00404FFF 1) paged)) ∧
    (∃ v, page .read (paged.level == 3) (0x00404FFF + BitVec.ofNat 32 1)
      (after (pages .read (paged.level == 3) 0x00404FFF 1) paged) = .error (.exc (exnPF 0x00405000 0)) v) ∧
    (∃ ps u, translate .read .ds 0x00404FFF 1 paged = .ok ps u) ∧
    ∃ u, translate .read .ds 0x00404FFF 2 paged = .error (.exc (exnPF 0x00405000 0)) u :=
  ⟨⟨_, error_of_fails (by decide +kernel)⟩, by decide +kernel, by decide +kernel, value_of_runs (by decide +kernel),
    ⟨_, error_of_fails (by decide +kernel)⟩, value_pair (value_of_runs (by decide +kernel)),
    _, error_of_fails (by decide +kernel)⟩

/-- `prot` with a stack whose top lies beyond its limit. -/
def overStack : State :=
  { prot with regs := { prot.regs with esp := 0x2000 }, segs := { prot.segs with ss := prot.segs.ds } }

theorem witness_FramePushes : real.pfx.lock = false ∧ PlainPush real (.pushRv .esp) ∧ PlainPush real .pushf ∧
    PlainPush virtual .pushf ∧ (real.mode ≠ .prot → topOffset real ≠ 1) ∧
    (∃ ps s1, translate .write .ss (pushOffset real real.osz.width) real.osz.width.bytes real.begun = .ok ps s1) ∧
    (∃ ps s1, translate .write .ss (pushOffset { real with regs := { real.regs with esp := 0 } } .w16) 2
      { real with regs := { real.regs with esp := 0 } } = .ok ps s1) ∧
    ∃ u, translate .write .ss (pushOffset overStack overStack.osz.width) overStack.osz.width.bytes overStack.begun =
      .error (.exc (exnSS 0)) u :=
  ⟨rfl, .inl ⟨_, rfl⟩, .inr (.inr (.inr ⟨rfl, fun h => absurd h (by decide)⟩)),
    .inr (.inr (.inr ⟨rfl, fun _ => rfl⟩)), fun _ => by decide, ⟨_, _, rfl⟩, ⟨_, _, rfl⟩,
    _, error_of_fails (by decide +kernel)⟩

/-! Witnesses of the protected-mode statements. -/

theorem push_at {w : Width} {v : BitVec w.bits} {s : State} (h : runs (push w v) s = true) :
    Pushed w v s (after (push w v) s) := pushed_iff.mpr (run_of_runs h)

theorem sel_at {z : Size} {v : Word16} {s : State} (h : runs (pushSelector z v) s = true) :
    PushedSel z v s (after (pushSelector z v) s) := pushedSel_iff.mpr (run_of_runs h)

theorem pop_at {w : Width} {v : BitVec w.bits} {s : State} (h : givesValue (pop w) s v = true) :
    Popped w v s (after (pop w) s) := popped_iff.mpr (ok_of_gives h)

theorem read_at {w : Width} {sr : SReg} {off : Word32} {v : BitVec w.bits} {s : State}
    (h : givesValue (memRead w sr off) s v = true) : MemReads w sr off v s (after (memRead w sr off) s) :=
  memReads_iff.mpr (ok_of_gives h)

theorem mark_at {d : Desc} {s : State} (h : runs (markAccessed d) s = true) :
    Accessed d s (after (markAccessed d) s) := accessed_iff.mpr (run_of_runs h)

theorem load_at {sr : SReg} {sel : Word16} {s : State} (h : runs (loadSeg sr sel) s = true) :
    SegLoads sr sel s (after (loadSeg sr sel) s) := segLoads_iff.mpr (run_of_runs h)

theorem desc_at {sel : Word16} {d : Desc} {s : State} (h : givesValue (readDescriptor sel exnUD) s d = true) :
    DescriptorAt sel d s (after (readDescriptor sel exnUD) s) := descriptorAt_of (ok_of_gives h)

/-- The memory cells of a list of bytes at an address. -/
def cells (at_ : Nat) (bs : List Byte) : List Host.Cell :=
  (((List.range bs.length).map (at_ + ·)).zip bs).filter fun c => c.2 != 0

/-- Double words in memory. -/
def dwords (at_ : Nat) (vs : List Word32) : List Host.Cell := cells at_ (vs.flatMap bytes32)

/-- Descriptors, from selector 8 on: code and data of levels 0 and 3, absent code, code that ends at FFF; call gates
(38: to 8:1234 with a parameter, absent, to a null selector, outside the table, to data, to absent code, of level 0);
absent data; TSSs (78 at 5000, 80 busy, at 4000), LDTs, TSSs absent and short, a task gate to 78, a busy TSS at 5000,
and an empty TSS at 6000. -/
def gdtEntries : List Word32 :=
  [0x0000FFFF, 0x00CF9A00, 0x0000FFFF, 0x00CF9200, 0x0000FFFF, 0x00CFFA00, 0x0000FFFF, 0x00CFF200,
    0x0000FFFF, 0x00CF1A00, 0x00000FFF, 0x00409A00, 0x00081234, 0x0000EC01, 0x00081234, 0x00006C00,
    0x00001234, 0x0000EC00, 0x10001234, 0x0000EC00, 0x00101234, 0x0000EC00, 0x00281234, 0x0000EC00,
    0x00081234, 0x00008C00, 0x0000FFFF, 0x00CF1200, 0x50000067, 0x0000E900, 0x40000067, 0x00008B00,
    0x60000007, 0x00008200, 0x60000007, 0x00000200, 0x50000067, 0x00000900, 0x50000066, 0x00008900,
    0x00780000, 0x0000E500, 0x50000067, 0x00008B00, 0x60000067, 0x00008900]

/-- Descriptors from selector C0 on: a call gate to 30:1234, a task gate of level 0 to 78 and an absent one, code and
data of level 1, absent data and code that ends at FFF of level 3. -/
def furtherEntries : List Word32 :=
  [0x00301234, 0x0000EC00, 0x00780000, 0x00008500, 0x00780000, 0x00006500, 0x0000FFFF, 0x00CFBA00,
    0x0000FFFF, 0x00CFB200, 0x0000FFFF, 0x00CF7200, 0x00000FFF, 0x0040FA00]

/-- The descriptor of a selector in these tables. -/
def desc (sel : Nat) : Desc :=
  let l := gdtEntries ++ furtherEntries
  ⟨l.getD (sel / 8 * 2 - 2) 0, l.getD (sel / 8 * 2 - 1) 0, BitVec.ofNat 32 (0x9000 + sel / 8 * 8)⟩

/-- The gates of vectors 3 to 13: an interrupt and a trap gate of level 3 to 8:1234, at 8 and 13 gates of level 0, at
9 a task gate to 78, at 10 one to B8. -/
def idtEntries : List Word32 :=
  [0x00081234, 0x0000EE00, 0x00081234, 0x0000EF00, 0, 0, 0, 0, 0, 0, 0x00081234, 0x00008E00, 0x00780000, 0x0000E500,
    0x00B80000, 0x0000E500, 0, 0, 0, 0, 0x00081234, 0x00008E00]

/-- Task gates to 78 for vectors 3, 4 and 9. -/
def taskGates : List Word32 :=
  [0x00780000, 0x0000E500, 0x00780000, 0x0000E500, 0, 0, 0, 0, 0, 0, 0, 0, 0x00780000, 0x0000E500]

/-- Gates of vectors 0 to 12 that fail or lead to code that does: an absent one; to a null selector, outside the
table, to data, to code of level 3, to absent code, to 30:1234, to code of level 1, to 8:1234; a task gate to 8; no
gate; a gate of level 0; to code of level 3 that ends at FFF. -/
def badEntries : List Word32 :=
  [0x00081234, 0x00006E00, 0x00001234, 0x0000EE00, 0x10001234, 0x0000EE00, 0x00101234, 0x0000EE00, 0x00181234, 0x0000EE00,
    0x00281234, 0x0000EE00, 0x00301234, 0x0000EE00, 0x00D81234, 0x0000EE00, 0x00081234, 0x0000EE00, 0x00080000, 0x0000E500,
    0, 0, 0x00081234, 0x00008E00, 0x00F00234, 0x0000EE00]

/-- `prot` with these tables and a stack at 200, in a task at 4000 with the stacks 10:300 for level 0 and E1:300 for
level 1 and a back link to B0; its GDT ends before `furtherEntries`; the task at 5000 has CS = 8, SS = 10 and page
tables that map each page to itself. -/
def machine (stack : List Word32) : State :=
  { prot with
    regs := { prot.regs with esp := 0x200 }
    gdtr := ⟨0x9000, 0xBF⟩
    idtr := ⟨0xA000, 0x6F⟩
    tr := ⟨0x80, 0x4000, 103, true⟩
    mem := dwords 0x200 stack ++ dwords 0x4000 [0xB0, 0x300, 0x10, 0x300, 0xE1] ++ dwords 0x501C [0x7000] ++ dwords 0x5024 [2] ++
      dwords 0x504C [8, 0x10] ++ dwords 0x7000 [0x8007] ++
      dwords 0x8000 [7, 0x1007, 0x2007, 0x3007, 0x4007, 0x5007, 0x6007, 0x7007, 0x8007, 0x9007] ++
      dwords 0x9008 (gdtEntries ++ furtherEntries) ++ dwords 0xA018 idtEntries ++ dwords 0xA818 taskGates ++
      dwords 0xB000 badEntries }

/-- `machine` with the whole GDT and the bad gates. -/
def furnished (stack : List Word32) : State := { machine stack with gdtr := ⟨0x9000, 0xF7⟩, idtr := ⟨0xB000, 0x67⟩ }

/-- A null SS; a selector outside the table; code for SS; an absent SS; a gate for DS; absent data for DS. -/
theorem witness_SegmentLoadFaults : prot.pfx.lock = false ∧
    (∃ l s1, locate .w16 .read (.reg .eax) (machine []).begun = .ok l s1 ∧
      SegLoadFails .ss (s1.valueAt .w16 l) (exnGP 0) s1 s1) ∧
    (∃ v s1, Popped .d32 v (machine [0xC0]).begun s1 ∧
      SegLoadFails .ds (v.setWidth 16) (exnGP 0xC0) { s1 with regs := (machine []).regs }
        { s1 with regs := (machine []).regs }) ∧
    (∃ s1 t, FarPointer (.dir32 0x200) (machine [0, 8]).begun 0 8 s1 ∧ SegLoadFails .ss 8 (exnGP 8) s1 t) ∧
    (∃ t, SegLoadFails .ss 0x70 (exnSS 0x70) (machine []) t) ∧
    (∃ t, SegLoadFails .ds 0x38 (exnGP 0x38) (machine []) t) ∧ ∃ t, SegLoadFails .ds 0x70 (exnNP 0x70) (machine []) t :=
  ⟨rfl, ⟨_, _, rfl, rfl, .inl (by decide +kernel)⟩,
    ⟨0xC0, _, pop_at (by decide +kernel), by decide +kernel, .inr (.inl (by unfold OutsideTable; decide +kernel))⟩,
    ⟨_, _, ⟨_, read_at (by decide +kernel), read_at (by decide +kernel)⟩, by decide +kernel,
      .inr (.inr ⟨by decide, desc 8, desc_at (by decide +kernel), .inl (by decide +kernel)⟩)⟩,
    ⟨_, rfl, .inr (.inr ⟨by decide, desc 0x70, desc_at (by decide +kernel), .inr (.inl (by decide +kernel))⟩)⟩,
    ⟨_, rfl, .inr (.inr ⟨by decide, desc 0x38, desc_at (by decide +kernel), .inr (.inr (.inl (by decide +kernel)))⟩)⟩,
    ⟨_, rfl, .inr (.inr ⟨by decide, desc 0x70, desc_at (by decide +kernel), .inr (.inr (.inr (by decide +kernel)))⟩)⟩⟩

/-- `s` one past the last offset of mode R after a short jump, 32-bit targets past it, and past a limit of FFF. -/
theorem witness_NearTransferFaults : real32.pfx.lock = false ∧
    (let s := { real32 with eip := 0xFFFF };
      ¬NearOk s (truncated s (s.eip + (1 : Byte).signExtend 32)) ∧ CondRule s.flags .ne ∧ atAsz s .ecx = 0 ∧
        ∃ g, WritesReg s.asz.width .ecx (readReg s.asz.width s.regs .ecx - 1) s.regs g ∧
          readReg s.asz.width g .ecx ≠ 0 ∧ (!s.flags.zf) = true) ∧
    ¬NearOk real32 (truncated real32 (real32.eip + Sized.sext (.d 0xEFFE))) ∧
    (let s := { prot with segs := { prot.segs with cs := { prot.segs.cs with limit := 0xFFF } } };
      s.mode = .prot ∧ ¬NearOk s 0x1000) ∧
    (let s := State.with4 real32 0 0 0 0x10000;
      ∃ l s1, locate s.osz.width .read (.reg .ebx) s.begun = .ok l s1 ∧
        ¬NearOk s ((s1.valueAt s.osz.width l).setWidth 32)) ∧
    let s := { real32 with mem := [(0x102, 1)] };
    ∃ t, Popped .d32 0x10000 s.begun t ∧ ¬NearOk s 0x10000 := by
  have far : ∀ {s : State} {x : Word32}, s.mode ≠ .prot → 0xFFFF < x.toNat → ¬NearOk s x :=
    fun hm hx h => absurd (h.2 hm) (Nat.not_le.mpr hx)
  exact ⟨rfl, ⟨far (by decide) (by decide +kernel), rfl, by decide, _, writesReg_iff.mpr rfl, by decide +kernel, rfl⟩,
    far (by decide) (by decide +kernel), ⟨rfl, fun h => absurd (h.1 rfl) (by decide)⟩,
    ⟨_, _, rfl, far (by decide) (by decide +kernel)⟩, _, pop_at (by decide +kernel), far (by decide) (by decide)⟩

/-- The gate 38 from level 0, where a JMP and a CALL stay, and a CALL from level 3 with one parameter. -/
theorem witness_CallGates :
    (let s := machine [];
      s.pfx.lock = false ∧ s.mode = .prot ∧ FarForms s 0x38 0 (.jmpFar (.d 0) 0x38) (.callFar (.d 0) 0x38) s.begun ∧
      (desc 0x38).isCallGate = true ∧ s.cpl ≤ (desc 0x38).dpl ∧ selRpl 0x38 ≤ (desc 0x38).dpl ∧ (desc 0x38).p = true ∧
      ∃ s1 t u, DescriptorAt 0x38 (desc 0x38) s.begun s1 ∧ GateCalled false (desc 0x38) s1 t ∧
        GateCalled true (desc 0x38) s1 u) ∧
    let s := { machine [] with cpl := 3 };
    ∃ s1 t, DescriptorAt 0x38 (desc 0x38) s.begun s1 ∧ s.cpl ≤ (desc 0x38).dpl ∧ GateCalled true (desc 0x38) s1 t := by
  let z := (desc 0x38).gateSize
  let s1 := after (readDescriptor 0x38 exnUD) (machine []).begun
  let s2 := after (readDescriptor 8 exnUD) s1
  let t1 := after (pushSelector z s2.segs.cs.sel) s2
  let t2 := after (push z.width (s2.eip.setWidth _)) t1
  let u1 := after (readDescriptor 0x38 exnUD) { machine [] with cpl := 3 }.begun
  let u2 := after (readDescriptor 8 exnUD) u1
  let c := desc 8
  let a1 := after (sysRead16 (u2.tr.base + BitVec.ofNat 32 (8 * c.dpl.toNat + 8))) u2
  let a2 := after (sysRead32 (u2.tr.base + BitVec.ofNat 32 (8 * c.dpl.toNat + 4))) a1
  let a3 := after (readDescriptor 0x10 exnUD) a2
  let a4 := after (memRead z.width .ss (aboveTop a3 0)) a3
  let b0 := onStack a4 c.dpl 0x10 0x300 (desc 0x10)
  let b1 := after (pushSelector z u2.segs.ss.sel) b0
  let b2 := after (push z.width (u2.regs.esp.setWidth _)) b1
  let b3 := after (push z.width 0) b2
  let b4 := after (pushSelector z b3.segs.cs.sel) b3
  let b5 := after (push z.width (b3.eip.setWidth _)) b4
  exact ⟨⟨rfl, rfl, .inl ⟨_, rfl, rfl, rfl, rfl⟩, by decide, by decide, by decide, by decide,
      ⟨s1, _, _, desc_at (by decide +kernel),
        ⟨desc 8, s2, s2, _, ⟨by decide, desc_at (by decide +kernel), by decide +kernel⟩, fun _ => .inr (by decide +kernel),
          rfl, mark_at (by decide +kernel), rfl⟩,
        ⟨desc 8, s2, t2, _, ⟨by decide, desc_at (by decide +kernel), by decide +kernel⟩, fun h => absurd h (by decide),
          .inl ⟨.inr (by decide +kernel), t1, sel_at (by decide +kernel), push_at (by decide +kernel)⟩,
          mark_at (by decide +kernel), rfl⟩⟩⟩,
    ⟨u1, _, desc_at (by decide +kernel), by decide,
      ⟨c, u2, _, _, ⟨by decide, desc_at (by decide +kernel), by decide +kernel⟩, fun h => absurd h (by decide),
        .inr ⟨by decide, by decide +kernel, 0x10, 0x300, desc 0x10, [0], a3, a4, b1, b2, b3, b5,
          ⟨by decide +kernel, by decide +kernel, a1, a2, ok_of_gives (by decide +kernel), ok_of_gives (by decide +kernel),
            by decide, desc_at (by decide +kernel), by decide +kernel⟩,
          by decide, ⟨_, read_at (by decide +kernel), rfl⟩, sel_at (by decide +kernel), push_at (by decide +kernel),
          ⟨b3, push_at (by decide +kernel), rfl⟩, ⟨b4, sel_at (by decide +kernel), push_at (by decide +kernel)⟩,
          mark_at (by decide +kernel)⟩,
        mark_at (by decide +kernel), rfl⟩⟩⟩

theorem accessed_exists {d : Desc} {s : State} (h : s.paging = false) : ∃ t, Accessed d s t := by
  unfold Accessed
  split
  · exact ⟨s, rfl⟩
  · unfold sysWrite
    exact ⟨_, bind_run_ok (pages_run_off h _ _ _ _)⟩

/-- `s` after popping `n` double words. -/
def poppedItems (s : State) : Nat → State
  | 0 => s
  | n + 1 => after (pop .d32) (poppedItems s n)

/-- A RET that releases four bytes and an IRET to level 3, and an IRETD to a virtual-8086 task. -/
theorem witness_OuterReturns :
    (let s := machine [0x1234, 0x1B, 0, 0x500, 0x23];
      s.pfx.lock = false ∧ s.mode = .prot ∧ s.flags.nt = false ∧ 4 ≤ ((0x1B : Word32).setWidth 16 : Word16).toNat ∧
      s.cpl < selRpl ((0x1B : Word32).setWidth 16) ∧ ReturnCode (desc 0x18) 3 ∧
      (0x1234 : Word32).toNat ≤ (desc 0x18).limit.toNat ∧ (0 : Word32).getLsbD 17 = false ∧
      ∃ t1 t2 t3 s1 s2, Popped .d32 0x1234 s.begun t1 ∧ Popped .d32 0x1B t1 t2 ∧ Popped .d32 0 t2 t3 ∧
        DescriptorAt 0x1B (desc 0x18) t2 s1 ∧ DescriptorAt 0x1B (desc 0x18) t3 s2 ∧
        (∃ g u v, SpMoved s ((4 : Word16).setWidth 32) s1.regs g ∧ OuterStack .d32 3 4 { s1 with regs := g } u ∧
          Accessed (desc 0x18) u v) ∧
        ∃ u v, OuterStack .d32 3 0 { s2 with flags := Flags.reset } u ∧ Accessed (desc 0x18) u v) ∧
    let s := machine [0x1234, 0x1000, 0x00020002, 0x500, 0x2000, 1, 2, 3, 4];
    s.osz = .s32 ∧ s.cpl = 0 ∧ (0x00020002 : Word32).getLsbD 17 = true ∧
      ∃ t1 t2 t3 t4 t5 t6 t7 t8 t9, Popped .d32 0x1234 s.begun t1 ∧ Popped .d32 0x1000 t1 t2 ∧
        Popped .d32 0x00020002 t2 t3 ∧ Popped .d32 0x500 t3 t4 ∧ Popped .d32 0x2000 t4 t5 ∧ Popped .d32 1 t5 t6 ∧
        Popped .d32 2 t6 t7 ∧ Popped .d32 3 t7 t8 ∧ Popped .d32 4 t8 t9 := by
  let s := machine [0x1234, 0x1B, 0, 0x500, 0x23]
  let t1 := after (pop .d32) s.begun
  let t2 := after (pop .d32) t1
  let t3 := after (pop .d32) t2
  let s1 := after (readDescriptor 0x1B exnUD) t2
  let s2 := after (readDescriptor 0x1B exnUD) t3
  have stack : ∀ (n : Word16) (u : State), givesValue (pop .d32) u 0x500 = true →
      givesValue (pop .d32) (after (pop .d32) u) 0x23 = true →
      givesValue (readDescriptor 0x23 exnUD) (after (pop .d32) (after (pop .d32) u)) (desc 0x20) = true →
      runs (markAccessed (desc 0x20)) (after (readDescriptor 0x23 exnUD) (after (pop .d32) (after (pop .d32) u))) =
        true →
      (after (markAccessed (desc 0x20))
        (after (readDescriptor 0x23 exnUD) (after (pop .d32) (after (pop .d32) u)))).paging = false →
      ∃ v w, OuterStack .d32 3 n u v ∧ Accessed (desc 0x18) v w := by
    intro n u h2 h3 h4 h5 h6
    obtain ⟨w, hw⟩ := accessed_exists (d := desc 0x18) (s := { after (markAccessed (desc 0x20))
        (after (readDescriptor 0x23 exnUD) (after (pop .d32) (after (pop .d32) u))) with
      cpl := 3
      regs := _
      segs := _ }) h6
    exact ⟨_, w, ⟨0x500, 0x23, _, _, _, _, desc 0x20, pop_at h2, pop_at h3, by decide, desc_at h4, by decide, by decide,
      by decide, by decide, mark_at h5, rfl⟩, hw⟩
  let b1 := (machine [0x1234, 0x1000, 0x00020002, 0x500, 0x2000, 1, 2, 3, 4]).begun
  let b := poppedItems b1
  exact ⟨⟨rfl, rfl, rfl, by decide, by decide, by unfold ReturnCode; decide, by decide, by decide, t1, t2, t3, s1, s2,
      pop_at (by decide +kernel), pop_at (by decide +kernel), pop_at (by decide +kernel), desc_at (by decide +kernel),
      desc_at (by decide +kernel),
      ⟨_, (stack 4 { s1 with regs := writeReg .d32 s1.regs .esp (s1.regs.esp + 4) } (by decide +kernel)
        (by decide +kernel) (by decide +kernel) (by decide +kernel) (by decide +kernel)).imp fun u h =>
          h.imp fun v h => ⟨spMoved_iff.mpr rfl, h⟩⟩,
      stack 0 { s2 with flags := Flags.reset } (by decide +kernel) (by decide +kernel) (by decide +kernel)
        (by decide +kernel) (by decide +kernel)⟩,
    rfl, rfl, by decide, b 1, b 2, b 3, b 4, b 5, b 6, b 7, b 8, b 9, pop_at (by decide +kernel),
    pop_at (by decide +kernel), pop_at (by decide +kernel), pop_at (by decide +kernel), pop_at (by decide +kernel),
    pop_at (by decide +kernel), pop_at (by decide +kernel), pop_at (by decide +kernel), pop_at (by decide +kernel)⟩

/-- In mode R an offset past the end. In mode P, each check of R490 of a JMP and CALL, and of a RET and IRET. -/
theorem witness_FarTransferFaults :
    (let s := real32;
      s.pfx.lock = false ∧ s.mode ≠ .prot ∧
        FarForms s 0 0x10000 (.jmpFar (.d 0x10000) 0) (.callFar (.d 0x10000) 0) s.begun ∧
        (truncated s 0x10000).toNat > 0xFFFF ∧ (∃ t, ReturnPushed s.osz s.begun t) ∧
        ∃ t1 t2, Popped .d32 0x10000 { s.begun with mem := [(0x102, 1)] } t1 ∧ Popped .d32 0 t1 t2) ∧
    (let s := machine [];
      s.pfx.lock = false ∧ s.mode = .prot ∧
        (∀ sel : Word16, FarForms s sel 0x1000 (.jmpFar (.d 0x1000) sel) (.callFar (.d 0x1000) sel) s.begun) ∧
        (3 : Word16).toNat < 4 ∧ OutsideTable s 0xC0 ∧
        (∀ sel ∈ ([0x10, 0x18, 0x28, 0x30, 0x38, 0x40, 0x48, 0x50, 0x58, 0x60, 0x6B] : List Word16),
          ∃ t, DescriptorAt sel (desc sel.toNat) s.begun t) ∧
        ((desc 0x18).isCode = true ∧ (desc 0x18).conforming = false ∧ (desc 0x18).dpl ≠ s.cpl) ∧
        ((desc 0x28).dpl = s.cpl ∧ (desc 0x28).p = false) ∧
        ((desc 0x30).p = true ∧ (0x1000 : Word32).toNat > (desc 0x30).limit.toNat) ∧
        (let d := desc 0x10; d.isCode = false ∧ d.isCallGate = false ∧ d.isTaskGate = false ∧ d.isTss = false) ∧
        (∀ k ∈ [0x38, 0x40, 0x48, 0x50, 0x58, 0x60, 0x68], (desc k).isCallGate = true) ∧
        ¬selRpl 0x6B ≤ (desc 0x68).dpl ∧ (desc 0x40).p = false ∧ (desc 0x48).gateSel.toNat < 4 ∧
        OutsideTable s (desc 0x50).gateSel ∧
        (∀ sel ∈ ([0x10, 0x28] : List Word16), ∃ t, DescriptorAt sel (desc sel.toNat) (after (readDescriptor 0x58 exnUD) s.begun) t) ∧
        (desc 0x58).gateSel = 0x10 ∧ (desc 0x60).gateSel = 0x28) ∧
    (let s := { machine [] with cpl := 3 };
      (desc 8).isCode = true ∧ (desc 8).dpl < s.cpl ∧ (desc 8).conforming = false ∧ (desc 8).p = true ∧
        ∃ s1 s2, DescriptorAt 0x38 (desc 0x38) s.begun s1 ∧ DescriptorAt 8 (desc 8) s1 s2) ∧
    ((∀ sel ∈ ([0, 0xC0, 0x18, 0x28, 0x30] : List Word32), ∃ t1 t2 t3, Popped .d32 0x1000 (machine [0x1000, sel, 2]).begun t1 ∧
        Popped .d32 sel t1 t2 ∧ Popped .d32 2 t2 t3) ∧
      (∀ sel ∈ ([0x18, 0x28, 0x30] : List Word32), ∃ t, DescriptorAt (sel.setWidth 16) (desc sel.toNat)
        (after (pop .d32) (after (pop .d32) (machine [0x1000, sel, 2]).begun)) t)) ∧
    selRpl ((8 : Word32).setWidth 16) < { machine [] with cpl := 3 }.cpl := by
  let s := { machine [] with cpl := 3 }
  let u1 := after (pushSelector .s32 real32.begun.segs.cs.sel) real32.begun
  refine ⟨⟨rfl, by decide, .inl ⟨_, rfl, rfl, rfl, rfl⟩, by decide,
      ⟨_, u1, sel_at (by decide +kernel), push_at (by decide +kernel)⟩,
      _, _, pop_at (by decide +kernel), pop_at (by decide +kernel)⟩,
    ⟨rfl, rfl, fun _ => .inl ⟨_, rfl, rfl, rfl, rfl⟩, by decide, by unfold OutsideTable; decide,
      fun sel hs => ?_, by decide, by decide, by decide, by decide, by decide, by decide, by decide,
      by decide, by unfold OutsideTable; decide, fun sel hs => ?_, by decide, by decide⟩,
    ⟨by decide, by decide, by decide, by decide, after (readDescriptor 0x38 exnUD) s.begun, _,
      desc_at (by decide +kernel), desc_at (by decide +kernel)⟩,
    ⟨fun sel hs => ?_, fun sel hs => ?_⟩,
    by decide⟩
  · fin_cases hs <;> exact ⟨_, desc_at (by decide +kernel)⟩
  · fin_cases hs <;> exact ⟨_, desc_at (by decide +kernel)⟩
  · fin_cases hs <;> exact ⟨_, _, _, pop_at (by decide +kernel), pop_at (by decide +kernel), pop_at (by decide +kernel)⟩
  · fin_cases hs <;> exact ⟨_, desc_at (by decide +kernel)⟩

theorem code_at {z : Size} {code : Option Word16} {s : State} (h : runs (pushCode z code) s = true) :
    CodePushed z.width code s (after (pushCode z code) s) := by
  cases code with
  | none => rfl
  | some x => exact push_at h

/-- The steps of an entry through a gate to code at 8, which has been found, on the stack of `fs`. -/
def gateRun (z : Size) (kind : ExnKind) (s fs : State) : Nat → State
  | 0 => fs
  | 1 => after (push z.width ({ s.flags with rf := s.flags.rf || decide (kind = ExnKind.fault) }.image.setWidth _)) fs
  | 2 => after (pushSelector z s.segs.cs.sel) (after (push z.width
      ({ s.flags with rf := s.flags.rf || decide (kind = ExnKind.fault) }.image.setWidth _)) fs)
  | _ => after (push z.width ((if kind = .fault then s.curEip else s.eip).setWidth _))
      (after (pushSelector z s.segs.cs.sel) (after (push z.width
        ({ s.flags with rf := s.flags.rf || decide (kind = ExnKind.fault) }.image.setWidth _)) fs))

/-- The state after the gate of a vector is read. -/
def gateRead (v : Byte) (s : State) : State := after (readEntry (s.idtr.base + BitVec.ofNat 32 (8 * v.toNat))) s

/-- The state after the gate `g` of a vector and its target are read. -/
def gateFound (v : Byte) (g : Desc) (s : State) : State := after (readDescriptor g.gateSel exnUD) (gateRead v s)

/-- The frame of an entry through a gate from a state in which its code has been found, each part shown by a run. -/
theorem gateFramed_of {kind : ExnKind} {code : Option Word16} {s fs : State} (g c : Desc)
    (hf : FrameStack g.gateSize c s fs)
    (h3 : runs (push g.gateSize.width
      ({ s.flags with rf := s.flags.rf || decide (kind = ExnKind.fault) }.image.setWidth _)) fs = true)
    (h4 : runs (pushSelector g.gateSize s.segs.cs.sel) (gateRun g.gateSize kind s fs 1) = true)
    (h5 : runs (push g.gateSize.width ((if kind = .fault then s.curEip else s.eip).setWidth _))
      (gateRun g.gateSize kind s fs 2) = true)
    (h6 : runs (pushCode g.gateSize code) (gateRun g.gateSize kind s fs 3) = true) :
    let u := after (pushCode g.gateSize code) (gateRun g.gateSize kind s fs 3)
    GateFramed g c kind code s
      { u with flags :=
        { u.flags with
          tf := false
          nt := false
          vm := false
          ifl := u.flags.ifl && g.hi.getLsbD 8 } } :=
  ⟨fs, _, _, _, _, hf, push_at h3, sel_at h4, push_at h5, code_at h6, rfl⟩

/-- An entry through a gate, each part shown by a run of it. -/
theorem gateEntered_of {v : Byte} {kind : ExnKind} {code : Option Word16} {s fs : State} (g c : Desc)
    (h0 : 8 * v.toNat + 7 ≤ s.idtr.limit.toNat ∧ g.isIntGate = true ∧ (kind = .software → s.level ≤ g.dpl) ∧
      g.p = true ∧ 4 ≤ g.gateSel.toNat ∧ c.isCode = true ∧ c.dpl ≤ s.level ∧ c.p = true ∧
      g.gateOff.toNat ≤ c.limit.toNat)
    (h1 : givesValue (readEntry (s.idtr.base + BitVec.ofNat 32 (8 * v.toNat))) s g = true)
    (h2 : givesValue (readDescriptor g.gateSel exnUD) (gateRead v s) c = true)
    (hf : FrameStack g.gateSize c (gateFound v g s) fs)
    (h3 : runs (push g.gateSize.width
      ({ (gateFound v g s).flags with
        rf := (gateFound v g s).flags.rf || decide (kind = ExnKind.fault) }.image.setWidth _)) fs = true)
    (h4 : runs (pushSelector g.gateSize (gateFound v g s).segs.cs.sel)
      (gateRun g.gateSize kind (gateFound v g s) fs 1) = true)
    (h5 : runs (push g.gateSize.width
        ((if kind = .fault then (gateFound v g s).curEip else (gateFound v g s).eip).setWidth _))
      (gateRun g.gateSize kind (gateFound v g s) fs 2) = true)
    (h6 : runs (pushCode g.gateSize code) (gateRun g.gateSize kind (gateFound v g s) fs 3) = true)
    (hp : (after (pushCode g.gateSize code) (gateRun g.gateSize kind (gateFound v g s) fs 3)).paging = false) :
    ∃ t, GateEntered v kind code s t := by
  obtain ⟨a1, a2, a3, a4, a5, a6, a7, a8, a9⟩ := h0
  let u := after (pushCode g.gateSize code) (gateRun g.gateSize kind (gateFound v g s) fs 3)
  obtain ⟨w, hw⟩ := accessed_exists (d := c)
    (s := { u with flags :=
      { u.flags with
        tf := false
        nt := false
        vm := false
        ifl := u.flags.ifl && g.hi.getLsbD 8 } }) hp
  exact ⟨_, a1, g, c, _, _, _, w, ok_of_gives h1, a2, a3, a4, ⟨a5, desc_at h2, a6, a7, a8, a9⟩,
    gateFramed_of g c hf h3 h4 h5 h6, hw, rfl⟩

/-- The gates of vectors 3 and 13. -/
def intGate : Desc := ⟨0x00081234, 0x0000EE00, 0xA018⟩
def faultGate : Desc := ⟨0x00081234, 0x00008E00, 0xA068⟩

/-- The state in which the code of gate `v` has been found. -/
def targetRead (v : Byte) (s : State) : State := after (readDescriptor 8 exnUD) (gateRead v s)

/-- The stack of level 0 of `machine`, found from `s`. -/
def innerRead (s : State) : State :=
  after (readDescriptor 0x10 exnUD) (after (sysRead32 (s.tr.base + BitVec.ofNat 32 (8 * (desc 8).dpl.toNat + 4)))
    (after (sysRead16 (s.tr.base + BitVec.ofNat 32 (8 * (desc 8).dpl.toNat + 8))) s))

theorem innerStack_of {s : State}
    (h1 : s.tr.valid = true ∧ 8 * (desc 8).dpl.toNat + 11 ≤ s.tr.limit.toNat)
    (h2 : givesValue (sysRead16 (s.tr.base + BitVec.ofNat 32 (8 * (desc 8).dpl.toNat + 8))) s 0x10 = true)
    (h3 : givesValue (sysRead32 (s.tr.base + BitVec.ofNat 32 (8 * (desc 8).dpl.toNat + 4)))
      (after (sysRead16 (s.tr.base + BitVec.ofNat 32 (8 * (desc 8).dpl.toNat + 8))) s) 0x300 = true)
    (h4 : givesValue (readDescriptor 0x10 exnUD)
      (after (sysRead32 (s.tr.base + BitVec.ofNat 32 (8 * (desc 8).dpl.toNat + 4)))
        (after (sysRead16 (s.tr.base + BitVec.ofNat 32 (8 * (desc 8).dpl.toNat + 8))) s)) (desc 0x10) = true) :
    InnerStackAt (desc 8).dpl 0x10 0x300 (desc 0x10) s (innerRead s) :=
  ⟨h1.1, h1.2, _, _, ok_of_gives h2, ok_of_gives h3, by decide, desc_at h4, by decide, by decide, by decide, by decide⟩

/-- The old SS and ESP pushed on that stack, and its segment marked. -/
def outerPushed (s u : State) : State :=
  after (markAccessed (desc 0x10)) (after (push .d32 (s.regs.esp.setWidth _)) (after (pushSelector .s32 s.segs.ss.sel) u))

/-- On the stack of level 0, out of mode V. -/
def outOfV86 (s : State) : State :=
  onStack { innerRead s with flags := { (innerRead s).flags with vm := false } } 0 0x10 0x300 (desc 0x10)

/-- The data selectors of a virtual-8086 task pushed from `t`, and null. -/
def dataPushed (o : SegRegs) (t : State) : State :=
  let u := after (do
    push .d32 (o.gs.sel.setWidth 32)
    push .d32 (o.fs.sel.setWidth 32)
    push .d32 (o.ds.sel.setWidth 32)
    push .d32 (o.es.sel.setWidth 32)) t
  { u with segs := { u.segs with gs := nulled o.gs, fs := nulled o.fs, ds := nulled o.ds, es := nulled o.es } }

theorem dataPushed_of {o : SegRegs} {t : State} (h : runs (do
    push .d32 (o.gs.sel.setWidth 32)
    push .d32 (o.fs.sel.setWidth 32)
    push .d32 (o.ds.sel.setWidth 32)
    push .d32 (o.es.sel.setWidth 32)) t = true) : DataPushed o t (dataPushed o t) := by
  obtain ⟨_, u1, h1, h⟩ := bind_run_eq_ok (run_of_runs h)
  obtain ⟨_, u2, h2, h⟩ := bind_run_eq_ok h
  obtain ⟨_, u3, h3, h⟩ := bind_run_eq_ok h
  exact ⟨u1, u2, u3, _, pushed_iff.mpr h1, pushed_iff.mpr h2, pushed_iff.mpr h3, pushed_iff.mpr h, rfl⟩

/-- `machine` at level 3 with #GP(0) to deliver. -/
def machine3 : State := reported (exnGP 0) { machine [] with cpl := 3 }

/-- On the stack of level 0 from level 3. -/
def inner3 : State := onStack (innerRead (targetRead 13 machine3)) (desc 8).dpl 0x10 0x300 (desc 0x10)

theorem inner_frame : FrameStack .s32 (desc 8) (targetRead 13 machine3) (outerPushed (targetRead 13 machine3) inner3) :=
  .inr ⟨by decide, by decide +kernel, 0x10, 0x300, desc 0x10, innerRead (targetRead 13 machine3), inner3, _, _,
    innerStack_of (by decide +kernel) (by decide +kernel) (by decide +kernel) (by decide +kernel),
    .inl ⟨by decide +kernel, rfl⟩, sel_at (by decide +kernel), push_at (by decide +kernel),
    mark_at (by decide +kernel)⟩

/-- `machine` in a virtual-8086 task with IOPL 3. -/
def machineV86 : State := { machine [] with flags := { Flags.reset with vm := true, iopl := 3 } }

theorem v86_frame : FrameStack .s32 (desc 8) (targetRead 3 machineV86.begun)
    (outerPushed (targetRead 3 machineV86.begun)
      (dataPushed (targetRead 3 machineV86.begun).segs (outOfV86 (targetRead 3 machineV86.begun)))) :=
  .inr ⟨by decide, by decide +kernel, 0x10, 0x300, desc 0x10, innerRead (targetRead 3 machineV86.begun), _, _, _,
    innerStack_of (by decide +kernel) (by decide +kernel) (by decide +kernel) (by decide +kernel),
    .inr ⟨by decide +kernel, by decide, dataPushed_of (by decide +kernel)⟩, sel_at (by decide +kernel),
    push_at (by decide +kernel), mark_at (by decide +kernel)⟩

/-- INT 3 at level 0; a fault with a code from level 3; INT 3 of a virtual-8086 task. -/
theorem witness_GateEntries :
    (let s := machine []; s.pfx.lock = false ∧ s.mode ≠ .real ∧ ∃ t, GateEntered 3 .software none s.begun t) ∧
    (let s := { machine [] with cpl := 3 };
      ∃ t, GateEntered 13 .fault (some 0) (reported (exnGP 0) s) t) ∧
    let s := machineV86;
    s.mode = .v86 ∧ s.flags.iopl = 3 ∧ ∃ t, GateEntered 3 .software none s.begun t := by
  refine ⟨⟨rfl, by decide, ?_⟩, ?_, by decide, rfl, ?_⟩
  · exact gateEntered_of (fs := targetRead 3 (machine []).begun) intGate (desc 8) (by decide +kernel) (by decide +kernel)
      (by decide +kernel) (.inl ⟨by decide +kernel, by decide +kernel, rfl⟩) (by decide +kernel) (by decide +kernel)
      (by decide +kernel) (by decide +kernel) (by decide +kernel)
  · exact gateEntered_of faultGate (desc 8) (by decide +kernel) (by decide +kernel) (by decide +kernel) inner_frame
      (by decide +kernel) (by decide +kernel) (by decide +kernel) (by decide +kernel) (by decide +kernel)
  · exact gateEntered_of intGate (desc 8) (by decide +kernel) (by decide +kernel) (by decide +kernel) v86_frame
      (by decide +kernel) (by decide +kernel) (by decide +kernel) (by decide +kernel) (by decide +kernel)

/-- The gate of a vector of `furnished`. -/
def badGate (v : Byte) : Desc :=
  ⟨badEntries.getD (2 * v.toNat) 0, badEntries.getD (2 * v.toNat + 1) 0, BitVec.ofNat 32 (0xB000 + 8 * v.toNat)⟩

/-- Whether the gate of a vector and the code or data it names are found. -/
def finds (v : Byte) (s : State) : Bool :=
  decide (8 * v.toNat + 7 ≤ s.idtr.limit.toNat) &&
    givesValue (readEntry (s.idtr.base + BitVec.ofNat 32 (8 * v.toNat))) s (badGate v) &&
    givesValue (readDescriptor (badGate v).gateSel exnUD) (gateRead v s) (desc (badGate v).gateSel.toNat)

theorem found_of {v : Byte} {s : State} (h : finds v s = true) : 8 * v.toNat + 7 ≤ s.idtr.limit.toNat ∧
    readEntry (s.idtr.base + BitVec.ofNat 32 (8 * v.toNat)) s = .ok (badGate v) (gateRead v s) ∧
    DescriptorAt (badGate v).gateSel (desc (badGate v).gateSel.toNat) (gateRead v s) (gateFound v (badGate v) s) := by
  simp only [finds, Bool.and_eq_true] at h
  exact ⟨of_decide_eq_true h.1.1, ok_of_gives h.1.2, desc_at h.2⟩

/-- The stack of a level read from the TSS of `s`. -/
def stackRead (level : BitVec 2) (s : State) : State :=
  after (sysRead32 (s.tr.base + BitVec.ofNat 32 (8 * level.toNat + 4)))
    (after (sysRead16 (s.tr.base + BitVec.ofNat 32 (8 * level.toNat + 8))) s)

/-- Whether the TSS of `s` gives this stack for a level. -/
def givesStack (level : BitVec 2) (ss : Word16) (esp : Word32) (s : State) : Bool :=
  s.tr.valid && decide (8 * level.toNat + 11 ≤ s.tr.limit.toNat) &&
    givesValue (sysRead16 (s.tr.base + BitVec.ofNat 32 (8 * level.toNat + 8))) s ss &&
    givesValue (sysRead32 (s.tr.base + BitVec.ofNat 32 (8 * level.toNat + 4)))
      (after (sysRead16 (s.tr.base + BitVec.ofNat 32 (8 * level.toNat + 8))) s) esp

theorem stack_of {level : BitVec 2} {ss : Word16} {esp : Word32} {s : State} (h : givesStack level ss esp s = true) :
    s.tr.valid = true ∧ 8 * level.toNat + 11 ≤ s.tr.limit.toNat ∧ ∃ s1,
      sysRead16 (s.tr.base + BitVec.ofNat 32 (8 * level.toNat + 8)) s = .ok ss s1 ∧
      sysRead32 (s.tr.base + BitVec.ofNat 32 (8 * level.toNat + 4)) s1 = .ok esp (stackRead level s) := by
  simp only [givesStack, Bool.and_eq_true] at h
  exact ⟨h.1.1.1, of_decide_eq_true h.1.1.2, _, ok_of_gives h.1.2, ok_of_gives h.2⟩

/-- A stack of an inner level that is null or outside the table. -/
theorem innerFails_outside {level : BitVec 2} {ext ss : Word16} {esp : Word32} {s : State}
    (h : givesStack level ss esp s = true) (ho : ss.toNat < 4 ∨ OutsideTable (stackRead level s) ss) :
    InnerStackFails level ext (exnTS ((ss &&& 0xFFFC) ||| ext)) s (stackRead level s) := by
  obtain ⟨h1, h2, s1, h3, h4⟩ := stack_of h
  exact .inr ⟨h1, h2, ss, esp, s1, _, h3, h4, rfl, .inl ⟨ho, rfl⟩⟩

/-- A stack of an inner level whose descriptor is unfit. -/
theorem innerFails_unfit {level : BitVec 2} {ext ss : Word16} {esp : Word32} {d : Desc} {s : State}
    (h : givesStack level ss esp s = true) (hs : 4 ≤ ss.toNat)
    (hd : givesValue (readDescriptor ss exnUD) (stackRead level s) d = true)
    (hu : ¬(selRpl ss = level ∧ d.dpl = level ∧ d.writableData = true ∧ d.p = true)) :
    ∃ t, InnerStackFails level ext (exnTS ((ss &&& 0xFFFC) ||| ext)) s t := by
  obtain ⟨h1, h2, s1, h3, h4⟩ := stack_of h
  exact ⟨_, .inr ⟨h1, h2, ss, esp, s1, _, h3, h4, rfl, .inr ⟨hs, d, desc_at hd, hu⟩⟩⟩

/-- `s` at level 3 with its TSS at `base`. -/
def tssAt (base : Word32) (s : State) : State := { s with cpl := 3, tr := ⟨0x80, base, 103, true⟩ }

/-- `furnished` in a virtual-8086 task. -/
def furnishedV86 : State := { furnished [] with flags := { Flags.reset with vm := true, iopl := 3 } }

/-- The bad gates: a vector past the table, no gate, a level, an absent gate, each bad target, a task gate to code;
stacks of level 0 that are bad, null, outside the table and unfit; a virtual-8086 task whose gates lead to level 1 and
level 3; offsets past the limit; INT n, INT 3 and INTO that meet them. -/
theorem witness_EntryFaults :
    (let s := furnished [];
      s.mode ≠ .real ∧ s.idtr.limit.toNat < 8 * (13 : Byte).toNat + 7 ∧
      (∀ v ∈ ([0, 3, 4, 5, 6] : List Byte), 8 * v.toNat + 7 ≤ s.idtr.limit.toNat ∧
        readEntry (s.idtr.base + BitVec.ofNat 32 (8 * v.toNat)) s = .ok (badGate v) (gateRead v s) ∧
        DescriptorAt (badGate v).gateSel (desc (badGate v).gateSel.toNat) (gateRead v s) (gateFound v (badGate v) s)) ∧
      (∀ v ∈ ([1, 2, 9, 10, 11] : List Byte),
        readEntry (s.idtr.base + BitVec.ofNat 32 (8 * v.toNat)) s = .ok (badGate v) (gateRead v s)) ∧
      ((badGate 10).isIntGate = false ∧ (badGate 10).isTaskGate = false) ∧
      ((badGate 0).isIntGate = true ∧ s.level ≤ (badGate 0).dpl ∧ (badGate 0).p = false) ∧
      (∀ v ∈ ([1, 2, 3, 4, 5, 6] : List Byte),
        (badGate v).isIntGate = true ∧ s.level ≤ (badGate v).dpl ∧ (badGate v).p = true) ∧
      ((badGate 1).gateSel.toNat < 4 ∧ OutsideTable s (badGate 2).gateSel) ∧
      ((desc 0x10).isCode = false ∧ ¬(desc 0x18).dpl ≤ s.level ∧ (desc 0x28).p = false) ∧
      ((badGate 6).gateOff.toNat > (desc 0x30).limit.toNat ∧
        ∃ u, GateFramed (badGate 6) (desc 0x30) .fault (some 0) (gateFound 6 (badGate 6) s) u) ∧
      ((badGate 9).isTaskGate = true ∧ s.level ≤ (badGate 9).dpl ∧ (badGate 9).p = true ∧
        ∃ u, taskSwitch .interrupt false (badGate 9).gateSel s.eip
          { s.flags with rf := s.flags.rf || decide (ExnKind.software = ExnKind.fault) }.image 0 (gateRead 9 s) =
            .error (.exc (exnGP 8)) u)) ∧
    ((badGate 11).isIntGate = true ∧ ¬{ furnished [] with cpl := 3 }.level ≤ (badGate 11).dpl) ∧
    (∀ base ∈ ([0x3FF8, 0x3FFC, 0x6000] : List Word32), ∃ e u, finds 8 (tssAt base (furnished [])) = true ∧
      InnerStackFails 0 1 e (gateFound 8 (badGate 8) (tssAt base (furnished []))) u) ∧
    (let s := { furnished [] with cpl := 3, tr := ⟨0x80, 0x4000, 10, true⟩ };
      finds 8 s = true ∧ ∃ e u, InnerStackFails 0 1 e (gateFound 8 (badGate 8) s) u) ∧
    (let s := furnishedV86;
      s.mode = .v86 ∧ s.flags.iopl = 3 ∧ finds 7 s = true ∧ finds 12 s = true ∧
        ((desc 0xD8).isCode = true ∧ (desc 0xD8).dpl = 1 ∧ (desc 0xD8).conforming = false ∧ (desc 0xD8).p = true) ∧
        ((desc 0xF0).isCode = true ∧ (desc 0xF0).dpl = s.level ∧ (desc 0xF0).p = true) ∧
        ∃ u, InnerStackAt 1 0xE1 0x300 (desc 0xE0) (gateFound 7 (badGate 7) s) u) ∧
    (let s := { furnished [] with flags := { Flags.reset with of := true } };
      s.pfx.lock = false ∧ s.mode ≠ .real ∧ s.flags.of = true ∧
        (∃ u, interrupt 13 .software none s.begun = .error (.exc (exnGP 0x6A)) u) ∧
        (∃ u, interrupt 3 .software none s.begun = .error (.exc (exnGP 0x10)) u) ∧
        ∃ u, interrupt 4 .software none s.begun = .error (.exc (exnGP 0x18)) u) := by
  refine ⟨⟨by decide, by decide, fun v hv => ?_, fun v hv => ?_, by decide, by decide, fun v hv => ?_,
      ⟨by decide, by unfold OutsideTable; decide⟩, by decide,
      ⟨by decide, _, gateFramed_of (fs := gateFound 6 (badGate 6) (furnished [])) _ _
        (.inl ⟨by decide +kernel, by decide +kernel, rfl⟩) (by decide +kernel) (by decide +kernel) (by decide +kernel)
        (by decide +kernel)⟩,
      by decide, by decide, by decide, _, error_of_fails (by decide +kernel)⟩,
    by decide, fun b hb => ?_, ⟨by decide +kernel, _, _, .inl ⟨by decide +kernel, rfl, rfl⟩⟩,
    ⟨by decide, rfl, by decide +kernel, by decide +kernel, by decide, by decide, ?_⟩,
    rfl, by decide, rfl, ⟨_, error_of_fails (by decide +kernel)⟩, ⟨_, error_of_fails (by decide +kernel)⟩,
    _, error_of_fails (by decide +kernel)⟩
  · fin_cases hv <;> exact found_of (by decide +kernel)
  · fin_cases hv <;> exact ok_of_gives (by decide +kernel)
  · fin_cases hv <;> decide
  · fin_cases hb
    · exact ⟨_, (innerFails_unfit (ss := 0xB0) (esp := 0) (d := desc 0xB0) (ext := 1)
        (s := gateFound 8 (badGate 8) (tssAt 0x3FF8 (furnished []))) (by decide +kernel) (by decide)
        (by decide +kernel) (by decide)).imp fun u h => ⟨by decide +kernel, h⟩⟩
    · exact ⟨_, _, by decide +kernel, innerFails_outside (ss := 0x300) (esp := 0xB0) (by decide +kernel)
        (.inr (by unfold OutsideTable; decide +kernel))⟩
    · exact ⟨_, _, by decide +kernel, innerFails_outside (ss := 0) (esp := 0) (by decide +kernel) (.inl (by decide))⟩
  · obtain ⟨h1, h2, s1, h3, h4⟩ :=
      stack_of (level := 1) (ss := 0xE1) (esp := 0x300) (s := gateFound 7 (badGate 7) furnishedV86) (by decide +kernel)
    exact ⟨_, h1, h2, s1, _, h3, h4, by decide, desc_at (by decide +kernel), by decide, by decide, by decide, by decide⟩

/-- The state in which a far RET of level 0 with the frame 1000, F3, 500, ss in `furnished` goes over to level 3, and
an IRET with the image 2 before the 500. -/
def retOuter (ss : Word32) : State :=
  let t := after (pop .d32) (after (pop .d32) (furnished [0x1000, 0xF3, 0x500, ss]).begun)
  after (readDescriptor 0xF3 exnUD) t
def iretOuter (ss : Word32) : State :=
  let t := after (pop .d32) (after (pop .d32) (after (pop .d32) (furnished [0x1000, 0xF3, 2, 0x500, ss]).begun))
  after (readDescriptor 0xF3 exnUD) t

/-- Whether the stack 500, ss is popped from `s` and ss found. -/
def popsStack (ss : Word32) (s : State) : Bool :=
  givesValue (pop .d32) s 0x500 && givesValue (pop .d32) (after (pop .d32) s) ss

/-- After the stack of an outer level is popped. -/
def stackPopped (s : State) : State := after (pop .d32) (after (pop .d32) s)

theorem popsStack_of {ss : Word32} {s : State} (h : popsStack ss s = true) :
    ∃ s1, Popped .d32 0x500 s s1 ∧ Popped .d32 ss s1 (stackPopped s) := by
  simp only [popsStack, Bool.and_eq_true] at h
  exact ⟨_, pop_at h.1, pop_at h.2⟩

/-- A null SS. -/
theorem outerFails_null {s : State} (h : popsStack 0 s = true) : ∃ u, OuterStackFails .d32 3 (exnGP 0) s u := by
  obtain ⟨s1, h1, h2⟩ := popsStack_of h
  exact ⟨_, 0x500, 0, s1, _, h1, h2, .inl ⟨by decide, rfl, rfl⟩⟩

/-- An SS outside the table. -/
theorem outerFails_outside {s : State} (h : popsStack 0x1003 s = true) (ho : OutsideTable (stackPopped s) 0x1003) :
    ∃ u, OuterStackFails .d32 3 (exnGP 0x1000) s u := by
  obtain ⟨s1, h1, h2⟩ := popsStack_of h
  exact ⟨_, 0x500, 0x1003, s1, _, h1, h2, .inr (.inl ⟨by decide, ho, rfl, rfl⟩)⟩

/-- An SS of another level, and an absent one. -/
theorem outerFails_unfit {s : State} (h : popsStack 0x13 s = true)
    (hd : givesValue (readDescriptor 0x13 exnUD) (stackPopped s) (desc 0x10) = true) :
    ∃ u, OuterStackFails .d32 3 (exnGP 0x10) s u := by
  obtain ⟨s1, h1, h2⟩ := popsStack_of h
  exact ⟨_, 0x500, 0x13, s1, _, h1, h2, .inr (.inr ⟨by decide, _, desc_at hd, .inl ⟨by decide, rfl⟩⟩)⟩

theorem outerFails_absent {s : State} (h : popsStack 0xEB s = true)
    (hd : givesValue (readDescriptor 0xEB exnUD) (stackPopped s) (desc 0xE8) = true) :
    ∃ u, OuterStackFails .d32 3 (exnSS 0xE8) s u := by
  obtain ⟨s1, h1, h2⟩ := popsStack_of h
  exact ⟨_, 0x500, 0xEB, s1, _, h1, h2, .inr (.inr ⟨by decide, _, desc_at hd, .inr ⟨by decide, by decide, rfl⟩⟩)⟩

theorem outer_fits {s : State} (h : popsStack 0x23 s = true)
    (hd : givesValue (readDescriptor 0x23 exnUD) (stackPopped s) (desc 0x20) = true)
    (hm : runs (markAccessed (desc 0x20)) (after (readDescriptor 0x23 exnUD) (stackPopped s)) = true) :
    ∃ u, OuterStack .d32 3 0 s u := by
  obtain ⟨s1, h1, h2⟩ := popsStack_of h
  exact ⟨_, 0x500, 0x23, s1, _, _, _, _, h1, h2, by decide, desc_at hd, by decide, by decide, by decide, by decide,
    mark_at hm, rfl⟩

/-- The flags that an image of 2 gives. -/
theorem iret_flags {s : State} (h : s.cpl = 0) (hz : s.osz = .s32) :
    ReturnFlags s 2 { Flags.reset with nt := false } := by
  refine
    { cf := rfl, pf := rfl, af := rfl, zf := rfl, sf := rfl, tf := rfl, df := rfl, of := rfl, nt := rfl
      iopl := ?_, ifl := ?_, rf := ?_, vm := rfl }
  · rw [if_pos h]; rfl
  · rw [if_pos (by rw [h]; exact Nat.zero_le _)]; rfl
  · rw [if_pos hz]; rfl

/-- The stack pointer and the flags with which the two go over. -/
def retStart (ss : Word32) : State :=
  { retOuter ss with regs := writeReg .d32 (retOuter ss).regs .esp ((retOuter ss).regs.esp + 0) }
def iretStart (ss : Word32) : State := { iretOuter ss with flags := { Flags.reset with nt := false } }

/-- Task gates of another level and absent; an offset past the limit behind a call gate; stacks of level 0 that are
bad; returns to level 3 with each bad SS, and with an offset past the limit. -/
theorem witness_FarTransferFaults_outer :
    (let s := furnished [];
      s.pfx.lock = false ∧ s.mode = .prot ∧ FarForms s 0xCB 0 (.jmpFar (.d 0) 0xCB) (.callFar (.d 0) 0xCB) s.begun ∧
        (∃ t, DescriptorAt 0xCB (desc 0xC8) s.begun t) ∧ (∃ t, DescriptorAt 0xD0 (desc 0xD0) s.begun t) ∧
        ((desc 0xC8).isTaskGate = true ∧ ¬selRpl 0xCB ≤ (desc 0xC8).dpl) ∧
        ((desc 0xD0).isTaskGate = true ∧ s.cpl ≤ (desc 0xD0).dpl ∧ selRpl 0xD0 ≤ (desc 0xD0).dpl ∧ (desc 0xD0).p = false) ∧
        ((desc 0xC0).isCallGate = true ∧ s.cpl ≤ (desc 0xC0).dpl ∧ selRpl 0xC0 ≤ (desc 0xC0).dpl ∧ (desc 0xC0).p = true) ∧
        ((desc 0x30).isCode = true ∧ (desc 0x30).dpl = s.cpl ∧ (desc 0x30).p = true ∧
          (desc 0xC0).gateOff.toNat > (desc 0x30).limit.toNat) ∧
        ∃ s1 s2 u, DescriptorAt 0xC0 (desc 0xC0) s.begun s1 ∧ DescriptorAt (desc 0xC0).gateSel (desc 0x30) s1 s2 ∧
          GateFrame (desc 0xC0).gateSize (desc 0xC0).gateCount (desc 0x30) s2 u) ∧
    (∀ base ∈ ([0x3FF8, 0x3FFC, 0x6000] : List Word32), ∃ s1 s2 e u,
      DescriptorAt 0x38 (desc 0x38) (tssAt base (furnished [])).begun s1 ∧ DescriptorAt (desc 0x38).gateSel (desc 8) s1 s2 ∧
      InnerStackFails 0 0 e s2 u) ∧
    ((desc 0xF0).isCode = true ∧ (desc 0xF0).conforming = false ∧ (desc 0xF0).dpl = selRpl 0xF3 ∧ (desc 0xF0).p = true ∧
      (0x1000 : Word32).toNat > (desc 0xF0).limit.toNat) ∧
    (∀ ss ∈ ([0, 0x1003, 0x13, 0xEB, 0x23] : List Word32),
      ((furnished [0x1000, 0xF3, 0x500, ss]).cpl < selRpl 0xF3 ∧ ∃ t1 t2,
        Popped .d32 0x1000 (furnished [0x1000, 0xF3, 0x500, ss]).begun t1 ∧ Popped .d32 0xF3 t1 t2 ∧
        DescriptorAt 0xF3 (desc 0xF0) t2 (retOuter ss) ∧
        BeforeOuter (furnished [0x1000, 0xF3, 0x500, ss]) .retFar 0 0 (retOuter ss) (retStart ss)) ∧
      ∃ t1 t2 t3, Popped .d32 0x1000 (furnished [0x1000, 0xF3, 2, 0x500, ss]).begun t1 ∧ Popped .d32 0xF3 t1 t2 ∧
        Popped .d32 2 t2 t3 ∧ DescriptorAt 0xF3 (desc 0xF0) t3 (iretOuter ss) ∧
        BeforeOuter (furnished [0x1000, 0xF3, 2, 0x500, ss]) .iret 0 2 (iretOuter ss) (iretStart ss)) ∧
    (∀ f ∈ ([retStart, iretStart] : List (Word32 → State)), (∃ u, OuterStackFails .d32 3 (exnGP 0) (f 0) u) ∧
      (∃ u, OuterStackFails .d32 3 (exnGP 0x1000) (f 0x1003) u) ∧
      (∃ u, OuterStackFails .d32 3 (exnGP 0x10) (f 0x13) u) ∧ (∃ u, OuterStackFails .d32 3 (exnSS 0xE8) (f 0xEB) u) ∧
      ∃ u, OuterStack .d32 3 0 (f 0x23) u) := by
  let s1 := after (readDescriptor 0xC0 exnUD) (furnished []).begun
  let s2 := after (readDescriptor 0x30 exnUD) s1
  refine ⟨⟨rfl, rfl, .inl ⟨_, rfl, rfl, rfl, rfl⟩, ⟨_, desc_at (by decide +kernel)⟩, ⟨_, desc_at (by decide +kernel)⟩,
      by decide, by decide, by decide, by decide, s1, s2, _, desc_at (by decide +kernel), desc_at (by decide +kernel),
      .inl ⟨.inr (by decide +kernel), _, sel_at (by decide +kernel), push_at (by decide +kernel)⟩⟩,
    fun b hb => ?_, by decide, fun ss hs => ?_, fun f hf => ?_⟩
  · refine ⟨after (readDescriptor 0x38 exnUD) (tssAt b (furnished [])).begun, after (readDescriptor 8 exnUD)
      (after (readDescriptor 0x38 exnUD) (tssAt b (furnished [])).begun), ?_⟩
    fin_cases hb
    · exact ⟨_, (innerFails_unfit (ss := 0xB0) (esp := 0) (d := desc 0xB0) (by decide +kernel) (by decide)
        (by decide +kernel) (by decide)).imp fun u h => ⟨desc_at (by decide +kernel), desc_at (by decide +kernel), h⟩⟩
    · exact ⟨_, _, desc_at (by decide +kernel), desc_at (by decide +kernel),
        innerFails_outside (ss := 0x300) (esp := 0xB0) (by decide +kernel)
        (.inr (by unfold OutsideTable; decide +kernel))⟩
    · exact ⟨_, _, desc_at (by decide +kernel), desc_at (by decide +kernel),
        innerFails_outside (ss := 0) (esp := 0) (by decide +kernel) (.inl (by decide))⟩
  · refine ⟨⟨(by decide : (0 : BitVec 2) < 3), after (pop .d32) (furnished [0x1000, 0xF3, 0x500, ss]).begun,
        after (pop .d32) (after (pop .d32) (furnished [0x1000, 0xF3, 0x500, ss]).begun), ?_, ?_, ?_,
        .inl ⟨.inr ⟨rfl, rfl⟩, _, spMoved_iff.mpr rfl, ?_⟩⟩,
      after (pop .d32) (furnished [0x1000, 0xF3, 2, 0x500, ss]).begun,
      after (pop .d32) (after (pop .d32) (furnished [0x1000, 0xF3, 2, 0x500, ss]).begun),
      after (pop .d32) (after (pop .d32) (after (pop .d32) (furnished [0x1000, 0xF3, 2, 0x500, ss]).begun)), ?_, ?_, ?_, ?_,
      .inr ⟨rfl, rfl, _,
        iret_flags (s := furnished [0x1000, 0xF3, 2, 0x500, ss]) rfl (by with_unfolding_all rfl), rfl⟩⟩ <;> fin_cases hs
    all_goals first | exact pop_at (by decide +kernel) | exact desc_at (by decide +kernel) | rfl
  · fin_cases hf
    · exact ⟨outerFails_null (by decide +kernel),
        outerFails_outside (by decide +kernel) (by unfold OutsideTable; decide +kernel),
        outerFails_unfit (by decide +kernel) (by decide +kernel),
        outerFails_absent (by decide +kernel) (by decide +kernel),
        outer_fits (by decide +kernel) (by decide +kernel) (by decide +kernel)⟩
    · exact ⟨outerFails_null (by decide +kernel),
        outerFails_outside (by decide +kernel) (by unfold OutsideTable; decide +kernel),
        outerFails_unfit (by decide +kernel) (by decide +kernel),
        outerFails_absent (by decide +kernel) (by decide +kernel),
        outer_fits (by decide +kernel) (by decide +kernel) (by decide +kernel)⟩

/-- `real` with another SP. -/
def spAt (n : Word32) : State := { real with regs := { real.regs with esp := n } }

/-- The last vector of the table; OF set and clear; vector 9 under limits 35 (which takes in vector 8) and 34; SP = 1, 3
and 5. -/
theorem witness_RealDelivery : real.pfx.lock = false ∧ real.mode = .real ∧ real.flags.of = false ∧
    { real with flags := { Flags.reset with of := true } }.flags.of = true ∧
    (4 * (0xFF : Byte).toNat + 3 ≤ real.idtr.limit.toNat ∧ ∃ t, RealEntry 0xFF real.eip real.begun t) ∧
    (4 * exnDE.vector.toNat + 3 ≤ real.idtr.limit.toNat ∧ ∃ t, RealEntry 0 real.curEip (reported exnDE real) t) ∧
    (let s := { real with idtr := ⟨0, 35⟩ };
      s.idtr.limit.toNat < 4 * (9 : Byte).toNat + 3 ∧ 35 ≤ s.idtr.limit.toNat ∧
        (∃ t, RealEntry 8 s.eip s.begun t) ∧ ∃ t, RealEntry 8 s.eip (reported (external 9) s) t) ∧
    { real with idtr := ⟨0, 34⟩ }.idtr.limit.toNat < 35 ∧
    RealOverrun (spAt 1) (spAt 1) ∧ (∃ t, RealOverrun (spAt 3) t) ∧ ∃ t, RealOverrun (spAt 5) t :=
  ⟨rfl, rfl, rfl, rfl, ⟨by decide, _, _, _, _, pushed_iff.mpr rfl, pushed_iff.mpr rfl, pushed_iff.mpr rfl, rfl⟩,
    ⟨by decide, _, _, _, _, pushed_iff.mpr rfl, pushed_iff.mpr rfl, pushed_iff.mpr rfl, rfl⟩,
    ⟨by decide, by decide, ⟨_, _, _, _, pushed_iff.mpr rfl, pushed_iff.mpr rfl, pushed_iff.mpr rfl, rfl⟩,
      _, _, _, _, pushed_iff.mpr rfl, pushed_iff.mpr rfl, pushed_iff.mpr rfl, rfl⟩,
    by decide, ⟨by decide, .inl rfl⟩,
    ⟨after (push .w16 (((spAt 3).flags.image &&& 0x00FCFFFF).setWidth 16)) (spAt 3), by decide +kernel,
      .inr (.inl (push_at (by decide +kernel)))⟩,
    ⟨after (push .w16 (spAt 5).segs.cs.sel) (after (push .w16 (((spAt 5).flags.image &&& 0x00FCFFFF).setWidth 16)) (spAt 5)),
      by decide +kernel, .inr (.inr ⟨_, push_at (by decide +kernel), push_at (by decide +kernel)⟩)⟩⟩

/-- SP = 1, with an operand in memory and targets at the last offset; a far CALL with SP = 3; PUSHA with SP = 1, 3, 5, 7
and 15. -/
theorem witness_StackShutdown : (spAt 1).pfx.lock = false ∧ (spAt 1).mode ≠ .prot ∧ topOffset (spAt 1) = 1 ∧
    (∃ l s1, locate (spAt 1).osz.width .read (.mem there) (spAt 1).begun = .ok l s1 ∧
      NearOk (spAt 1) ((s1.valueAt (spAt 1).osz.width l).setWidth 32)) ∧
    ((spAt 1).mode = .v86 → (spAt 1).flags.iopl = 3) ∧
    NearOk (spAt 1) (truncated (spAt 1) ((spAt 1).eip + Sized.sext (.w 0xEFFD))) ∧
    (∃ i j, FarForms (spAt 1) 8 0 i j (spAt 1).begun) ∧
    (∃ i j t, FarForms (spAt 3) 8 0 i j (spAt 3).begun ∧ PushedSel (spAt 3).osz (spAt 3).segs.cs.sel (spAt 3).begun t ∧
      topOffset t = 1) ∧
    (topOffset (spAt 3) = 3 ∧ topOffset (spAt 5) = 5) ∧
    ((topOffset (spAt 7)).toNat % 2 = 1 ∧ 7 ≤ (topOffset (spAt 7)).toNat) ∧
    ((topOffset (spAt 15)).toNat % 2 = 1 ∧ (topOffset (spAt 15)).toNat ≤ 15) :=
  ⟨rfl, by decide, by decide, ⟨_, _, rfl, fun h => absurd h (by decide), fun _ => by decide +kernel⟩,
    fun h => absurd h (by decide), ⟨fun h => absurd h (by decide), fun _ => by decide +kernel⟩,
    ⟨_, _, .inl ⟨.w 0, rfl, rfl, rfl, rfl⟩⟩,
    ⟨_, _, after (pushSelector (spAt 3).osz (spAt 3).segs.cs.sel) (spAt 3).begun, .inl ⟨.w 0, rfl, rfl, rfl, rfl⟩,
      sel_at (by decide +kernel), by decide +kernel⟩,
    ⟨by decide, by decide⟩, by decide, by decide⟩

/-- The levels and modes; DR7 bit 13 clear and set; a null selector, one of the LDT, one past the table; descriptors
that are no LDT and no TSS, an LDT and a TSS, absent ones, a busy TSS. -/
theorem witness_SystemRegisters : Level0 real ∧ Level0 prot ∧ ¬Level0 user ∧ ¬Level0 virtual ∧ user.mode = .prot ∧
    real.mode ≠ .prot ∧ prot.pe = true ∧ prot.dr.dr7.getLsbD 13 = false ∧
    { prot with dr := { prot.dr with dr7 := 0x2000 } }.dr.dr7.getLsbD 13 = true ∧
    (let s := machine [];
      s.mode = .prot ∧ s.cpl = 0 ∧ (3 : Word16).toNat < 4 ∧ (0x8C : Word16).getLsbD 2 = true ∧ OutsideTable s 0xC0 ∧
        (∀ sel ∈ ([0x10, 0x78, 0x80, 0x88, 0x90, 0x98] : List Word16), ∃ t, DescriptorAt sel (desc sel.toNat) s t) ∧
        ((desc 0x10).isLdt = false ∧ (desc 0x10).isTss = false) ∧
        ((desc 0x88).isLdt = true ∧ (desc 0x88).p = true) ∧ ((desc 0x90).isLdt = true ∧ (desc 0x90).p = false) ∧
        ((desc 0x78).isTss = true ∧ (desc 0x78).busy = false ∧ (desc 0x78).p = true) ∧
        ((desc 0x98).isTss = true ∧ (desc 0x98).busy = false ∧ (desc 0x98).p = false) ∧ (desc 0x80).busy = true ∧
        ∃ t u, DescriptorAt 0x78 (desc 0x78) s t ∧ BusyIf True 0x78 true t u) := by
  refine ⟨.inl rfl, .inr ⟨rfl, rfl⟩, by unfold Level0; decide, by unfold Level0; decide, rfl, by decide, rfl, rfl, by decide, rfl,
    rfl, by decide, by decide, by unfold OutsideTable; decide, fun sel hs => ?_, by decide, by decide, by decide, by decide,
    by decide, by decide, _, _, desc_at (by decide +kernel), .inr ⟨trivial, 0xE9, _, ok_of_gives (by decide +kernel),
      run_of_runs (by decide +kernel)⟩⟩
  fin_cases hs <;> exact ⟨_, desc_at (by decide +kernel)⟩

/-- `machine` with a shorter IDT. -/
def shortIdt (limit : Word16) : State := { machine [] with idtr := ⟨0xA000, limit⟩ }

/-- Where delivery begins again after the first exception, and after one of a new task. -/
def backFrom (e : Exn) (s : State) : State :=
  undo (reported e s) (after (interrupt e.vector e.kind e.code) (reported e s))

/-- The gate of vector 8. -/
def doubleGate : Desc := ⟨0x00081234, 0x00008E00, 0xA040⟩

/-- #GP(0) with no gate for it makes a double fault; with no gate for that either it fails again; a double fault
without its gate; #UD with an empty gate goes on as #GP; #TS through a task gate to an empty TSS fails in the new
task. -/
theorem witness_DoubleFault :
    (let s := shortIdt 0x67;
      let e := exnGP 0;
      e.kind ≠ .abort ∧ e.kind = .fault ∧ Escalates e.vector 13 ∧
      (∃ u, interrupt e.vector e.kind e.code (reported e s) = .error (.exc (exnGP 0x6B)) u) ∧
      ∃ t, Entered 8 .abort (some 0) (reported exnDF (backFrom e s)) t) ∧
    (let s := shortIdt 0x3F;
      let e := exnGP 0;
      (∃ u, interrupt e.vector e.kind e.code (reported e s) = .error (.exc (exnGP 0x6B)) u) ∧
      ∃ u, interrupt 8 .abort (some 0) (reported exnDF (backFrom e s)) = .error (.exc (exnGP 0x43)) u) ∧
    (let s := shortIdt 0x3F;
      exnDF.kind = .abort ∧ ∃ u, interrupt exnDF.vector .abort exnDF.code (reported exnDF s) = .error (.exc (exnGP 0x43)) u) ∧
    (let s := machine [];
      let e := exnUD;
      ¬(e.kind = .fault ∧ Escalates e.vector 13) ∧
      (∃ u, interrupt e.vector e.kind e.code (reported e s) = .error (.exc (exnGP 0x33)) u) ∧
      ∃ t, Entered 13 .fault (some 0x33) (reported (exnGP 0x33) (backFrom e s)) t) ∧
    (let s := machine [];
      let e := exnTS 0;
      Escalates e.vector 10 ∧
      ∃ u, interrupt e.vector e.kind e.code (reported e s) = .error (.excNew (exnTS 1)) u ∧
        ∃ v, interrupt 8 .abort (some 0) (reported exnDF u) = .error (.exc (exnSS 0)) v) := by
  refine ⟨⟨by decide, rfl, .inl (by decide), ⟨_, error_of_fails (by decide +kernel)⟩, ?_⟩,
    ⟨⟨_, error_of_fails (by decide +kernel)⟩, _, error_of_fails (by decide +kernel)⟩,
    ⟨rfl, _, error_of_fails (by decide +kernel)⟩,
    ⟨fun h => h.2.elim (fun h => absurd h.1 (by decide)) (fun h => absurd h.1 (by decide)),
      ⟨_, error_of_fails (by decide +kernel)⟩, ?_⟩,
    .inl (by decide), _, error_of_fails (by decide +kernel), _, error_of_fails (by decide +kernel)⟩
  · obtain ⟨t, h⟩ := gateEntered_of (v := 8) (kind := .abort) (code := some 0)
      (s := reported exnDF (backFrom (exnGP 0) (shortIdt 0x67)))
      (fs := targetRead 8 (reported exnDF (backFrom (exnGP 0) (shortIdt 0x67)))) doubleGate (desc 8)
      (by decide +kernel) (by decide +kernel) (by decide +kernel) (.inl ⟨by decide +kernel, by decide +kernel, rfl⟩)
      (by decide +kernel) (by decide +kernel) (by decide +kernel) (by decide +kernel) (by decide +kernel)
    exact ⟨t, by decide +kernel, .inl h⟩
  · obtain ⟨t, h⟩ := gateEntered_of (v := 13) (kind := .fault) (code := some 0x33)
      (s := reported (exnGP 0x33) (backFrom exnUD (machine [])))
      (fs := targetRead 13 (reported (exnGP 0x33) (backFrom exnUD (machine [])))) faultGate (desc 8)
      (by decide +kernel) (by decide +kernel) (by decide +kernel) (.inl ⟨by decide +kernel, by decide +kernel, rfl⟩)
      (by decide +kernel) (by decide +kernel) (by decide +kernel) (by decide +kernel) (by decide +kernel)
    exact ⟨t, by decide +kernel, .inl h⟩

/-- The items at these offsets of a TSS are written. -/
def writeAll (base : Word32) : List (Nat × List Byte) → M Unit
  | [] => pure ()
  | (o, bs) :: r => do
    sysWrite (base + BitVec.ofNat 32 o) bs
    writeAll base r

/-- The items at these offsets of a TSS are read and are these. -/
def readAll (base : Word32) : List (Nat × List Byte) → M Unit
  | [] => pure ()
  | (o, bs) :: r => do
    let v ← sysRead (base + BitVec.ofNat 32 o) bs.length
    if v = bs then readAll base r else throw .shutdown

theorem tssWrites_of {base : Word32} {l : List (Nat × List Byte)} : ∀ {s t : State}, writeAll base l s = .ok () t →
    TssWrites base l s t := by
  induction l with
  | nil =>
    intro s t h
    cases h
    rfl
  | cons x r ih =>
    intro s t h
    obtain ⟨_, u, h1, h2⟩ := bind_run_eq_ok h
    exact ⟨u, h1, ih h2⟩

theorem tssReads_of {base : Word32} {l : List (Nat × List Byte)} : ∀ {s t : State}, readAll base l s = .ok () t →
    TssReads base l s t := by
  induction l with
  | nil =>
    intro s t h
    cases h
    rfl
  | cons x r ih =>
    intro s t h
    obtain ⟨v, u, h1, h2⟩ := bind_run_eq_ok h
    split at h2
    · next hv =>
      subst hv
      exact ⟨u, h1, ih h2⟩
    · cases h2

/-- The busy bit, as a run. -/
def busyRun (sel : Word16) (b : Bool) (v : Byte) (s : State) : State :=
  after (sysWrite (s.gdtr.base + BitVec.ofNat 32 (8 * (sel.toNat / 8) + 5)) [if b then v ||| 2 else v &&& 0xFD])
    (after (sysRead (s.gdtr.base + BitVec.ofNat 32 (8 * (sel.toNat / 8) + 5)) 1) s)

theorem busyIf_of {c : Prop} {sel : Word16} {b : Bool} {v : Byte} {s : State} (hc : c)
    (h1 : givesValue (sysRead (s.gdtr.base + BitVec.ofNat 32 (8 * (sel.toNat / 8) + 5)) 1) s [v] = true)
    (h2 : runs (sysWrite (s.gdtr.base + BitVec.ofNat 32 (8 * (sel.toNat / 8) + 5)) [if b then v ||| 2 else v &&& 0xFD])
      (after (sysRead (s.gdtr.base + BitVec.ofNat 32 (8 * (sel.toNat / 8) + 5)) 1) s) = true) :
    BusyIf c sel b s (busyRun sel b v s) := .inr ⟨hc, v, _, ok_of_gives h1, run_of_runs h2⟩

/-- The task at 5000. -/
def task5 : TssImage := ⟨0, 2, 0, ⟨0, 0, 0, 0, 0, 0, 0, 0⟩, 0, 8, 0x10, 0, 0, 0⟩

/-- The flags of that task. -/
def flags5 : Flags := Flags.ofImage 2

/-- The new task before its segments are loaded, with a null LDT. -/
def entered5 (nested : Bool) (s7 : State) : State :=
  goTo { s7 with
    curEip := 0
    flags := { flags5 with nt := nested }
    rfKept := true
    regs := task5.regs
    segs :=
      { es := { s7.segs.es with sel := 0, valid := false }
        cs := { s7.segs.cs with sel := 8, valid := false }
        ss := { s7.segs.ss with sel := 0x10, valid := false }
        ds := { s7.segs.ds with sel := 0, valid := false }
        fs := { s7.segs.fs with sel := 0, valid := false }
        gs := { s7.segs.gs with sel := 0, valid := false } }
    ldtr := ⟨0, 0, 0, false⟩
    cpl := 0
    dr := { s7.dr with dr7 := s7.dr.dr7 &&& 0xFFFFFEAA } } 0

/-- CS of the new task loaded. -/
def coded5 (n : State) : State :=
  let u := after (markAccessed (desc 8)) (after (readDescriptor 8 exnUD) n)
  { u with segs := u.segs.set .cs (protSeg (desc 8) 8) }

/-- The other segments of the new task loaded. -/
def loaded5 (n : State) : State :=
  after (do
    loadSeg .ss 0x10
    loadSeg .ds 0
    loadSeg .es 0
    loadSeg .fs 0
    loadSeg .gs 0) (coded5 n)

/-- The registers saved, after the descriptor of the new TSS is read. -/
def savedRun (cause : TaskCause) (sel : Word16) (ret img : Word32) (s : State) : State :=
  after (writeAll s.tr.base (savedItems s ret (if cause = .iret then img &&& 0xFFFFBFFF else img)))
    (after (readDescriptor sel exnUD) s)

/-- A switch to the task at 5000, each part shown by a run of it. -/
theorem taskSwitched_of {cause : TaskCause} {direct : Bool} {sel : Word16} {ret img : Word32} {s s3 s4 s5 s6 : State} (d : Desc)
    (h0 : 4 ≤ sel.toNat ∧ sel.getLsbD 2 = false ∧ d.isTss = true ∧ d.p = true ∧ 103 ≤ d.limit.toNat ∧
      (direct = true → s.cpl ≤ d.dpl ∧ selRpl sel ≤ d.dpl) ∧ (d.busy = true ↔ cause = .iret) ∧ s.tr.valid = true ∧
      103 ≤ s.tr.limit.toNat)
    (h1 : givesValue (readDescriptor sel exnUD) s d = true)
    (h2 : runs (writeAll s.tr.base (savedItems s ret (if cause = .iret then img &&& 0xFFFFBFFF else img)))
      (after (readDescriptor sel exnUD) s) = true)
    (h3 : BusyIf (cause = .jmp ∨ cause = .iret) s.tr.sel false
      (savedRun cause sel ret img s) s3)
    (h4 : if cause = .call ∨ cause = .interrupt then TssWrites d.base [(0, bytes16 s.tr.sel)] s3 s4 else s4 = s3)
    (h5 : BusyIf (cause ≠ .iret) sel true s4 s5)
    (h6 : let e := { s5 with
            tr := ⟨sel, d.base, d.limit, true⟩
            cr0 := s5.cr0 ||| 8 };
          if s.paging then ∃ v u, TssReads d.base [(0x1C, bytes32 v)] e u ∧
            s6 = { u with cr3 := v &&& 0xFFFFF000, tlb := [] }
          else s6 = e)
    (h7 : runs (readAll d.base (loadedItems task5)) s6 = true ∧
      let n := entered5 (cause == .call || cause == .interrupt) (after (readAll d.base (loadedItems task5)) s6);
      n.mode = .prot ∧ givesValue (readDescriptor 8 exnUD) n (desc 8) = true ∧
      runs (markAccessed (desc 8)) (after (readDescriptor 8 exnUD) n) = true ∧
      runs (do
        loadSeg .ss 0x10
        loadSeg .ds 0
        loadSeg .es 0
        loadSeg .fs 0
        loadSeg .gs 0) (coded5 n) = true ∧
      runs (readAll d.base [(0x64, [0, 0])]) (loaded5 n) = true) :
    ∃ t, TaskSwitched cause direct sel ret img s t := by
  obtain ⟨a1, a2, a3, a4, a5, a6, a7, a8, a9⟩ := h0
  obtain ⟨h7, hm, h8, h9, h10, h11⟩ := h7
  obtain ⟨_, n3, g1, g⟩ := bind_run_eq_ok (run_of_runs h10)
  obtain ⟨_, n4, g2, g⟩ := bind_run_eq_ok g
  obtain ⟨_, n5, g3, g⟩ := bind_run_eq_ok g
  obtain ⟨_, n6, g4, g5⟩ := bind_run_eq_ok g
  have hc : TaskCodeLoads 8 (entered5 (cause == .call || cause == .interrupt) (after (readAll d.base (loadedItems task5)) s6))
      (coded5 (entered5 (cause == .call || cause == .interrupt) (after (readAll d.base (loadedItems task5)) s6))) := by
    unfold TaskCodeLoads
    rw [hm]
    exact ⟨by decide, desc 8, _, _, desc_at h8, by unfold ReturnCode; decide, mark_at h9, rfl⟩
  exact ⟨_, a1, a2, d, _, _, s3, s4, s5, s6, _, task5, desc_at h1, a3, a4, a5, a6, a7, a8, a9,
    tssWrites_of (run_of_runs h2), h3, h4, h5, h6, tssReads_of (run_of_runs h7), flags5,
    entered5 (cause == .call || cause == .interrupt) (after (readAll d.base (loadedItems task5)) s6), _, _, n3, n4, n5, n6, _,
    0, 0, by constructor <;> rfl, rfl, rfl, rfl, rfl, rfl, rfl, hc, segLoads_iff.mpr g1, segLoads_iff.mpr g2,
    segLoads_iff.mpr g3, segLoads_iff.mpr g4, segLoads_iff.mpr g5, _, tssReads_of (run_of_runs h11), rfl⟩

/-- `machine` with paging on. -/
def machinePaged : State := { machine [] with cr0 := 0x80000001, cr3 := 0x7000 }

/-- TR and TS of the new task. -/
def newTr (sel : Word16) (d : Desc) (s : State) : State := { s with tr := ⟨sel, d.base, d.limit, true⟩, cr0 := s.cr0 ||| 8 }

/-- The state in which the descriptor of a far transfer to `sel` has been read. -/
def farRead (sel : Word16) (s : State) : State := after (readDescriptor sel exnUD) s.begun

/-- CR3 of the new task with paging on. -/
def newCr3 (d : Desc) (e : State) : State :=
  { after (readAll d.base [(0x1C, bytes32 0x7000)]) e with cr3 := (0x7000 : Word32) &&& 0xFFFFF000, tlb := [] }

/-- The old task no longer busy, and the new one busy. -/
def freedRun (cause : TaskCause) (sel : Word16) (s : State) : State := busyRun s.tr.sel false 0x8B (savedRun cause sel 0x1002 2 s)

/-- A JMP to a TSS with paging on. -/
theorem jmp_switched : ∃ t, TaskSwitched .jmp true 0x78 0x1002 2 (farRead 0x78 machinePaged) t :=
  taskSwitched_of (s3 := freedRun .jmp 0x78 (farRead 0x78 machinePaged))
    (s4 := freedRun .jmp 0x78 (farRead 0x78 machinePaged))
    (s5 := busyRun 0x78 true 0xE9 (freedRun .jmp 0x78 (farRead 0x78 machinePaged)))
    (s6 := newCr3 (desc 0x78) (newTr 0x78 (desc 0x78) (busyRun 0x78 true 0xE9 (freedRun .jmp 0x78 (farRead 0x78 machinePaged)))))
    (desc 0x78) (by decide +kernel) (by decide +kernel) (by decide +kernel)
    (busyIf_of (.inl rfl) (by decide +kernel) (by decide +kernel)) rfl
    (busyIf_of (by decide) (by decide +kernel) (by decide +kernel))
    (by
      rw [if_pos (by decide +kernel)]
      exact ⟨0x7000, _, tssReads_of (run_of_runs (by decide +kernel)), rfl⟩)
    (by decide +kernel)

/-- The descriptor of the task gate A8, then the switch it names. -/
theorem call_switched : ∃ t, TaskSwitched .call false 0x78 0x1002 2 (farRead 0xA8 (machine [])) t :=
  taskSwitched_of (s3 := savedRun .call 0x78 0x1002 2 (farRead 0xA8 (machine [])))
    (s4 := after (writeAll (desc 0x78).base [(0, bytes16 (farRead 0xA8 (machine [])).tr.sel)])
      (savedRun .call 0x78 0x1002 2 (farRead 0xA8 (machine []))))
    (s5 := _) (s6 := newTr 0x78 (desc 0x78) _)
    (desc 0x78) (by decide +kernel) (by decide +kernel) (by decide +kernel)
    (.inl ⟨by decide, rfl⟩) (tssWrites_of (run_of_runs (by decide +kernel)))
    (busyIf_of (v := 0xE9) (by decide) (by decide +kernel) (by decide +kernel))
    (by
      rw [if_neg (by decide +kernel)]
      rfl)
    (by decide +kernel)

/-- `machine` with NT, so that IRET goes back to the task at 5000. -/
def machineNested : State := { machine [] with flags := { Flags.reset with nt := true } }

/-- The link of the TSS has been read. -/
def linkRead : State := after (sysRead16 machineNested.tr.base) machineNested.begun

theorem iret_switched : ∃ t, TaskSwitched .iret false 0xB0 0x1002 0x4002 linkRead t :=
  taskSwitched_of (s3 := busyRun linkRead.tr.sel false 0x8B (savedRun .iret 0xB0 0x1002 0x4002 linkRead))
    (s4 := busyRun linkRead.tr.sel false 0x8B (savedRun .iret 0xB0 0x1002 0x4002 linkRead))
    (s5 := busyRun linkRead.tr.sel false 0x8B (savedRun .iret 0xB0 0x1002 0x4002 linkRead))
    (s6 := newTr 0xB0 (desc 0xB0) _)
    (desc 0xB0) (by decide +kernel) (by decide +kernel) (by decide +kernel)
    (busyIf_of (.inr rfl) (by decide +kernel) (by decide +kernel)) rfl
    (.inl ⟨by decide, rfl⟩)
    (by
      rw [if_neg (by decide +kernel)]
      rfl)
    (by decide +kernel)

/-- `machine` with OF and an IDT of task gates. -/
def tasks : State := { machine [] with idtr := ⟨0xA800, 0x4F⟩, flags := { Flags.reset with of := true } }

/-- The task gate of a vector of `tasks`. -/
def taskGate (v : Nat) : Desc := ⟨0x00780000, 0x0000E500, BitVec.ofNat 32 (0xA800 + 8 * v)⟩

theorem gate_switched {sel : Word16} {ret img : Word32} (h1 : sel = 0x78) (h2 : ret = 0x1002) (h3 : img = 0x802) :
    ∃ t, TaskSwitched .interrupt false sel ret img tasks t := by
  subst h1 h2 h3
  exact taskSwitched_of (s3 := savedRun .interrupt 0x78 0x1002 0x802 tasks)
    (s4 := after (writeAll (desc 0x78).base [(0, bytes16 tasks.tr.sel)]) (savedRun .interrupt 0x78 0x1002 0x802 tasks))
    (s5 := _) (s6 := newTr 0x78 (desc 0x78) _)
    (desc 0x78) (by decide +kernel) (by decide +kernel) (by decide +kernel)
    (.inl ⟨by decide, rfl⟩) (tssWrites_of (run_of_runs (by decide +kernel)))
    (busyIf_of (v := 0xE9) (by decide) (by decide +kernel) (by decide +kernel))
    (by
      rw [if_neg (by decide +kernel)]
      rfl)
    (by decide +kernel)

/-- Reading the gate of a vector of `tasks`, as a check. -/
def readsGate (v : Byte) : Bool :=
  match readEntry (tasks.idtr.base + BitVec.ofNat 32 (8 * v.toNat)) tasks with
  | .ok g t => decide (g = taskGate v.toNat ∧ t = tasks)
  | .error _ _ => false

theorem gate_read {v : Byte} (h : readsGate v = true) :
    readEntry (tasks.idtr.base + BitVec.ofNat 32 (8 * v.toNat)) tasks = .ok (taskGate v.toNat) tasks := by
  unfold readsGate at h
  split at h
  · next g t e =>
    obtain ⟨rfl, rfl⟩ := of_decide_eq_true h
    exact e
  · cases h

/-- The kinds of event that are no fault. -/
theorem taskGate_of {v : Byte} {kind : ExnKind} (h0 : 8 * v.toNat + 7 ≤ tasks.idtr.limit.toNat) (h1 : readsGate v = true)
    (h2 : kind = .software ∨ kind = .external) : ∃ t, TaskGateEntered v kind none tasks t := by
  have hg : (taskGate 0).isTaskGate = true ∧ tasks.level ≤ (taskGate 0).dpl ∧ (taskGate 0).p = true ∧
      (taskGate 0).gateSel = 0x78 := by decide
  obtain ⟨t, ht⟩ : ∃ t, TaskSwitched .interrupt false (taskGate v.toNat).gateSel
      (if kind = .fault then tasks.curEip else tasks.eip)
      { tasks.flags with rf := tasks.flags.rf || decide (kind = ExnKind.fault) }.image tasks t := by
    rcases h2 with rfl | rfl <;> exact gate_switched hg.2.2.2 (by decide) (by decide)
  exact ⟨t, h0, taskGate v.toNat, tasks, t, gate_read h1, hg.1, fun _ => hg.2.1, hg.2.2.1, ht, rfl⟩

/-- JMP to a TSS with paging on, CALL of a task gate, IRET with NT, INT n, INT 3, INTO and an interrupt through task
gates; a null selector, one of the LDT, one past the table, data, absent and short TSSs, one of level 0 from level 3,
a busy one; and a whole switch with paging on. -/
theorem witness_TaskSwitches :
    (let s := machinePaged;
      s.pfx.lock = false ∧ s.mode = .prot ∧ s.paging = true ∧ (s.eip = 0x1002 ∧ s.flags.image = 2) ∧
        (∃ i j, FarForms s 0x78 0 i j s.begun) ∧ DescriptorAt 0x78 (desc 0x78) s.begun (farRead 0x78 s) ∧
        (desc 0x78).isTss = true ∧ ∃ t, TaskSwitched .jmp true 0x78 0x1002 2 (farRead 0x78 s) t) ∧
    (let s := machine [];
      DescriptorAt 0xA8 (desc 0xA8) s.begun (farRead 0xA8 s) ∧
        ((desc 0xA8).isTaskGate = true ∧ s.cpl ≤ (desc 0xA8).dpl ∧ selRpl 0xA8 ≤ (desc 0xA8).dpl ∧ (desc 0xA8).p = true ∧
          (desc 0xA8).gateSel = 0x78) ∧
        ∃ t, TaskSwitched .call false 0x78 0x1002 2 (farRead 0xA8 s) t) ∧
    (let s := machineNested;
      s.flags.nt = true ∧ s.tr.valid = true ∧ sysRead16 s.tr.base s.begun = .ok 0xB0 linkRead ∧ s.flags.image = 0x4002 ∧
        ∃ t, TaskSwitched .iret false 0xB0 0x1002 0x4002 linkRead t) ∧
    (tasks.mode ≠ .real ∧ tasks.flags.of = true ∧ tasks.begun = tasks ∧ reported (external 9) tasks = tasks ∧
      (∃ t, TaskGateEntered 9 .software none tasks t) ∧ (∃ t, TaskGateEntered 3 .software none tasks t) ∧
      (∃ t, TaskGateEntered 4 .software none tasks t) ∧ ∃ t, TaskGateEntered 9 .external none tasks t) ∧
    (let s := { machine [] with cpl := 3 };
      (3 : Word16).toNat < 4 ∧ (0x8C : Word16).getLsbD 2 = true ∧ OutsideTable s 0xC0 ∧
        (∀ sel ∈ ([0x10, 0x80, 0x98, 0xA0] : List Word16), ∃ u, DescriptorAt sel (desc sel.toNat) s u) ∧
        (desc 0x10).isTss = false ∧ ((desc 0x98).isTss = true ∧ (desc 0x98).p = false) ∧
        ((desc 0xA0).p = true ∧ (desc 0xA0).limit.toNat < 103) ∧
        ((desc 0x80).isTss = true ∧ (desc 0x80).p = true ∧ 103 ≤ (desc 0x80).limit.toNat ∧ ¬s.cpl ≤ (desc 0x80).dpl ∧
          (desc 0x80).busy = true)) ∧
    ∃ t, taskSwitch .call false 0x78 0x1002 2 0 machinePaged = .ok () t := by
  refine ⟨⟨rfl, by decide, by decide, by decide, ⟨_, _, .inl ⟨.d 0, rfl, rfl, rfl, rfl⟩⟩, desc_at (by decide +kernel),
      by decide, jmp_switched⟩,
    ⟨desc_at (by decide +kernel), by decide, call_switched⟩,
    ⟨rfl, rfl, ok_of_gives (by decide +kernel), by decide, iret_switched⟩,
    ⟨by decide, rfl, rfl, rfl, taskGate_of (by decide) (by decide +kernel) (.inl rfl),
      taskGate_of (by decide) (by decide +kernel) (.inl rfl), taskGate_of (by decide) (by decide +kernel) (.inl rfl),
      taskGate_of (by decide) (by decide +kernel) (.inr rfl)⟩,
    ⟨by decide, by decide, by unfold OutsideTable; decide, fun sel hs => ?_, by decide, by decide, by decide, by decide⟩,
    _, run_of_runs (by decide +kernel)⟩
  fin_cases hs <;> exact ⟨_, desc_at (by decide +kernel)⟩

end Sys2Proof.Tests
end

