-- ==== Sys2Proof/Proofs/FlagFunctions.lean ====
section
/-! SUPPORT. `SZP_N`, `AddFlags_N` and `SubFlags_N` (R310 to R312): both results are the wrapped image of the exact
signed result, and the sign test printed for OF holds exactly when that image is another number. -/

namespace Sys2Proof.Machine

open Sys2Proof.Claims

/-! The result flags (R310). -/

/-- The exclusive or of the bits of a list says whether an odd number of them is set. -/
theorem foldl_xor_eq_bodd (p : Nat → Bool) (l : List Nat) (x : Bool) :
    l.foldl (fun y k => y ^^ p k) x = (x ^^ (l.filter p).length.bodd) := by
  induction l generalizing x with
  | nil => simp
  | cons k l ih =>
    rw [List.foldl_cons, ih]
    cases hk : p k <;> simp [hk]

theorem parityEven_eq {n : Nat} (r : BitVec n) :
    parityEven r = decide (((List.range 8).filter fun k => r.toNat.testBit k).length % 2 = 0) := by
  have folded : parityEven r = !(List.range 8).foldl (fun y k => y ^^ r.toNat.testBit k) false := by
    simp only [parityEven, BitVec.testBit_toNat, List.range_succ_eq_map, List.range_zero, List.map, List.foldl,
      Bool.false_xor]
  rw [folded, foldl_xor_eq_bodd, Nat.mod_two_of_bodd]
  cases (List.filter _ _).length.bodd <;> rfl

theorem szpRule_szp {n : Nat} (r : BitVec n) (f : Flags) : SzpRule r (szp r f) where
  sf := BitVec.msb_eq_decide r
  zf := by simp [szp, ← BitVec.toNat_inj, beq_eq_decide]
  pf := parityEven_eq r

/-! The results as wrapped integers (R311, R312). -/

theorem ofInt_sub {n : Nat} (x y : Int) : BitVec.ofInt n (x - y) = BitVec.ofInt n x - BitVec.ofInt n y :=
  eq_sub_of_add_eq (by rw [← BitVec.ofInt_add, Int.sub_add_cancel])

theorem addResult_eq_ofInt {n : Nat} (a b : BitVec n) (c : Bool) :
    addResult a b c = BitVec.ofInt n (a.toInt + b.toInt + c.toNat) := by
  simp [addResult, BitVec.ofInt_add, BitVec.ofNat_add]

theorem subResult_eq_ofInt {n : Nat} (a b : BitVec n) (c : Bool) :
    subResult a b c = BitVec.ofInt n (a.toInt - b.toInt - c.toNat) := by
  simp [subResult, ofInt_sub]

theorem subResult_toNat {n : Nat} (a b : BitVec n) (c : Bool) :
    ((subResult a b c).toNat : Int) = ((a.toNat : Int) - b.toNat - c.toNat) % 2 ^ n := by
  have unsigned : subResult a b c = BitVec.ofInt n ((a.toNat : Int) - b.toNat - c.toNat) := by
    simp [subResult, ofInt_sub]
  have nonneg := Int.emod_nonneg ((a.toNat : Int) - b.toNat - c.toNat) (pow_ne_zero n two_ne_zero)
  rw [unsigned, BitVec.toNat_ofInt]
  push_cast
  exact Int.toNat_of_nonneg nonneg

/-! Signed overflow (R32). -/

theorem two_pow_eq_double {n : Nat} (hn : 0 < n) : (2 : Int) ^ n = 2 * 2 ^ (n - 1) :=
  (mul_pow_sub_one hn.ne' 2).symm

/-- A number within twice the signed range wraps to itself, or by one modulus into the range. -/
theorem toInt_ofInt_cases {n : Nat} (hn : 0 < n) {x : Int} (lo : -2 ^ n ≤ x) (hi : x < 2 ^ n) :
    (-2 ^ (n - 1) ≤ x ∧ x < 2 ^ (n - 1) ∧ (BitVec.ofInt n x).toInt = x) ∨
    (2 ^ (n - 1) ≤ x ∧ (BitVec.ofInt n x).toInt = x - 2 ^ n) ∨
    (x < -2 ^ (n - 1) ∧ (BitVec.ofInt n x).toInt = x + 2 ^ n) := by
  have double := two_pow_eq_double hn
  have cast : ((2 ^ n : Nat) : Int) = 2 ^ n := by push_cast; rfl
  rw [BitVec.toInt_ofInt]
  rcases lt_or_ge x (-2 ^ (n - 1)) with below | above
  · refine .inr (.inr ⟨below, ?_⟩)
    rw [← Int.add_bmod_right, Int.bmod_eq_of_le_mul_two] <;> omega
  rcases lt_or_ge x (2 ^ (n - 1)) with inside | beyond
  · exact .inl ⟨above, inside, Int.bmod_eq_of_le_mul_two (by omega) (by omega)⟩
  · refine .inr (.inl ⟨beyond, ?_⟩)
    rw [← Int.sub_bmod_right, Int.bmod_eq_of_le_mul_two] <;> omega

theorem addFlags_of_iff {n : Nat} (hn : 0 < n) (a b : BitVec n) (c : Bool) (f : Flags) :
    (addFlags a b c f).of = true ↔ OutOfRange n (a.toInt + b.toInt + c.toNat) := by
  have double := two_pow_eq_double hn
  have hc := c.toNat_le
  have ha := a.le_toInt
  have ha' := a.toInt_lt
  have hb := b.le_toInt
  have hb' := b.toInt_lt
  have wrapped := toInt_ofInt_cases hn (x := a.toInt + b.toInt + c.toNat) (by omega) (by omega)
  simp only [addFlags, szp, addResult_eq_ofInt, BitVec.msb_eq_toInt, OutOfRange, Bool.and_eq_true, beq_iff_eq,
    bne_iff_ne, ne_eq, decide_eq_decide]
  omega

theorem subFlags_of_iff {n : Nat} (hn : 0 < n) (a b : BitVec n) (c : Bool) (f : Flags) :
    (subFlags a b c f).of = true ↔ OutOfRange n (a.toInt - b.toInt - c.toNat) := by
  have double := two_pow_eq_double hn
  have hc := c.toNat_le
  have ha := a.le_toInt
  have ha' := a.toInt_lt
  have hb := b.le_toInt
  have hb' := b.toInt_lt
  have wrapped := toInt_ofInt_cases hn (x := a.toInt - b.toInt - c.toNat) (by omega) (by omega)
  simp only [subFlags, szp, subResult_eq_ofInt, BitVec.msb_eq_toInt, OutOfRange, Bool.and_eq_true,
    bne_iff_ne, ne_eq, decide_eq_decide]
  omega

/-! The rules of the claims. -/

theorem addRule_addFlags {n : Nat} (hn : 0 < n) (a b : BitVec n) (c : Bool) (f : Flags) :
    AddRule a b c f (addResult a b c) (addFlags a b c f) where
  value := BitVec.toNat_ofNat _ _
  cf := decide_eq_true_iff
  af := decide_eq_true_iff
  of := addFlags_of_iff hn a b c f
  szp := szpRule_szp _ _
  rest := rfl

theorem subRule_subFlags {n : Nat} (hn : 0 < n) (a b : BitVec n) (c : Bool) (f : Flags) :
    SubRule a b c f (subResult a b c) (subFlags a b c f) where
  value := subResult_toNat a b c
  cf := decide_eq_true_iff
  af := decide_eq_true_iff
  of := subFlags_of_iff hn a b c f
  szp := szpRule_szp _ _
  rest := rfl

theorem width_bits_pos (w : Width) : 0 < w.bits := by
  cases w <;> decide

/-- Settles O26: each function meets its rule at every positive width. -/
theorem flagFunctions : Obligations.FlagFunctions := by
  unfold Obligations.FlagFunctions
  intro w a b c f
  have pos := width_bits_pos w
  exact ⟨⟨szpRule_szp a f, rfl⟩, addRule_addFlags pos a b c f, subRule_subFlags pos a b c f⟩

end Sys2Proof.Machine
end

