-- ==== Sys2Proof/Proofs/ConditionCodes.lean ====
section
/-! SUPPORT. The condition codes (R460): `Cond.num` and `Cond.ofNum` are inverse, the opcode byte of the three
families keeps its row in the high four bits and the code in the low four, and the decoder reads each family by that
row. -/

namespace Sys2Proof.Machine

/-! The numbers of the conditions. -/

@[simp] theorem cond_ofNum_num (c : Cond) : Cond.ofNum c.num = c := by
  cases c <;> rfl

theorem cond_num_ofNum (k : BitVec 4) : (Cond.ofNum k).num = k := by
  decide +revert

/-- Neighbouring codes, which differ in bit 0 only, are opposite tests. -/
theorem cond_ofNum_xor_one (f : Flags) (c : Cond) : f.cond (Cond.ofNum (c.num ^^^ 1)) = !f.cond c := by
  cases c <;> simp [Cond.num, Cond.ofNum, Flags.cond, bne]

/-! The opcode byte `base + cc`. -/

theorem opcode_toNat {base : Byte} (aligned : base.toNat % 16 = 0) (cc : BitVec 4) :
    (base + cc.setWidth 8).toNat = base.toNat + cc.toNat := by
  have hb := base.isLt
  have hc := cc.isLt
  rw [BitVec.toNat_add, BitVec.toNat_setWidth]
  omega

theorem opcode_row {base : Byte} (aligned : base.toNat % 16 = 0) (cc : BitVec 4) :
    (base + cc.setWidth 8).toNat / 16 = base.toNat / 16 := by
  have hc := cc.isLt
  rw [opcode_toNat aligned]
  omega

theorem condOf_opcode {base : Byte} (aligned : base.toNat % 16 = 0) (cc : BitVec 4) :
    condOf (base + cc.setWidth 8) = Cond.ofNum cc := by
  have low : (base + cc.setWidth 8).extractLsb' 0 4 = cc := by
    apply BitVec.eq_of_toNat_eq
    rw [BitVec.extractLsb'_toNat, opcode_toNat aligned, Nat.shiftRight_zero]
    have hc := cc.isLt
    omega
  rw [condOf, low]

/-! The families that carry a condition, by the row of their opcode. -/

theorem decodeItem_jccShort {b : Byte} (row : b.toNat / 16 = 7) (o a : Size) (d : Byte) (rest : List Byte) :
    decodeItem o a (b :: d :: rest) = .ok (.jccShort (condOf b) d) rest := by
  have selected : decodeOneByte o a b = row7 b := by simp [decodeOneByte, row]
  exact congrFun selected (d :: rest)

/-- The escape byte 0F hands the rest to the second opcode map (R172). -/
theorem decodeItem_escape (o a : Size) (b : Byte) (rest : List Byte) :
    decodeItem o a (0x0F :: b :: rest) = decodeTwoByte o a b rest := rfl

theorem decodeTwoByte_row8 {b : Byte} (row : b.toNat / 16 = 8) (o a : Size) : decodeTwoByte o a b = row0F8 o b := by
  simp [decodeTwoByte, row]

theorem decodeTwoByte_row9 {b : Byte} (row : b.toNat / 16 = 9) (o a : Size) : decodeTwoByte o a b = row0F9 a b := by
  simp [decodeTwoByte, row]

theorem decodeItem_jccNear_s16 {b : Byte} (row : b.toNat / 16 = 8) (a : Size) (d0 d1 : Byte) (rest : List Byte) :
    decodeItem .s16 a (0x0F :: b :: d0 :: d1 :: rest) = .ok (.jccNear (condOf b) (.w (d1 ++ d0))) rest := by
  rw [decodeItem_escape, decodeTwoByte_row8 row]
  rfl

theorem decodeItem_jccNear_s32 {b : Byte} (row : b.toNat / 16 = 8) (a : Size) (d0 d1 d2 d3 : Byte)
    (rest : List Byte) :
    decodeItem .s32 a (0x0F :: b :: d0 :: d1 :: d2 :: d3 :: rest) =
      .ok (.jccNear (condOf b) (.d (d3 ++ (d2 ++ (d1 ++ d0))))) rest := by
  rw [decodeItem_escape, decodeTwoByte_row8 row]
  rfl

/-- The ModRM byte C0 designates AL (R178, R180). -/
theorem decodeItem_setcc_al {b : Byte} (row : b.toNat / 16 = 9) (o a : Size) (rest : List Byte) :
    decodeItem o a (0x0F :: b :: 0xC0 :: rest) = .ok (.setcc (condOf b) (.reg .al)) rest := by
  rw [decodeItem_escape, decodeTwoByte_row9 row]
  rfl

/-- Settles O27: the low four bits of each opcode are the number of its condition, and the table is `CondRule` read
through that number. -/
theorem conditionCodes : Obligations.ConditionCodes := by
  unfold Obligations.ConditionCodes
  refine ⟨Cond.ofNum, fun cc => ⟨?short, ?near, ?set, fun f => ?test⟩⟩
  case short =>
    intro o a d rest
    rw [decodeItem_jccShort (opcode_row (base := 0x70) rfl cc), condOf_opcode rfl]
  case near =>
    intro a d0 d1 d2 d3 rest
    have row := opcode_row (base := 0x80) rfl cc
    rw [decodeItem_jccNear_s16 row, decodeItem_jccNear_s32 row, condOf_opcode rfl]
    exact ⟨rfl, rfl⟩
  case set =>
    intro o a rest
    rw [decodeItem_setcc_al (opcode_row (base := 0x90) rfl cc), condOf_opcode rfl]
  case test =>
    obtain ⟨c, rfl⟩ : ∃ c : Cond, c.num = cc := ⟨Cond.ofNum cc, cond_num_ofNum cc⟩
    rw [cond_ofNum_num]
    refine ⟨?_, condRule_iff, cond_ofNum_xor_one f c⟩
    rw [← condRule_iff]
    cases c <;> exact Iff.rfl

end Sys2Proof.Machine
end

