-- ==== Sys2Proof/Proofs/Actions.lean ====
section
/-! SUPPORT. How the smallest actions run, and that an instruction depends on its actions in the state in which it
begins only. -/

namespace Sys2Proof.Machine

open Sys2Proof.Safety Sys2Proof.Claims

@[simp] theorem getReg_run (w : Width) (r : Reg) (s : State) : getReg w r s = .ok (readReg w s.regs r) s := rfl

@[simp] theorem putReg_run (w : Width) (r : Reg) (v : BitVec w.bits) (s : State) :
    putReg w r v s = .ok () { s with regs := writeReg w s.regs r v } := rfl

@[simp] theorem getFlags_run (s : State) : getFlags s = .ok s.flags s := rfl

@[simp] theorem putFlags_run (f : Flags) (s : State) : putFlags f s = .ok () (s.setFlags f) := rfl

@[simp] theorem freeFlag_run (s : State) :
    freeFlag s = .ok (Config.freeFlag s.free) { s with free := s.free + 1 } := rfl

@[simp] theorem freeBits_run (n : Nat) (s : State) :
    freeBits n s = .ok ((Config.freeWord s.free).setWidth n) { s with free := s.free + 1 } := rfl

@[simp] theorem putEip_run (v : Word32) (s : State) : putEip v s = .ok () (s.setEip v) := rfl

@[simp] theorem putSp_run (v : Word32) (s : State) : putSp v s = .ok () { s with regs := s.regsWithSp v } := rfl

@[simp] theorem putSeg_run (sr : SReg) (g : SegReg) (s : State) : putSeg sr g s = .ok () (s.setSeg sr g) := rfl

@[simp] theorem loadSegReal_run (sr : SReg) (sel : Word16) (s : State) :
    loadSegReal sr sel s = .ok () (s.setSeg sr ((s.segs.get sr).loadReal sel)) := rfl

/-- Storing at a location and replacing the flags do not meet. -/
theorem storeAt_setFlags (s : State) (f : Flags) (w : Width) (l : Loc) (v : BitVec w.bits) :
    (s.setFlags f).storeAt w l v = (s.storeAt w l v).setFlags f := by
  cases l <;> rfl

/-- LOCK is checked without a change of the state (R530). -/
theorem checkLock_run_cases (lockable : Bool) (s : State) :
    checkLock lockable s = .ok () s ∨ ∃ e, checkLock lockable s = .error (.exc e) s := by
  unfold checkLock
  rw [get_bind_run]
  cases s.pfx.lock
  · exact .inl rfl
  · simp only [if_true, bind_run, require_run]
    grind

/-- What an instruction does depends on its actions in the state in which it begins only. -/
theorem runInstr_congr {lockable : Bool} {m m' : M Unit} {s : State} (h : m s.begun = m' s.begun) :
    runInstr lockable m s = runInstr lockable m' s := by
  simp only [runInstr, bind_run]
  rcases checkLock_run_cases lockable s.begun with h' | ⟨e, h'⟩ <;> simp only [h', h]

/-- Without LOCK an instruction whose actions end well leaves the finished state. -/
theorem runInstr_ok_noLock {lockable : Bool} {m : M Unit} {s t : State} (unlocked : s.pfx.lock = false)
    (hm : m s.begun = .ok () t) : runInstr lockable m s = .next (finished s t) :=
  runInstr_ok (fun locked => by simp [unlocked] at locked) hm

/-- Without LOCK an instruction whose actions raise an exception is undone and the exception delivered (R556). -/
theorem runInstr_exc_noLock {lockable : Bool} {m : M Unit} {s t : State} {e : Exn} (unlocked : s.pfx.lock = false)
    (hm : m s.begun = .error (.exc e) t) : runInstr lockable m s = .next (deliver e (undo s t)) :=
  runInstr_exc (fun locked => by simp [unlocked] at locked) hm

end Sys2Proof.Machine
end

