-- ==== Sys2Proof/Proofs/TwoOperand.lean ====
section
/-! SUPPORT. The two-operand functions with their operands (R319 to R324, R360 to R363), TEST (R365), and the
one-operand functions (R325 to R327, R364). -/

namespace Sys2Proof.Machine

open Sys2Proof.Safety Sys2Proof.Claims

theorem logicRule_logicFlags {n : Nat} {op : Bool → Bool → Bool} {a b r : BitVec n} (f : Flags)
    (value : ∀ i < n, r.getLsbD i = op (a.getLsbD i) (b.getLsbD i)) :
    LogicRule op a b f r (logicFlags r f) where
  value := value
  cf := rfl
  of := rfl
  af := rfl
  szp := szpRule_szp _ _
  rest := rfl

/-- Every two-operand function meets its rule (R320 to R324, R361 to R363). -/
theorem aluRule_alu {n : Nat} (pos : 0 < n) (op : AluOp) (a b : BitVec n) (f : Flags) :
    AluRule op a b f (aluResult op a b f) (aluFlags op a b f) := by
  cases op
  case add => exact addRule_addFlags pos a b false f
  case adc => exact addRule_addFlags pos a b f.cf f
  case sub => exact subRule_subFlags pos a b false f
  case cmp => exact subRule_subFlags pos a b false f
  case sbb => exact subRule_subFlags pos a b f.cf f
  case and => exact logicRule_logicFlags f fun i _ => BitVec.getLsbD_and
  case or => exact logicRule_logicFlags f fun i _ => BitVec.getLsbD_or
  case xor => exact logicRule_logicFlags f fun i _ => BitVec.getLsbD_xor

theorem aluOp_writes_iff (op : AluOp) : op.writes = true ↔ op ≠ .cmp := by cases op <;> decide

/-! How the actions of these instructions run. -/

theorem aluRm_run_ok {op : AluOp} {w : Width} {d : RM} {s s1 : State} {l : Loc} (b : BitVec w.bits)
    (located : locate w op.access d s = .ok l s1) :
    aluRm op w d b s = .ok () ((if op = .cmp then s1 else s1.storeAt w l
      (aluResult op (s1.valueAt w l) b s1.flags)).setFlags (aluFlags op (s1.valueAt w l) b s1.flags)) := by
  unfold aluRm
  rw [bind_run_ok located]
  by_cases h : op = .cmp <;> simp [bind_run, aluOp_writes_iff, h, storeAt_setFlags]

theorem aluReg_run (op : AluOp) (w : Width) (r : Reg) (b : BitVec w.bits) (s : State) :
    aluReg op w r b s = .ok () { s with
      regs := if op = .cmp then s.regs else writeReg w s.regs r (aluResult op (readReg w s.regs r) b s.flags)
      flags := aluFlags op (readReg w s.regs r) b s.flags } := by
  unfold aluReg
  by_cases h : op = .cmp <;> simp [bind_run, aluOp_writes_iff, h, State.setFlags]

theorem unRm_run_ok {op : UnOp} {w : Width} {m : RM} {s s1 : State} {l : Loc}
    (located : locate w .write m s = .ok l s1) :
    unRm op w m s = .ok () ((s1.storeAt w l (unResult op (s1.valueAt w l))).setFlags
      (unFlags op (s1.valueAt w l) s1.flags)) := by
  unfold unRm
  simp [bind_run, located, storeAt_setFlags]

theorem testRm_run_ok {w : Width} {m : RM} {s s1 : State} {l : Loc} (b : BitVec w.bits)
    (located : locate w .read m s = .ok l s1) :
    testRm w m b s = .ok () (s1.setFlags (aluFlags .and (s1.valueAt w l) b s1.flags)) := by
  unfold testRm
  simp [bind_run, readRM_run_ok located, aluFlags]

/-! The instructions of a shape and their actions. -/

/-- The actions of an instruction of `ALU2` with an r/m destination, by its source (R319). -/
def aluActions (op : AluOp) (d : RM) (s : State) : Src → M Unit
  | .rb r => aluRmReg op .b8 d r
  | .rv r => aluRmReg op s.osz.width d r
  | .ib v => aluRm op .b8 d v
  | .iv v => aluRm op s.osz.width d (Sized.at _ v)
  | .sx v => aluRm op s.osz.width d (sext _ v)

theorem aluActions_begun (op : AluOp) (d : RM) (s : State) (x : Src) :
    aluActions op d s x s.begun = aluRm op (x.width s) d (x.value s) s.begun := by
  cases x <;> rfl

theorem exec_aluToRm (op : AluOp) (d : RM) (x : Src) (s : State) :
    exec (aluToRm op d x) s = runInstr (op.writes && RMisMem d) (aluRm op (x.width s) d (x.value s)) s := by
  have arm : exec (aluToRm op d x) s = runInstr (op.writes && RMisMem d) (aluActions op d s x) s := by
    cases op <;> cases x <;> rfl
  rw [arm, runInstr_congr (aluActions_begun op d s x)]

theorem exec_aluFromRm (op : AluOp) (wide : Bool) (r : Reg) (m : RM) (s : State) :
    exec (aluFromRm op wide r m) s = runInstr false (aluRegRm op (widthOf s wide) r m) s := by
  cases op <;> cases wide <;> rfl

theorem exec_aluAl (op : AluOp) (b : Byte) (s : State) :
    exec (aluAl op b) s = runInstr false (aluReg op .b8 .eax b) s := by
  cases op <;> rfl

theorem exec_aluAx (op : AluOp) (b : Sized) (s : State) :
    exec (aluAx op b) s = runInstr false (aluReg op s.osz.width .eax (Sized.at _ b)) s := by
  cases op <;> rfl

theorem exec_unInstr (op : UnOp) (wide : Bool) (m : RM) (s : State) :
    exec (unInstr op wide m) s = runInstr (RMisMem m) (unRm op (widthOf s wide) m) s := by
  cases op <;> cases wide <;> rfl

/-! What these instructions leave. -/

theorem aluToRm_finished {op : AluOp} {d : RM} {x : Src} {s s1 : State} {l : Loc}
    (lock : s.lockOk (op.writes && RMisMem d)) (located : locate (x.width s) op.access d s.begun = .ok l s1) :
    ∃ r f, AluRule op (s1.valueAt (x.width s) l) (x.value s) s1.flags r f ∧
      exec (aluToRm op d x) s =
        .next (finished s { (if op = .cmp then s1 else s1.storeAt (x.width s) l r) with flags := f }) :=
  ⟨_, _, aluRule_alu (width_bits_pos _) op _ _ _,
    by rw [exec_aluToRm, runInstr_ok lock (aluRm_run_ok _ located)]; rfl⟩

/-- The registers after `ALU2` with a register destination: CMP stores nothing (R319, R324). -/
theorem aluRegs_written (op : AluOp) (w : Width) (r : Reg) (v : BitVec w.bits) (g : GRegs) :
    if op = .cmp then (if op = .cmp then g else writeReg w g r v) = g
    else WritesReg w r v g (if op = .cmp then g else writeReg w g r v) := by
  split
  · rfl
  · exact writesReg_writeReg w g r v

theorem aluFromRm_finished {op : AluOp} {wide : Bool} {r : Reg} {m : RM} {s s1 : State} {l : Loc}
    (unlocked : s.pfx.lock = false) (located : locate (widthOf s wide) .read m s.begun = .ok l s1) :
    ∃ v f g, AluRule op (readReg (widthOf s wide) s1.regs r) (s1.valueAt (widthOf s wide) l) s1.flags v f ∧
      (if op = .cmp then g = s1.regs else WritesReg (widthOf s wide) r v s1.regs g) ∧
      exec (aluFromRm op wide r m) s = .next (finished s { s1 with regs := g, flags := f }) := by
  refine ⟨_, _, _, aluRule_alu (width_bits_pos _) op _ _ _, aluRegs_written op _ r _ _, ?_⟩
  rw [exec_aluFromRm]
  exact runInstr_ok_noLock unlocked (seq_ok (readRM_run_ok located) (aluReg_run op _ r _ s1))

theorem aluReg_finished {op : AluOp} {w : Width} {r : Reg} {b : BitVec w.bits} {s : State}
    (unlocked : s.pfx.lock = false) :
    ∃ v f g, AluRule op (readReg w s.regs r) b s.begun.flags v f ∧
      (if op = .cmp then g = s.regs else WritesReg w r v s.regs g) ∧
      runInstr false (aluReg op w r b) s = .next (finished s { s.begun with regs := g, flags := f }) :=
  ⟨_, _, _, aluRule_alu (width_bits_pos w) op _ _ _, aluRegs_written op w r _ _,
    runInstr_ok_noLock unlocked (aluReg_run op w r b s.begun)⟩

theorem testRm_finished {w : Width} {m : RM} {s s1 : State} {l : Loc} (b : BitVec w.bits)
    (unlocked : s.pfx.lock = false) (located : locate w .read m s.begun = .ok l s1) :
    ∃ r f, AluRule .and (s1.valueAt w l) b s1.flags r f ∧
      runInstr false (testRm w m b) s = .next (finished s { s1 with flags := f }) :=
  ⟨_, _, aluRule_alu (width_bits_pos w) .and _ _ _, runInstr_ok_noLock unlocked (testRm_run_ok b located)⟩

/-- TEST with a register is TEST with its value (R365). -/
theorem testRmReg_run (w : Width) (m : RM) (r : Reg) (s : State) :
    runInstr false (testRmReg w m r) s = runInstr false (testRm w m (readReg w s.regs r)) s :=
  runInstr_congr rfl

/-- Settles O28: the actions of each form run to the function's result and flags, which meet its rule. -/
theorem twoOperand : Obligations.TwoOperand := by
  unfold Obligations.TwoOperand
  refine ⟨fun op d x s s1 l lock located => aluToRm_finished lock located,
    fun op s unlocked => ⟨fun wide r m l s1 located => aluFromRm_finished unlocked located, fun b => ?al, fun b => ?ax⟩,
    fun s unlocked => ⟨fun m l s1 located => ⟨fun v => ?testIb, fun q => ?testRb⟩,
      fun m l s1 located => ⟨fun v => ?testIv, fun q => ?testRv⟩, fun v => ?testAl, fun v => ?testAx⟩⟩
  case al =>
    rw [exec_aluAl]
    exact aluReg_finished unlocked
  case ax =>
    rw [exec_aluAx]
    exact aluReg_finished unlocked
  case testIb => exact testRm_finished v unlocked located
  case testIv => exact testRm_finished (Sized.at _ v) unlocked located
  case testRb =>
    have arm : exec (.testRmbRb m q) s = runInstr false (testRmReg .b8 m q) s := rfl
    rw [arm, testRmReg_run]
    exact testRm_finished _ unlocked located
  case testRv =>
    have arm : exec (.testRmvRv m q) s = runInstr false (testRmReg s.osz.width m q) s := rfl
    rw [arm, testRmReg_run]
    exact testRm_finished _ unlocked located
  case testAl => exact testRm_finished v unlocked (locate_reg_run .b8 .read .al s.begun)
  case testAx => exact testRm_finished (Sized.at _ v) unlocked (locate_reg_run s.osz.width .read .eax s.begun)

/-! One operand. -/

theorem unRule_un {n : Nat} (pos : 0 < n) (op : UnOp) (a : BitVec n) (f : Flags) :
    UnRule op a f (unResult op a) (unFlags op a f) := by
  cases op
  case inc => exact ⟨_, addRule_addFlags pos a 1 false f, rfl⟩
  case dec => exact ⟨_, subRule_subFlags pos a 1 false f, rfl⟩
  case not => exact ⟨fun i hi => by simp [unResult, hi], rfl⟩
  case neg =>
    have borrow : unFlags .neg a f = subFlags 0 a false f := by
      have : (a != 0#n) = decide (0 < a.toNat) := by
        simp [bne, beq_eq_decide, ← BitVec.toNat_inj, Nat.pos_iff_ne_zero]
      simp [unFlags, subFlags, szp, this]
    rw [borrow]
    exact subRule_subFlags pos 0 a false f

theorem unReg_finished {op : UnOp} {w : Width} {q : Reg} {s : State} (unlocked : s.pfx.lock = false) :
    ∃ r f g, UnRule op (readReg w s.regs q) s.begun.flags r f ∧ WritesReg w q r s.regs g ∧
      runInstr false (unReg op w q) s = .next (finished s { s.begun with regs := g, flags := f }) :=
  ⟨_, _, _, unRule_un (width_bits_pos w) op _ _, writesReg_writeReg w _ q _,
    runInstr_ok_noLock unlocked (unRm_run_ok (locate_reg_run w .write q s.begun))⟩

/-- Settles O29: the r/m forms store the result at their location, INC and DEC of a register write it. -/
theorem oneOperand : Obligations.OneOperand := by
  unfold Obligations.OneOperand
  refine fun s => ⟨fun op wide m l s1 lock located => ?_,
    fun unlocked q => ⟨unReg_finished (op := .inc) unlocked, unReg_finished (op := .dec) unlocked⟩⟩
  refine ⟨_, _, unRule_un (width_bits_pos _) op _ _, ?_⟩
  rw [exec_unInstr, runInstr_ok lock (unRm_run_ok located)]
  rfl

end Sys2Proof.Machine
end

