-- ==== Sys2Proof/Proofs/Multiply.lean ====
section
/-! SUPPORT. MUL, IMUL, DIV and IDIV (R330 to R333): the double-width product and dividend as two halves, and the
bounds that make a truncated result exact. -/

namespace Sys2Proof.Machine

open Sys2Proof.Safety Sys2Proof.Claims

/-! The halves of a product. -/

theorem ofNat_halves {n p : Nat} (small : p < 2 ^ n * 2 ^ n) :
    (BitVec.ofNat n p).toNat + 2 ^ n * (BitVec.ofNat n (p / 2 ^ n)).toNat = p := by
  rw [BitVec.toNat_ofNat, BitVec.toNat_ofNat, Nat.mod_eq_of_lt (Nat.div_lt_of_lt_mul small)]
  exact Nat.mod_add_div p (2 ^ n)

theorem upper_half_ne_zero_iff {n p : Nat} (small : p < 2 ^ n * 2 ^ n) :
    BitVec.ofNat n (p / 2 ^ n) ≠ 0 ↔ 2 ^ n ≤ p := by
  rw [Ne, ← BitVec.toNat_inj, BitVec.toNat_ofNat, Nat.mod_eq_of_lt (Nat.div_lt_of_lt_mul small)]
  simp [Nat.div_eq_zero_iff]

theorem toNat_mul_lt {n : Nat} (x y : BitVec n) : x.toNat * y.toNat < 2 ^ n * 2 ^ n :=
  Nat.mul_lt_mul'' x.isLt y.isLt

/-- The upper half of a signed product lies within the signed range. -/
theorem toInt_mul_ediv_bounds {n : Nat} (pos : 0 < n) (x y : BitVec n) :
    -2 ^ (n - 1) ≤ x.toInt * y.toInt / 2 ^ n ∧ x.toInt * y.toInt / 2 ^ n < 2 ^ (n - 1) := by
  have double := two_pow_eq_double pos
  have half_pos : (0 : Int) < 2 ^ (n - 1) := by positivity
  have hx := x.le_toInt
  have hx' := x.toInt_lt
  have hy := y.le_toInt
  have hy' := y.toInt_lt
  rw [Int.le_ediv_iff_mul_le (by positivity), Int.ediv_lt_iff_lt_mul (by positivity), double]
  constructor <;> nlinarith

theorem ofInt_halves {n : Nat} (pos : 0 < n) (x y : BitVec n) :
    ((BitVec.ofInt n (x.toInt * y.toInt)).toNat : Int) +
      2 ^ n * (BitVec.ofInt n (x.toInt * y.toInt / 2 ^ n)).toInt = x.toInt * y.toInt := by
  obtain ⟨lo, hi⟩ := toInt_mul_ediv_bounds pos x y
  have nonneg := Int.emod_nonneg (x.toInt * y.toInt) (pow_ne_zero n two_ne_zero)
  rw [BitVec.toInt_ofInt_eq_self pos lo hi, BitVec.toNat_ofInt]
  push_cast
  rw [Int.toNat_of_nonneg nonneg]
  exact Int.emod_add_mul_ediv _ _

theorem dvd_sub_toInt_ofInt (n : Nat) (p : Int) : (2 : Int) ^ n ∣ p - (BitVec.ofInt n p).toInt := by
  rw [BitVec.toInt_ofInt]
  exact_mod_cast Int.dvd_self_sub_bmod (x := p) (m := 2 ^ n)

/-! How the actions of MUL and IMUL run. -/

theorem hiReg_widthOf (s : State) (wide : Bool) : hiReg (widthOf s wide) = if wide then .edx else .ah := by
  cases wide
  · rfl
  · unfold widthOf
    cases s.osz <;> rfl

theorem productFlags_mulFlags (lost : Prop) [Decidable lost] (sf zf af pf : Bool) (f : Flags) :
    ProductFlags lost f (mulFlags (decide lost) sf zf af pf f) where
  cf := decide_eq_true_iff
  of := decide_eq_true_iff
  rest := rfl

/-- CF and OF say whether the product lost its upper half; the other flags are free (R330, R331). -/
theorem putMulFlags_run (lost : Prop) [Decidable lost] (s : State) :
    ∃ f n, ProductFlags lost s.flags f ∧ putMulFlags (decide lost) s = .ok () { s with flags := f, free := n } :=
  ⟨_, _, productFlags_mulFlags lost _ _ _ _ _, rfl⟩

/-- The registers with the two halves of a result written (R330 to R333). -/
theorem writesReg_halves (s : State) (wide : Bool) (g : GRegs) (lo hi : BitVec (widthOf s wide).bits) :
    let w := widthOf s wide
    WritesReg w .eax lo g (writeReg w g .eax lo) ∧
      WritesReg w (if wide then .edx else .ah) hi (writeReg w g .eax lo)
        (writeReg w (writeReg w g .eax lo) (hiReg w) hi) := by
  intro w
  rw [← hiReg_widthOf s]
  exact ⟨writesReg_writeReg w _ _ _, writesReg_writeReg w _ _ _⟩

/-- The two halves of a result are written (R330 to R333). -/
def withHalves (s : State) (w : Width) (lo hi : BitVec w.bits) : State :=
  { s with regs := writeReg w (writeReg w s.regs .eax lo) (hiReg w) hi }

theorem mulAcc_run_ok {w : Width} {m : RM} {s s1 : State} {l : Loc} (located : locate w .read m s = .ok l s1) :
    let p := (readReg w s1.regs .eax).toNat * (s1.valueAt w l).toNat
    mulAcc w m s = putMulFlags (decide (2 ^ w.bits ≤ p))
      (withHalves s1 w (BitVec.ofNat _ p) (BitVec.ofNat _ (p / 2 ^ w.bits))) := by
  unfold mulAcc
  rw [bind_run_ok (readRM_run_ok located)]
  rfl

theorem imulAcc_run_ok {w : Width} {m : RM} {s s1 : State} {l : Loc} (located : locate w .read m s = .ok l s1) :
    let p := (readReg w s1.regs .eax).toInt * (s1.valueAt w l).toInt
    imulAcc w m s = putMulFlags (p != (BitVec.ofInt w.bits p).toInt)
      (withHalves s1 w (BitVec.ofInt _ p) (BitVec.ofInt _ (p / 2 ^ w.bits))) := by
  unfold imulAcc
  rw [bind_run_ok (readRM_run_ok located)]
  rfl

theorem imulReg_run {w : Width} (r : Reg) (x y : BitVec w.bits) (s : State) :
    ∃ lo g f n, ((2 : Int) ^ w.bits ∣ x.toInt * y.toInt - lo.toInt) ∧ WritesReg w r lo s.regs g ∧
      ProductFlags (lo.toInt ≠ x.toInt * y.toInt) s.flags f ∧
      imulReg w r x y s = .ok () { s with regs := g, flags := f, free := n } := by
  obtain ⟨f, n, flags, run⟩ := putMulFlags_run
    ((BitVec.ofInt w.bits (x.toInt * y.toInt)).toInt ≠ x.toInt * y.toInt)
    { s with regs := writeReg w s.regs r (BitVec.ofInt _ (x.toInt * y.toInt)) }
  refine ⟨_, _, f, n, dvd_sub_toInt_ofInt _ _, writesReg_writeReg w _ r _, flags, ?_⟩
  rw [← run]
  unfold imulReg
  simp [bind_run, bne, beq_eq_decide, eq_comm]

theorem mul_finished {s s1 : State} {m : RM} {l : Loc} {wide : Bool} (unlocked : s.pfx.lock = false)
    (located : locate (widthOf s wide) .read m s.begun = .ok l s1) :
    let w := widthOf s wide
    ∃ lo hi g g' f n, lo.toNat + 2 ^ w.bits * hi.toNat = (readReg w s1.regs .eax).toNat * (s1.valueAt w l).toNat ∧
      WritesReg w .eax lo s1.regs g ∧ WritesReg w (if wide then .edx else .ah) hi g g' ∧
      ProductFlags (hi ≠ 0) s1.flags f ∧
      exec (if wide then .mulRmv m else .mulRmb m) s =
        .next (finished s { s1 with regs := g', flags := f, free := n }) := by
  intro w
  let p := (readReg w s1.regs .eax).toNat * (s1.valueAt w l).toNat
  have small : p < 2 ^ w.bits * 2 ^ w.bits := toNat_mul_lt _ _
  obtain ⟨f, n, flags, run⟩ := putMulFlags_run (2 ^ w.bits ≤ p)
    (withHalves s1 w (BitVec.ofNat _ p) (BitVec.ofNat _ (p / 2 ^ w.bits)))
  obtain ⟨low, high⟩ := writesReg_halves s wide s1.regs (BitVec.ofNat _ p) (BitVec.ofNat _ (p / 2 ^ w.bits))
  have arm : exec (if wide then .mulRmv m else .mulRmb m) s = runInstr false (mulAcc w m) s := by
    cases wide <;> rfl
  exact ⟨_, _, _, _, f, n, ofNat_halves small, low, high, by rw [upper_half_ne_zero_iff small]; exact flags,
    arm.trans (runInstr_ok_noLock unlocked ((mulAcc_run_ok located).trans run))⟩

theorem imul_finished {s s1 : State} {m : RM} {l : Loc} {wide : Bool} (unlocked : s.pfx.lock = false)
    (located : locate (widthOf s wide) .read m s.begun = .ok l s1) :
    let w := widthOf s wide
    let p := (readReg w s1.regs .eax).toInt * (s1.valueAt w l).toInt
    ∃ lo hi g g' f n, (lo.toNat : Int) + 2 ^ w.bits * hi.toInt = p ∧
      WritesReg w .eax lo s1.regs g ∧ WritesReg w (if wide then .edx else .ah) hi g g' ∧
      ProductFlags (lo.toInt ≠ p) s1.flags f ∧
      exec (if wide then .imulRmv m else .imulRmb m) s =
        .next (finished s { s1 with regs := g', flags := f, free := n }) := by
  intro w p
  obtain ⟨f, n, flags, run⟩ := putMulFlags_run ((BitVec.ofInt w.bits p).toInt ≠ p)
    (withHalves s1 w (BitVec.ofInt _ p) (BitVec.ofInt _ (p / 2 ^ w.bits)))
  obtain ⟨low, high⟩ := writesReg_halves s wide s1.regs (BitVec.ofInt _ p) (BitVec.ofInt _ (p / 2 ^ w.bits))
  have arm : exec (if wide then .imulRmv m else .imulRmb m) s = runInstr false (imulAcc w m) s := by
    cases wide <;> rfl
  have lost : (p != (BitVec.ofInt w.bits p).toInt) = decide ((BitVec.ofInt w.bits p).toInt ≠ p) := by
    simp [bne, beq_eq_decide, eq_comm]
  rw [← lost] at run
  exact ⟨_, _, _, _, f, n, ofInt_halves (width_bits_pos w) _ _, low, high, flags,
    arm.trans (runInstr_ok_noLock unlocked ((imulAcc_run_ok located).trans run))⟩

/-- Settles O30: each product is written as its halves or truncated, with CF and OF by what is lost. -/
theorem multiply : Obligations.Multiply := by
  unfold Obligations.Multiply
  refine fun s s1 m l unlocked => ⟨fun wide located => ⟨mul_finished unlocked located, imul_finished unlocked located⟩,
    ?_⟩
  intro located w r i x y form
  obtain ⟨lo, g, f, n, low, written, flags, run⟩ := imulReg_run r x y s1
  refine ⟨lo, g, f, n, low, written, flags, ?_⟩
  have read := readRM_run_ok located
  rcases form with ⟨rfl, rfl, rfl⟩ | ⟨v, rfl, rfl, rfl⟩ | ⟨v, rfl, rfl, rfl⟩
  · exact runInstr_ok_noLock unlocked ((bind_run_ok read).trans run)
  · exact runInstr_ok_noLock unlocked ((bind_run_ok read).trans run)
  · exact runInstr_ok_noLock unlocked ((bind_run_ok read).trans run)

/-! Division. -/

theorem toNat_mod_lt {n a : Nat} (d : BitVec n) (h : d.toNat ≠ 0) : a % d.toNat < 2 ^ n :=
  (Nat.mod_lt a (Nat.pos_of_ne_zero h)).trans d.isLt

/-- The remainder of a division by a signed number lies within the signed range. -/
theorem tmod_bounds {n : Nat} (num : Int) (d : BitVec n) (h : d.toInt ≠ 0) :
    -2 ^ (n - 1) ≤ num.tmod d.toInt ∧ num.tmod d.toInt < 2 ^ (n - 1) := by
  have lt : (num.tmod d.toInt).natAbs < d.toInt.natAbs := by
    rw [Int.natAbs_tmod]
    exact Nat.mod_lt _ (by omega)
  have lo := d.le_toInt
  have hi := d.toInt_lt
  omega

/-- The remainder is 0 or has the sign of the dividend. -/
theorem tmod_sign (num d : Int) : num.tmod d = 0 ∨ (num.tmod d < 0 ↔ num < 0) := by
  by_cases h : d ∣ num
  · exact .inl (Int.tmod_eq_zero_of_dvd h)
  · refine .inr ?_
    rw [← Int.sign_eq_neg_one_iff_neg, ← Int.sign_eq_neg_one_iff_neg, Int.sign_tmod, if_neg h]

theorem ne_zero_iff_toNat {n : Nat} (d : BitVec n) : (d != 0) = true ↔ d.toNat ≠ 0 := by
  simp [bne_iff_ne, ← BitVec.toNat_inj]

theorem ne_zero_iff_toInt {n : Nat} (d : BitVec n) : (d != 0) = true ↔ d.toInt ≠ 0 := by
  simp [bne_iff_ne, ← BitVec.toInt_inj]

theorem divAcc_run {w : Width} {m : RM} {s s1 : State} {l : Loc} (located : locate w .read m s = .ok l s1) :
    let d := s1.valueAt w l
    let num := (readReg w s1.regs (hiReg w)).toNat * 2 ^ w.bits + (readReg w s1.regs .eax).toNat
    divAcc w m s = if d.toNat ≠ 0 ∧ num / d.toNat < 2 ^ w.bits
      then .ok () (withHalves s1 w (BitVec.ofNat _ (num / d.toNat)) (BitVec.ofNat _ (num % d.toNat)))
      else .error (.exc exnDE) s1 := by
  intro d num
  have start : divAcc w m s = (do
      require (d != 0) exnDE
      require (decide (num / d.toNat < 2 ^ w.bits)) exnDE
      putQuotient w (BitVec.ofNat w.bits (num / d.toNat)) (BitVec.ofNat w.bits (num % d.toNat)) : M Unit) s1 := by
    unfold divAcc
    rw [bind_run_ok (readRM_run_ok located)]
    rfl
  rw [start]
  by_cases hd : d.toNat = 0
  · rw [require_bind_fail (by simpa using mt (ne_zero_iff_toNat d).mp (not_not_intro hd)), if_neg (by simp [hd])]
  rw [require_bind_of ((ne_zero_iff_toNat d).mpr hd)]
  by_cases hq : num / d.toNat < 2 ^ w.bits
  · rw [require_bind_of (decide_eq_true hq), if_pos ⟨hd, hq⟩]
    rfl
  · rw [require_bind_fail (decide_eq_false hq), if_neg fun h => hq h.2]

theorem idivAcc_run {w : Width} {m : RM} {s s1 : State} {l : Loc} (located : locate w .read m s = .ok l s1) :
    let d := s1.valueAt w l
    let num : Int := (readReg w s1.regs (hiReg w)).toInt * 2 ^ w.bits + (readReg w s1.regs .eax).toNat
    idivAcc w m s = if d.toInt ≠ 0 ∧ (-2 ^ (w.bits - 1) ≤ num.tdiv d.toInt ∧ num.tdiv d.toInt < 2 ^ (w.bits - 1))
      then .ok () (withHalves s1 w (BitVec.ofInt _ (num.tdiv d.toInt)) (BitVec.ofInt _ (num.tmod d.toInt)))
      else .error (.exc exnDE) s1 := by
  intro d num
  have start : idivAcc w m s = (do
      require (d != 0) exnDE
      require (decide (-2 ^ (w.bits - 1) ≤ num.tdiv d.toInt) && decide (num.tdiv d.toInt < 2 ^ (w.bits - 1))) exnDE
      putQuotient w (BitVec.ofInt w.bits (num.tdiv d.toInt)) (BitVec.ofInt w.bits (num.tmod d.toInt)) : M Unit) s1 := by
    unfold idivAcc
    rw [bind_run_ok (readRM_run_ok located)]
    rfl
  rw [start, ← Bool.decide_and]
  by_cases hd : d.toInt = 0
  · rw [require_bind_fail (by simpa using mt (ne_zero_iff_toInt d).mp (not_not_intro hd)), if_neg (by simp [hd])]
  rw [require_bind_of ((ne_zero_iff_toInt d).mpr hd)]
  by_cases hq : -2 ^ (w.bits - 1) ≤ num.tdiv d.toInt ∧ num.tdiv d.toInt < 2 ^ (w.bits - 1)
  · rw [require_bind_of (decide_eq_true hq), if_pos ⟨hd, hq⟩]
    rfl
  · rw [require_bind_fail (decide_eq_false hq), if_neg fun h => hq h.2]

theorem not_outOfRange_iff (n : Nat) (x : Int) : ¬OutOfRange n x ↔ -2 ^ (n - 1) ≤ x ∧ x < 2 ^ (n - 1) := by
  unfold OutOfRange
  omega

/-- Settles O31: the quotient and remainder are exact where both fit; else exception 0 undoes the instruction. -/
theorem divide : Obligations.Divide := by
  unfold Obligations.Divide
  intro s s1 m l wide unlocked located w d hi lo
  have hiReg_eq : readReg w s1.regs (hiReg w) = hi := by
    unfold w
    rw [hiReg_widthOf s]
  refine ⟨?unsigned, ?signed⟩
  case unsigned =>
    intro num i
    have arm : exec i s = runInstr false (divAcc w m) s := by
      unfold i
      cases wide <;> rfl
    have run := divAcc_run located
    rw [hiReg_eq] at run
    refine ⟨fun hd hq => ?_, fun bad => arm.trans (runInstr_exc_noLock unlocked (run.trans (if_neg bad)))⟩
    obtain ⟨low, high⟩ := writesReg_halves s wide s1.regs (BitVec.ofNat _ (num / d.toNat)) (BitVec.ofNat _ (num % d.toNat))
    refine ⟨_, _, _, _, ?_, ?_, low, high, arm.trans (runInstr_ok_noLock unlocked (run.trans (if_pos ⟨hd, hq⟩)))⟩
    · rw [BitVec.toNat_ofNat, BitVec.toNat_ofNat, Nat.mod_eq_of_lt hq, Nat.mod_eq_of_lt (toNat_mod_lt d hd)]
      exact (Nat.div_add_mod' _ _).symm
    · rw [BitVec.toNat_ofNat, Nat.mod_eq_of_lt (toNat_mod_lt d hd)]
      exact Nat.mod_lt _ (Nat.pos_of_ne_zero hd)
  case signed =>
    intro num i
    have arm : exec i s = runInstr false (idivAcc w m) s := by
      unfold i
      cases wide <;> rfl
    have run := idivAcc_run located
    rw [hiReg_eq] at run
    rw [not_outOfRange_iff]
    refine ⟨fun hd hq => ?_, fun bad => arm.trans (runInstr_exc_noLock unlocked (run.trans (if_neg bad)))⟩
    obtain ⟨low, high⟩ := writesReg_halves s wide s1.regs (BitVec.ofInt _ (num.tdiv d.toInt))
      (BitVec.ofInt _ (num.tmod d.toInt))
    refine ⟨_, _, _, _, ?_, ?_, ?_, low, high, arm.trans (runInstr_ok_noLock unlocked (run.trans (if_pos ⟨hd, hq⟩)))⟩
    all_goals obtain ⟨least, most⟩ := tmod_bounds num d hd
    all_goals rw [BitVec.toInt_ofInt_eq_self (width_bits_pos w) least most]
    · rw [BitVec.toInt_ofInt_eq_self (width_bits_pos w) hq.1 hq.2, mul_comm]
      exact (Int.mul_tdiv_add_tmod _ _).symm
    · rw [Int.natAbs_tmod]
      exact Nat.mod_lt _ (by omega)
    · exact tmod_sign _ _

end Sys2Proof.Machine
end

