-- ==== Sys2Proof/Proofs/BitOps.lean ====
section
/-! SUPPORT. The bit tests, bit by bit (R400 to R404), and the bit scans, by the bits they pass over (R410, R411). -/

namespace Sys2Proof.Machine

open Sys2Proof.Safety Sys2Proof.Claims

theorem bitRule_bitResult {n : Nat} (op : BitOp) (v : BitVec n) {i : Nat} (hi : i < n) :
    BitRule op v i (bitResult op v i) := by
  intro k hk
  by_cases h : k = i
  · subst h
    cases op <;> simp [bitResult, hk]
  · cases op <;> simp [bitResult, hk, h]

theorem bitOp_writes_iff (op : BitOp) : op.writes = true ↔ op ≠ .bt := by cases op <;> decide

theorem bitRm_run_ok {op : BitOp} {w : Width} {m : RM} {s s1 : State} {l : Loc} (i : Nat)
    (located : locate w op.access m s = .ok l s1) :
    bitRm op w m i s = .ok () ((if op = .bt then s1 else s1.storeAt w l
      (bitResult op (s1.valueAt w l) (i % w.bits))).setFlags
        { s1.flags with cf := (s1.valueAt w l).getLsbD (i % w.bits) }) := by
  unfold bitRm
  rw [bind_run_ok located]
  by_cases h : op = .bt <;> simp [bind_run, bitOp_writes_iff, h, storeAt_setFlags]

/-- The number of the bit that a bit test names, before it is taken modulo the width (R400). -/
def bitNumber (s : State) : Reg ⊕ Byte → Nat
  | .inl q => (readReg s.osz.width s.regs q).toNat
  | .inr v => v.toNat

theorem exec_bitInstr (op : BitOp) (m : RM) (x : Reg ⊕ Byte) (s : State) :
    exec (bitInstr op m x) s = runInstr (RMisMem m) (bitRm op s.osz.width m (bitNumber s x)) s := by
  cases x with
  | inl q =>
    have arm : exec (bitInstr op m (.inl q)) s =
        runInstr (RMisMem m) (bitRmReg op s.osz.width m q) s := by
      cases op <;> rfl
    rw [arm]
    exact runInstr_congr rfl
  | inr v => cases op <;> rfl

/-! Scans. -/

/-- A scan upwards stops at the lowest set bit (R410). -/
theorem scanUp_spec {w : Nat} (v : BitVec w) : ∀ (n start : Nat), (∃ i, start ≤ i ∧ i < start + n ∧ v.getLsbD i = true) →
    scanUp v n start < start + n ∧ v.getLsbD (scanUp v n start) = true ∧
      ∀ j, start ≤ j → j < scanUp v n start → v.getLsbD j = false
  | 0, start, ⟨i, low, high, _⟩ => by omega
  | n + 1, start, ⟨i, low, high, set⟩ => by
    unfold scanUp
    by_cases here : v.getLsbD start = true
    · rw [if_pos here]
      exact ⟨by omega, here, fun j h h' => by omega⟩
    · rw [if_neg here]
      have later : start ≠ i := fun e => here (e ▸ set)
      obtain ⟨bound, found, least⟩ := scanUp_spec v n (start + 1) ⟨i, by omega, by omega, set⟩
      refine ⟨by omega, found, fun j h h' => ?_⟩
      by_cases e : j = start
      · simpa [e] using here
      · exact least j (by omega) h'

/-- A scan downwards stops at the highest set bit (R411). -/
theorem scanDown_spec {w : Nat} (v : BitVec w) : ∀ n : Nat, (∃ i < n, v.getLsbD i = true) →
    scanDown v n < n ∧ v.getLsbD (scanDown v n) = true ∧ ∀ j, scanDown v n < j → j < n → v.getLsbD j = false
  | 0, ⟨i, high, _⟩ => by omega
  | n + 1, ⟨i, high, set⟩ => by
    unfold scanDown
    by_cases here : v.getLsbD n = true
    · rw [if_pos here]
      exact ⟨by omega, here, fun j h h' => by omega⟩
    · rw [if_neg here]
      have earlier : i ≠ n := fun e => here (e ▸ set)
      obtain ⟨bound, found, most⟩ := scanDown_spec v n ⟨i, by omega, set⟩
      refine ⟨by omega, found, fun j h h' => ?_⟩
      by_cases e : j = n
      · simpa [e] using here
      · exact most j h (by omega)

theorem exists_bit_of_ne_zero {n : Nat} {v : BitVec n} (h : v ≠ 0) : ∃ i < n, v.getLsbD i = true := by
  by_contra none
  exact h (BitVec.eq_of_getLsbD_eq fun i hi => by simpa using fun set => none ⟨i, hi, set⟩)

theorem bitScan_run_ne {up : Bool} {w : Width} {q : Reg} {m : RM} {s s1 : State} {l : Loc}
    (located : locate w .read m s = .ok l s1) (h : s1.valueAt w l ≠ 0) :
    bitScan up w q m s = .ok () { s1 with
      regs := writeReg w s1.regs q (BitVec.ofNat _ (if up then scanUp (s1.valueAt w l) w.bits 0
        else scanDown (s1.valueAt w l) w.bits))
      flags := { s1.flags with zf := false } } := by
  unfold bitScan
  rw [bind_run_ok (readRM_run_ok located)]
  simp only [bind_run, getFlags_run, if_neg h, putFlags_run]
  rfl

theorem bitScan_run_zero {up : Bool} {w : Width} {q : Reg} {m : RM} {s s1 : State} {l : Loc}
    (located : locate w .read m s = .ok l s1) (h : s1.valueAt w l = 0) :
    bitScan up w q m s = .ok () { s1 with
      regs := writeReg w s1.regs q ((Config.freeWord s1.free).setWidth _)
      flags := { s1.flags with zf := true }
      free := s1.free + 1 } := by
  unfold bitScan
  rw [bind_run_ok (readRM_run_ok located)]
  simp only [bind_run, getFlags_run, if_pos h]
  rfl

/-- Settles O33: a bit test changes the one bit, a scan ends at the first set bit it meets. -/
theorem bitOps : Obligations.BitOps := by
  unfold Obligations.BitOps
  refine ⟨fun op m x s s1 l lock located => ?tests, fun q m s s1 l unlocked located => ?scans⟩
  case tests =>
    intro w i
    refine ⟨_, bitRule_bitResult op _ (Nat.mod_lt _ (width_bits_pos w)), ?_⟩
    have run := bitRm_run_ok (bitNumber s x) located
    rw [exec_bitInstr, runInstr_ok lock run]
    cases x <;> rfl
  case scans =>
    intro w v
    refine ⟨fun nonzero => ⟨?up, ?down⟩, fun zero i which => ?_⟩
    case up =>
      obtain ⟨i, high, set⟩ := exists_bit_of_ne_zero nonzero
      obtain ⟨bound, found, least⟩ := scanUp_spec v w.bits 0 ⟨i, by omega, by omega, set⟩
      exact ⟨_, _, ⟨by omega, found, fun j => least j (by omega)⟩, writesReg_writeReg w _ q _,
        runInstr_ok_noLock unlocked (bitScan_run_ne (up := true) located nonzero)⟩
    case down =>
      obtain ⟨bound, found, most⟩ := scanDown_spec v w.bits (exists_bit_of_ne_zero nonzero)
      refine ⟨_, _, ⟨bound, found, fun j h => ?_⟩, writesReg_writeReg w _ q _,
        runInstr_ok_noLock unlocked (bitScan_run_ne (up := false) located nonzero)⟩
      by_cases hj : j < w.bits
      · exact most j h hj
      · exact BitVec.getLsbD_of_ge v j (by omega)
    rcases which with rfl | rfl
    · exact ⟨_, _, _, writesReg_writeReg w _ q _,
        runInstr_ok_noLock unlocked (bitScan_run_zero (up := true) located zero)⟩
    · exact ⟨_, _, _, writesReg_writeReg w _ q _,
        runInstr_ok_noLock unlocked (bitScan_run_zero (up := false) located zero)⟩

end Sys2Proof.Machine
end

