-- ==== Sys2Proof/Proofs/Shifts.lean ====
section
/-! SUPPORT. Shifts and rotates (R370 to R379): `shiftSteps` is the iteration of one step, so each rule follows by
induction on the count from what one step does to the bits. SHLD and SHRD (R385, R386): the bits that come in do not
meet those that stay, so the two parts add up. -/

namespace Sys2Proof.Machine

open Sys2Proof.Safety Sys2Proof.Claims

variable {n : Nat}

/-! One step, bit by bit. -/

theorem getLsbD_bit (w k i : Nat) (b : Bool) : (bit w k b).getLsbD i = (decide (k < w) && decide (k = i) && b) := by
  unfold bit
  cases b <;> simp

theorem msb_eq_last (t : BitVec n) : t.msb = t.getLsbD (n - 1) := BitVec.msb_eq_getLsbD_last t

/-- A step to the left: each bit moves up by one, and `c` comes in (R376, R378). -/
theorem getLsbD_stepLeft (t : BitVec n) (c : Bool) {i : Nat} (hi : i < n) :
    ((t <<< 1) ||| bit n 0 c).getLsbD i = if i = 0 then c else t.getLsbD (i - 1) := by
  rw [BitVec.getLsbD_or, BitVec.getLsbD_shiftLeft, getLsbD_bit]
  by_cases h : i = 0
  · subst h
    simp [hi]
  · have h1 : ¬i < 1 := by omega
    have h2 : ¬0 = i := by omega
    simp [hi, h, h1, h2]

/-- A step to the right: each bit moves down by one, and `c` comes in (R377, R379). -/
theorem getLsbD_stepRight (t : BitVec n) (c : Bool) {i : Nat} (hi : i < n) :
    ((t >>> 1) ||| bit n (n - 1) c).getLsbD i = if i = n - 1 then c else t.getLsbD (i + 1) := by
  rw [BitVec.getLsbD_or, BitVec.getLsbD_ushiftRight, getLsbD_bit, Nat.add_comm 1]
  have h0 : n - 1 < n := by omega
  by_cases h : i = n - 1
  · subst h
    have h1 : n - 1 + 1 = n := by omega
    simp [h0, h1]
  · have h1 : ¬n - 1 = i := fun e => h e.symm
    simp [h0, h, h1]

theorem getLsbD_stepLeft_succ (t : BitVec n) (c : Bool) {i : Nat} (hi : i < n) :
    withCarry ((t <<< 1) ||| bit n 0 c) t.msb (i + 1) = t.getLsbD i := by
  unfold withCarry
  split
  · next h =>
    rw [getLsbD_stepLeft t c h, if_neg (by omega)]
    rfl
  · next h => rw [msb_eq_last, show i = n - 1 by omega]

/-! The iteration. -/

theorem shiftSteps_succ (op : ShiftOp) (k : Nat) (x : BitVec n × Bool) :
    shiftSteps op (k + 1) x = shiftStep op (shiftSteps op k x) := by
  induction k generalizing x with
  | zero => rfl
  | succ k ih => exact ih (shiftStep op x)

/-- The part of the rule that does not speak of CF alone, which holds for a count of 0 too (R370 to R379). -/
def StepsValue (op : ShiftOp) (a : BitVec n) (cf : Bool) (c : Nat) (x : BitVec n × Bool) : Prop :=
  match op with
  | .shl => x.1.toNat = a.toNat * 2 ^ c % 2 ^ n
  | .shr => x.1.toNat = a.toNat / 2 ^ c
  | .sar => x.1.toInt = a.toInt / 2 ^ c
  | .rol => ∀ i < n, x.1.getLsbD ((i + c) % n) = a.getLsbD i
  | .ror => ∀ i < n, x.1.getLsbD i = a.getLsbD ((i + c) % n)
  | .rcl => ∀ i ≤ n, withCarry x.1 x.2 ((i + c) % (n + 1)) = withCarry a cf i
  | .rcr => ∀ i ≤ n, withCarry x.1 x.2 i = withCarry a cf ((i + c) % (n + 1))

theorem rolStep_getLsbD (t : BitVec n) {i : Nat} (hi : i < n) :
    ((t <<< 1) ||| bit n 0 t.msb).getLsbD ((i + 1) % n) = t.getLsbD i := by
  rw [getLsbD_stepLeft t _ (Nat.mod_lt _ (by omega))]
  by_cases last : i + 1 = n
  · rw [last, Nat.mod_self, if_pos rfl, msb_eq_last, show i = n - 1 by omega]
  · rw [Nat.mod_eq_of_lt (by omega), if_neg (by omega)]
    rfl

theorem rorStep_getLsbD (t : BitVec n) {i : Nat} (hi : i < n) :
    ((t >>> 1) ||| bit n (n - 1) (t.getLsbD 0)).getLsbD i = t.getLsbD ((i + 1) % n) := by
  rw [getLsbD_stepRight t _ hi]
  by_cases last : i = n - 1
  · rw [if_pos last, show i + 1 = n by omega, Nat.mod_self]
  · rw [if_neg last, Nat.mod_eq_of_lt (by omega)]

theorem rclStep_withCarry (pos : 0 < n) (t : BitVec n) (c : Bool) {i : Nat} (hi : i ≤ n) :
    withCarry ((t <<< 1) ||| bit n 0 c) t.msb ((i + 1) % (n + 1)) = withCarry t c i := by
  by_cases last : i = n
  · rw [last, Nat.mod_self]
    unfold withCarry
    rw [if_pos pos, getLsbD_stepLeft t c pos, if_pos rfl, if_neg (by omega)]
  · rw [Nat.mod_eq_of_lt (by omega), getLsbD_stepLeft_succ t c (by omega)]
    unfold withCarry
    rw [if_pos (by omega)]

theorem rcrStep_withCarry (pos : 0 < n) (t : BitVec n) (c : Bool) {i : Nat} (hi : i ≤ n) :
    withCarry ((t >>> 1) ||| bit n (n - 1) c) (t.getLsbD 0) i = withCarry t c ((i + 1) % (n + 1)) := by
  by_cases last : i = n
  · rw [last, Nat.mod_self]
    unfold withCarry
    rw [if_pos pos, if_neg (by omega)]
  · rw [Nat.mod_eq_of_lt (by omega)]
    unfold withCarry
    rw [if_pos (by omega), getLsbD_stepRight t c (by omega)]
    by_cases top : i = n - 1
    · rw [if_pos top, if_neg (by omega)]
    · rw [if_neg top, if_pos (by omega)]

/-- One arithmetic step halves, rounding down (R373). -/
theorem sarStep_toInt (t : BitVec n) : ((t >>> 1) ||| bit n (n - 1) t.msb).toInt = t.toInt / 2 := by
  have same : (t >>> 1) ||| bit n (n - 1) t.msb = t.sshiftRight 1 := by
    apply BitVec.eq_of_getLsbD_eq
    intro i hi
    rw [getLsbD_stepRight t _ hi, BitVec.getLsbD_sshiftRight, Nat.add_comm 1]
    by_cases top : i = n - 1
    · simp [top, show ¬n - 1 + 1 < n by omega, show ¬n ≤ n - 1 by omega]
    · simp [top, hi, show i + 1 < n by omega]
  rw [same, BitVec.toInt_sshiftRight, Int.shiftRight_eq_div_pow]
  rfl

theorem stepsValue_step (pos : 0 < n) (op : ShiftOp) (a : BitVec n) (cf : Bool) (c : Nat) (x : BitVec n × Bool)
    (h : StepsValue op a cf c x) : StepsValue op a cf (c + 1) (shiftStep op x) := by
  cases op
  case shl =>
    change (x.1 <<< 1).toNat = _
    have h : x.1.toNat = a.toNat * 2 ^ c % 2 ^ n := h
    rw [BitVec.toNat_shiftLeft, h, Nat.shiftLeft_eq, pow_one, Nat.mod_mul_mod, pow_succ 2 c, ← mul_assoc]
  case shr =>
    change (x.1 >>> 1).toNat = _
    have h : x.1.toNat = a.toNat / 2 ^ c := h
    rw [BitVec.toNat_ushiftRight, h, Nat.shiftRight_eq_div_pow, pow_one, Nat.div_div_eq_div_mul, pow_succ 2 c]
  case sar =>
    change (_ : BitVec n).toInt = _
    have h : x.1.toInt = a.toInt / 2 ^ c := h
    rw [pow_succ, ← Int.ediv_ediv_of_nonneg (by positivity), ← h]
    exact sarStep_toInt x.1
  case rol =>
    intro i hi
    have h := h i hi
    have next := rolStep_getLsbD x.1 (Nat.mod_lt (i + c) pos)
    rw [Nat.mod_add_mod, add_assoc] at next
    exact next.trans h
  case ror =>
    intro i hi
    have h := h ((i + 1) % n) (Nat.mod_lt _ pos)
    rw [Nat.mod_add_mod, add_assoc, add_comm 1] at h
    exact (rorStep_getLsbD x.1 hi).trans h
  case rcl =>
    intro i hi
    have h := h i hi
    have next := rclStep_withCarry pos x.1 x.2 (Nat.lt_succ_iff.mp (Nat.mod_lt (i + c) (Nat.succ_pos n)))
    rw [Nat.mod_add_mod, add_assoc] at next
    exact next.trans h
  case rcr =>
    intro i hi
    have h := h ((i + 1) % (n + 1)) (Nat.lt_succ_iff.mp (Nat.mod_lt _ (Nat.succ_pos n)))
    rw [Nat.mod_add_mod, add_assoc, add_comm 1] at h
    exact (rcrStep_withCarry pos x.1 x.2 hi).trans h

theorem stepsValue_shiftSteps (pos : 0 < n) (op : ShiftOp) (a : BitVec n) (cf : Bool) (c : Nat) :
    StepsValue op a cf c (shiftSteps op c (a, cf)) := by
  induction c with
  | zero =>
    cases op
    case shl => exact (by simp : a.toNat = a.toNat * 1 % 2 ^ n)
    case shr => exact (by simp : a.toNat = a.toNat / 1)
    case sar => exact (by simp : a.toInt = a.toInt / 1)
    case rol => exact fun i hi => by rw [Nat.add_zero, Nat.mod_eq_of_lt hi]; rfl
    case ror => exact fun i hi => by rw [Nat.add_zero, Nat.mod_eq_of_lt hi]; rfl
    case rcl => exact fun i hi => by rw [Nat.add_zero, Nat.mod_eq_of_lt (by omega)]; rfl
    case rcr => exact fun i hi => by rw [Nat.add_zero, Nat.mod_eq_of_lt (by omega)]; rfl
  | succ c ih =>
    rw [shiftSteps_succ]
    exact stepsValue_step pos op a cf c _ ih

/-- The result and CF of the rule, the last step giving CF (R371 to R379). -/
theorem shiftValue_shiftSteps (pos : 0 < n) (op : ShiftOp) (a : BitVec n) (cf : Bool) (c : Nat) :
    ShiftValue op a cf (c + 1) (shiftSteps op (c + 1) (a, cf)).1 (shiftSteps op (c + 1) (a, cf)).2 := by
  have value := stepsValue_shiftSteps pos op a cf (c + 1)
  have before := stepsValue_shiftSteps pos op a cf c
  rw [shiftSteps_succ] at value ⊢
  generalize shiftSteps op c (a, cf) = x at value before
  cases op
  case rcl => exact value
  case rcr => exact value
  case shl =>
    refine ⟨value, ?_⟩
    have before : x.1.toNat = a.toNat * 2 ^ c % 2 ^ n := before
    change x.1.msb = _
    rw [msb_eq_last, BitVec.getLsbD, before, Nat.testBit_mod_two_pow, pow_succ, ← mul_assoc, ← pow_one 2,
      Nat.testBit_mul_two_pow]
    simp [pos]
    omega
  case shr =>
    refine ⟨value, ?_⟩
    have before : x.1.toNat = a.toNat / 2 ^ c := before
    change x.1.getLsbD 0 = _
    rw [BitVec.getLsbD, before, Nat.testBit_div_two_pow]
    simp
  case sar =>
    refine ⟨value, ?_⟩
    have before : x.1.toInt = a.toInt / 2 ^ c := before
    change x.1.getLsbD 0 = decide (a.toInt / 2 ^ c % 2 = 1)
    rw [← before, BitVec.getLsbD, Nat.testBit_zero, decide_eq_decide, BitVec.toInt_eq_toNat_bmod]
    have even : (2 : Int) ∣ ((2 ^ n : Nat) : Int) := by
      push_cast
      exact dvd_pow_self 2 pos.ne'
    have := Int.dvd_self_sub_bmod (x := x.1.toNat) (m := 2 ^ n)
    have := even.trans this
    omega
  case rol =>
    refine ⟨value, ?_⟩
    change x.1.msb = (_ : BitVec n).getLsbD 0
    rw [shiftStep, getLsbD_stepLeft x.1 _ pos, if_pos rfl]
  case ror =>
    refine ⟨value, ?_⟩
    change x.1.getLsbD 0 = (_ : BitVec n).getLsbD (n - 1)
    rw [shiftStep, getLsbD_stepRight x.1 _ (by omega), if_pos rfl]

theorem shiftRule_shiftFlags (pos : 0 < n) (op : ShiftOp) (a : BitVec n) {c : Nat} (hc : c ≠ 0) (anyOf : Bool)
    (f : Flags) : let x := shiftSteps op c (a, f.cf)
    ShiftRule op a c f x.1 (shiftFlags op c x.1 x.2 anyOf f) := by
  obtain ⟨c, rfl⟩ := Nat.exists_eq_succ_of_ne_zero hc
  intro x
  have value : ShiftValue op a f.cf (c + 1) x.1 x.2 := shiftValue_shiftSteps pos op a f.cf c
  refine ⟨?_, ?_, ?_, ?_, ?_⟩
  · cases op <;> exact value
  · intro one
    rw [one]
    cases op <;> simp [shiftFlags, shiftOf, ShiftOf, ShiftOp.isRotate, szp, msb_eq_last]
  · cases op
    case shl => exact szpRule_szp _ _
    case shr => exact szpRule_szp _ _
    case sar => exact szpRule_szp _ _
    all_goals exact ⟨rfl, rfl, rfl⟩
  · cases op <;> rfl
  · cases op <;> rfl

/-! Double shifts. -/

/-- Bits shifted up and bits below them add up. -/
theorem or_shifted_eq_add {x y c : Nat} (hy : y < 2 ^ c) : (x * 2 ^ c) ||| y = x * 2 ^ c + y := by
  rw [← Nat.shiftLeft_eq]
  exact (Nat.shiftLeft_add_eq_or_of_lt hy x).symm

theorem mul_mod_two_pow {x c : Nat} (hc : c ≤ n) : x * 2 ^ c % 2 ^ n = x % 2 ^ (n - c) * 2 ^ c := by
  rw [← Nat.mul_mod_mul_right, ← pow_add, Nat.sub_add_cancel hc]

/-- A number below `2 ^ c` added to a multiple of it stays below the modulus. -/
theorem add_mod_two_pow {x y c : Nat} (hc : c ≤ n) (hy : y < 2 ^ c) :
    (x * 2 ^ c + y) % 2 ^ n = x * 2 ^ c % 2 ^ n + y := by
  have split : 2 ^ n = 2 ^ c * 2 ^ (n - c) := by rw [← pow_add, Nat.add_sub_cancel' hc]
  rw [split, mul_comm x, Nat.mod_mul, Nat.mul_mod_mul_left, Nat.mul_add_mod, Nat.mod_eq_of_lt hy,
    Nat.mul_add_div (by positivity), Nat.div_eq_of_lt hy]
  simp [add_comm]

theorem doubleShift_left_toNat (d src : BitVec n) {c : Nat} (hc : c ≤ n) :
    (doubleShift true d src c).toNat = (d.toNat * 2 ^ c + src.toNat / 2 ^ (n - c)) % 2 ^ n := by
  have small : src.toNat / 2 ^ (n - c) < 2 ^ c :=
    Nat.div_lt_of_lt_mul (by rw [← pow_add, Nat.sub_add_cancel hc]; exact src.isLt)
  rw [add_mod_two_pow hc small, mul_mod_two_pow hc, ← or_shifted_eq_add small, ← mul_mod_two_pow hc]
  simp [doubleShift, Nat.shiftLeft_eq, Nat.shiftRight_eq_div_pow]

theorem doubleShift_right_toNat (d src : BitVec n) {c : Nat} (hc : c ≤ n) :
    (doubleShift false d src c).toNat = (src.toNat * 2 ^ n + d.toNat) / 2 ^ c % 2 ^ n := by
  have small : d.toNat / 2 ^ c < 2 ^ (n - c) :=
    Nat.div_lt_of_lt_mul (by rw [← pow_add, Nat.add_sub_cancel' hc]; exact d.isLt)
  have whole : (src.toNat * 2 ^ n + d.toNat) / 2 ^ c = src.toNat * 2 ^ (n - c) + d.toNat / 2 ^ c := by
    have split : 2 ^ n = 2 ^ c * 2 ^ (n - c) := by rw [← pow_add, Nat.add_sub_cancel' hc]
    rw [split, Nat.mul_left_comm, Nat.mul_add_div (by positivity)]
  rw [whole, add_mod_two_pow (by omega) small, mul_mod_two_pow (by omega), ← or_shifted_eq_add small,
    ← mul_mod_two_pow (by omega), Nat.lor_comm]
  simp [doubleShift, Nat.shiftLeft_eq, Nat.shiftRight_eq_div_pow]

theorem doubleRule_doubleShift (left : Bool) (d src : BitVec n) {c : Nat} (hc : c ≤ n) (f : Flags) (o af : Bool) :
    DoubleRule left d src c f (doubleShift left d src c)
      (szp (doubleShift left d src c) { f with cf := doubleShiftCf left d c, of := o, af := af }) where
  value := by
    cases left
    · exact doubleShift_right_toNat d src hc
    · exact doubleShift_left_toNat d src hc
  cf := by cases left <;> rfl
  szp := szpRule_szp _ _
  rest := rfl

/-! How the actions run. -/

theorem shiftRm_run_zero (op : ShiftOp) (w : Width) (m : RM) (s : State) : shiftRm op w m 0 s = .ok () s := rfl

theorem shiftRm_run {op : ShiftOp} {w : Width} {m : RM} {c : Nat} {s s1 : State} {l : Loc} (hc : c ≠ 0)
    (located : locate w .write m s = .ok l s1) :
    ∃ r f k, ShiftRule op (s1.valueAt w l) c s1.flags r f ∧
      shiftRm op w m c s = .ok () { s1.storeAt w l r with flags := f, free := k } := by
  have start : shiftRm op w m c s = (do
      let anyOf ← if c = 1 then pure false else freeFlag
      let x := shiftSteps op c (s1.valueAt w l, s1.flags.cf)
      putFlags (shiftFlags op c x.1 x.2 anyOf s1.flags)
      writeLoc w l x.1 : M Unit) s1 := by
    unfold shiftRm
    rw [if_neg hc, bind_run_ok located]
    rfl
  rw [start]
  by_cases one : c = 1
  · refine ⟨_, _, s1.free, shiftRule_shiftFlags (width_bits_pos w) op _ hc false _, ?_⟩
    rw [if_pos one]
    cases l <;> rfl
  · refine ⟨_, _, s1.free + 1, shiftRule_shiftFlags (width_bits_pos w) op _ hc (Config.freeFlag s1.free) _, ?_⟩
    rw [if_neg one]
    cases l <;> rfl

/-- By 16 bits or more of a word the operand and the status flags are free (R385, R386, U46). -/
theorem doubleShiftRm_run_beyond {left : Bool} {w : Width} {m : RM} {q : Reg} {c : Nat} {s s1 : State} {l : Loc}
    (hc : c ≠ 0) (beyond : w.bits ≤ c) (located : locate w .write m s = .ok l s1) :
    ∃ r f k, OnlyStatus s1.flags f ∧
      doubleShiftRm left w m q c s = .ok () { s1.storeAt w l r with flags := f, free := k } := by
  let any := fun k => Config.freeFlag (s1.free + k)
  refine ⟨(Config.freeWord (s1.free + 2)).setWidth _,
    { s1.flags with of := any 0, af := any 1, sf := any 3, zf := any 4, pf := any 5, cf := any 6 }, s1.free + 7, rfl, ?_⟩
  unfold doubleShiftRm
  rw [if_neg hc, bind_run_ok located]
  simp only [if_pos beyond, bind_run, freeFlag_run, freeBits_run, getFlags_run, putFlags_run, writeLoc_run,
    storeAt_setFlags]
  cases l <;> rfl

theorem doubleShiftRm_run_within {left : Bool} {w : Width} {m : RM} {q : Reg} {c : Nat} {s s1 : State} {l : Loc}
    (hc : c ≠ 0) (within : c < w.bits) (located : locate w .write m s = .ok l s1) :
    ∃ r f k, DoubleRule left (s1.valueAt w l) (readReg w s1.regs q) c s1.flags r f ∧
      doubleShiftRm left w m q c s = .ok () { s1.storeAt w l r with flags := f, free := k } := by
  refine ⟨_, _, s1.free + 2, doubleRule_doubleShift left _ _ within.le _ (Config.freeFlag s1.free)
    (Config.freeFlag (s1.free + 1)), ?_⟩
  unfold doubleShiftRm
  rw [if_neg hc, bind_run_ok located]
  simp only [if_neg (not_le.mpr within), bind_run, freeFlag_run, readLoc_run, getReg_run, getFlags_run, putFlags_run,
    writeLoc_run, storeAt_setFlags]
  cases l <;> rfl

theorem doubleShiftRm_run {left : Bool} {w : Width} {m : RM} {q : Reg} {c : Nat} {s s1 : State} {l : Loc} (hc : c ≠ 0)
    (located : locate w .write m s = .ok l s1) :
    ∃ r f k, (c < w.bits → DoubleRule left (s1.valueAt w l) (readReg w s1.regs q) c s1.flags r f) ∧
      OnlyStatus s1.flags f ∧
      doubleShiftRm left w m q c s = .ok () { s1.storeAt w l r with flags := f, free := k } := by
  rcases lt_or_ge c w.bits with within | beyond
  · obtain ⟨r, f, k, rule, run⟩ := doubleShiftRm_run_within (left := left) (q := q) hc within located
    exact ⟨r, f, k, fun _ => rule, rule.rest, run⟩
  · obtain ⟨r, f, k, status, run⟩ := doubleShiftRm_run_beyond (left := left) (q := q) hc beyond located
    exact ⟨r, f, k, fun h => absurd h (not_lt.mpr beyond), status, run⟩

/-! The instructions. -/

theorem exec_shiftInstr (op : ShiftOp) (wide : Bool) (c : Count) (m : RM) (s : State) :
    exec (shiftInstr op wide c m) s = runInstr false (shiftRm op (widthOf s wide) m (c.value s)) s := by
  cases c with
  | cl =>
    have arm : exec (shiftInstr op wide .cl m) s = runInstr false (shiftRmCl op (widthOf s wide) m) s := by
      cases op <;> cases wide <;> rfl
    rw [arm]
    exact runInstr_congr rfl
  | one => cases op <;> cases wide <;> rfl
  | imm v => cases op <;> cases wide <;> rfl

theorem exec_doubleInstr (left : Bool) (m : RM) (q : Reg) (k : Option Byte) (s : State) :
    exec (doubleInstr left m q k) s = runInstr false
      (doubleShiftRm left s.osz.width m q ((k.getD (readReg .b8 s.regs .cl)).toNat % 32)) s := by
  cases k with
  | none =>
    have arm : exec (doubleInstr left m q none) s = runInstr false (doubleShiftRmCl left s.osz.width m q) s := by
      cases left <;> rfl
    rw [arm]
    exact runInstr_congr rfl
  | some v => cases left <;> rfl

/-- Settles O32: the iterated step meets the rule of each operation, and a double shift adds its two parts. -/
theorem shifts : Obligations.Shifts := by
  unfold Obligations.Shifts
  refine ⟨fun op wide c m s unlocked => ?single, fun left m q k s unlocked => ?double⟩
  case single =>
    rw [exec_shiftInstr]
    refine ⟨fun zero => ?_, fun nonzero l s1 located => ?_⟩
    · rw [zero]
      exact runInstr_ok_noLock unlocked (shiftRm_run_zero op _ m _)
    · obtain ⟨r, f, n, rule, run⟩ := shiftRm_run (op := op) nonzero located
      exact ⟨r, f, n, rule, runInstr_ok_noLock unlocked run⟩
  case double =>
    intro c w
    rw [exec_doubleInstr]
    refine ⟨fun zero => ?_, fun nonzero l s1 located => ?_⟩
    · have none : doubleShiftRm left w m q c s.begun = .ok () s.begun := by rw [zero]; rfl
      exact runInstr_ok_noLock unlocked none
    · obtain ⟨r, f, n, rule, status, run⟩ := doubleShiftRm_run (left := left) (q := q) nonzero located
      exact ⟨r, f, n, rule, status, runInstr_ok_noLock unlocked run⟩

end Sys2Proof.Machine
end

