-- ==== Sys2Proof/Proofs/DecimalAdjust.lean ====
section
/-! SUPPORT. The decimal adjustments (R313 to R318): byte arithmetic as numbers, and AL and AH as the two bytes of
AX, which do not meet. -/

namespace Sys2Proof.Machine

open Sys2Proof.Safety Sys2Proof.Claims

/-! AL and AH. -/

theorem setHighByte_setLowByte (x : Word32) (u v : Byte) :
    setHighByte (setLowByte x u) v = setLowByte (setHighByte x v) u := by
  apply BitVec.eq_of_getLsbD_eq
  intro i hi
  simp only [setHighByte, setLowByte, BitVec.getLsbD_append, BitVec.getLsbD_extractLsb']
  grind

theorem extract_high_setLowByte (x : Word32) (u : Byte) :
    (setLowByte x u).extractLsb' 8 8 = x.extractLsb' 8 8 := by
  apply BitVec.eq_of_getLsbD_eq
  intro i hi
  simp only [setLowByte, BitVec.getLsbD_append, BitVec.getLsbD_extractLsb']
  grind

/-- AL and AH are written in either order (R22). -/
theorem writeReg_al_ah (g : GRegs) (u v : Byte) :
    writeReg .b8 (writeReg .b8 g .al u) .ah v = writeReg .b8 (writeReg .b8 g .ah v) .al u :=
  congrArg (g.set .eax) (setHighByte_setLowByte g.eax u v)

theorem readReg_ah_writeReg_al (g : GRegs) (u : Byte) : readReg .b8 (writeReg .b8 g .al u) .ah = readReg .b8 g .ah :=
  extract_high_setLowByte g.eax u

/-- Writing back what a register holds changes nothing. -/
theorem writesReg_self (w : Width) (g : GRegs) (r : Reg) : WritesReg w r (readReg w g r) g g :=
  ⟨rfl, fun _ _ => rfl, rfl⟩

/-! Byte arithmetic as numbers. -/

theorem and_0x0F_eq (x : Byte) : x &&& 0x0F = BitVec.ofNat 8 (x.toNat % 16) := by
  apply BitVec.eq_of_toNat_eq
  have : x.toNat &&& 15 = x.toNat % 2 ^ 4 := Nat.and_two_pow_sub_one_eq_mod x.toNat 4
  rw [BitVec.toNat_and, BitVec.toNat_ofNat]
  change x.toNat &&& 15 = _
  omega

theorem add_and_0x0F (x d : Byte) : (x + d) &&& 0x0F = BitVec.ofNat 8 ((x.toNat + d.toNat) % 16) := by
  rw [and_0x0F_eq, BitVec.toNat_add]
  congr 1
  omega

theorem add_eq_ofNat (x d : Byte) : x + d = BitVec.ofNat 8 (x.toNat + d.toNat) := by
  apply BitVec.eq_of_toNat_eq
  simp

theorem adjustLow_iff (al : Byte) (f : Flags) : adjustLow al f = true ↔ al.toNat % 16 > 9 ∨ f.af = true := by
  simp [adjustLow]

/-! How the actions run. -/

theorem asciiAdjust_run (delta step : Byte) (s : State) :
    let al : Byte := readReg .b8 s.regs .al
    let ah : Byte := readReg .b8 s.regs .ah
    let c := adjustLow al s.flags
    ∃ f n, f.af = c ∧ f.cf = c ∧ OnlyStatus s.flags f ∧
      asciiAdjust delta step s = .ok () { s with
        regs := writeReg .b8 (writeReg .b8 s.regs .al ((if c then al + delta else al) &&& 0x0F)) .ah
          (if c then ah + step else ah)
        flags := f
        free := n } :=
  ⟨{ s.flags with af := _, cf := _, of := _, sf := _, zf := _, pf := _ }, _, rfl, rfl, rfl, rfl⟩

theorem putAlFlags_run (al : Byte) (s : State) :
    ∃ f n, SzpRule al f ∧ OnlyStatus s.flags f ∧ putAlFlags al s = .ok () { s with flags := f, free := n } := by
  let any := fun k => Config.freeFlag (s.free + k)
  exact ⟨szp al { s.flags with of := any 0, af := any 1, cf := any 2 }, s.free + 3, szpRule_szp al _, rfl, rfl⟩

theorem asciiBeforeDiv_run (base : Byte) (s : State) :
    let al : Byte := readReg .b8 s.regs .al + base * readReg .b8 s.regs .ah
    ∃ f n, SzpRule al f ∧ OnlyStatus s.flags f ∧
      asciiBeforeDiv base s = .ok () { s with
        regs := writeReg .b8 (writeReg .b8 s.regs .al al) .ah 0
        flags := f
        free := n } := by
  intro al
  obtain ⟨f, n, rule, status, run⟩ := putAlFlags_run al
    { s with regs := writeReg .b8 (writeReg .b8 s.regs .al al) .ah 0 }
  exact ⟨f, n, rule, status, run⟩

theorem asciiAfterMul_run {base : Byte} (nonzero : base ≠ 0) (s : State) :
    let t : Byte := readReg .b8 s.regs .al
    let al : Byte := BitVec.ofNat 8 (t.toNat % base.toNat)
    ∃ f n, SzpRule al f ∧ OnlyStatus s.flags f ∧
      asciiAfterMul base s = .ok () { s with
        regs := writeReg .b8 (writeReg .b8 s.regs .al al) .ah (BitVec.ofNat 8 (t.toNat / base.toNat))
        flags := f
        free := n } := by
  intro t al
  rw [writeReg_al_ah]
  obtain ⟨f, n, rule, status, run⟩ := putAlFlags_run al
    { s with regs := writeReg .b8 (writeReg .b8 s.regs .ah (BitVec.ofNat 8 (t.toNat / base.toNat))) .al al }
  refine ⟨f, n, rule, status, ?_⟩
  rw [← run]
  unfold asciiAfterMul
  rw [get_bind_run, require_bind_of (bne_iff_ne.mpr nonzero)]
  rfl

theorem decimalAdjust_run (low high : Byte) (s : State) :
    let al : Byte := readReg .b8 s.regs .al
    let c1 := adjustLow al s.flags
    let al1 := if c1 then al + low else al
    let c2 := decide (0x9F < al1.toNat) || s.flags.cf
    let al2 := if c2 then al1 + high else al1
    ∃ f n, f.af = c1 ∧ f.cf = c2 ∧ SzpRule al2 f ∧ OnlyStatus s.flags f ∧
      decimalAdjust low high s = .ok () { s with
        regs := writeReg .b8 s.regs .al al2
        flags := f
        free := n } := by
  intro al c1 al1 c2 al2
  exact ⟨szp al2 { s.flags with af := c1, cf := c2, of := Config.freeFlag s.free }, s.free + 1, rfl, rfl,
    szpRule_szp _ _, rfl, rfl⟩

/-! The instructions. -/

/-- What a decimal adjustment leaves: AL, AH, and flags that meet a rule (R313 to R318). -/
def Adjusts (s : State) (i : Instr) (l h : Nat) (rule : Flags → Prop) : Prop :=
  ∃ g g' f n, WritesReg .b8 .al (BitVec.ofNat 8 l) s.regs g ∧ WritesReg .b8 .ah (BitVec.ofNat 8 h) g g' ∧
    rule f ∧ OnlyStatus s.begun.flags f ∧
    exec i s = .next (finished s { s.begun with regs := g', flags := f, free := n })

theorem adjusts_of_run {s : State} {i : Instr} {m : M Unit} {l h : Nat} {rule : Flags → Prop} {x y : Byte}
    {f : Flags} {n : Nat} (unlocked : s.pfx.lock = false) (arm : exec i s = runInstr false m s)
    (hl : x = BitVec.ofNat 8 l) (hh : y = BitVec.ofNat 8 h) (flags : rule f) (status : OnlyStatus s.flags f)
    (run : m s.begun = .ok () { s.begun with
      regs := writeReg .b8 (writeReg .b8 s.regs .al x) .ah y, flags := f, free := n }) :
    Adjusts s i l h rule := by
  subst hl hh
  exact ⟨_, _, f, n, writesReg_writeReg .b8 s.regs .al _, writesReg_writeReg .b8 _ .ah _, flags, status,
    arm.trans (runInstr_ok_noLock unlocked run)⟩

theorem asciiAdjust_adjusts {s : State} {i : Instr} {delta step : Byte} {d k : Nat} (unlocked : s.pfx.lock = false)
    (arm : exec i s = runInstr false (asciiAdjust delta step) s) (hd : delta.toNat % 16 = d) (hk : step.toNat = k) :
    let al := (readReg .b8 s.regs .al).toNat
    let ah := (readReg .b8 s.regs .ah).toNat
    let low := al % 16 > 9 ∨ s.flags.af = true
    Adjusts s i (if low then (al + d) % 16 else al % 16) (if low then ah + k else ah)
      fun f => (f.af = true ↔ low) ∧ (f.cf = true ↔ low) := by
  intro al ah low
  subst hd hk
  obtain ⟨f, n, haf, hcf, status, run⟩ := asciiAdjust_run delta step s.begun
  have iff : adjustLow (readReg .b8 s.regs .al) s.flags = true ↔ low := adjustLow_iff _ _
  refine adjusts_of_run unlocked arm ?_ ?_ ⟨by rw [haf]; exact iff, by rw [hcf]; exact iff⟩ status run
  · simp only [begun_regs, begun_flags, iff]
    split
    · rw [Nat.add_mod_mod]
      exact add_and_0x0F _ _
    · exact and_0x0F_eq _
  · simp only [begun_regs, begun_flags, iff]
    split
    · exact add_eq_ofNat _ _
    · simp [ah]

theorem decimalAdjust_adjusts {s : State} {i : Instr} {low6 high6 : Byte} (unlocked : s.pfx.lock = false)
    (arm : exec i s = runInstr false (decimalAdjust low6 high6) s) :
    let al := (readReg .b8 s.regs .al).toNat
    let ah := (readReg .b8 s.regs .ah).toNat
    let low := al % 16 > 9 ∨ s.flags.af = true
    let al1 := if low then (al + low6.toNat) % 256 else al
    let al2 := if al1 > 0x9F ∨ s.flags.cf = true then (al1 + high6.toNat) % 256 else al1
    Adjusts s i al2 ah fun f => (f.af = true ↔ low) ∧ (f.cf = true ↔ al1 > 0x9F ∨ s.flags.cf = true) ∧
      SzpRule (BitVec.ofNat 8 al2) f := by
  intro al ah low al1 al2
  obtain ⟨f, n, haf, hcf, szp, status, run⟩ := decimalAdjust_run low6 high6 s.begun
  have iff : adjustLow (readReg .b8 s.regs .al) s.flags = true ↔ low := adjustLow_iff _ _
  simp only [begun_regs, begun_flags, iff] at haf hcf szp run
  have first : (if low then readReg .b8 s.regs .al + low6 else readReg .b8 s.regs .al : Byte).toNat = al1 := by
    rw [apply_ite BitVec.toNat, BitVec.toNat_add]
  generalize (if low then readReg .b8 s.regs .al + low6 else readReg .b8 s.regs .al : Byte) = b at first hcf szp run
  have carry : (decide (0x9F < b.toNat) || s.flags.cf) = true ↔ al1 > 0x9F ∨ s.flags.cf = true := by
    rw [first]
    simp
  simp only [carry] at hcf szp run
  have second : (if al1 > 0x9F ∨ s.flags.cf = true then b + high6 else b) = BitVec.ofNat 8 al2 := by
    apply BitVec.eq_of_toNat_eq
    have small := b.isLt
    rw [first] at small
    rw [apply_ite BitVec.toNat, BitVec.toNat_add, first, BitVec.toNat_ofNat]
    simp only [al2]
    split <;> omega
  rw [second] at szp run
  have kept : WritesReg .b8 .ah (BitVec.ofNat 8 ah) (writeReg .b8 s.regs .al (BitVec.ofNat 8 al2))
      (writeReg .b8 s.regs .al (BitVec.ofNat 8 al2)) := by
    have same : BitVec.ofNat 8 ah = readReg .b8 (writeReg .b8 s.regs .al (BitVec.ofNat 8 al2)) .ah := by
      rw [readReg_ah_writeReg_al]
      simp [ah]
    rw [same]
    exact writesReg_self .b8 _ .ah
  exact ⟨_, _, f, n, writesReg_writeReg .b8 s.regs .al _, kept,
    ⟨by rw [haf]; exact iff, by rw [hcf]; exact carry, szp⟩, status,
    arm.trans (runInstr_ok_noLock unlocked run)⟩

end Sys2Proof.Machine

namespace Sys2Proof.Settled

open Sys2Proof.Machine Sys2Proof.Safety Sys2Proof.Claims

/-- Settles O25: each adjustment runs to its bytes of AX and its flags; AAM with base 0 raises exception 0. -/
theorem decimalAdjust : Obligations.DecimalAdjust := by
  unfold Obligations.DecimalAdjust
  intro s unlocked al ah low both
  refine ⟨asciiAdjust_adjusts (delta := 6) (step := 1) unlocked rfl rfl rfl,
    asciiAdjust_adjusts (delta := -6) (step := -1) unlocked rfl rfl rfl, fun b => ?aad, fun b nonzero => ?aam,
    runInstr_exc_noLock unlocked rfl, decimalAdjust_adjusts (low6 := 6) (high6 := 0x60) unlocked rfl,
    decimalAdjust_adjusts (low6 := -6) (high6 := -0x60) unlocked rfl⟩
  case aad =>
    obtain ⟨f, n, szp, status, run⟩ := asciiBeforeDiv_run b s.begun
    have sum : readReg .b8 s.regs .al + b * readReg .b8 s.regs .ah = BitVec.ofNat 8 (al + b.toNat * ah) := by
      apply BitVec.eq_of_toNat_eq
      simp [al, ah]
    rw [begun_regs, sum] at szp run
    exact adjusts_of_run unlocked rfl rfl rfl szp status run
  case aam =>
    obtain ⟨f, n, szp, status, run⟩ := asciiAfterMul_run nonzero s.begun
    exact adjusts_of_run unlocked rfl rfl rfl szp status run

end Sys2Proof.Settled
end

