-- ==== Sys2Proof/Proofs/Addresses.lean ====
section
/-! SUPPORT. Effective addresses as sums of numbers (R182 to R185), the checks of segments (R111 to R114), and byte
order (R101, R102). -/

namespace Sys2Proof.Machine

open Sys2Proof.Safety Sys2Proof.Claims

/-! Effective addresses. -/

theorem toNat_ofInt_eq_emod (n : Nat) (x : Int) : ((BitVec.ofInt n x).toNat : Int) = x % 2 ^ n := by
  rw [BitVec.toNat_ofInt]
  push_cast
  exact Int.toNat_of_nonneg (Int.emod_nonneg _ (pow_ne_zero n two_ne_zero))

theorem disp16_toNat (d : Disp16) : ((disp16 d).toNat : Int) = dispNum16 d % 2 ^ 16 := by
  cases d with
  | none => rfl
  | d8 d => exact toNat_ofInt_eq_emod 16 d.toInt
  | d16 d => exact (Int.emod_eq_of_lt (by omega) (by exact_mod_cast d.isLt)).symm

theorem disp32_toNat (d : Disp32) : ((disp32 d).toNat : Int) = dispNum32 d % 2 ^ 32 := by
  cases d with
  | none => rfl
  | d8 d => exact toNat_ofInt_eq_emod 32 d.toInt
  | d32 d => exact (Int.emod_eq_of_lt (by omega) (by exact_mod_cast d.isLt)).symm

theorem reg16_toNat (g : GRegs) (r : Reg) : (reg16 g r).toNat = (g.get r).toNat % 2 ^ 16 := by
  simp [reg16, BitVec.extractLsb'_toNat]

theorem base16_toNat (g : GRegs) (b : Base16) : (base16 g b).toNat = baseSum g b % 2 ^ 16 := by
  cases b <;> simp only [base16, baseSum, BitVec.toNat_add, reg16_toNat, GRegs.get, Nat.add_mod, Nat.mod_mod]

theorem eaOffset_m16_toNat (g : GRegs) (b : Base16) (d : Disp16) :
    ((eaOffset g (.m16 b d)).toNat : Int) = (baseSum g b + dispNum16 d) % 2 ^ 16 := by
  have hb := base16_toNat g b
  have hd := disp16_toNat d
  simp only [eaOffset, BitVec.toNat_setWidth, BitVec.toNat_add]
  omega

theorem eaOffset_m32_toNat (g : GRegs) (b : Reg) (d : Disp32) :
    ((eaOffset g (.m32 b d)).toNat : Int) = ((g.get b).toNat + dispNum32 d) % 2 ^ 32 := by
  have hd := disp32_toNat d
  simp only [eaOffset, BitVec.toNat_add]
  omega

theorem optReg_toNat (g : GRegs) (r : Option Reg) : (optReg g r).toNat = regOrZero g r := by
  cases r <;> rfl

theorem eaOffset_sib_toNat (g : GRegs) (sc : BitVec 2) (i b : Option Reg) (d : Disp32) :
    ((eaOffset g (.sib sc i b d)).toNat : Int) =
      (regOrZero g b + regOrZero g i * 2 ^ sc.toNat + dispNum32 d) % 2 ^ 32 := by
  have hd := disp32_toNat d
  have scaled : ((regOrZero g i * 2 ^ sc.toNat : Nat) : Int) = regOrZero g i * 2 ^ sc.toNat := by push_cast; rfl
  simp only [eaOffset, BitVec.toNat_add, BitVec.toNat_shiftLeft, optReg_toNat, Nat.shiftLeft_eq]
  omega

/-- Settles O15: each form's offset is its sum modulo the address size, and its segment that of its base. -/
theorem effectiveAddresses : Obligations.EffectiveAddresses := by
  unfold Obligations.EffectiveAddresses
  intro g
  refine ⟨fun b d => ⟨eaOffset_m16_toNat g b d, ?_⟩, fun d => ⟨?_, rfl⟩, fun b d => ⟨eaOffset_m32_toNat g b d, ?_⟩,
    fun d => ⟨rfl, rfl⟩, fun sc i b d => ⟨eaOffset_sib_toNat g sc i b d, ?_⟩⟩
  · cases b <;> rfl
  · simp [eaOffset]
    omega
  · cases b <;> rfl
  · cases b with
    | none => rfl
    | some r => cases r <;> rfl

/-! Segments. -/

theorem linear_of_not_prot {s : State} (h : s.mode ≠ .prot) (kind : Access) (sr : SReg) (off : Word32) (n : Nat) :
    linear s kind sr off n = if off.toNat + n ≤ 0x10000 then .ok ((s.segs.get sr).base + off)
      else .error (if sr = .ss then exn12 else exn13) := by
  unfold linear segFault
  cases hm : s.mode
  · rfl
  · exact absurd hm h
  · rfl

/-- Settles O12: in modes R and V the one check is that of the last byte's offset. -/
theorem realOffsets : Obligations.RealOffsets := by
  unfold Obligations.RealOffsets
  intro s kind sr off n hm hn
  rw [linear_of_not_prot hm]
  refine ⟨fun inside => if_pos (by omega), fun outside => ⟨_, if_neg (by omega), ?_, ?_⟩⟩
  · split <;> rfl
  · split <;> rfl

theorem linear_of_prot {s : State} (h : s.mode = .prot) (kind : Access) (sr : SReg) (off : Word32) (n : Nat) :
    linear s kind sr off n =
      if !(s.segs.get sr).valid || !(s.segs.get sr).inLimit off n then
        .error (if sr = .ss then exnSS 0 else exnGP 0)
      else if kind = .write && !(s.segs.get sr).writable || kind = .read && !(s.segs.get sr).readable then
        .error (exnGP 0)
      else .ok ((s.segs.get sr).base + off) := by
  unfold linear segFault
  simp only [h]
  split
  · rfl
  · cases kind <;> simp

theorem inLimit_iff (g : SegReg) (off : Word32) {n : Nat} (hn : 0 < n) :
    g.inLimit off n = true ↔
      if g.type.getLsbD 2 = false ∧ g.type.getLsbD 1 = true then
        off.toNat > g.limit.toNat ∧ off.toNat + n - 1 ≤ (if g.db then 0xFFFFFFFF else 0xFFFF)
      else off.toNat ≤ g.limit.toNat ∧ off.toNat + n - 1 ≤ g.limit.toNat := by
  have down : g.expandDown = true ↔ g.type.getLsbD 2 = false ∧ g.type.getLsbD 1 = true := by
    simp [SegReg.expandDown, SegReg.isCode]
  unfold SegReg.inLimit SegReg.top
  simp only [down]
  split
  · simp only [Bool.and_eq_true, decide_eq_true_eq]
    split <;> omega
  · simp only [Bool.and_eq_true, decide_eq_true_eq]
    omega

/-- Settles O13: validity and limit first, then rights, then the base is added. -/
theorem protectedLimits : Obligations.ProtectedLimits := by
  unfold Obligations.ProtectedLimits
  intro s kind sr off n hm hn g code inLimit rights
  have limit : g.inLimit off n = true ↔ inLimit := inLimit_iff g off hn
  have right : ¬(kind = .write && !g.writable || kind = .read && !g.readable) = true ↔ rights := by
    simp only [SegReg.writable, SegReg.readable, SegReg.isCode, rights, code]
    cases kind <;> simp [imp_iff_not_or]
  have bad : (!g.valid || !g.inLimit off n) = true ↔ ¬(g.valid = true ∧ inLimit) := by
    rw [← limit]
    simp [imp_iff_not_or]
  rw [linear_of_prot hm]
  refine ⟨fun ⟨hv, hl, hr⟩ => ?_, fun h => if_pos (bad.mpr h), fun hv hl hr => ?_⟩
  · rw [if_neg (mt bad.mp (not_not_intro ⟨hv, hl⟩)), if_neg (right.mpr hr)]
    congr 1
  · rw [if_neg (mt bad.mp (not_not_intro ⟨hv, hl⟩)), if_pos (by_contra fun h => hr (right.mp h))]

/-! Byte order. -/

theorem leBytes_getElem {k : Nat} (n : Nat) (v : BitVec k) (i : Nat) (h : i < (leBytes n v).length) :
    (leBytes n v)[i] = byteOf i v := by
  simp [leBytes]

theorem byteOf_toNat {k : Nat} (i : Nat) (v : BitVec k) : (byteOf i v).toNat = v.toNat / 2 ^ (8 * i) % 2 ^ 8 := by
  simp [byteOf, BitVec.extractLsb'_toNat, Nat.shiftRight_eq_div_pow]

theorem readPhys_getElem {m : List Host.Cell} {ps : List Word32} {bs : List Byte} (h : readPhys m ps = bs) (i : Nat)
    (hi : i < ps.length) (hb : i < bs.length) : Memory.read m (ps[i]).toNat = bs[i] := by
  subst h
  simp [readPhys]

theorem readPhys_take {m : List Host.Cell} {ps : List Word32} (k : Nat) :
    readPhys m (ps.take k) = (readPhys m ps).take k := List.map_take

theorem readPhys_drop {m : List Host.Cell} {ps : List Word32} (k : Nat) :
    readPhys m (ps.drop k) = (readPhys m ps).drop k := List.map_drop

/-- Settles O14: the bytes stored at distinct addresses are those of the value, and any run of them is a part of it. -/
theorem littleEndian : Obligations.LittleEndian := by
  unfold Obligations.LittleEndian
  intro s w v ps hl hd t
  have stored : readPhys t.mem ps = leBytes w.bytes v :=
    readPhys_writePhys ps _ s.mem (by rw [hl, length_leBytes]) hd
  refine ⟨fun i hi => ?_, fun x hx => read_writePhys_other ps _ s.mem x hx, ?_, fun wide => ⟨?_, ?_⟩⟩
  · rw [readPhys_getElem stored i hi (by rw [length_leBytes]; omega), leBytes_getElem, byteOf_toNat]
  · change (valueOf .b8 (readPhys t.mem (ps.take 1))).toNat = _
    rw [readPhys_take, stored]
    have small := v.isLt
    cases w <;> simp [leBytes, valueOf, leNat, byteOf_toNat, Width.bytes, Width.bits, List.range_succ] at small ⊢
  · subst wide
    change (valueOf .w16 (readPhys t.mem (ps.take 2))).toNat = _
    rw [readPhys_take, stored]
    simp [leBytes, valueOf, leNat, byteOf_toNat, Width.bytes, Width.bits, List.range_succ]
    omega
  · subst wide
    change (valueOf .w16 (readPhys t.mem (ps.drop 2))).toNat = _
    rw [readPhys_drop, stored]
    have := v.isLt
    simp [leBytes, valueOf, leNat, byteOf_toNat, Width.bytes, Width.bits, List.range_succ] at this ⊢
    omega

end Sys2Proof.Machine
end

