-- ==== Sys2Proof/Proofs/Basics.lean ====
section
/-! SUPPORT. Sample encodings, the state after RESET, the image of EFLAGS, the prefixes, and the control of flags and
processor. -/

namespace Sys2Proof.Machine

open Sys2Proof.Safety Sys2Proof.Claims

/-- Settles O3: the decoder reads the nine words. -/
theorem sampleWords : Obligations.SampleWords := by
  unfold Obligations.SampleWords
  exact ⟨rfl, rfl, rfl, rfl, rfl, rfl, rfl, rfl, rfl⟩

/-- Settles O4: each register holds its value after RESET. -/
theorem resetState : Obligations.ResetState := by
  unfold Obligations.ResetState
  refine ⟨rfl, ⟨rfl, rfl, rfl⟩, fun r hr => ?segments, by decide, by decide, rfl, rfl, rfl, rfl, rfl, rfl, rfl, rfl, rfl⟩
  case segments =>
    have data : State.reset.segs.get r = SegReg.resetData := by
      cases r
      case cs => exact absurd rfl hr
      all_goals rfl
    rw [data]
    exact ⟨rfl, rfl, rfl⟩

theorem tlbWf_nil : TlbWf [] := ⟨fun _ => by simp, List.nodup_nil⟩

/-- Settles O5: after RESET memory and the TLB are empty, CR3 is 0, and nothing is left of an instruction. -/
theorem resetInvariant : Obligations.ResetInvariant := by
  unfold Obligations.ResetInvariant
  exact ⟨wf_reset, rfl, tlbWf_nil, rfl, rfl, rfl⟩

/-! The image of EFLAGS. -/

theorem getLsbD_shiftLeft_two (p : BitVec 2) (k : Nat) :
    (p.setWidth 32 <<< 12).getLsbD k = (decide (k = 12) && p.getLsbD 0 || decide (k = 13) && p.getLsbD 1) := by
  rw [BitVec.getLsbD_shiftLeft, BitVec.getLsbD_setWidth]
  rcases lt_or_ge k 14 with low | high
  · interval_cases k <;> simp
  · have beyond : p.getLsbD (k - 12) = false := BitVec.getLsbD_of_ge p _ (by omega)
    simp [beyond, show k ≠ 12 by omega, show k ≠ 13 by omega]

theorem image_getLsbD (f : Flags) (k : Nat) : f.image.getLsbD k = (match k with
    | 0 => f.cf
    | 1 => true
    | 2 => f.pf
    | 4 => f.af
    | 6 => f.zf
    | 7 => f.sf
    | 8 => f.tf
    | 9 => f.ifl
    | 10 => f.df
    | 11 => f.of
    | 12 => f.iopl.getLsbD 0
    | 13 => f.iopl.getLsbD 1
    | 14 => f.nt
    | 16 => f.rf
    | 17 => f.vm
    | _ => false) := by
  simp only [Flags.image, BitVec.getLsbD_or, getLsbD_bit, getLsbD_shiftLeft_two]
  rcases lt_or_ge k 18 with low | high
  · interval_cases k <;> simp
  · obtain ⟨j, rfl⟩ := Nat.exists_eq_add_of_le' high
    simp

theorem ofImage_image (f : Flags) : Flags.ofImage f.image = f := by
  have iopl : f.image.extractLsb' 12 2 = f.iopl := by
    apply BitVec.eq_of_getLsbD_eq
    intro i hi
    rw [BitVec.getLsbD_extractLsb', decide_eq_true hi, image_getLsbD]
    interval_cases i <;> rfl
  simp only [Flags.ofImage, iopl, image_getLsbD]

/-- Settles O16: one bit for each flag, so the image gives the flags back. -/
theorem flagImage : Obligations.FlagImage := by
  unfold Obligations.FlagImage
  exact fun f => ⟨fun k => (image_getLsbD f k).trans rfl, ofImage_image f⟩

/-! Prefixes. -/

/-- Settles O54: each of the eleven prefixes latches its field. -/
theorem prefixesLatch : Obligations.PrefixesLatch := by
  unfold Obligations.PrefixesLatch
  intro s i hi
  cases i
  case lock => rfl
  case repne => rfl
  case rep => rfl
  case segEs => rfl
  case segCs => rfl
  case segSs => rfl
  case segDs => rfl
  case segFs => rfl
  case segGs => rfl
  case opSize => rfl
  case addrSize => rfl
  all_goals cases hi

/-! WAIT and ESC. -/

@[simp] theorem begun_mp (s : State) : s.begun.mp = s.mp := rfl
@[simp] theorem begun_ts (s : State) : s.begun.ts = s.ts := rfl
@[simp] theorem begun_em (s : State) : s.begun.em = s.em := rfl

theorem waitCoprocessor_run (s : State) : waitCoprocessor s =
    if s.mp = true ∧ s.ts = true then .error (.exc exnNM) s
    else if s.lines.busy = false then .ok () s
    else if s.lines.error = true then .error (.exc exnMF) s
    else .error .waiting s := by
  unfold waitCoprocessor
  rw [get_bind_run]
  cases s.mp <;> cases s.ts <;> cases s.lines.busy <;> cases s.lines.error <;> rfl

theorem escape_run (s : State) : escape s =
    if s.em = true ∨ s.ts = true then .error (.exc exnNM) s
    else if s.lines.error = true then .error (.exc exnMF) s
    else .ok () s := by
  unfold escape
  rw [get_bind_run]
  cases s.em <;> cases s.ts <;> cases s.lines.error <;> rfl

/-- An instruction that waits is begun again (R529). -/
theorem runInstr_waiting {lockable : Bool} {m : M Unit} {s t : State} (lock : s.lockOk lockable)
    (hm : m s.begun = .error .waiting t) : runInstr lockable m s = .next (t.settled.setEip t.curEip) := by
  have hl : checkLock lockable s.begun = .ok () s.begun := checkLock_run_ok (s := s.begun) lock
  simp only [runInstr, bind_run, hl, hm, conclude]

/-- Settles O53: WAIT and ESC by the lines and the bits of CR0. -/
theorem coprocessor : Obligations.Coprocessor := by
  unfold Obligations.Coprocessor
  intro s unlocked
  have noLock : s.lockOk false := fun locked => by simp [unlocked] at locked
  have wait := waitCoprocessor_run s.begun
  have esc := escape_run s.begun
  simp only [begun_mp, begun_ts, begun_em, begun_lines] at wait esc
  refine ⟨fun absent => runInstr_exc noLock (wait.trans (if_pos absent)), fun usable => ?_,
    fun op ext m => ⟨fun absent => runInstr_exc noLock (esc.trans (if_pos absent)), fun em ts error => ?_,
      fun em ts error => ?_⟩⟩
  · replace wait := wait.trans (if_neg usable)
    refine ⟨fun idle => ?_, fun busy error => ?_, fun busy error => ?_⟩
    · exact runInstr_ok noLock (by simpa [idle] using wait)
    · exact runInstr_exc noLock (by simpa [busy, error] using wait)
    · exact runInstr_waiting (t := s.begun) noLock (by simpa [busy, error] using wait)
  · exact runInstr_exc noLock (by simpa [em, ts, error] using esc)
  · exact runInstr_ok noLock (by simpa [em, ts, error] using esc)

/-! The control of flags and processor. -/

theorem requireIopl_run {s : State} (prot : s.mode = .prot → s.cpl ≤ s.flags.iopl)
    (v86 : s.mode = .v86 → s.flags.iopl = 3) : requireIopl s = .ok () s := by
  unfold requireIopl
  rw [get_bind_run]
  apply require_of
  cases h : s.mode
  · rfl
  · simpa using prot h
  · simpa using v86 h

theorem setInterrupts_run {s : State} (allowed : requireIopl s = .ok () s) :
    setInterrupts s = .ok () { s with flags := { s.flags with ifl := true }, inhibit := s.inhibit || !s.flags.ifl } := by
  unfold setInterrupts
  rw [bind_run_ok allowed]
  cases h : s.flags.ifl
  · simp [bind_run, h, State.setFlags]
  · simp [bind_run, h, State.setFlags]

theorem level0_iff (s : State) : Level0 s ↔ s.level = 0 := by
  unfold Level0 State.level
  cases s.mode <;> simp

theorem requireLevel0_run {s : State} (level0 : Level0 s) : requireLevel0 s = .ok () s := by
  unfold requireLevel0
  rw [get_bind_run]
  exact require_of (by simpa using (level0_iff s).mp level0)

/-- Settles O52: each instruction changes its one flag, or nothing; CLI, STI and HLT where they may run. -/
theorem flagControl : Obligations.FlagControl := by
  unfold Obligations.FlagControl
  refine ⟨fun o a rest => ⟨rfl, rfl, rfl, rfl, rfl, rfl⟩, fun s unlocked => ?_⟩
  have change := fun f : Flags → Flags => runInstr_ok_noLock (lockable := false) (m := changeFlags f) unlocked rfl
  refine ⟨change _, change _, change _, change _, change _, runInstr_ok_noLock unlocked rfl, fun prot v86 => ?_,
    fun level0 => ?_⟩
  · have allowed : requireIopl s.begun = .ok () s.begun := requireIopl_run prot v86
    exact ⟨runInstr_ok_noLock unlocked (seq_ok allowed rfl), runInstr_ok_noLock unlocked (setInterrupts_run allowed)⟩
  · have allowed : requireLevel0 s.begun = .ok () s.begun := requireLevel0_run (s := s.begun) level0
    exact runInstr_ok_noLock unlocked (seq_ok allowed rfl)

end Sys2Proof.Machine
end

