-- ==== Sys2Proof/Proofs/Moves.lean ====
section
/-! SUPPORT. MOV, MOVSX, MOVZX, XCHG and SETcc (R250, R262 to R265, R415), the loads of segment registers (R111, R118,
R262, R278, R287), and what an access keeps besides (R120, R121). -/

namespace Sys2Proof.Machine

open Sys2Proof.Safety Sys2Proof.Claims

/-! What an access keeps. -/

theorem frame_pfx {s t : State} (h : AccessFrame s t) : t.pfx = s.pfx := by rw [h.same]
theorem frame_ioReads {s t : State} (h : AccessFrame s t) : t.ioReads = s.ioReads := by rw [h.same]
theorem frame_ioOut {s t : State} (h : AccessFrame s t) : t.ioOut = s.ioOut := by rw [h.same]
theorem frame_free {s t : State} (h : AccessFrame s t) : t.free = s.free := by rw [h.same]
theorem frame_sp {s t : State} (h : AccessFrame s t) : t.sp = s.sp := by rw [h.same]; rfl
theorem frame_regsWithSp {s t : State} (h : AccessFrame s t) (v : Word32) : t.regsWithSp v = s.regsWithSp v := by
  rw [h.same]; rfl

theorem memReads_frame {w : Width} {sr : SReg} {off : Word32} {v : BitVec w.bits} {s t : State}
    (h : MemReads w sr off v s t) : AccessFrame s t := by
  obtain ⟨ps, translated, -⟩ := h
  exact translate_frame translated

/-! Moves. -/

theorem movRegRm_run_ok {w : Width} {r : Reg} {m : RM} {s s1 : State} {l : Loc}
    (located : locate w .read m s = .ok l s1) :
    movRegRm w r m s = .ok () { s1 with regs := writeReg w s1.regs r (s1.valueAt w l) } :=
  seq_ok (readRM_run_ok located) rfl

theorem movExtend_run_ok {src dst : Width} {ext : BitVec src.bits → BitVec dst.bits} {r : Reg} {m : RM}
    {s s1 : State} {l : Loc} (located : locate src .read m s = .ok l s1) :
    movExtend src dst ext r m s = .ok () { s1 with regs := writeReg dst s1.regs r (ext (s1.valueAt src l)) } :=
  seq_ok (readRM_run_ok located) rfl

theorem xchgRegRm_run_ok {w : Width} {r : Reg} {m : RM} {s s1 : State} {l : Loc}
    (located : locate w .write m s = .ok l s1) :
    xchgRegRm w r m s = .ok () { s1.storeAt w l (readReg w s.regs r) with
      regs := writeReg w (s1.storeAt w l (readReg w s.regs r)).regs r (s1.valueAt w l) } := by
  rw [← frame_regs (locate_frame located)]
  unfold xchgRegRm
  rw [bind_run_ok located]
  rfl

theorem width_b8_le_osz (s : State) : Width.b8.bits ≤ s.osz.width.bits := by
  cases s.osz <;> decide

theorem width_w16_le_osz (s : State) : Width.w16.bits ≤ s.osz.width.bits := by
  cases s.osz <;> decide

/-- An instruction that sets one register of width `w`. -/
theorem runInstr_setsReg {lockable : Bool} {m : M Unit} {s t : State} {w : Width} {r : Reg} {v : BitVec w.bits}
    (unlocked : s.pfx.lock = false) (run : m s.begun = .ok () { t with regs := writeReg w t.regs r v }) :
    ∃ g, WritesReg w r v t.regs g ∧ runInstr lockable m s = .next (finished s { t with regs := g }) :=
  ⟨_, writesReg_writeReg w _ r v, runInstr_ok_noLock unlocked run⟩

theorem movExtend_signed {src : Width} {s s1 : State} {r : Reg} {m : RM} {l : Loc} (narrow : src.bits ≤ s.osz.width.bits)
    (unlocked : s.pfx.lock = false) (located : locate src .read m s.begun = .ok l s1) :
    ∃ g v, v.toInt = (s1.valueAt src l).toInt ∧ WritesReg s.osz.width r v s1.regs g ∧
      runInstr false (movExtend src s.osz.width (sext _) r m) s = .next (finished s { s1 with regs := g }) :=
  ⟨_, _, BitVec.toInt_signExtend_of_le narrow, writesReg_writeReg _ _ r _,
    runInstr_ok_noLock unlocked (movExtend_run_ok located)⟩

theorem movExtend_unsigned {src : Width} {s s1 : State} {r : Reg} {m : RM} {l : Loc}
    (narrow : src.bits ≤ s.osz.width.bits) (unlocked : s.pfx.lock = false)
    (located : locate src .read m s.begun = .ok l s1) :
    ∃ g v, v.toNat = (s1.valueAt src l).toNat ∧ WritesReg s.osz.width r v s1.regs g ∧
      runInstr false (movExtend src s.osz.width (zext _) r m) s = .next (finished s { s1 with regs := g }) :=
  ⟨_, _, BitVec.toNat_setWidth_of_le narrow, writesReg_writeReg _ _ r _,
    runInstr_ok_noLock unlocked (movExtend_run_ok located)⟩

/-- SETcc stores 1 or 0 by its condition (R415). -/
theorem setByte_run_ok {c : Cond} {d : RM} {s s1 : State} {l : Loc} (located : locate .b8 .write d s = .ok l s1) :
    setByte c d s = .ok () (s1.storeAt .b8 l (if s.flags.cond c then 1 else 0)) :=
  seq_ok (getFlags_run s) (writeRM_run_ok _ located)

theorem movAccMem_run_ok {w : Width} {off : Word32} {v : BitVec w.bits} {s t : State}
    (read : MemReads w (s.pfx.seg.getD .ds) off v s t) :
    movAccMem w off s = .ok () { t with regs := writeReg w t.regs .eax v } :=
  seq_ok (get_run s) (seq_ok (memReads_iff.mp read) rfl)

theorem movMemAcc_run_ok {w : Width} {off : Word32} {s t : State}
    (written : MemWrites w (s.pfx.seg.getD .ds) off (readReg w s.regs .eax) s t) : movMemAcc w off s = .ok () t :=
  seq_ok (get_run s) (memWrites_iff.mp written)

/-- Settles O17: each form reads its source, then stores it at its location or writes it to its register. -/
theorem moves : Obligations.Moves := by
  unfold Obligations.Moves
  refine ⟨fun s unlocked => ⟨fun r v => ?_, fun r v => ?_⟩,
    fun s s1 d l unlocked => ⟨fun located => ⟨fun v => ?_, fun r => ?_, fun c holds => ?_, fun c fails => ?_⟩,
      fun located => ⟨fun v => ?_, fun r => ?_⟩, fun located sr => ?_⟩,
    fun s s1 r m l unlocked => ⟨fun located => ⟨?_, ?_, ?_⟩, fun located => ?_, fun located => ⟨?_, ?_⟩⟩,
    fun s t off unlocked => ⟨fun v read => ?_, fun v read => ?_, fun written => ?_, fun written => ?_⟩,
    fun s s1 r => ⟨fun unlocked r' => ?_, fun m l lock located => ?_, fun m l lock located => ?_⟩⟩
  · exact ⟨_, writesReg_writeReg .b8 _ r v, runInstr_ok_noLock unlocked (putReg_run .b8 r v s.begun)⟩
  · exact ⟨_, writesReg_writeReg s.osz.width _ r (Sized.at _ v),
      runInstr_ok_noLock unlocked (putReg_run s.osz.width r (Sized.at _ v) s.begun)⟩
  · exact runInstr_ok_noLock unlocked (writeRM_run_ok (w := .b8) v located)
  · exact runInstr_ok_noLock unlocked (writeRM_run_ok (readReg .b8 s.regs r) located)
  · have run := setByte_run_ok (c := c) located
    rw [begun_flags, if_pos (condRule_iff.mp holds)] at run
    exact runInstr_ok_noLock unlocked run
  · have run := setByte_run_ok (c := c) located
    rw [begun_flags, if_neg (mt condRule_iff.mpr fails)] at run
    exact runInstr_ok_noLock unlocked run
  · exact runInstr_ok_noLock unlocked (writeRM_run_ok (Sized.at _ v) located)
  · exact runInstr_ok_noLock unlocked (writeRM_run_ok (readReg s.osz.width s.regs r) located)
  · exact runInstr_ok_noLock unlocked (writeRM_run_ok (w := .w16) (s.segs.get sr).sel located)
  · exact runInstr_setsReg unlocked (movRegRm_run_ok located)
  · exact movExtend_signed (width_b8_le_osz s) unlocked located
  · exact movExtend_unsigned (width_b8_le_osz s) unlocked located
  · exact runInstr_setsReg unlocked (movRegRm_run_ok located)
  · exact movExtend_signed (width_w16_le_osz s) unlocked located
  · exact movExtend_unsigned (width_w16_le_osz s) unlocked located
  · exact runInstr_setsReg unlocked (movAccMem_run_ok read)
  · exact runInstr_setsReg unlocked (movAccMem_run_ok read)
  · exact runInstr_ok_noLock unlocked (movMemAcc_run_ok written)
  · exact runInstr_ok_noLock unlocked (movMemAcc_run_ok written)
  · exact ⟨_, _, writesReg_writeReg _ _ r' _, writesReg_writeReg _ _ .eax _,
      runInstr_ok_noLock unlocked (xchgRegRm_run_ok (locate_reg_run s.osz.width .write r' s.begun))⟩
  · exact ⟨_, writesReg_writeReg _ _ r _, runInstr_ok lock (xchgRegRm_run_ok located)⟩
  · exact ⟨_, writesReg_writeReg _ _ r _, runInstr_ok lock (xchgRegRm_run_ok located)⟩

/-! Loads of segment registers. -/

/-- The first part at a memory operand (R287, R510). -/
theorem readEA_first {w : Width} {m : EA} {s u : State} {v : BitVec w.bits}
    (first : MemReads w (s.pfx.seg.getD (eaSeg m)) (eaOffset s.regs m) v s u) : readEA w m 0 s = .ok v u := by
  have here := memReads_iff.mp first
  rw [← BitVec.add_zero (eaOffset s.regs m)] at here
  exact seq_ok (get_run s) here

/-- The second part at a memory operand, read after the first (R287, R510). -/
theorem readEA_second {w : Width} {m : EA} {delta : Word32} {s u t : State} {v : BitVec w.bits}
    (frame : AccessFrame s u)
    (second : MemReads w (s.pfx.seg.getD (eaSeg m)) (eaOffset s.regs m + delta) v u t) :
    readEA w m delta u = .ok v t := by
  refine seq_ok (get_run u) ?_
  rw [State.segOr, frame_pfx frame, frame_regs frame]
  exact memReads_iff.mp second

/-- The parts of a far pointer are read one after the other (R102, R287). -/
theorem farPointer_run {m : EA} {s t : State} {off : BitVec s.osz.width.bits} {sel : Word16}
    (pointer : FarPointer m s off sel t) :
    ∃ u, readEA s.osz.width m 0 s = .ok off u ∧ readEA .w16 m (Width.off s.osz.width) u = .ok sel t := by
  obtain ⟨u, first, second⟩ := pointer
  exact ⟨u, readEA_first first, readEA_second (memReads_frame first) second⟩

/-- The shadow after a load of a segment register (R64). -/
theorem setInhibit_after_load (sr : SReg) (t : State) :
    (if sr = .ss then setInhibit else pure () : M Unit) t = .ok () { t with inhibit := t.inhibit || sr == .ss } := by
  by_cases h : sr = .ss
  · simp [h, setInhibit]
  · have : (sr == .ss) = false := beq_eq_false_iff_ne.mpr h
    simp [h, this]

theorem movSregRm_run {sr : SReg} {m : RM} {s s1 : State} {l : Loc} (code : sr ≠ .cs)
    (located : locate .w16 .read m s = .ok l s1) :
    movSregRm sr m s = (do
      loadSeg sr (s1.valueAt .w16 l)
      if sr = .ss then setInhibit : M Unit) s1 := by
  unfold movSregRm
  rw [if_neg code, bind_run_ok (readRM_run_ok located)]

/-- What a pop reads, and the register it moves, apart (R141). -/
theorem popped_parts {w : Width} {v : BitVec w.bits} {s t : State} (popped : Popped w v s t) :
    ∃ u, memRead w .ss s.sp s = .ok v u ∧ AccessFrame s u ∧
      t = { u with regs := s.regsWithSp (s.sp + Width.off w) } := by
  have run := popped_iff.mp popped
  unfold pop at run
  rw [get_bind_run] at run
  obtain ⟨v', u, read, rest⟩ := bind_run_eq_ok run
  have frame : AccessFrame s u := keeps_ok (keeps_memRead s _ _ _) (accessFrame_refl s) read
  cases rest
  have moved := frame_regsWithSp frame (s.sp + Width.off w)
  exact ⟨u, read, frame, congrArg (fun g => { u with regs := g }) moved⟩

theorem popSreg_run {sr : SReg} {s s1 : State} {v : BitVec s.osz.width.bits} (popped : Popped s.osz.width v s s1) :
    popSreg sr s = (do
      loadSeg sr (v.setWidth 16)
      modify fun t => { t with regs := s1.regs }
      if sr = .ss then setInhibit : M Unit) { s1 with regs := s.regs } := by
  obtain ⟨u, read, frame, rfl⟩ := popped_parts popped
  have same : { { u with regs := s.regsWithSp (s.sp + Width.off s.osz.width) } with regs := s.regs } = u := by
    rw [← frame_regs frame]
  rw [same]
  unfold popSreg
  rw [get_bind_run, bind_run_ok read]

theorem loadFar_run {sr : SReg} {r : Reg} {m : EA} {s s1 : State} {off : BitVec s.osz.width.bits} {sel : Word16}
    (pointer : FarPointer m s off sel s1) :
    loadFar sr r m s = (do
      loadSeg sr sel
      putReg s.osz.width r off : M Unit) s1 := by
  obtain ⟨u, first, second⟩ := farPointer_run pointer
  unfold loadFar
  rw [get_bind_run, bind_run_ok first, bind_run_ok second]

/-- The loads of a segment register with a pointer, and POP to one, by their register. -/
theorem exec_loadFar {s : State} {r : Reg} {m : EA} {sr : SReg} {i : Instr}
    (h : (sr, i) ∈ [(SReg.ds, Instr.lds r m), (.es, .les r m), (.fs, .lfs r m), (.gs, .lgs r m), (.ss, .lss r m)]) :
    exec i s = runInstr false (loadFar sr r m) s := by
  simp only [List.mem_cons, Prod.mk.injEq, List.not_mem_nil, or_false] at h
  rcases h with ⟨rfl, rfl⟩ | ⟨rfl, rfl⟩ | ⟨rfl, rfl⟩ | ⟨rfl, rfl⟩ | ⟨rfl, rfl⟩ <;> rfl

theorem exec_popSreg {s : State} {sr : SReg} {i : Instr}
    (h : (sr, i) ∈ [(SReg.ds, Instr.popDs), (.es, .popEs), (.ss, .popSs), (.fs, .popFs), (.gs, .popGs)]) :
    exec i s = runInstr false (popSreg sr) s := by
  simp only [List.mem_cons, Prod.mk.injEq, List.not_mem_nil, or_false] at h
  rcases h with ⟨rfl, rfl⟩ | ⟨rfl, rfl⟩ | ⟨rfl, rfl⟩ | ⟨rfl, rfl⟩ | ⟨rfl, rfl⟩ <;> rfl

/-- Settles O18: the selector is read, then loaded; SS sets the shadow, POP moves (E)SP after the load. -/
theorem segmentLoads : Obligations.SegmentLoads := by
  unfold Obligations.SegmentLoads
  refine fun s t unlocked => ⟨fun sr m l s1 code located loads => ?_, fun v s1 popped sr i form loads => ?_,
    fun m => runInstr_exc_noLock unlocked rfl, fun r m off sel s1 pointer sr i form loads => ?_⟩
  · have run := (movSregRm_run code located).trans (seq_ok (segLoads_iff.mp loads) (setInhibit_after_load sr t))
    exact runInstr_ok_noLock unlocked run
  · rw [exec_popSreg form]
    have run := (popSreg_run (sr := sr) popped).trans (seq_ok (segLoads_iff.mp loads)
      ((modify_bind_run _ _ t).trans (setInhibit_after_load sr _)))
    exact runInstr_ok_noLock unlocked run
  · rw [exec_loadFar form]
    exact runInstr_setsReg unlocked ((loadFar_run pointer).trans (seq_ok (segLoads_iff.mp loads) (putReg_run _ r off t)))

/-- Settles O19: the load fails after its selector is read, and nothing is kept. -/
theorem segmentLoadFaults : Obligations.SegmentLoadFaults := by
  unfold Obligations.SegmentLoadFaults
  refine fun s t e unlocked => ⟨fun sr m l s1 code located fails => ?_, fun v s1 popped sr i form fails => ?_,
    fun r m off sel s1 pointer sr i form fails => ?_⟩
  · exact runInstr_exc_noLock unlocked
      ((movSregRm_run code located).trans (bind_run_error (segLoadFails_run fails)))
  · rw [exec_popSreg form]
    exact runInstr_exc_noLock unlocked
      ((popSreg_run (sr := sr) popped).trans (bind_run_error (segLoadFails_run fails)))
  · rw [exec_loadFar form]
    exact runInstr_exc_noLock unlocked ((loadFar_run pointer).trans (bind_run_error (segLoadFails_run fails)))

end Sys2Proof.Machine
end

