-- ==== Sys2Proof/Proofs/Stack.lean ====
section
/-! SUPPORT. The stack (R140, R141, R270 to R284), addresses and conversions (R286, R293, R298 to R301), and the
ports (R150 to R152, R295, R296). -/

namespace Sys2Proof.Machine

open Sys2Proof.Safety Sys2Proof.Claims

/-! Pushes. -/

theorem requireIoplV86_run {s : State} (h : s.mode = .v86 → s.flags.iopl = 3) : requireIoplV86 s = .ok () s := by
  unfold requireIoplV86
  rw [get_bind_run]
  apply require_of
  cases mode : s.mode
  · rfl
  · rfl
  · simpa using h mode

theorem pushRm_run_ok {w : Width} {m : RM} {s s1 t : State} {l : Loc} (located : locate w .read m s = .ok l s1)
    (pushed : Pushed w (s1.valueAt w l) s1 t) : pushRm w m s = .ok () t :=
  seq_ok (readRM_run_ok located) (pushed_iff.mp pushed)

theorem pushSreg_run_ok {sr : SReg} {s t : State} (pushed : PushedSel s.osz (s.segs.get sr).sel s t) :
    pushSreg sr s = .ok () t :=
  seq_ok (get_run s) (pushedSel_iff.mp pushed)

theorem pushFlags_run_ok {s t : State} (allowed : s.mode = .v86 → s.flags.iopl = 3)
    (pushed : Pushed s.osz.width ((s.flags.image &&& 0x00FCFFFF).setWidth _) s t) : pushFlags s = .ok () t :=
  seq_ok (requireIoplV86_run allowed) (seq_ok (get_run s) (pushed_iff.mp pushed))

theorem exec_pushSreg {s : State} {sr : SReg} {i : Instr}
    (h : (sr, i) ∈ [(SReg.cs, Instr.pushCs), (.ds, .pushDs), (.es, .pushEs), (.ss, .pushSs), (.fs, .pushFs),
      (.gs, .pushGs)]) : exec i s = runInstr false (pushSreg sr) s := by
  simp only [List.mem_cons, Prod.mk.injEq, List.not_mem_nil, or_false] at h
  rcases h with ⟨rfl, rfl⟩ | ⟨rfl, rfl⟩ | ⟨rfl, rfl⟩ | ⟨rfl, rfl⟩ | ⟨rfl, rfl⟩ | ⟨rfl, rfl⟩ <;> rfl

/-- Settles O20: each form pushes the value its source has in the state in which it begins. -/
theorem pushes : Obligations.Pushes := by
  unfold Obligations.Pushes
  refine fun s t unlocked => ⟨fun r pushed => ?_, fun v pushed => ?_, fun v pushed => ?_,
    fun m l s1 located pushed => ?_, fun sr i form pushed => ?_, fun allowed pushed => ?_⟩
  · exact runInstr_ok_noLock unlocked (m := pushReg s.osz.width r) (seq_ok (getReg_run _ r _) (pushed_iff.mp pushed))
  · exact runInstr_ok_noLock unlocked (m := push s.osz.width (sext _ v)) (pushed_iff.mp pushed)
  · exact runInstr_ok_noLock unlocked (m := push s.osz.width (Sized.at _ v)) (pushed_iff.mp pushed)
  · exact runInstr_ok_noLock unlocked (pushRm_run_ok located pushed)
  · rw [exec_pushSreg form]
    exact runInstr_ok_noLock unlocked (pushSreg_run_ok (s := s.begun) pushed)
  · exact runInstr_ok_noLock unlocked (pushFlags_run_ok (s := s.begun) allowed pushed)

/-! Pops. -/

theorem popped_pfx {w : Width} {v : BitVec w.bits} {s t : State} (popped : Popped w v s t) : t.pfx = s.pfx := by
  obtain ⟨u, -, frame, rfl⟩ := popped_parts popped
  change u.pfx = s.pfx
  exact frame_pfx frame

theorem popMem_run_ok {w : Width} {m : EA} {v : BitVec w.bits} {s s1 s2 : State} (popped : Popped w v s s1)
    (written : MemWrites w (s.pfx.seg.getD (eaSeg m)) (eaOffset s1.regs m) v s1 s2) : popMem w m s = .ok () s2 := by
  rw [← popped_pfx popped] at written
  exact seq_ok (popped_iff.mp popped) (seq_ok (get_run s1) (memWrites_iff.mp written))

theorem popFlags_run_ok {s s1 : State} {v : BitVec s.osz.width.bits} (allowed : s.mode = .v86 → s.flags.iopl = 3)
    (popped : Popped s.osz.width v s s1) :
    popFlags s = .ok () (s1.setFlags (s.flags.popf s.level (v.setWidth 32))) :=
  seq_ok (requireIoplV86_run allowed) (seq_ok (get_run s) (seq_ok (popped_iff.mp popped) (putFlags_run _ s1)))

theorem ofImage_imageFlags (v : Word32) : ImageFlags v (Flags.ofImage v) := by
  constructor <;> rfl

theorem popf_imageFlags (level : BitVec 2) (old : Flags) (v : Word32) : ImageFlags v (old.popf level v) := by
  constructor <;> rfl

/-- Settles O21: the item is popped, then stored where the form says. -/
theorem pops : Obligations.Pops := by
  unfold Obligations.Pops
  intro s s1 v unlocked popped
  refine ⟨fun r => ?_, fun m s2 written => ?_, fun allowed => ?_⟩
  · exact runInstr_setsReg unlocked (m := popReg s.osz.width r)
      (seq_ok (popped_iff.mp popped) (putReg_run _ r v s1))
  · exact runInstr_ok_noLock unlocked (popMem_run_ok popped written)
  · refine ⟨s.flags.popf s.level (v.setWidth 32), popf_imageFlags _ _ _, rfl, ?_, rfl, rfl, ?_⟩
    · simp only [Flags.popf, BitVec.getLsbD_setWidth]
      rfl
    · exact runInstr_ok_noLock unlocked (popFlags_run_ok (s := s.begun) allowed popped)

/-! All registers. -/

theorem allOrNothing_ok {m : M Unit} {s t : State} (h : m s = .ok () t) : allOrNothing m s = .ok () t := by
  unfold allOrNothing
  rw [h]

theorem pushAllRegs_run_ok {s t : State}
    (fits : ¬(s.mode ≠ .prot ∧ (topOffset s).toNat % 2 = 1 ∧ (topOffset s).toNat ≤ 15))
    (pushed : PushedAll s.osz.width ([.eax, .ecx, .edx, .ebx, .esp, .ebp, .esi, .edi].map fun r =>
      readReg s.osz.width s.regs r) s t) : pushAllRegs s = .ok () t := by
  unfold pushAllRegs
  rw [get_bind_run, sp_eq_topOffset]
  have few : (s.mode != .prot && (topOffset s).toNat % 2 == 1 && decide ((topOffset s).toNat ≤ 5)) = false := by
    simp
    grind
  have some' : (s.mode != .prot && (topOffset s).toNat % 2 == 1 && decide ((topOffset s).toNat ≤ 15)) = false := by
    simp
    grind
  simp only [few, some', Bool.false_eq_true, if_false]
  exact allOrNothing_ok (pushedAll_run pushed)

theorem popReg_run {w : Width} {r : Reg} {s t : State} (popped : PoppedInto w r s t) : popReg w r s = .ok () t :=
  poppedInto_iff.mp popped

/-- Settles O22: PUSHA pushes the list of its registers, POPA pops one after the other. -/
theorem allRegisters : Obligations.AllRegisters := by
  unfold Obligations.AllRegisters
  intro s unlocked w v
  refine ⟨fun t1 t2 t3 t4 t5 t6 t7 t8 fits p1 p2 p3 p4 p5 p6 p7 p8 => ?_,
    fun t1 t2 t3 x t4 t5 t6 t7 t8 p1 p2 p3 p4 p5 p6 p7 p8 => ?_⟩
  · exact runInstr_ok_noLock unlocked (pushAllRegs_run_ok (s := s.begun) fits
      ⟨t1, p1, t2, p2, t3, p3, t4, p4, t5, p5, t6, p6, t7, p7, t8, p8, rfl⟩)
  · refine runInstr_ok_noLock unlocked (m := popAllRegs) ?_
    exact seq_ok (get_run _) (seq_ok (popReg_run p1) (seq_ok (popReg_run p2) (seq_ok (popReg_run p3)
      (seq_ok (popped_iff.mp p4) (seq_ok (popReg_run p5) (seq_ok (popReg_run p6) (seq_ok (popReg_run p7)
        (popReg_run p8))))))))

/-! Addresses and conversions. -/

/-- The offset XLAT reads at, by the address size (R293). -/
theorem wrap_add_byte (z : Size) (b : Word32) (a : Byte) : wrap z (b + a.setWidth 32) = (match z with
    | .s16 => BitVec.ofNat 32 ((b.toNat + a.toNat) % 2 ^ 16)
    | .s32 => BitVec.ofNat 32 (b.toNat + a.toNat)) := by
  have small := a.isLt
  cases z <;> apply BitVec.eq_of_toNat_eq <;>
    simp only [wrap, BitVec.toNat_setWidth, BitVec.extractLsb'_toNat, BitVec.toNat_add, BitVec.toNat_ofNat] <;> omega

theorem translateByte_run_ok {s t : State} {v : Byte}
    (read : MemReads .b8 (s.pfx.seg.getD .ds) (wrap s.asz (s.regs.ebx + (readReg .b8 s.regs .al).setWidth 32)) v s t) :
    translateByte s = .ok () { t with regs := writeReg .b8 t.regs .al v } :=
  seq_ok (get_run s) (seq_ok (memReads_iff.mp read) (putReg_run .b8 .al v t))

theorem low_getLsbD (f : Flags) (k : Nat) : f.low.getLsbD k = (match k with
    | 0 => f.cf
    | 1 => true
    | 2 => f.pf
    | 4 => f.af
    | 6 => f.zf
    | 7 => f.sf
    | _ => false) := by
  by_cases low : k < 8
  · have same : f.low.getLsbD k = f.image.getLsbD k := by simp [Flags.low, low]
    rw [same, image_getLsbD]
    interval_cases k <;> rfl
  · rw [BitVec.getLsbD_of_ge _ _ (by omega)]
    split <;> first | omega | rfl

/-- The sign word of CWD and CDQ (R301). -/
theorem signWord_toInt (w : Width) (a : BitVec w.bits) :
    (if a.msb then BitVec.allOnes w.bits else 0).toInt = if a.toInt < 0 then -1 else 0 := by
  have positive : 0 < w.bits := by cases w <;> decide
  rw [BitVec.msb_eq_toInt]
  by_cases negative : a.toInt < 0
  · simp only [negative, decide_true, if_true]
    cases w <;> rfl
  · simp [negative]

/-- Settles O23. -/
theorem addressAndConvert : Obligations.AddressAndConvert := by
  unfold Obligations.AddressAndConvert
  intro s unlocked
  refine ⟨fun r m => ?_, fun v t read => ?_, ?_, ?_, fun z => ?_, fun z => ?_, ?_⟩
  · exact runInstr_setsReg unlocked (m := loadOffset r m) (t := s.begun) rfl
  · refine runInstr_setsReg unlocked (translateByte_run_ok (s := s.begun) ?_)
    rw [wrap_add_byte]
    exact read
  · exact ⟨_, s.flags.low, low_getLsbD s.flags, writesReg_writeReg .b8 _ .ah _,
      runInstr_ok_noLock unlocked (putReg_run .b8 .ah s.flags.low s.begun)⟩
  · exact runInstr_ok_noLock unlocked (putFlags_run (s.begun.flags.sahf (readReg .b8 s.regs .ah)) s.begun)
  · refine ⟨_, _, BitVec.toInt_signExtend_of_le (by decide), writesReg_writeReg .w16 _ .eax _,
      runInstr_ok_noLock unlocked (m := convertAcc) ?_⟩
    unfold convertAcc
    rw [get_bind_run, begun_osz, z]
    rfl
  · refine ⟨_, _, BitVec.toInt_signExtend_of_le (by decide), writesReg_writeReg .d32 _ .eax _,
      runInstr_ok_noLock unlocked (m := convertAcc) ?_⟩
    unfold convertAcc
    rw [get_bind_run, begun_osz, z]
    rfl
  · exact ⟨_, _, signWord_toInt _ _, writesReg_writeReg s.osz.width _ .edx _,
      runInstr_ok_noLock unlocked (m := signAcc) rfl⟩

/-! Ports. -/

theorem keeps_ioBitsClear (s0 : State) (base : Word32) (limit map : Nat) : ∀ n port,
    Keeps (AccessFrame s0) (ioBitsClear base limit map port n)
  | 0, _ => keeps_pure _
  | n + 1, port => keeps_ite (keeps_pure _) (keeps_bind (keeps_sysRead s0 _ _) fun _ =>
      keeps_bind (keeps_ioBitsClear s0 base limit map n (port + 1)) fun _ => keeps_pure _)

theorem keeps_ioMapAllows (s0 : State) (port : Word16) (n : Nat) : Keeps (AccessFrame s0) (ioMapAllows port n) :=
  keeps_bind keeps_get fun _ => keeps_ite (keeps_pure _) (keeps_bind (keeps_sysRead16 s0 _) fun _ =>
    keeps_ioBitsClear s0 _ _ _ _ _)

theorem keeps_ioCheck (s0 : State) (port : Word16) (n : Nat) : Keeps (AccessFrame s0) (ioCheck port n) := by
  refine keeps_bind keeps_get fun s => ?_
  split
  · exact keeps_pure _
  · exact keeps_require _ _
  · exact keeps_bind (keeps_ioMapAllows s0 port n) fun _ => keeps_require _ _

theorem ioPermits_frame {port : Word16} {n : Nat} {s t : State} (permitted : IoPermits port n s t) :
    AccessFrame s t :=
  keeps_ok (keeps_ioCheck s port n) (accessFrame_refl s) (ioPermits_iff.mp permitted)

theorem inPort_run_ok {w : Width} {port : Word16} {s t : State} (permitted : IoPermits port w.bytes s t) :
    inPort w port s = .ok () { t with
      regs := writeReg w t.regs .eax ((Config.portIn s.ioReads port w.bytes).setWidth _)
      ioReads := s.ioReads + 1 } := by
  rw [← frame_ioReads (ioPermits_frame permitted)]
  exact seq_ok (seq_ok (ioPermits_iff.mp permitted) rfl) rfl

theorem outPort_run_ok {w : Width} {port : Word16} {s t : State} (permitted : IoPermits port w.bytes s t) :
    outPort w port s = .ok () { t with ioOut := ⟨port, w.bytes, (readReg w s.regs .eax).setWidth 32⟩ :: s.ioOut } := by
  rw [← frame_ioOut (ioPermits_frame permitted)]
  exact seq_ok (getReg_run w .eax s) (seq_ok (ioPermits_iff.mp permitted) rfl)

theorem exec_inPort {s : State} {wide : Bool} {port : Word16} {i : Instr}
    (h : (∃ p : Byte, port = p.setWidth 16 ∧ i = if wide then .inAxIb p else .inAlIb p) ∨
      port = readReg .w16 s.regs .edx ∧ i = (if wide then .inAxDx else .inAlDx)) :
    exec i s = runInstr false (inPort (widthOf s wide) port) s := by
  rcases h with ⟨p, rfl, rfl⟩ | ⟨rfl, rfl⟩ <;> cases wide <;> rfl

theorem exec_outPort {s : State} {wide : Bool} {port : Word16} {i : Instr}
    (h : (∃ p : Byte, port = p.setWidth 16 ∧ i = if wide then .outIbAx p else .outIbAl p) ∨
      port = readReg .w16 s.regs .edx ∧ i = (if wide then .outDxAx else .outDxAl)) :
    exec i s = runInstr false (outPort (widthOf s wide) port) s := by
  rcases h with ⟨p, rfl, rfl⟩ | ⟨rfl, rfl⟩ <;> cases wide <;> rfl

/-- Settles O24: the check passes without a change but the marks of its reads, then the port is accessed. -/
theorem portAccess : Obligations.PortAccess := by
  unfold Obligations.PortAccess
  refine fun s t wide port i unlocked permitted => ⟨fun form => ?_, fun form => ?_⟩
  · rw [exec_inPort form]
    exact ⟨_, writesReg_writeReg _ _ .eax _, runInstr_ok_noLock unlocked (inPort_run_ok (s := s.begun) permitted)⟩
  · rw [exec_outPort form]
    exact runInstr_ok_noLock unlocked (outPort_run_ok (s := s.begun) permitted)

end Sys2Proof.Machine
end

