-- ==== Sys2Proof/Proofs/Boundaries.lean ====
section
/-! SUPPORT. The instruction boundary and the fetch of an instruction (R122, R195, R559, R561), and the causes of a
debug trap (R52, R53). -/

namespace Sys2Proof.Machine

open Sys2Proof.Safety Sys2Proof.Claims

/-! The order of a boundary. -/

theorem step_done {s t : State} (h : boundary s = .done t) : step s = .next t := by
  unfold step
  rw [h]

theorem intrVector_eq_none {s : State} (h : s.flags.ifl = false ∨ s.lines.intr = []) : intrVector s = none := by
  unfold intrVector
  rcases h with h | h <;> simp [h]

/-- A boundary at which no event is taken (R559). -/
theorem boundary_noEvent {s : State} (reset : s.lines.reset = false) (shutdown : s.shutdown = false)
    (events : s.inhibit = true ∨
      s.dbg.any = false ∧ (s.nmiPending = false ∨ s.nmiMask = true) ∧ (s.flags.ifl = false ∨ s.lines.intr = [])) :
    boundary s = if s.halted then .done (atBoundary s) else fetchDecode (atBoundary s) := by
  have trap : (s.dbg.any && !s.inhibit) = false := by
    rcases events with h | ⟨h, -, -⟩ <;> simp [h]
  have nmi : (!s.inhibit && s.nmiPending && !s.nmiMask) = false := by
    rcases events with h | ⟨-, h | h, -⟩ <;> simp [h]
  have intr : (if s.inhibit = true then none else intrVector (atBoundary s)) = none := by
    rcases events with h | ⟨-, -, h⟩
    · simp [h]
    · have := intrVector_eq_none (s := atBoundary s) h
      simp [this]
  unfold boundary
  simp only [reset, shutdown, trap, nmi, intr, Bool.false_eq_true, if_false]

theorem boundary_fetches {s : State} (h : NoEvent s) : boundary s = fetchDecode (atBoundary s) := by
  rw [boundary_noEvent h.reset h.shutdown h.events, h.halted]
  rfl

theorem boundary_trap {s : State} (reset : s.lines.reset = false) (shutdown : s.shutdown = false)
    (trap : (s.dbg.any && !s.inhibit) = true) :
    boundary s = .done (deliver (debugTrap s.dbg) { atBoundary s with dbg := DebugCauses.none }) := by
  unfold boundary
  rw [if_neg (by simp [reset]), if_neg (by simp [shutdown]), if_pos trap]

theorem boundary_nmi {s : State} (reset : s.lines.reset = false) (shutdown : s.shutdown = false)
    (quiet : s.dbg.any = false) (nmi : (!s.inhibit && s.nmiPending && !s.nmiMask) = true) :
    boundary s = .done (deliver (external 2) (acceptNmi (atBoundary s))) := by
  unfold boundary
  rw [if_neg (by simp [reset]), if_neg (by simp [shutdown]), if_neg (by simp [quiet])]
  exact if_pos nmi

theorem boundary_intr {s : State} {v : Byte} (reset : s.lines.reset = false) (shutdown : s.shutdown = false)
    (quiet : s.dbg.any = false) (nmi : ¬(!s.inhibit && s.nmiPending && !s.nmiMask) = true)
    (intr : (if s.inhibit then none else intrVector (atBoundary s)) = some v) :
    boundary s = .done (deliver (external v) (acceptIntr (atBoundary s))) := by
  unfold boundary
  rw [if_neg (by simp [reset]), if_neg (by simp [shutdown]), if_neg (by simp [quiet])]
  refine (if_neg nmi).trans ?_
  rw [intr]

/-- Settles O9: the tests of the boundary, each under what the ones before it leave. -/
theorem boundaryOrder : Obligations.BoundaryOrder := by
  unfold Obligations.BoundaryOrder
  intro s
  refine ⟨fun reset => ?_, fun reset shutdown => ?_, fun reset shutdown shadow => ⟨fun halted => ?_, fun running => ?_⟩,
    fun reset shutdown open' trap => ?_,
    fun reset shutdown open' quiet => ⟨fun ⟨pending, unmasked⟩ => ?_, fun noNmi v vs enabled offered => ?_,
      fun noNmi noIntr halted => ?_⟩⟩
  · apply step_done
    unfold boundary
    rw [if_pos reset]
  · apply step_done
    unfold boundary
    rw [if_neg (by simp [reset]), if_pos shutdown]
  · exact step_done ((boundary_noEvent reset shutdown (.inl shadow)).trans (if_pos halted))
  · exact (boundary_noEvent reset shutdown (.inl shadow)).trans (if_neg (by simp [running]))
  · exact step_done (boundary_trap reset shutdown (by simp [trap, open']))
  · exact step_done (boundary_nmi reset shutdown quiet (by simp [pending, unmasked, open']))
  · have intr : (if s.inhibit then none else intrVector (atBoundary s)) = some v := by
      simp [open', intrVector, atBoundary, enabled, offered]
    have nmi : ¬(!s.inhibit && s.nmiPending && !s.nmiMask) = true := by
      simpa [open'] using noNmi
    have taken : s.lines.intr.tail = vs := by rw [offered, List.tail_cons]
    rw [step_done (boundary_intr reset shutdown quiet nmi intr), ← taken]
    rfl
  · have nmi : s.nmiPending = false ∨ s.nmiMask = true := by
      cases h : s.nmiPending <;> cases h' : s.nmiMask <;> simp_all
    exact step_done ((boundary_noEvent reset shutdown (.inr ⟨quiet, nmi, noIntr⟩)).trans (if_pos halted))

/-! Instruction breakpoints. -/

theorem execMatch_iff {s : State} {n : Nat} (h : n < 4) :
    s.dr.execMatch n (s.segs.cs.base + s.eip) = true ↔ BreaksHere s n := by
  have addr : [s.dr.dr0, s.dr.dr1, s.dr.dr2, s.dr.dr3][n]? = some (s.dr.addr n) := by
    interval_cases n <;> rfl
  simp only [BreaksHere, DebugRegs.execMatch, DebugRegs.enabled, DebugRegs.rw, addr, Bool.and_eq_true,
    Bool.or_eq_true, beq_iff_eq, Option.some.injEq, and_assoc]

theorem execBreaks_getLsbD (s : State) (k : Nat) : (execBreaks s).getLsbD k = true ↔ k < 4 ∧ BreaksHere s k := by
  have matched (n : Nat) (h : n < 4) := execMatch_iff (s := s) h
  rcases lt_or_ge k 4 with low | high
  · rw [← matched k low]
    simp only [execBreaks, BitVec.getLsbD_or, getLsbD_bit]
    interval_cases k <;> simp
  · have none' : (execBreaks s).getLsbD k = false := by
      simp only [execBreaks, BitVec.getLsbD_or, getLsbD_bit]
      have h0 : ¬0 = k := by omega
      have h1 : ¬1 = k := by omega
      have h2 : ¬2 = k := by omega
      have h3 : ¬3 = k := by omega
      simp [h0, h1, h2, h3]
    rw [none']
    simp
    omega

theorem execBreaks_quiet {s : State} (h : Quiet s) :
    (!(atBoundary s).flags.rf && execBreaks (atBoundary s) != 0) = false := by
  rcases h.breaks with rf | none'
  · have : (atBoundary s).flags.rf = true := rf
    simp [this]
  · have zero : execBreaks (atBoundary s) = 0 := by
      apply BitVec.eq_of_getLsbD_eq
      intro i _
      refine (Bool.eq_false_iff.mpr fun set => ?_).trans BitVec.getLsbD_zero.symm
      obtain ⟨low, breaks⟩ := (execBreaks_getLsbD _ _).mp set
      exact none' i low breaks
    simp [zero]

/-! Fetch and decode. -/

theorem boundary_quiet {s : State} (h : Quiet s) :
    boundary s =
      let b := atBoundary s
      let w := fetchBytes b maxLength 0
      match decode b.defaultSize w.1 with
      | .invalid n => .done (fetchFault exnUD n b)
      | .more => .done (fetchFault (w.2.getD (exnGP 0)) w.1.length b)
      | .ok pre i n =>
        match touchCode n b with
        | .ok _ s' => .run pre i (s'.stepOver n)
        | .error (.exc e) s' => .done (deliver e s')
        | .error _ s' => .done s' := by
  rw [boundary_fetches h.toNoEvent]
  unfold fetchDecode
  rw [execBreaks_quiet h]
  rfl

theorem fetchFault_ok {e : Exn} {n : Nat} {s t : State} (touched : touchCode n s = .ok () t) :
    fetchFault e n s = deliver e t := by
  unfold fetchFault
  rw [touched]

/-- All the bytes of a window can be fetched (R122). -/
theorem fetchBytes_all (s : State) : ∀ n k, (∀ j < n, ∃ a, fetchAddr s (k + j) = .ok a) →
    (fetchBytes s n k).1.length = n ∧ (fetchBytes s n k).2 = none
  | 0, _, _ => ⟨rfl, rfl⟩
  | n + 1, k, fetched => by
    obtain ⟨p, here⟩ := fetched 0 (by omega)
    have rest := fetchBytes_all s n (k + 1) fun j hj => by
      have := fetched (j + 1) (by omega)
      rwa [show k + (j + 1) = k + 1 + j by omega] at this
    rw [Nat.add_zero] at here
    unfold fetchBytes
    simp only [here, List.length_cons, rest, and_self]

/-- The bytes before the first that cannot be fetched (R122). -/
theorem fetchBytes_until (s : State) (e : Exn) : ∀ n k i, i < n → (∀ j < i, ∃ a, fetchAddr s (k + j) = .ok a) →
    fetchAddr s (k + i) = .error e → (fetchBytes s n k).1.length = i ∧ (fetchBytes s n k).2 = some e
  | n + 1, k, 0, _, _, failed => by
    rw [Nat.add_zero] at failed
    unfold fetchBytes
    simp only [failed, List.length_nil, and_self]
  | n + 1, k, i + 1, small, fetched, failed => by
    obtain ⟨p, here⟩ := fetched 0 (by omega)
    have rest := fetchBytes_until s e n (k + 1) i (by omega)
      (fun j hj => by
        have := fetched (j + 1) (by omega)
        rwa [show k + (j + 1) = k + 1 + j by omega] at this)
      (by rwa [show k + (i + 1) = k + 1 + i by omega] at failed)
    rw [Nat.add_zero] at here
    unfold fetchBytes
    simp only [here, List.length_cons, rest, and_self]

theorem parser_bind_ok {α β : Type} {x : Parser α} {f : α → Parser β} {bs rest : List Byte} {v : β}
    (h : (x >>= f) bs = .ok v rest) : ∃ u mid, x bs = .ok u mid ∧ f u mid = .ok v rest := by
  simp only [bind, EStateM.bind] at h
  split at h
  · next u mid read => exact ⟨u, mid, read, h⟩
  · cases h

/-- The last item read is an instruction proper, and only prefixes stand before it (R195). -/
theorem decodeItems_prefixes {dflt : Size} {fuel : Nat} : ∀ {o a : Size} {bs rest : List Byte} {pre : List Instr}
    {i : Instr}, decodeItems dflt fuel o a bs = .ok (pre, i) rest →
      i.isPrefix = false ∧ ∀ p ∈ pre, p.isPrefix = true := by
  induction fuel with
  | zero =>
    intro o a bs rest pre i read
    cases read
  | succ fuel ih =>
    intro o a bs rest pre i read
    unfold decodeItems at read
    obtain ⟨j, left, -, read⟩ := parser_bind_ok read
    by_cases isPre : j.isPrefix = true
    · rw [if_pos isPre] at read
      obtain ⟨r, left', more, last⟩ := parser_bind_ok read
      cases last
      obtain ⟨last, pres⟩ := ih more
      refine ⟨last, fun p hp => ?_⟩
      rcases List.mem_cons.mp hp with rfl | hp
      · exact isPre
      · exact pres p hp
    · rw [if_neg isPre] at read
      cases read
      exact ⟨Bool.eq_false_iff.mpr isPre, by simp⟩

theorem decode_ok {dflt : Size} {bs : List Byte} {pre : List Instr} {i : Instr} {n : Nat}
    (read : decode dflt bs = .ok pre i n) :
    ∃ rest, decodeItems dflt maxLength dflt dflt (bs.take maxLength) = .ok (pre, i) rest ∧
      n = (bs.take maxLength).length - rest.length := by
  unfold decode at read
  split at read
  · next items =>
    cases read
    exact ⟨_, items, rfl⟩
  · cases read
  · cases read

theorem runItems_latches (i : Instr) : ∀ (pre : List Instr) (s : State), (∀ p ∈ pre, p.isPrefix = true) →
    runItems pre i s = exec i { s with pfx := pre.foldl (fun p j => latched j p) s.pfx }
  | [], _, _ => rfl
  | p :: pre, s, all => by
    have latch := prefixesLatch
    unfold Obligations.PrefixesLatch at latch
    unfold runItems
    rw [latch s p (all p (by simp))]
    exact runItems_latches i pre _ fun q hq => all q (by simp [hq])

theorem boundary_runs {s s1 : State} {pre : List Instr} {i : Instr} {n : Nat} (h : Quiet s)
    (read : decode s.defaultSize (fetchBytes (atBoundary s) maxLength 0).1 = .ok pre i n)
    (touched : touchCode n (atBoundary s) = .ok () s1) : boundary s = .run pre i (s1.stepOver n) := by
  rw [boundary_quiet h]
  change decode (atBoundary s).defaultSize _ = _ at read
  simp only [read, touched]

/-- Settles O7: the boundary ends in the instruction, whose prefixes only latch. -/
theorem stepRunsInstruction : Obligations.StepRunsInstruction := by
  unfold Obligations.StepRunsInstruction
  intro s s1 pre i n quiet read touched
  obtain ⟨rest, items, -⟩ := decode_ok read
  obtain ⟨last, pres⟩ := decodeItems_prefixes items
  refine ⟨last, ?_⟩
  unfold step
  rw [boundary_runs quiet read touched]
  exact runItems_latches i pre _ pres

/-! Bytes that cannot be fetched. -/

theorem segFault_cs (s : State) : segFault s.mode .cs = if s.mode = .prot then exnGP 0 else exn13 := by
  unfold segFault
  cases s.mode <;> rfl

theorem fetchAddr_past {s : State} {k : Nat} (h : s.eipPast = true ∨ 2 ^ 32 ≤ s.eip.toNat + k) :
    fetchAddr s k = .error (segFault s.mode .cs) := by
  unfold fetchAddr
  rw [if_pos (by rwa [Bool.or_eq_true, decide_eq_true_eq])]

theorem fetchAddr_within {s : State} {k : Nat} (h : ¬(s.eipPast = true ∨ 2 ^ 32 ≤ s.eip.toNat + k)) :
    fetchAddr s k = match linear s .exec .cs (s.eip + BitVec.ofNat 32 k) 1 with
      | .error e => .error e
      | .ok lin =>
        match pageLookup s .exec s.user lin with
        | .error e => .error e
        | .ok h => .ok h.phys := by
  unfold fetchAddr
  exact if_neg (by rwa [Bool.or_eq_true, decide_eq_true_eq])

/-- A byte beyond the limit of the code segment, or beyond 0xFFFF in modes R and V (R112, R113, R122). -/
theorem linear_code_beyond {s : State} {off : Word32}
    (h : (s.mode ≠ .prot ∧ 0xFFFF < off.toNat) ∨
      (s.mode = .prot ∧ s.segs.cs.type.getLsbD 2 = true ∧ s.segs.cs.limit.toNat < off.toNat)) :
    linear s .exec .cs off 1 = .error (segFault s.mode .cs) := by
  rcases h with ⟨mode, beyond⟩ | ⟨mode, code, beyond⟩
  · have out : ¬off.toNat + 1 ≤ 0x10000 := by omega
    cases h : s.mode
    · simp [linear, h, out]
    · exact absurd h mode
    · simp [linear, h, out]
  · have out : s.segs.cs.inLimit off 1 = false := by
      simp only [SegReg.inLimit, SegReg.expandDown, SegReg.isCode, code, Bool.not_true, Bool.false_and,
        Bool.false_eq_true, if_false, Bool.and_eq_false_iff, decide_eq_false_iff_not]
      omega
    have get : s.segs.get .cs = s.segs.cs := rfl
    simp [linear, mode, get, out]

theorem fetchAddr_beyond {s : State} {k : Nat}
    (h : s.eipPast = true ∨ 2 ^ 32 ≤ s.eip.toNat + k ∨ (s.mode ≠ .prot ∧ 0xFFFF < s.eip.toNat + k) ∨
      (s.mode = .prot ∧ s.segs.cs.type.getLsbD 2 = true ∧ s.segs.cs.limit.toNat < s.eip.toNat + k)) :
    fetchAddr s k = .error (segFault s.mode .cs) := by
  by_cases past : s.eipPast = true ∨ 2 ^ 32 ≤ s.eip.toNat + k
  · exact fetchAddr_past past
  · have small : s.eip.toNat + k < 2 ^ 32 := by
      by_contra big
      exact past (.inr (by omega))
    have off : (s.eip + BitVec.ofNat 32 k).toNat = s.eip.toNat + k := by
      rw [BitVec.toNat_add, BitVec.toNat_ofNat]
      omega
    rw [fetchAddr_within past, linear_code_beyond]
    rw [off]
    rcases h with h | h | h | h
    · exact absurd (.inl h) past
    · exact absurd (.inr h) past
    · exact .inl h
    · exact .inr h

/-- Settles O8: a breakpoint, the three ways in which the window gives no instruction, and why a byte fails. -/
theorem stepFaults : Obligations.StepFaults := by
  unfold Obligations.StepFaults
  intro s b read x13
  have size : b.defaultSize = s.defaultSize := rfl
  refine ⟨fun free rf m bits some' => ?_, fun quiet n s1 invalid touched => ?_, fun quiet more fetched s1 touched => ?_,
    fun quiet more k e small failed fetched s1 touched => ?_, fun k beyond => ?_,
    fun k lin e past small inside fault => ?_⟩
  · have same : execBreaks b = m := BitVec.eq_of_getLsbD_eq fun i _ => by
      rw [Bool.eq_iff_iff, bits]
      exact execBreaks_getLsbD b i
    have hit : (!b.flags.rf && execBreaks b != 0) = true := by
      have : b.flags.rf = false := rf
      simpa [this, same] using some'
    apply step_done
    rw [boundary_fetches free]
    unfold fetchDecode
    rw [if_pos hit, same]
  · apply step_done
    rw [boundary_quiet quiet]
    simp only [size, b, invalid, read, fetchFault_ok touched]
  · obtain ⟨length, none'⟩ := fetchBytes_all b maxLength 0 fun j hj => by simpa using fetched j hj
    apply step_done
    rw [boundary_quiet quiet]
    simp only [read] at more
    simp only [size, b, more, length, none', Option.getD_none]
    exact congrArg _ (fetchFault_ok touched)
  · obtain ⟨length, some'⟩ := fetchBytes_until b e maxLength 0 k small (fun j hj => by simpa using fetched j hj)
      (by simpa using failed)
    apply step_done
    rw [boundary_quiet quiet]
    simp only [read] at more
    simp only [size, b, more, length, some', Option.getD_some]
    exact congrArg _ (fetchFault_ok touched)
  · exact (fetchAddr_beyond (s := b) beyond).trans (congrArg _ (segFault_cs b))
  · have within' : ¬(b.eipPast = true ∨ 2 ^ 32 ≤ b.eip.toNat + k) := by
      rintro (h | h)
      · exact Bool.false_ne_true (past.symm.trans h)
      · exact absurd h (Nat.not_le.mpr small)
    rw [fetchAddr_within within']
    have here : linear b .exec .cs (b.eip + BitVec.ofNat 32 k) 1 = .ok lin := inside
    have there : pageLookup b .exec b.user lin = .error e := fault
    simp only [here, there]

/-! The causes of a debug trap. -/

/-- What a translation without its data breakpoints keeps of them (R67). -/
def SameDebug (s t : State) : Prop := t.dbg = s.dbg ∧ t.dr = s.dr

theorem keeps_page_debug (s0 : State) (kind : Access) (user : Bool) (lin : Word32) :
    Keeps (SameDebug s0) (page kind user lin) := by
  unfold page
  refine keeps_get_bind fun s same => ?_
  cases h : pageLookup s kind user lin with
  | ok hit => exact same
  | error e => exact same

theorem keeps_pages_debug (s0 : State) (kind : Access) (user : Bool) (lin : Word32) (n : Nat) :
    Keeps (SameDebug s0) (pages kind user lin n) := by
  induction n generalizing lin with
  | zero => exact keeps_pure _
  | succ n ih => exact keeps_bind (keeps_page_debug s0 kind user lin) fun _ => keeps_bind (ih _) fun _ => keeps_pure _

/-- The causes of a debug trap after a translation (R67, R561). -/
theorem translate_dbg {kind : Access} {sr : SReg} {off lin : Word32} {n : Nat} {s t : State} {ps : List Word32}
    (inside : linear s kind sr off n = .ok lin) (translated : translate kind sr off n s = .ok ps t) :
    t.dbg =
      { s.dbg with
        b0 := s.dbg.b0 || s.dr.dataMatch 0 kind.isWrite lin n
        b1 := s.dbg.b1 || s.dr.dataMatch 1 kind.isWrite lin n
        b2 := s.dbg.b2 || s.dr.dataMatch 2 kind.isWrite lin n
        b3 := s.dbg.b3 || s.dr.dataMatch 3 kind.isWrite lin n } := by
  unfold translate at translated
  rw [get_bind_run] at translated
  simp only [inside] at translated
  obtain ⟨qs, u, paged, rest⟩ := bind_run_eq_ok translated
  obtain ⟨dbg, dr⟩ : SameDebug s u := keeps_ok (keeps_pages_debug s _ _ _ _) ⟨rfl, rfl⟩ paged
  cases rest
  rw [← dbg, ← dr]

theorem overlaps_iff {lin at_ : Word32} {k size : Nat} (small : size ≤ 4) :
    overlaps lin k at_ size = true ↔
      ∃ i j, i < k ∧ j < size ∧ lin + BitVec.ofNat 32 i = at_ + BitVec.ofNat 32 j := by
  simp only [overlaps, List.any_eq_true, List.mem_range, decide_eq_true_eq]
  constructor
  · rintro ⟨i, hi, near⟩
    refine ⟨i, (lin + BitVec.ofNat 32 i - at_).toNat, hi, near, ?_⟩
    rw [BitVec.ofNat_toNat, BitVec.setWidth_eq]
    bv_omega
  · rintro ⟨i, j, hi, hj, same⟩
    refine ⟨i, hi, ?_⟩
    rw [same]
    bv_omega

theorem isWrite_eq (kind : Access) : kind.isWrite = (kind == .write) := by cases kind <;> rfl

theorem takes_iff {d : DebugRegs} {n : Nat} {write : Bool} (known : d.dr7.extractLsb' (16 + 4 * n) 2 ≠ 2) :
    d.takes n write = true ↔
      d.dr7.extractLsb' (16 + 4 * n) 2 = 1 ∧ write = true ∨ d.dr7.extractLsb' (16 + 4 * n) 2 = 3 := by
  unfold DebugRegs.takes DebugRegs.rw
  generalize d.dr7.extractLsb' (16 + 4 * n) 2 = code at known
  revert code write
  decide

theorem len_cases {d : DebugRegs} {n : Nat} (known : d.dr7.extractLsb' (18 + 4 * n) 2 ≠ 2) :
    d.len n ≤ 4 ∧ ∀ code size, ((code, size) ∈ [((0 : BitVec 2), 1), (1, 2), (3, 4)] ∧
      d.dr7.extractLsb' (18 + 4 * n) 2 = code) ↔ (code = d.dr7.extractLsb' (18 + 4 * n) 2 ∧ size = d.len n) := by
  unfold DebugRegs.len
  generalize d.dr7.extractLsb' (18 + 4 * n) 2 = field at known
  have fields : field = 0 ∨ field = 1 ∨ field = 3 := by
    revert field
    decide
  rcases fields with rfl | rfl | rfl
  · exact ⟨by decide, fun code size => by simp; grind⟩
  · exact ⟨by decide, fun code size => by simp; grind⟩
  · exact ⟨by decide, fun code size => by simp; grind⟩

theorem dataMatch_iff {s : State} {n : Nat} {write : Bool} {lin : Word32} {k : Nat} (h : n < 4)
    (rw2 : s.dr.dr7.extractLsb' (16 + 4 * n) 2 ≠ 2) (len2 : s.dr.dr7.extractLsb' (18 + 4 * n) 2 ≠ 2) :
    s.dr.dataMatch n write lin k = true ↔ BreaksOnData s n write lin k := by
  have addr : [s.dr.dr0, s.dr.dr1, s.dr.dr2, s.dr.dr3][n]? = some (s.dr.addr n) := by
    interval_cases n <;> rfl
  obtain ⟨small, codes⟩ := len_cases len2
  simp only [DebugRegs.dataMatch, BreaksOnData, DebugRegs.enabled, Bool.and_eq_true, Bool.or_eq_true, takes_iff rw2,
    overlaps_iff small, addr, Option.some.injEq, and_assoc]
  refine and_congr_right fun _ => and_congr_right fun _ => ⟨?_, ?_⟩
  · rintro ⟨i, j, hi, hj, same⟩
    obtain ⟨mem, code⟩ := (codes _ _).mpr ⟨rfl, rfl⟩
    exact ⟨_, _, _, i, j, mem, code, rfl, hi, hj, same⟩
  · rintro ⟨code, size, at_, i, j, mem, isCode, rfl, hi, hj, same⟩
    obtain ⟨-, rfl⟩ := (codes code size).mp ⟨mem, isCode⟩
    exact ⟨i, j, hi, hj, same⟩

theorem locate_mem_translates {w : Width} {kind : Access} {m : EA} {s t : State} {l : Loc}
    (located : locate w kind (.mem m) s = .ok l t) :
    ∃ ps, l = .mem ps ∧ translate kind (s.pfx.seg.getD (eaSeg m)) (eaOffset s.regs m) w.bytes s = .ok ps t := by
  unfold locate locateMem at located
  obtain ⟨ps, u, translated, rest⟩ := bind_run_eq_ok located
  rw [get_bind_run] at translated
  cases rest
  exact ⟨ps, rfl, translated⟩

theorem any_iff (d : DebugCauses) : d.any = true ↔
    d.bs = true ∨ d.bt = true ∨ d.b0 = true ∨ d.b1 = true ∨ d.b2 = true ∨ d.b3 = true := by
  simp only [DebugCauses.any, Bool.or_eq_true, or_assoc]

theorem dr6_getLsbD (d : DebugCauses) (k : Nat) : d.dr6.getLsbD k = (match k with
    | 0 => d.b0
    | 1 => d.b1
    | 2 => d.b2
    | 3 => d.b3
    | 14 => d.bs
    | 15 => d.bt
    | _ => false) := by
  simp only [DebugCauses.dr6, BitVec.getLsbD_or, getLsbD_bit]
  rcases lt_or_ge k 16 with low | high
  · interval_cases k <;> simp
  · obtain ⟨j, rfl⟩ := Nat.exists_eq_add_of_le' high
    simp

/-- Settles O10. -/
theorem debugTraps : Obligations.DebugTraps := by
  unfold Obligations.DebugTraps
  refine ⟨fun s t => ⟨by simp [finished], rfl⟩, fun kind sr off lin n s t ps inside translated => ?_,
    fun w kind m s t l located => locate_mem_translates located,
    fun d => ⟨any_iff d, fun k => (dr6_getLsbD d k).trans rfl⟩⟩
  rw [translate_dbg inside translated, isWrite_eq]
  refine ⟨fun k old new listed rw2 len2 => ?_, rfl, rfl⟩
  simp only [List.mem_cons, Prod.mk.injEq, List.not_mem_nil, or_false] at listed
  rcases listed with ⟨rfl, rfl, rfl⟩ | ⟨rfl, rfl, rfl⟩ | ⟨rfl, rfl, rfl⟩ | ⟨rfl, rfl, rfl⟩ <;>
    rw [Bool.or_eq_true, dataMatch_iff (by decide) rw2 len2]

end Sys2Proof.Machine
end

