-- ==== Sys2Proof/Proofs/Paging.lean ====
section
/-! SUPPORT. Linear to physical addresses: the TLB, the walk and the page fault (R110, R128 to R131, R136). -/

namespace Sys2Proof.Machine

open Sys2Proof.Safety Sys2Proof.Claims

/-! Addresses of page entries. -/

theorem toNat_or_disjoint {x y : Word32} (h : x &&& y = 0) : (x ||| y).toNat = x.toNat + y.toNat := by
  rw [← BitVec.add_eq_or_of_and_eq_zero x y h, BitVec.toNat_add_of_and_eq_zero h]

theorem frame_and_offset (x y : Word32) : (x &&& 0xFFFFF000) &&& (y &&& 0xFFF) = 0 := by
  rw [BitVec.and_assoc, ← BitVec.and_assoc 0xFFFFF000, BitVec.and_comm 0xFFFFF000, BitVec.and_assoc y]
  simp

/-- The address of an entry: a page frame and four times a number below 2^10 (R128). -/
theorem entry_toNat (frame k : Word32) (small : k.toNat < 2 ^ 10) :
    ((frame &&& 0xFFFFF000) ||| k <<< 2).toNat = (frame &&& 0xFFFFF000).toNat + 4 * k.toNat := by
  have shifted : (k <<< 2).toNat = 4 * k.toNat := by
    rw [BitVec.toNat_shiftLeft, Nat.shiftLeft_eq]
    omega
  have low : k <<< 2 = (k <<< 2) &&& 0xFFF := by
    apply BitVec.eq_of_toNat_eq
    rw [BitVec.toNat_and, shifted, show (0xFFF : Word32).toNat = 2 ^ 12 - 1 from rfl, Nat.and_two_pow_sub_one_eq_mod]
    omega
  have apart : (frame &&& 0xFFFFF000) &&& k <<< 2 = 0 := by
    rw [low]
    exact frame_and_offset frame _
  rw [toNat_or_disjoint apart, shifted]
  rfl

theorem pdeAddr_toNat (cr3 lin : Word32) :
    (pdeAddr cr3 lin).toNat = (cr3 &&& 0xFFFFF000).toNat + 4 * (lin.toNat / 2 ^ 22) := by
  have number : (lin >>> 22).toNat = lin.toNat / 2 ^ 22 := by
    rw [BitVec.toNat_ushiftRight, Nat.shiftRight_eq_div_pow]
  have := lin.isLt
  unfold pdeAddr
  rw [entry_toNat _ _ (by omega), number]

theorem pteAddr_toNat (pde lin : Word32) :
    (pteAddr pde lin).toNat = (pde &&& 0xFFFFF000).toNat + 4 * (lin.toNat / 2 ^ 12 % 2 ^ 10) := by
  have number : ((lin >>> 12) &&& 0x3FF).toNat = lin.toNat / 2 ^ 12 % 2 ^ 10 := by
    rw [BitVec.toNat_and, BitVec.toNat_ushiftRight, Nat.shiftRight_eq_div_pow,
      show (0x3FF : Word32).toNat = 2 ^ 10 - 1 from rfl, Nat.and_two_pow_sub_one_eq_mod]
  unfold pteAddr
  rw [entry_toNat _ _ (by omega), number]

/-! The TLB. -/

theorem tlbKeep_subset (row : BitVec 3) : ∀ (n : Nat) (t : List TlbEntry), tlbKeep row n t ⊆ t
  | _, [] => by simp [tlbKeep]
  | 0, e :: t => by
    have rest := tlbKeep_subset row 0 t
    unfold tlbKeep
    split
    · exact fun x hx => List.mem_cons_of_mem e (rest hx)
    · exact List.cons_subset_cons e rest
  | n + 1, e :: t => by
    unfold tlbKeep
    split
    · exact List.cons_subset_cons e (tlbKeep_subset row n t)
    · exact List.cons_subset_cons e (tlbKeep_subset row (n + 1) t)

/-- What the TLB holds besides the entry just used (R62; log entry 6). -/
def tlbOthers (t : List TlbEntry) (e : TlbEntry) : List TlbEntry :=
  tlbKeep e.row 3 (t.filter fun x => x.page != e.page)

theorem tlbUse_eq (t : List TlbEntry) (e : TlbEntry) : tlbUse t e = e :: tlbOthers t e := rfl

theorem mem_tlbOthers {t : List TlbEntry} {e x : TlbEntry} (h : x ∈ tlbOthers t e) : x ∈ t ∧ x.page ≠ e.page := by
  have := tlbKeep_subset _ _ _ h
  simpa using this

/-! One page. -/

theorem page_run_ok {kind : Access} {user : Bool} {lin : Word32} {s : State} {h : PageHit}
    (found : pageLookup s kind user lin = .ok h) : page kind user lin s = .ok h.phys (h.apply s) := by
  unfold page
  rw [get_bind_run, found]
  rfl

theorem page_run_error {kind : Access} {user : Bool} {lin : Word32} {s : State} {e : Exn}
    (fails : pageLookup s kind user lin = .error e) : page kind user lin s = .error (.exc e) s := by
  unfold page
  rw [get_bind_run, fails]
  rfl

theorem isWrite_iff (kind : Access) : kind.isWrite = true ↔ kind = .write := by
  cases kind <;> decide

theorem pagePermits_iff {user u w : Bool} {kind : Access} : pagePermits user kind.isWrite u w = true ↔
    (user = true → u = true ∧ (kind = .write → w = true)) := by
  rw [← isWrite_iff]
  cases user <;> cases kind.isWrite <;> cases u <;> cases w <;> decide

/-- The bits of a page-fault code (R131). -/
theorem pageFaultCode_bits (p w u : Bool) : (pageFaultCode p w u).toNat < 8 ∧
    (pageFaultCode p w u).getLsbD 0 = p ∧ (pageFaultCode p w u).getLsbD 1 = w ∧ (pageFaultCode p w u).getLsbD 2 = u := by
  cases p <;> cases w <;> cases u <;> decide

/-- The exception of a translation that fails (R131, R568): `present` says whether the page is there. -/
theorem pageFault_says {kind : Access} {user : Bool} {lin : Word32} {s : State} {p : Bool} {present : Prop}
    (means : p = true ↔ present) (fails : pageLookup s kind user lin = .error (exnPF lin (pageFaultCode p kind.isWrite user))) :
    ∃ e, page kind user lin s = .error (.exc e) s ∧ e.vector = 14 ∧ e.kind = .fault ∧ e.cr2 = some lin ∧
      ∃ c, e.code = some c ∧ c.toNat < 8 ∧ (c.getLsbD 0 = true ↔ present) ∧
        (c.getLsbD 1 = true ↔ kind = .write) ∧ c.getLsbD 2 = user := by
  obtain ⟨small, b0, b1, b2⟩ := pageFaultCode_bits p kind.isWrite user
  refine ⟨_, page_run_error fails, rfl, rfl, rfl, _, rfl, small, ?_, ?_, b2⟩
  · rw [b0, means]
  · rw [b1, isWrite_iff]

theorem read_orByte_or (m : List Host.Cell) (c : Host.Cell) (x : Nat) :
    Memory.read (orByte m c) x = Memory.read m x ||| (if x = c.1 then c.2 else 0) := by
  rw [read_orByte]
  by_cases h : x = c.1
  · rw [if_pos h, if_pos h, h]
  · rw [if_neg h, if_neg h]
    exact BitVec.or_zero.symm

/-- Settles O11: paging off, the entry the TLB holds, and the walk, each permitted or not. -/
theorem pageTranslation : Obligations.PageTranslation := by
  unfold Obligations.PageTranslation
  intro s kind user lin find walks da pde ta pte rights others fails
  have daNat : (pdeAddr s.cr3 lin).toNat = da := pdeAddr_toNat s.cr3 lin
  have daWord : BitVec.ofNat 32 da = pdeAddr s.cr3 lin := by rw [← daNat, BitVec.ofNat_toNat, BitVec.setWidth_eq]
  have pdeEq : readPhys32 s.mem (pdeAddr s.cr3 lin) = pde := by rw [← daWord]
  have taNat : (pteAddr pde lin).toNat = ta := pteAddr_toNat pde lin
  have taWord : BitVec.ofNat 32 ta = pteAddr pde lin := by rw [← taNat, BitVec.ofNat_toNat, BitVec.setWidth_eq]
  have pteEq : readPhys32 s.mem (pteAddr pde lin) = pte := by rw [← taWord]
  have permits : pagePermits user kind.isWrite (pde.getLsbD 2 && pte.getLsbD 2) (pde.getLsbD 1 && pte.getLsbD 1) = true ↔
      rights := by
    rw [pagePermits_iff, Bool.and_eq_true, Bool.and_eq_true]
  refine ⟨fun off => page_run_off off kind user lin, fun on en held clean => ?_, fun on walking => ?_⟩
  · intro may
    have hit : pageLookup s kind user lin =
        if pagePermits user kind.isWrite en.user en.writable then
          .ok { phys := en.frame ++ lin.extractLsb' 0 12, tlb := tlbUse s.tlb en, marks := [] }
        else .error (exnPF lin (pageFaultCode true kind.isWrite user)) := by
      have dirty : (kind.isWrite && !en.dirty) = false := by
        cases h : kind.isWrite
        · rfl
        · simp [clean ((isWrite_iff kind).mp h)]
      unfold pageLookup
      simp only [on, if_true]
      rw [show tlbFind s.tlb (lin.extractLsb' 12 20) = some en from held]
      simp only [dirty, Bool.false_eq_true, if_false]
    constructor
    · intro permitted
      rw [if_pos (pagePermits_iff.mpr permitted)] at hit
      exact ⟨tlbOthers s.tlb en, fun x hx => mem_tlbOthers hx, page_run_ok hit⟩
    · intro denied
      rw [if_neg (mt pagePermits_iff.mp denied)] at hit
      exact pageFault_says (by simp) hit
  · have walk : pageLookup s kind user lin = pageWalk s kind user lin := by
      unfold pageLookup
      simp only [on, if_true]
      rcases walking with none' | ⟨write, en, held, clean⟩
      · rw [show tlbFind s.tlb (lin.extractLsb' 12 20) = none from none']
      · rw [show tlbFind s.tlb (lin.extractLsb' 12 20) = some en from held]
        simp [write, clean, Access.isWrite]
    unfold pageWalk at walk
    simp only [pdeEq, pteEq] at walk
    constructor
    · rintro ⟨there, present, permitted⟩
      rw [if_pos there, if_pos present, if_pos (permits.mpr permitted)] at walk
      refine ⟨_, page_run_ok walk, rfl, ?_, fun x => ?_, _, tlbOthers s.tlb _, rfl, fun x hx => mem_tlbOthers hx,
        rfl, rfl, ?_, ?_, ?_⟩
      · simp only [PageHit.apply, daNat, taNat, isWrite_iff]
        rfl
      · simp only [PageHit.apply, List.foldl_cons, List.foldl_nil, read_orByte_or, daNat, taNat, isWrite_iff]
      · rw [Bool.and_eq_true]
      · rw [Bool.and_eq_true]
      · rw [Bool.or_eq_true, isWrite_iff]
    · intro fault
      by_cases there : pde.getLsbD 0 = true
      · rw [if_pos there] at walk
        by_cases present : pte.getLsbD 0 = true
        · rw [if_pos present, if_neg (mt permits.mp fun r => fault ⟨there, present, r⟩)] at walk
          exact pageFault_says (by simp [there, present]) walk
        · rw [if_neg present] at walk
          exact pageFault_says (p := false) ⟨nofun, fun both => absurd both.2 present⟩ walk
      · rw [if_neg there] at walk
        exact pageFault_says (p := false) ⟨nofun, fun both => absurd both.1 there⟩ walk

end Sys2Proof.Machine
end

