-- ==== Sys2Proof/Proofs/StringOps.lean ====
section
/-! SUPPORT. The string instructions: one element, and the repeat prefixes around it (R430 to R440). -/

namespace Sys2Proof.Machine

open Sys2Proof.Safety Sys2Proof.Claims

/-! What one element leaves of the state it began in. -/

/-- The sizes, the direction and the address of the current instruction are as before. -/
structure SameContext (s t : State) : Prop where
  pfx : t.pfx = s.pfx
  segs : t.segs = s.segs
  cr0 : t.cr0 = s.cr0
  vm : t.flags.vm = s.flags.vm
  df : t.flags.df = s.flags.df
  curEip : t.curEip = s.curEip

theorem SameContext.trans {s t u : State} (h : SameContext s t) (h' : SameContext t u) : SameContext s u :=
  ⟨h'.pfx.trans h.pfx, h'.segs.trans h.segs, h'.cr0.trans h.cr0, h'.vm.trans h.vm, h'.df.trans h.df,
    h'.curEip.trans h.curEip⟩

theorem SameContext.apart {s t : State} (h : SameContext s t) (g : GRegs) (n : Nat) (o : List PortWrite) :
    SameContext s { t with regs := g, ioReads := n, ioOut := o } :=
  ⟨h.pfx, h.segs, h.cr0, h.vm, h.df, h.curEip⟩

theorem SameContext.asz {s t : State} (h : SameContext s t) : t.asz = s.asz := by
  unfold State.asz State.defaultSize State.mode State.pe
  rw [h.pfx, h.segs, h.cr0, h.vm]

theorem frame_context {s t : State} (h : AccessFrame s t) : SameContext s t :=
  ⟨frame_pfx h, frame_segs h, by rw [h.same], by rw [frame_flags h], by rw [frame_flags h], frame_curEip h⟩

/-- A write changes memory and the marks of its pages only. -/
theorem memWrites_parts {w : Width} {sr : SReg} {off : Word32} {v : BitVec w.bits} {s t : State}
    (h : MemWrites w sr off v s t) : SameContext s t ∧ t.regs = s.regs := by
  obtain ⟨ps, s1, translated, rfl⟩ := h
  have frame := translate_frame translated
  obtain ⟨pfx, segs, cr0, vm, df, curEip⟩ := frame_context frame
  have regs : s1.regs = s.regs := frame_regs frame
  exact ⟨⟨pfx, segs, cr0, vm, df, curEip⟩, regs⟩

theorem subRule_unique {n : Nat} {a b : BitVec n} {c : Bool} {f : Flags} {r r' : BitVec n} {g g' : Flags}
    (h : SubRule a b c f r g) (h' : SubRule a b c f r' g') : g = g' := by
  have result : r = r' := by
    apply BitVec.eq_of_toNat_eq
    have := h.value.trans h'.value.symm
    omega
  subst result
  have cf : g.cf = g'.cf := by rw [Bool.eq_iff_iff, h.cf, h'.cf]
  have af : g.af = g'.af := by rw [Bool.eq_iff_iff, h.af, h'.af]
  have of : g.of = g'.of := by rw [Bool.eq_iff_iff, h.of, h'.of]
  have sf : g.sf = g'.sf := h.szp.sf.trans h'.szp.sf.symm
  have zf : g.zf = g'.zf := h.szp.zf.trans h'.szp.zf.symm
  have pf : g.pf = g'.pf := h.szp.pf.trans h'.szp.pf.symm
  rw [h.rest, h'.rest, cf, af, of, sf, zf, pf]

theorem subRule_keeps {n : Nat} {a b : BitVec n} {c : Bool} {f g : Flags} {r : BitVec n} (h : SubRule a b c f r g) :
    g.vm = f.vm ∧ g.df = f.df := by
  constructor <;> rw [h.rest]

theorem subRule_eq {w : Width} {a b : BitVec w.bits} {f g : Flags} {r : BitVec w.bits} (h : SubRule a b false f r g) :
    subFlags a b false f = g :=
  subRule_unique (subRule_subFlags (by cases w <;> decide) a b false f) h

/-! One element. -/

theorem indexOf_run (r : Reg) (s : State) : indexOf r s = .ok (atAsz s r) s := by
  rw [atAsz_eq]
  rfl

theorem readSource_run {w : Width} {v : BitVec w.bits} {s t : State}
    (read : MemReads w (s.pfx.seg.getD .ds) (atAsz s .esi) v s t) : readSource w s = .ok v t :=
  seq_ok (get_run s) (seq_ok (indexOf_run .esi s) (memReads_iff.mp read))

theorem readDest_run {w : Width} {v : BitVec w.bits} {s0 s t : State} (same : SameContext s0 s) (regs : s.regs = s0.regs)
    (read : MemReads w .es (atAsz s0 .edi) v s t) : readDest w s = .ok v t := by
  refine seq_ok (indexOf_run .edi s) ?_
  rw [atAsz_eq, same.asz, regs, ← atAsz_eq]
  exact memReads_iff.mp read

theorem advance_run {w : Width} {r : Reg} {s0 s : State} {g : GRegs} (same : SameContext s0 s)
    (moved : Advanced s0 w r s.regs g) : advance w r s = .ok () { s with regs := g } := by
  rw [advanced_iff] at moved
  subst moved
  unfold advance advanced
  rw [modify_run, same.asz, same.df]
  rfl

theorem movsOnce_run {w : Width} {s t : State} (h : Element .movs w s t) :
    movsOnce w s = .ok () t ∧ SameContext s t := by
  obtain ⟨v, s1, s2, g, g', read, write, source, dest, rfl⟩ := h
  have same1 := frame_context (memReads_frame read)
  obtain ⟨same2, -⟩ := memWrites_parts write
  have same := same1.trans same2
  refine ⟨?_, same.apart _ _ _⟩
  refine seq_ok (readSource_run read) (seq_ok (indexOf_run .edi s1) ?_)
  rw [atAsz_eq, same1.asz, frame_regs (memReads_frame read), ← atAsz_eq]
  exact seq_ok (memWrites_iff.mp write) (seq_ok (advance_run same source) (advance_run (same.apart _ _ _) dest))

theorem cmpsOnce_run {w : Width} {s t : State} (h : Element .cmps w s t) :
    cmpsOnce w s = .ok () t ∧ SameContext s t := by
  obtain ⟨a, b, s1, s2, r, f, g, g', read, read', rule, source, dest, rfl⟩ := h
  have frame1 := memReads_frame read
  have frame := accessFrame_trans frame1 (memReads_frame read')
  obtain ⟨pfx, segs, cr0, -, -, curEip⟩ := frame_context frame
  have same : SameContext s (s2.setFlags f) := ⟨pfx, segs, cr0, (subRule_keeps rule).1, (subRule_keeps rule).2, curEip⟩
  refine ⟨?_, same.apart _ _ _⟩
  refine seq_ok (readSource_run read) (seq_ok (readDest_run (frame_context frame1) (frame_regs frame1) read')
    (seq_ok (getFlags_run s2) ?_))
  rw [frame_flags frame, subRule_eq rule]
  exact seq_ok (putFlags_run f s2) (seq_ok (advance_run same source) (advance_run (same.apart _ _ _) dest))

theorem scasOnce_run {w : Width} {s t : State} (h : Element .scas w s t) :
    scasOnce w s = .ok () t ∧ SameContext s t := by
  obtain ⟨b, s1, r, f, g, read, rule, dest, rfl⟩ := h
  have frame := memReads_frame read
  obtain ⟨pfx, segs, cr0, -, -, curEip⟩ := frame_context frame
  have same : SameContext s (s1.setFlags f) := ⟨pfx, segs, cr0, (subRule_keeps rule).1, (subRule_keeps rule).2, curEip⟩
  have start : SameContext s s := ⟨rfl, rfl, rfl, rfl, rfl, rfl⟩
  refine ⟨?_, same.apart _ _ _⟩
  refine seq_ok (readDest_run start rfl read) (seq_ok (getReg_run w .eax s1) (seq_ok (getFlags_run s1) ?_))
  rw [frame_flags frame, frame_regs frame, subRule_eq rule]
  exact seq_ok (putFlags_run f s1) (advance_run same dest)

theorem lodsOnce_run {w : Width} {s t : State} (h : Element .lods w s t) :
    lodsOnce w s = .ok () t ∧ SameContext s t := by
  obtain ⟨v, s1, g, g', read, loaded, source, rfl⟩ := h
  have same := frame_context (memReads_frame read)
  rw [writesReg_iff] at loaded
  subst loaded
  exact ⟨seq_ok (readSource_run read) (seq_ok (putReg_run w .eax v s1) (advance_run (same.apart _ _ _) source)),
    same.apart _ _ _⟩

theorem stosOnce_run {w : Width} {s t : State} (h : Element .stos w s t) :
    stosOnce w s = .ok () t ∧ SameContext s t := by
  obtain ⟨s1, g, write, dest, rfl⟩ := h
  obtain ⟨same, -⟩ := memWrites_parts write
  exact ⟨seq_ok (getReg_run w .eax s) (seq_ok (indexOf_run .edi s) (seq_ok (memWrites_iff.mp write)
    (advance_run same dest))), same.apart _ _ _⟩

theorem insOnce_run {w : Width} {s t : State} (h : Element .ins w s t) :
    insOnce w s = .ok () t ∧ SameContext s t := by
  obtain ⟨v, s0, s1, g, permitted, write, value, dest, rfl⟩ := h
  have frame0 := ioPermits_frame permitted
  have same0 := frame_context frame0
  obtain ⟨same1, -⟩ := memWrites_parts write
  have same : SameContext s { s1 with ioReads := s.ioReads + 1 } := (same0.trans same1).apart _ _ _
  refine ⟨?_, same.apart _ _ _⟩
  obtain ⟨ps, u, translated, rfl⟩ := write
  have reads : u.ioReads = s.ioReads := frame_ioReads (accessFrame_trans frame0 (translate_frame translated))
  refine seq_ok (getReg_run .w16 .edx s) (seq_ok (ioPermits_iff.mp permitted) (seq_ok (indexOf_run .edi s0) ?_))
  rw [atAsz_eq, same0.asz, frame_regs frame0, ← atAsz_eq]
  refine seq_ok translated (seq_ok (s' := { u with ioReads := s.ioReads + 1 }) (a := v) ?_
    (seq_ok rfl (advance_run same dest)))
  rw [value, ← reads]
  rfl

theorem outsOnce_run {w : Width} {s t : State} (h : Element .outs w s t) :
    outsOnce w s = .ok () t ∧ SameContext s t := by
  obtain ⟨v, s0, s1, g, read, permitted, source, rfl⟩ := h
  have frame0 := memReads_frame read
  have frame := accessFrame_trans frame0 (ioPermits_frame permitted)
  have same := frame_context frame
  have sent : SameContext s { s1 with ioOut :=
      ⟨readReg .w16 s.regs .edx, w.bytes, v.setWidth 32⟩ :: s.ioOut } := same.apart _ _ _
  refine ⟨?_, same.apart _ _ _⟩
  refine seq_ok (readSource_run read) (seq_ok (getReg_run .w16 .edx s0) ?_)
  rw [frame_regs frame0]
  refine seq_ok (a := ()) (seq_ok (b := ()) (ioPermits_iff.mp permitted) ?_) (advance_run sent source)
  rw [← frame_ioOut frame]
  rfl

/-- The actions of one element. -/
def elementRun : StrOp → Width → M Unit
  | .movs => movsOnce
  | .cmps => cmpsOnce
  | .scas => scasOnce
  | .lods => lodsOnce
  | .stos => stosOnce
  | .ins => insOnce
  | .outs => outsOnce

theorem elementRun_ok {op : StrOp} {w : Width} {s t : State} (h : Element op w s t) :
    elementRun op w s = .ok () t ∧ SameContext s t := by
  cases op
  case movs => exact movsOnce_run h
  case cmps => exact cmpsOnce_run h
  case scas => exact scasOnce_run h
  case lods => exact lodsOnce_run h
  case stos => exact stosOnce_run h
  case ins => exact insOnce_run h
  case outs => exact outsOnce_run h

/-! The repeat prefixes. -/

/-- Whether a string operation compares (R440). -/
def compares : StrOp → Bool
  | .cmps | .scas => true
  | _ => false

theorem compares_iff (op : StrOp) : compares op = true ↔ op = .cmps ∨ op = .scas := by
  cases op <;> simp [compares]

theorem exec_stringInstr (op : StrOp) (wide : Bool) (s : State) :
    exec (stringInstr op wide) s = runInstr false (repeated (compares op) (elementRun op (widthOf s wide))) s := by
  cases op <;> cases wide <;> rfl

theorem endsByZf_iff (p : Rep) (zf : Bool) : endsByZf p zf = true ↔ zf = (p == .repne) := by
  cases p <;> cases zf <;> decide

theorem setWidth_eq_zero_iff (x : Word16) : x.setWidth 32 = 0 ↔ x = 0 := by
  constructor <;> intro h <;> bv_omega

theorem readReg_eq_zero_iff (z : Size) (g : GRegs) (r : Reg) : readReg z.width g r = 0 ↔ wrap z (g.get r) = 0 := by
  rw [wrap_get]
  cases z
  · exact (setWidth_eq_zero_iff (readReg .w16 g r)).symm
  · rw [show (readReg Size.s32.width g r).setWidth 32 = readReg Size.s32.width g r from BitVec.setWidth_eq _]

/-- Settles O34: one element unrepeated; repeated, nothing at (E)CX = 0, else one element and the test of the
end. -/
theorem strings : Obligations.Strings := by
  unfold Obligations.Strings
  refine ⟨fun op wide s t unlocked none' element => ?_, fun op wide s p unlocked some' => ⟨fun zero => ?_,
    fun nonzero t element => ?_⟩⟩
  · rw [exec_stringInstr]
    refine runInstr_ok_noLock unlocked ?_
    unfold repeated
    rw [get_bind_run, begun_pfx, none']
    exact (elementRun_ok element).1
  · rw [atAsz_eq] at zero
    rw [exec_stringInstr]
    refine runInstr_ok_noLock unlocked ?_
    unfold repeated
    rw [get_bind_run, begun_pfx, some']
    exact congrFun (if_pos zero) _
  · obtain ⟨run, same⟩ := elementRun_ok element
    rw [atAsz_eq] at nonzero
    have asz : t.asz = s.asz := same.asz
    let g := t.regs.set .ecx (setSized s.asz (t.regs.get .ecx) (t.regs.get .ecx - 1))
    have count : t.setReg .ecx (setSized t.asz t.regs.ecx (t.regs.ecx - 1)) = { t with regs := g } := by rw [asz]; rfl
    have ends : (wrap t.asz (g.get .ecx) = 0 || (compares op && endsByZf p t.flags.zf)) = true ↔
        (readReg s.asz.width g .ecx = 0 ∨ (op = .cmps ∨ op = .scas) ∧ t.flags.zf = (p == .repne)) := by
      rw [Bool.or_eq_true, Bool.and_eq_true, compares_iff, endsByZf_iff, readReg_eq_zero_iff, asz, decide_eq_true_eq]
    have whole : repeated (compares op) (elementRun op (widthOf s wide)) s.begun =
        if (wrap t.asz (g.get .ecx) = 0 || (compares op && endsByZf p t.flags.zf)) = true
        then .ok () { t with regs := g }
        else .ok () (goTo { t with regs := g, rfKept := true } s.curEip) := by
      unfold repeated
      rw [get_bind_run, begun_pfx, some']
      refine (congrFun (if_neg nonzero) _).trans ?_
      rw [bind_run_ok run, modify_bind_run, count, get_bind_run]
      have cur : t.curEip = s.curEip := same.curEip
      rw [← cur]
      by_cases h : (wrap t.asz (g.get .ecx) = 0 || (compares op && endsByZf p t.flags.zf)) = true
      · exact (congrFun (if_pos h) _).trans (if_pos h).symm
      · exact (congrFun (if_neg h) _).trans (if_neg h).symm
    refine ⟨g, decremented_iff.mpr rfl, fun ended => ?_, fun goesOn => ?_⟩ <;> rw [exec_stringInstr]
    · exact runInstr_ok_noLock unlocked (whole.trans (if_pos (ends.mpr ended)))
    · exact runInstr_ok_noLock unlocked (whole.trans (if_neg (mt ends.mp goesOn)))

end Sys2Proof.Machine
end

