-- ==== Sys2Proof/Proofs/NearTransfers.lean ====
section
/-! SUPPORT. What pushes, pops and accesses keep, the transfers within a segment (R470 to R480), and ENTER, LEAVE and
BOUND (R505, R506, R510). -/

namespace Sys2Proof.Machine

open Sys2Proof.Safety Sys2Proof.Claims

/-! What pushes, pops and accesses keep. -/

/-- Nothing but general registers, memory with the TLB and its marks, the causes of a debug trap, and the count of free
values differs. -/
def DataOnly (s t : State) : Prop :=
  t = { s with regs := t.regs, tlb := t.tlb, dbg := t.dbg, mem := t.mem, adMarks := t.adMarks, free := t.free }

theorem dataOnly_refl (s : State) : DataOnly s s := rfl

theorem dataOnly_trans {s t u : State} (h1 : DataOnly s t) (h2 : DataOnly t u) : DataOnly s u := by
  unfold DataOnly at h2
  rw [h1] at h2
  exact h2

theorem dataOnly_of_frame {s t : State} (h : AccessFrame s t) : DataOnly s t := by
  have same := h.same
  unfold DataOnly
  rw [same]

theorem dataOnly_of_memoryOnly {s t : State} (h : MemoryOnly s t) : DataOnly s t := by
  unfold DataOnly
  rw [h]

/-- The general registers may be replaced. -/
theorem dataOnly_regs {s t : State} (h : DataOnly s t) (g : GRegs) : DataOnly s { t with regs := g } := by
  unfold DataOnly at h ⊢
  rw [h]

section
variable {s t : State} (h : DataOnly s t)
include h

theorem dataOnly_pfx : t.pfx = s.pfx := by rw [h]
theorem dataOnly_segs : t.segs = s.segs := by rw [h]
theorem dataOnly_flags : t.flags = s.flags := by rw [h]
theorem dataOnly_cpl : t.cpl = s.cpl := by rw [h]
theorem dataOnly_cr0 : t.cr0 = s.cr0 := by rw [h]
theorem dataOnly_eip : t.eip = s.eip := by rw [h]
theorem dataOnly_curEip : t.curEip = s.curEip := by rw [h]
theorem dataOnly_rfKept : t.rfKept = s.rfKept := by rw [h]
theorem dataOnly_mode : t.mode = s.mode := by rw [h]; rfl
theorem dataOnly_osz : t.osz = s.osz := by rw [h]; rfl
theorem dataOnly_asz : t.asz = s.asz := by rw [h]; rfl
theorem dataOnly_stackSize : t.stackSize = s.stackSize := by rw [h]; rfl
theorem dataOnly_level : t.level = s.level := by rw [h]; rfl

end

theorem pushed_dataOnly {w : Width} {v : BitVec w.bits} {s t : State} (h : Pushed w v s t) : DataOnly s t := by
  obtain ⟨-, ps, s1, g, translated, -, rfl⟩ := h
  have same := dataOnly_of_frame (translate_frame translated)
  unfold DataOnly at same ⊢
  rw [same]
  rfl

theorem pushedSel_dataOnly {z : Size} {sel : Word16} {s t : State} (h : PushedSel z sel s t) : DataOnly s t := by
  cases z
  · exact pushed_dataOnly (w := .w16) h
  · exact dataOnly_trans (t := { s with free := s.free + 1 }) rfl (pushed_dataOnly (w := .d32) h)

theorem popped_dataOnly {w : Width} {v : BitVec w.bits} {s t : State} (h : Popped w v s t) : DataOnly s t := by
  obtain ⟨ps, s1, g, translated, -, -, rfl⟩ := h
  exact dataOnly_regs (dataOnly_of_frame (translate_frame translated)) g

theorem accessed_dataOnly {d : Desc} {s t : State} (h : Accessed d s t) : DataOnly s t :=
  dataOnly_of_memoryOnly (accessed_frame h)

/-- RET releases its parameters (R480). -/
theorem releaseStack_run {s t : State} (size : t.stackSize = s.stackSize) (n : Word16) :
    ∃ g, SpMoved s (n.setWidth 32) t.regs g ∧ releaseStack n t = .ok () { t with regs := g } := by
  refine ⟨_, spMoved_iff.mpr rfl, ?_⟩
  rw [← size]
  rfl

theorem setSized_wrap (z : Size) (v : Word32) : setSized z v (wrap z v) = v := by
  cases z
  · simp only [setSized, wrap, extract16_setWidth]
    apply BitVec.eq_of_getLsbD_eq
    intro i hi
    simp only [setLowWord, BitVec.getLsbD_append, BitVec.getLsbD_extractLsb']
    by_cases low : i < 16
    · simp [low]
    · simp [low, show i - 16 < 16 by omega, show 16 + (i - 16) = i by omega]
  · rfl

theorem set_get_self (g : GRegs) (r : Reg) : g.set r (g.get r) = g := by
  cases r <;> rfl

theorem releaseStack_zero (t : State) : releaseStack 0 t = .ok () t := by
  have same : t.regsWithSp (t.sp + (0 : Word16).setWidth 32) = t.regs := by
    unfold State.regsWithSp State.sp
    have none' : wrap t.stackSize t.regs.esp + (0 : Word16).setWidth 32 = wrap t.stackSize t.regs.esp :=
      BitVec.add_zero _
    rw [none', setSized_wrap]
    exact set_get_self t.regs .esp
  change EStateM.Result.ok () { t with regs := t.regsWithSp (t.sp + (0 : Word16).setWidth 32) } = _
  rw [same]

/-! Near targets. -/

theorem truncated_congr {s u : State} (same : DataOnly s u) (t : Word32) : truncated u t = truncated s t := by
  unfold truncated
  rw [dataOnly_osz same]

/-- Truncation in the words of the machine (R470). -/
theorem wrap_osz (s : State) (t : Word32) : wrap s.osz t = truncated s t := by
  unfold truncated
  cases s.osz
  · apply BitVec.eq_of_toNat_eq
    simp only [wrap]
    rw [BitVec.toNat_setWidth, BitVec.extractLsb'_toNat, BitVec.toNat_and,
      show (0xFFFF : Word32).toNat = 2 ^ 16 - 1 from rfl, Nat.and_two_pow_sub_one_eq_mod, Nat.shiftRight_zero]
    omega
  · rfl

theorem nearOk_congr {s u : State} (same : DataOnly s u) {t : Word32} : NearOk u t ↔ NearOk s t := by
  unfold NearOk
  rw [dataOnly_mode same, dataOnly_segs same]

/-- A value of the operand size needs no truncation (R470). -/
theorem truncated_setWidth (s : State) (v : BitVec s.osz.width.bits) :
    truncated s (v.setWidth 32) = v.setWidth 32 := by
  unfold truncated
  generalize s.osz = z at v
  cases z
  · apply BitVec.eq_of_toNat_eq
    have small := v.isLt
    simp only [Size.width, Width.bits] at small
    rw [BitVec.toNat_and, BitVec.toNat_setWidth, show (0xFFFF : Word32).toNat = 2 ^ 16 - 1 from rfl,
      Nat.and_two_pow_sub_one_eq_mod]
    omega
  · rfl

/-- The exception of a target beyond its segment (R470; log entry 18). -/
def nearFault (s : State) : Exn := if s.mode = .prot then exnGP 0 else exn13

theorem nearTarget_ok {s u : State} (same : DataOnly s u) {t : Word32} (ok : NearOk s (truncated s t)) :
    nearTarget t u = .ok (truncated s t) u := by
  rw [← truncated_congr same]
  exact nearTarget_run (by rwa [truncated_congr same, nearOk_congr same])

theorem nearTarget_fails {s u : State} (same : DataOnly s u) {t : Word32} (beyond : ¬NearOk s (truncated s t)) :
    nearTarget t u = .error (.exc (nearFault s)) u := by
  rw [← truncated_congr same, ← nearOk_congr same] at beyond
  unfold nearFault
  rw [← dataOnly_mode same]
  unfold nearTarget
  rw [get_bind_run, wrap_osz]
  cases mode : u.mode with
  | prot =>
    refine require_bind_fail (decide_eq_false fun le => beyond ⟨fun _ => le, fun h => absurd mode h⟩)
  | real =>
    refine require_bind_fail (decide_eq_false fun le => beyond ⟨fun h => ?_, fun _ => le⟩)
    rw [mode] at h
    cases h
  | v86 =>
    refine require_bind_fail (decide_eq_false fun le => beyond ⟨fun h => ?_, fun _ => le⟩)
    rw [mode] at h
    cases h

theorem nearJump_ok {s u : State} (same : DataOnly s u) {t : Word32} (ok : NearOk s (truncated s t)) :
    nearJump t u = .ok () (goTo u (truncated s t)) :=
  seq_ok (nearTarget_ok same ok) rfl

theorem nearJump_fails {s u : State} (same : DataOnly s u) {t : Word32} (beyond : ¬NearOk s (truncated s t)) :
    nearJump t u = .error (.exc (nearFault s)) u :=
  bind_run_error (nearTarget_fails same beyond)

/-! Jumps. -/

theorem jumpRel_ok {s u : State} (same : DataOnly s u) {disp : Word32} (ok : NearOk s (truncated s (s.eip + disp))) :
    jumpRel disp u = .ok () (goTo u (truncated s (s.eip + disp))) := by
  rw [← dataOnly_eip same] at ok ⊢
  exact nearJump_ok same ok

theorem jumpRel_fails {s u : State} (same : DataOnly s u) {disp : Word32}
    (beyond : ¬NearOk s (truncated s (s.eip + disp))) : jumpRel disp u = .error (.exc (nearFault s)) u := by
  rw [← dataOnly_eip same] at beyond
  exact nearJump_fails same beyond

theorem jumpRm_run {w : Width} {m : RM} {s s1 : State} {l : Loc} (located : locate w .read m s = .ok l s1) :
    jumpRm w m s = nearJump ((s1.valueAt w l).setWidth 32) s1 :=
  bind_run_ok (readRM_run_ok located)

theorem jumpIf_true {c : Cond} {s : State} (holds : CondRule s.flags c) (disp : Word32) :
    jumpIf c disp s = jumpRel disp s :=
  congrFun (if_pos (condRule_iff.mp holds)) s

theorem jumpIf_false {c : Cond} {s : State} (fails : ¬CondRule s.flags c) (disp : Word32) :
    jumpIf c disp s = .ok () s :=
  congrFun (if_neg (mt condRule_iff.mpr fails)) s

theorem countReg_run (s : State) : countReg s = .ok (atAsz s .ecx) s := by
  rw [atAsz_eq]
  rfl

theorem jumpIfCountZero_zero {s : State} (zero : atAsz s .ecx = 0) (disp : Word32) :
    jumpIfCountZero disp s = jumpRel disp s := by
  unfold jumpIfCountZero
  rw [bind_run_ok (countReg_run s)]
  exact congrFun (if_pos zero) s

theorem jumpIfCountZero_nonzero {s : State} (nonzero : atAsz s .ecx ≠ 0) (disp : Word32) :
    jumpIfCountZero disp s = .ok () s := by
  unfold jumpIfCountZero
  rw [bind_run_ok (countReg_run s)]
  exact congrFun (if_neg nonzero) s

/-- (E)CX of LOOP after the decrement (R475). -/
def countedDown (s : State) : GRegs := s.regs.set .ecx (setSized s.asz (s.regs.get .ecx) (s.regs.get .ecx - 1))

theorem loopWhile_run (cond : Bool → Bool) (disp : Word32) (s : State) :
    loopWhile cond disp s =
      if readReg s.asz.width (countedDown s) .ecx ≠ 0 ∧ cond s.flags.zf = true
      then jumpRel disp { s with regs := countedDown s } else .ok () { s with regs := countedDown s } := by
  have test : (wrap s.asz ((countedDown s).get .ecx) ≠ 0 && cond s.flags.zf) = true ↔
      readReg s.asz.width (countedDown s) .ecx ≠ 0 ∧ cond s.flags.zf = true := by
    rw [Bool.and_eq_true, decide_eq_true_eq, ne_eq, ne_eq, readReg_eq_zero_iff]
  unfold loopWhile
  rw [modify_bind_run]
  by_cases h : readReg s.asz.width (countedDown s) .ecx ≠ 0 ∧ cond s.flags.zf = true
  · exact (congrFun (if_pos (test.mpr h)) _).trans (if_pos h).symm
  · exact (congrFun (if_neg (mt test.mp h)) _).trans (if_neg h).symm

/-- The condition on ZF of a LOOP form (R475 to R477). -/
theorem exec_loop {s : State} {d : Byte} {i : Instr} {goesOn : Bool}
    (h : (i, goesOn) ∈ [(Instr.loop d, true), (.loope d, s.flags.zf), (.loopne d, !s.flags.zf)]) :
    ∃ cond : Bool → Bool, cond s.flags.zf = goesOn ∧ exec i s = runInstr false (loopWhile cond (d.signExtend 32)) s := by
  simp only [List.mem_cons, Prod.mk.injEq, List.not_mem_nil, or_false] at h
  rcases h with ⟨rfl, rfl⟩ | ⟨rfl, rfl⟩ | ⟨rfl, rfl⟩
  · exact ⟨fun _ => true, rfl, rfl⟩
  · exact ⟨fun z => z, rfl, rfl⟩
  · exact ⟨fun z => !z, rfl, rfl⟩

/-! CALL and RET. -/

theorem callNearTo_ok {s u t : State} (same : DataOnly s u) {x : Word32} (ok : NearOk s (truncated s x))
    (pushed : Pushed s.osz.width (s.eip.setWidth _) u t) : callNearTo x u = .ok () (goTo t (truncated s x)) := by
  rw [← dataOnly_osz same, ← dataOnly_eip same] at pushed
  exact seq_ok (get_run u) (seq_ok (nearTarget_ok same ok) (seq_ok (pushed_iff.mp pushed) rfl))

theorem callNearTo_fails {s u : State} (same : DataOnly s u) {x : Word32} (beyond : ¬NearOk s (truncated s x)) :
    callNearTo x u = .error (.exc (nearFault s)) u :=
  seq_error (get_run u) (bind_run_error (nearTarget_fails same beyond))

theorem callRel_run (disp : Word32) (s : State) : callRel disp s = callNearTo (s.eip + disp) s := rfl

theorem callRm_run {w : Width} {m : RM} {s s1 : State} {l : Loc} (located : locate w .read m s = .ok l s1) :
    callRm w m s = callNearTo ((s1.valueAt w l).setWidth 32) s1 :=
  bind_run_ok (readRM_run_ok located)

theorem returnNear_run {n : Word16} {s t : State} {v : BitVec s.osz.width.bits} (popped : Popped s.osz.width v s t) :
    returnNear n s = (nearJump (v.setWidth 32) >>= fun _ => releaseStack n) t :=
  (get_bind_run _ s).trans (bind_run_ok (popped_iff.mp popped))

theorem releaseStack_bind_run {s t : State} (size : t.stackSize = s.stackSize) (n : Word16) (off : Word32) :
    ∃ g, SpMoved s (n.setWidth 32) t.regs g ∧ releaseStack n (goTo t off) = .ok () (goTo { t with regs := g } off) :=
  releaseStack_run (t := goTo t off) size n

/-- Settles O35: each form computes its target, and goes there when its condition holds. -/
theorem nearTransfers : Obligations.NearTransfers := by
  unfold Obligations.NearTransfers
  refine ⟨fun s unlocked => ?_, fun s t unlocked => ⟨fun d => ?_, fun m l s1 located => ?_, fun v popped ok => ?_⟩⟩
  · intro short near
    have here := dataOnly_refl s.begun
    refine ⟨fun d ok => ?_, fun d ok => ?_, fun m l s1 located ok => ?_, fun c d => ⟨fun holds ok => ?_, fun fails => ?_⟩,
      fun c d => ⟨fun holds ok => ?_, fun fails => ?_⟩, fun d => ⟨fun zero ok => ?_, fun nonzero => ?_⟩,
      fun d i goesOn form => ?_⟩
    · exact runInstr_ok_noLock unlocked (m := jumpRel (sext 32 d)) (jumpRel_ok here ok)
    · exact runInstr_ok_noLock unlocked (m := jumpRel (Sized.sext d)) (jumpRel_ok here ok)
    · have target := truncated_setWidth s (s1.valueAt s.osz.width l)
      rw [← target] at ok ⊢
      exact runInstr_ok_noLock unlocked
        ((jumpRm_run located).trans (nearJump_ok (dataOnly_of_frame (locate_frame located)) ok))
    · exact runInstr_ok_noLock unlocked ((jumpIf_true (s := s.begun) holds (sext 32 d)).trans (jumpRel_ok here ok))
    · exact runInstr_ok_noLock unlocked (jumpIf_false (s := s.begun) fails (sext 32 d))
    · exact runInstr_ok_noLock unlocked ((jumpIf_true (s := s.begun) holds (Sized.sext d)).trans (jumpRel_ok here ok))
    · exact runInstr_ok_noLock unlocked (jumpIf_false (s := s.begun) fails (Sized.sext d))
    · exact runInstr_ok_noLock unlocked
        ((jumpIfCountZero_zero (s := s.begun) zero (sext 32 d)).trans (jumpRel_ok here ok))
    · exact runInstr_ok_noLock unlocked (jumpIfCountZero_nonzero (s := s.begun) nonzero (sext 32 d))
    · obtain ⟨cond, rfl, arm⟩ := exec_loop form
      have run := loopWhile_run cond (sext 32 d) s.begun
      refine ⟨countedDown s, decremented_iff.mpr rfl, fun goes ok => ?_, fun stays => ?_⟩ <;> rw [arm]
      · exact runInstr_ok_noLock unlocked
          ((run.trans (if_pos goes)).trans (jumpRel_ok (dataOnly_regs here (countedDown s)) ok))
      · exact runInstr_ok_noLock unlocked (run.trans (if_neg stays))
  · intro target ok pushed
    exact runInstr_ok_noLock unlocked (m := callRel (Sized.sext d)) (callNearTo_ok (dataOnly_refl s.begun) ok pushed)
  · intro target ok pushed
    have same : truncated s target = target := truncated_setWidth s (s1.valueAt s.osz.width l)
    rw [← same] at ok ⊢
    exact runInstr_ok_noLock unlocked
      ((callRm_run located).trans (callNearTo_ok (dataOnly_of_frame (locate_frame located)) ok pushed))
  · have same := popped_dataOnly popped
    rw [← truncated_setWidth s v] at ok ⊢
    refine ⟨runInstr_ok_noLock unlocked (m := returnNear 0) ?_, fun n => ?_⟩
    · exact (returnNear_run (s := s.begun) popped).trans (seq_ok (nearJump_ok same ok) (releaseStack_zero _))
    · obtain ⟨g, moved, released⟩ := releaseStack_bind_run (dataOnly_stackSize same) n (truncated s (v.setWidth 32))
      exact ⟨g, moved, runInstr_ok_noLock unlocked (m := returnNear n)
        ((returnNear_run (s := s.begun) popped).trans (seq_ok (nearJump_ok same ok) released))⟩

/-- Settles O36: the target is checked before EIP is assigned or anything is pushed. -/
theorem nearTransferFaults : Obligations.NearTransferFaults := by
  unfold Obligations.NearTransferFaults
  intro s unlocked short near bad
  have here := dataOnly_refl s.begun
  refine ⟨fun d beyond => ⟨?_, fun c holds => ?_, fun zero => ?_, fun i goesOn form g counted nonzero goes => ?_⟩,
    fun d beyond => ⟨?_, fun c holds => ?_, ?_⟩, fun m l s1 located beyond => ?_, fun v t popped beyond => ?_⟩
  · exact runInstr_exc_noLock unlocked (m := jumpRel (sext 32 d)) (jumpRel_fails here beyond)
  · exact runInstr_exc_noLock unlocked ((jumpIf_true (s := s.begun) holds (sext 32 d)).trans (jumpRel_fails here beyond))
  · exact runInstr_exc_noLock unlocked
      ((jumpIfCountZero_zero (s := s.begun) zero (sext 32 d)).trans (jumpRel_fails here beyond))
  · obtain ⟨cond, rfl, arm⟩ := exec_loop form
    rw [decremented_iff.mp counted] at nonzero
    have run := loopWhile_run cond (sext 32 d) s.begun
    have undone := runInstr_exc_noLock (lockable := false) unlocked
      ((run.trans (if_pos ⟨nonzero, goes⟩)).trans (jumpRel_fails (dataOnly_regs here (countedDown s)) beyond))
    rw [arm]
    exact undone
  · exact runInstr_exc_noLock unlocked (m := jumpRel (Sized.sext d)) (jumpRel_fails here beyond)
  · exact runInstr_exc_noLock unlocked
      ((jumpIf_true (s := s.begun) holds (Sized.sext d)).trans (jumpRel_fails here beyond))
  · exact runInstr_exc_noLock unlocked (m := callRel (Sized.sext d)) (callNearTo_fails here beyond)
  · rw [← truncated_setWidth s (s1.valueAt s.osz.width l)] at beyond
    have same := dataOnly_of_frame (locate_frame located)
    exact ⟨runInstr_exc_noLock unlocked ((jumpRm_run located).trans (nearJump_fails same beyond)),
      runInstr_exc_noLock unlocked ((callRm_run located).trans (callNearTo_fails same beyond))⟩
  · rw [← truncated_setWidth s v] at beyond
    have same := popped_dataOnly popped
    have fails : ∀ n, returnNear n s.begun = .error (.exc (nearFault s.begun)) t := fun n =>
      (returnNear_run (s := s.begun) popped).trans (bind_run_error (nearJump_fails same beyond))
    exact ⟨runInstr_exc_noLock unlocked (fails 0), fun n => runInstr_exc_noLock unlocked (fails n)⟩

end Sys2Proof.Machine
end

