-- ==== Sys2Proof/Proofs/Frames.lean ====
section
/-! SUPPORT. ENTER with its display, LEAVE and BOUND (R505, R506, R510), and the pushes that end in shutdown (R142,
R590). -/

namespace Sys2Proof.Machine

open Sys2Proof.Safety Sys2Proof.Claims

/-! ENTER and LEAVE. -/

theorem readReg_size (z : Size) (g : GRegs) (r : Reg) : readReg z.width g r = (g.get r).setWidth _ := by
  cases z
  · exact (setWidth16_eq (g.get r)).symm
  · exact (BitVec.setWidth_eq (g.get r)).symm

/-- A register of the operand size is moved down by the bytes of an item (R505). -/
theorem movedDown_iff {z : Size} {w : Width} {r : Reg} {g g' : GRegs} :
    WritesReg z.width r (readReg z.width g r - BitVec.ofNat _ w.bytes) g g' ↔
      g' = g.set r (setSized z (g.get r) (g.get r - Width.off w)) := by
  rw [writesReg_iff, set_setSized]
  cases z
  · simp only [Size.width, setWidth16_eq, extract16_sub]
    cases w <;> rfl
  · simp [Size.width, readReg, Width.off]

theorem copyDisplay_run {z : Size} : ∀ {n : Nat} {s t : State}, DisplayCopied z n s t → copyDisplay z n s = .ok () t
  | 0, _, _, h => by
    cases h
    rfl
  | n + 1, s, t, h => by
    obtain ⟨g, v, s1, s2, moved, read, pushed, rest⟩ := h
    rw [movedDown_iff] at moved
    subst moved
    rw [← wrap_get] at read
    exact seq_ok (modify_run _ s) (seq_ok (get_run _) (seq_ok (memReads_iff.mp read)
      (seq_ok (pushed_iff.mp pushed) (copyDisplay_run rest))))

theorem displayCopied_dataOnly {z : Size} : ∀ {n : Nat} {s t : State}, DisplayCopied z n s t → DataOnly s t
  | 0, s, _, h => by
    cases h
    exact dataOnly_refl s
  | n + 1, s, t, h => by
    obtain ⟨g, v, s1, s2, -, read, pushed, rest⟩ := h
    have based : DataOnly s { s with regs := g } := dataOnly_regs (dataOnly_refl s) g
    exact dataOnly_trans based (dataOnly_trans (dataOnly_of_frame (memReads_frame read))
      (dataOnly_trans (pushed_dataOnly pushed) (displayCopied_dataOnly rest)))

/-- The frame pointer and then the stack pointer of a new frame (R505). -/
theorem newFrame_run {s t : State} (size' : t.stackSize = s.stackSize) (frame : Word32) (size : Word16) :
    ∃ g g', WritesReg s.osz.width .ebp (frame.setWidth _) t.regs g ∧ SpMoved s (-(size.setWidth 32)) g g' ∧
      ((do
        modify fun u => u.setReg .ebp (setSized s.osz u.regs.ebp frame)
        let u ← get
        putSp (u.sp - size.setWidth 32) : M Unit) t) = .ok () { t with regs := g' } := by
  refine ⟨_, _, writesReg_writeReg _ _ .ebp _, spMoved_iff.mpr rfl, ?_⟩
  have based := set_setSized s.osz t.regs .ebp frame
  rw [modify_bind_run, get_bind_run, ← based, ← size', sub_eq_add_neg]
  rfl

theorem enterFrame_run {s t1 t2 t3 : State} (size : Word16) (level : Byte)
    (pushed : Pushed s.osz.width (readReg s.osz.width s.regs .ebp) s t1)
    (display : if level.toNat % 32 = 0 then t3 = t1
      else DisplayCopied s.osz (level.toNat % 32 - 1) t1 t2 ∧ Pushed s.osz.width ((topOffset t1).setWidth _) t2 t3) :
    ∃ g g', WritesReg s.osz.width .ebp ((topOffset t1).setWidth _) t3.regs g ∧
      SpMoved s (-(size.setWidth 32)) g g' ∧ enterFrame size level s = .ok () { t3 with regs := g' } := by
  have first := pushed_dataOnly pushed
  have size' : t3.stackSize = s.stackSize := by
    by_cases zero : level.toNat % 32 = 0
    · rw [if_pos zero] at display
      rw [display, dataOnly_stackSize first]
    · rw [if_neg zero] at display
      obtain ⟨copied, last⟩ := display
      exact dataOnly_stackSize
        (dataOnly_trans first (dataOnly_trans (displayCopied_dataOnly copied) (pushed_dataOnly last)))
  obtain ⟨g, g', framed, moved, run⟩ := newFrame_run size' (topOffset t1) size
  refine ⟨g, g', framed, moved, ?_⟩
  unfold enterFrame
  rw [get_bind_run, bind_run_ok (pushed_iff.mp pushed), get_bind_run, sp_eq_topOffset]
  by_cases zero : level.toNat % 32 = 0
  · rw [if_pos zero] at display
    subst display
    exact (congrFun (if_neg (by omega)) _).trans run
  · rw [if_neg zero] at display
    obtain ⟨copied, last⟩ := display
    exact (congrFun (if_pos (by omega)) _).trans (seq_ok (copyDisplay_run copied) (seq_ok (pushed_iff.mp last) run))

theorem leaveFrame_run {s t : State} {g : GRegs} {v : BitVec s.osz.width.bits}
    (based : WritesReg s.stackSize.width .esp (readReg s.stackSize.width s.regs .ebp) s.regs g)
    (popped : Popped s.osz.width v { s with regs := g } t) :
    leaveFrame s = .ok () { t with regs := writeReg s.osz.width t.regs .ebp v } := by
  have same : s.regsWithSp s.regs.ebp = g := by
    rw [writesReg_iff.mp based, readReg_size, ← set_setSized]
    rfl
  rw [← same] at popped
  exact seq_ok (get_run s) (seq_ok (putSp_run _ s) (seq_ok (popped_iff.mp popped) (putReg_run _ .ebp v t)))

/-! BOUND. -/

theorem checkBounds_run {s s1 s2 : State} {r : Reg} {m : EA} {lo hi : BitVec s.osz.width.bits}
    (first : MemReads s.osz.width (s.pfx.seg.getD (eaSeg m)) (eaOffset s.regs m) lo s s1)
    (second : MemReads s.osz.width (s.pfx.seg.getD (eaSeg m))
      (eaOffset s.regs m + BitVec.ofNat 32 s.osz.width.bytes) hi s1 s2) :
    checkBounds r m s =
      require (decide (lo.toInt ≤ (readReg s.osz.width s.regs r).toInt) &&
        decide ((readReg s.osz.width s.regs r).toInt ≤ hi.toInt)) exnBR s2 := by
  unfold checkBounds
  rw [get_bind_run, bind_run_ok (readEA_first first), 
    bind_run_ok (readEA_second (delta := Width.off s.osz.width) (memReads_frame first) second)]

/-- Settles O42. -/
theorem framesAndBounds : Obligations.FramesAndBounds := by
  unfold Obligations.FramesAndBounds
  refine ⟨fun s unlocked => ?_, fun s s1 s2 r m lo hi unlocked first second => ?_⟩
  · intro w
    refine ⟨fun size level t1 t2 t3 pushed display => ?_, fun g v t based popped => ?_⟩
    · obtain ⟨g, g', framed, moved, run⟩ := enterFrame_run (s := s.begun) size level pushed display
      exact ⟨g, g', framed, moved, runInstr_ok_noLock unlocked run⟩
    · exact runInstr_setsReg unlocked (leaveFrame_run (s := s.begun) based popped)
  · intro i
    have run := checkBounds_run (s := s.begun) (r := r) first second
    refine ⟨fun inside => ?_, fun outside => ?_⟩
    · exact runInstr_ok_noLock unlocked (run.trans (require_of (by
        rwa [Bool.and_eq_true, decide_eq_true_eq, decide_eq_true_eq])))
    · refine runInstr_exc_noLock unlocked (run.trans ?_)
      rw [require_run, if_neg (by rwa [Bool.and_eq_true, decide_eq_true_eq, decide_eq_true_eq])]

end Sys2Proof.Machine
end

