-- ==== Sys2Proof/Proofs/FarTransfers.lean ====
section
/-! SUPPORT. Far JMP, CALL and RET in modes R and V and to code of the caller's level (R472, R479, R480, R490), and the
pushes that shut the processor down (R142, R590). -/

namespace Sys2Proof.Machine

open Sys2Proof.Safety Sys2Proof.Claims

/-! The forms of a far transfer. -/

theorem readFarPointer_run {m : EA} {s t : State} {off : BitVec s.osz.width.bits} {sel : Word16}
    (pointer : FarPointer m s off sel t) : readFarPointer m s = .ok (sel, off.setWidth 32) t := by
  obtain ⟨u, first, second⟩ := farPointer_run pointer
  exact seq_ok (get_run s) (seq_ok first (seq_ok second rfl))

theorem jumpFarMem_run {m : EA} {s t : State} {off : BitVec s.osz.width.bits} {sel : Word16}
    (pointer : FarPointer m s off sel t) : jumpFarMem m s = farJump sel (off.setWidth 32) t := by
  unfold jumpFarMem
  rw [bind_run_ok (readFarPointer_run pointer)]

theorem callFarThrough_run {m : EA} {s t : State} {off : BitVec s.osz.width.bits} {sel : Word16}
    (pointer : FarPointer m s off sel t) : callFarThrough m s = farCall sel (off.setWidth 32) t := by
  unfold callFarThrough
  rw [bind_run_ok (readFarPointer_run pointer)]

theorem farPointer_frame {m : EA} {s t : State} {off : BitVec s.osz.width.bits} {sel : Word16}
    (pointer : FarPointer m s off sel t) : AccessFrame s t := by
  obtain ⟨u, first, second⟩ := pointer
  exact accessFrame_trans (memReads_frame first) (memReads_frame second)

/-- Both forms of a far JMP and CALL are the transfer itself once the pointer is known (R472, R479). -/
structure FarRuns (s : State) (sel : Word16) (off : Word32) (i j : Instr) (t : State) : Prop where
  frame : AccessFrame s.begun t
  jump : ∃ m, exec i s = runInstr false m s ∧ m s.begun = farJump sel off t
  call : ∃ m, exec j s = runInstr false m s ∧ m s.begun = farCall sel off t

theorem farForms_run {s : State} {sel : Word16} {off : Word32} {i j : Instr} {t : State}
    (forms : FarForms s sel off i j t) : FarRuns s sel off i j t := by
  rcases forms with ⟨v, rfl, rfl, rfl, rfl⟩ | ⟨m, o, pointer, rfl, rfl, rfl⟩
  · exact ⟨accessFrame_refl _, ⟨farJump sel (Sized.zext v), rfl, rfl⟩, ⟨farCall sel (Sized.zext v), rfl, rfl⟩⟩
  · exact ⟨farPointer_frame pointer, ⟨jumpFarMem m, rfl, jumpFarMem_run pointer⟩,
      ⟨callFarThrough m, rfl, callFarThrough_run pointer⟩⟩

section
variable {s : State} {sel : Word16} {off : Word32} {i j : Instr} {t u : State} {e : Exn}

theorem FarRuns.jump_ok (runs : FarRuns s sel off i j t) (unlocked : s.pfx.lock = false)
    (run : farJump sel off t = .ok () u) : exec i s = .next (finished s u) := by
  obtain ⟨m, arm, same⟩ := runs.jump
  rw [arm]
  exact runInstr_ok_noLock unlocked (same.trans run)

theorem FarRuns.call_ok (runs : FarRuns s sel off i j t) (unlocked : s.pfx.lock = false)
    (run : farCall sel off t = .ok () u) : exec j s = .next (finished s u) := by
  obtain ⟨m, arm, same⟩ := runs.call
  rw [arm]
  exact runInstr_ok_noLock unlocked (same.trans run)

theorem FarRuns.jump_exc (runs : FarRuns s sel off i j t) (unlocked : s.pfx.lock = false)
    (run : farJump sel off t = .error (.exc e) u) : exec i s = .next (deliver e (undo s u)) := by
  obtain ⟨m, arm, same⟩ := runs.jump
  rw [arm]
  exact runInstr_exc_noLock unlocked (same.trans run)

theorem FarRuns.call_exc (runs : FarRuns s sel off i j t) (unlocked : s.pfx.lock = false)
    (run : farCall sel off t = .error (.exc e) u) : exec j s = .next (deliver e (undo s u)) := by
  obtain ⟨m, arm, same⟩ := runs.call
  rw [arm]
  exact runInstr_exc_noLock unlocked (same.trans run)

end

/-! Modes R and V. -/

theorem farJump_real {s : State} (mode : s.mode ≠ .prot) (sel : Word16) (off : Word32) :
    farJump sel off s = farReal sel off s := by
  unfold farJump
  rw [get_bind_run]
  cases h : s.mode
  · rfl
  · exact absurd h mode
  · rfl

theorem farCall_real {s : State} (mode : s.mode ≠ .prot) (sel : Word16) (off : Word32) :
    farCall sel off s = (pushReturn s.osz s.segs.cs.sel s.eip >>= fun _ => farReal sel off) s := by
  unfold farCall
  rw [get_bind_run]
  cases h : s.mode
  · rfl
  · exact absurd h mode
  · rfl

theorem farReal_ok {s u : State} (same : DataOnly s u) {sel : Word16} {off : Word32}
    (inside : (truncated s off).toNat ≤ 0xFFFF) : farReal sel off u = .ok () (inReal u sel (truncated s off)) := by
  have here : decide (wrap u.osz off ≤ 0xFFFF) = true := by
    rw [wrap_osz, truncated_congr same]
    exact decide_eq_true inside
  unfold farReal
  rw [get_bind_run]
  refine (require_bind_of here).trans ?_
  rw [bind_run_ok (loadSegReal_run .cs sel u), loadReal_eq, wrap_osz, truncated_congr same]
  rfl

theorem farReal_fails {s u : State} (same : DataOnly s u) {sel : Word16} {off : Word32}
    (beyond : ¬(truncated s off).toNat ≤ 0xFFFF) : farReal sel off u = .error (.exc exn13) u := by
  have here : decide (wrap u.osz off ≤ 0xFFFF) = false := by
    rw [wrap_osz, truncated_congr same]
    exact decide_eq_false beyond
  unfold farReal
  rw [get_bind_run]
  exact require_bind_fail here

theorem farJump_real_ok {s t : State} (mode : s.mode ≠ .prot) (same : DataOnly s t) {sel : Word16} {off : Word32}
    (inside : (truncated s off).toNat ≤ 0xFFFF) : farJump sel off t = .ok () (inReal t sel (truncated s off)) := by
  rw [farJump_real (by rwa [dataOnly_mode same])]
  exact farReal_ok same inside

theorem farCall_real_ok {s t t1 t2 : State} (mode : s.mode ≠ .prot) (same : DataOnly s t) {sel : Word16}
    {off : Word32} (pushed1 : PushedSel s.osz s.segs.cs.sel t t1) (pushed2 : Pushed s.osz.width (s.eip.setWidth _) t1 t2)
    (inside : (truncated s off).toNat ≤ 0xFFFF) : farCall sel off t = .ok () (inReal t2 sel (truncated s off)) := by
  rw [farCall_real (by rwa [dataOnly_mode same]), dataOnly_osz same, dataOnly_segs same, dataOnly_eip same]
  have there := dataOnly_trans same (dataOnly_trans (pushedSel_dataOnly pushed1) (pushed_dataOnly pushed2))
  exact seq_ok (pushReturn_run pushed1 pushed2) (farReal_ok there inside)

theorem farReturn_real_run {s t1 t2 : State} {off sel : BitVec s.osz.width.bits} (mode : s.mode ≠ .prot)
    (popped1 : Popped s.osz.width off s t1) (popped2 : Popped s.osz.width sel t1 t2)
    (inside : (off.setWidth 32 : Word32).toNat ≤ 0xFFFF) (n : Word16) :
    farReturn n s = releaseStack n (inReal t2 (sel.setWidth 16) (off.setWidth 32)) := by
  have real : farReturn n s = farReturnReal n s := by
    unfold farReturn
    rw [get_bind_run]
    cases h : s.mode
    · rfl
    · exact absurd h mode
    · rfl
  rw [real]
  unfold farReturnReal
  rw [get_bind_run, bind_run_ok (popped_iff.mp popped1), bind_run_ok (popped_iff.mp popped2)]
  refine (require_bind_of (decide_eq_true inside)).trans ?_
  rw [bind_run_ok (loadSegReal_run .cs _ t2), loadReal_eq]
  rfl

theorem stackSize_real {s : State} (mode : s.mode ≠ .prot) : s.stackSize = .s16 := by
  unfold State.stackSize
  cases h : s.mode
  · rfl
  · exact absurd h mode
  · rfl

/-! Mode P, to code of the caller's level. -/

theorem descriptorAt_run {sel : Word16} {d : Desc} {s t : State} (h : DescriptorAt sel d s t) (e : Exn) :
    readDescriptor sel e s = .ok d t := h e

theorem farJump_prot {s : State} (mode : s.mode = .prot) (sel : Word16) (off : Word32) :
    farJump sel off s = farProt false sel off s := by
  unfold farJump
  rw [get_bind_run, mode]

theorem farCall_prot {s : State} (mode : s.mode = .prot) (sel : Word16) (off : Word32) :
    farCall sel off s = farProt true sel off s := by
  unfold farCall
  rw [get_bind_run, mode]

theorem require_selNull_ok {sel : Word16} (named : 4 ≤ sel.toNat) : (!selNull sel) = true := by
  rw [not_selNull named]
  rfl

/-- The checks of a direct transfer pass (R490). -/
theorem directCode_checks {d : Desc} {sel : Word16} {cpl : BitVec 2} (direct : DirectCode d sel cpl) :
    d.isCode = true ∧ d.p = true ∧
      (if d.conforming then decide (d.dpl ≤ cpl) else decide (selRpl sel ≤ cpl) && d.dpl == cpl) = true := by
  obtain ⟨code, present, allowed⟩ := direct
  refine ⟨code, present, ?_⟩
  cases h : d.conforming <;> simpa [h] using allowed

/-- A direct transfer up to its pushes (R490). -/
theorem farProt_direct {s s1 : State} {call : Bool} {sel : Word16} {off : Word32} {d : Desc} (named : 4 ≤ sel.toNat)
    (found : DescriptorAt sel d s s1) (direct : DirectCode d sel s.cpl) (inside : off.toNat ≤ d.limit.toNat) :
    farProt call sel off s = (do
      onlyIf call (pushReturn s.osz s.segs.cs.sel s.eip)
      loadCodeSeg d sel s.cpl
      putEip off : M Unit) s1 := by
  obtain ⟨code, present, allowed⟩ := directCode_checks direct
  unfold farProt
  rw [get_bind_run]
  refine (require_bind_of (require_selNull_ok named)).trans ?_
  rw [bind_run_ok (descriptorAt_run found _)]
  refine (congrFun (if_pos code) s1).trans ?_
  exact (require_bind_of allowed).trans ((require_bind_of present).trans
    (require_bind_of (decide_eq_true inside)))

/-- CS:EIP at a level that is reached already (R490). -/
theorem loadCode_same {d : Desc} {sel : Word16} {off : Word32} {cpl : BitVec 2} {t u : State}
    (accessed : Accessed d t u) (level : t.cpl = cpl) :
    (loadCodeSeg d sel cpl >>= fun _ => putEip off) t = .ok () (inCode u d sel off) := by
  have same : u.cpl = cpl := (dataOnly_cpl (accessed_dataOnly accessed)).trans level
  rw [loadCodeSeg_run accessed, ← same]

theorem farJump_direct {s s1 s2 : State} {sel : Word16} {off : Word32} {d : Desc} (mode : s.mode = .prot)
    (named : 4 ≤ sel.toNat) (found : DescriptorAt sel d s s1) (direct : DirectCode d sel s.cpl)
    (inside : off.toNat ≤ d.limit.toNat) (accessed : Accessed d s1 s2) :
    farJump sel off s = .ok () (inCode s2 d sel off) := by
  rw [farJump_prot mode, farProt_direct named found direct inside]
  exact loadCode_same accessed (frame_cpl (descriptorAt_frame found))

theorem farCall_direct {s s1 s2 t1 t2 : State} {sel : Word16} {off : Word32} {d : Desc} (mode : s.mode = .prot)
    (named : 4 ≤ sel.toNat) (found : DescriptorAt sel d s s1) (direct : DirectCode d sel s.cpl)
    (inside : off.toNat ≤ d.limit.toNat) (pushed1 : PushedSel s.osz s.segs.cs.sel s1 t1)
    (pushed2 : Pushed s.osz.width (s.eip.setWidth _) t1 t2) (accessed : Accessed d t2 s2) :
    farCall sel off s = .ok () (inCode s2 d sel off) := by
  have same := dataOnly_trans (dataOnly_of_frame (descriptorAt_frame found))
    (dataOnly_trans (pushedSel_dataOnly pushed1) (pushed_dataOnly pushed2))
  rw [farCall_prot mode, farProt_direct named found direct inside]
  exact seq_ok (pushReturn_run pushed1 pushed2) (loadCode_same accessed (dataOnly_cpl same))

/-- The checks of the code segment a return goes to pass (R490). -/
theorem returnDescriptor_ok {s s1 : State} {sel : Word16} {d : Desc} (named : 4 ≤ sel.toNat)
    (outer : s.cpl ≤ selRpl sel) (found : DescriptorAt sel d s s1) (code : ReturnCode d (selRpl sel)) :
    returnDescriptor sel s = .ok d s1 := by
  obtain ⟨isCode, present, allowed⟩ := code
  have fits : (d.isCode && (if d.conforming then decide (d.dpl ≤ selRpl sel) else d.dpl == selRpl sel)) = true := by
    cases h : d.conforming <;> simpa [h, isCode] using allowed
  unfold returnDescriptor
  rw [get_bind_run]
  refine (require_bind_of (require_selNull_ok named)).trans ((require_bind_of (decide_eq_true outer)).trans ?_)
  rw [bind_run_ok (descriptorAt_run found _)]
  exact (require_bind_of fits).trans (require_bind_of present)

theorem returnCode_of_direct {d : Desc} {sel : Word16} {cpl : BitVec 2} (level : selRpl sel = cpl)
    (direct : DirectCode d sel cpl) : ReturnCode d (selRpl sel) := by
  obtain ⟨code, present, allowed⟩ := direct
  refine ⟨code, present, ?_⟩
  rw [level]
  split at allowed
  · next h => rwa [if_pos h]
  · next h =>
    rw [if_neg h]
    exact allowed.2

/-- What follows the check of the code segment in a return of mode P that was begun in `s`: its own part `pre`, the
stack of an outer level, the check of the offset, and CS:EIP (R490, R500). -/
def returnRest (s : State) (off : Word32) (cs : Word16) (pre : M Unit) (n : Word16) (d : Desc) : M Unit := do
  pre
  onlyIf (decide (s.cpl < selRpl cs)) (returnOuter s.osz (selRpl cs) n)
  require (decide (off ≤ d.limit)) (exnGP 0)
  loadCodeSeg d cs (selRpl cs)
  putEip off

theorem farReturn_prot_run {s t1 t2 : State} {off sel : BitVec s.osz.width.bits} (mode : s.mode = .prot)
    (popped1 : Popped s.osz.width off s t1) (popped2 : Popped s.osz.width sel t1 t2) (n : Word16) :
    farReturn n s = (returnDescriptor (sel.setWidth 16) >>=
      returnRest s (off.setWidth 32) (sel.setWidth 16) (releaseStack n) n) t2 := by
  have prot : farReturn n s = farReturnProt n s := by
    unfold farReturn
    rw [get_bind_run, mode]
  rw [prot]
  unfold farReturnProt
  rw [get_bind_run, bind_run_ok (popped_iff.mp popped1), bind_run_ok (popped_iff.mp popped2)]
  rfl

/-- A return within its level, once its code segment is checked (R490, R500). -/
theorem returnRest_same_ok {s u v w : State} {off : Word32} {cs : Word16} {pre : M Unit} {n : Word16} {d : Desc}
    (level : selRpl cs = s.cpl) (ready : pre u = .ok () v) (same : v.cpl = s.cpl) (inside : off.toNat ≤ d.limit.toNat)
    (accessed : Accessed d v w) : returnRest s off cs pre n d u = .ok () (inCode w d cs off) := by
  have stays : decide (s.cpl < selRpl cs) = false := by
    rw [level]
    exact decide_eq_false (BitVec.lt_irrefl _)
  unfold returnRest
  rw [bind_run_ok ready, stays]
  refine seq_ok onlyIf_false_run ((require_bind_of (decide_eq_true inside)).trans ?_)
  exact loadCode_same accessed (same.trans level.symm)

/-- A return to an outer level, once its code segment is checked (R490, R500). -/
theorem returnRest_outer_ok {s u v w x : State} {off : Word32} {cs : Word16} {pre : M Unit} {n : Word16} {d : Desc}
    (outer : s.cpl < selRpl cs) (ready : pre u = .ok () v) (stack : OuterStack s.osz.width (selRpl cs) n v w)
    (inside : off.toNat ≤ d.limit.toNat) (accessed : Accessed d w x) :
    returnRest s off cs pre n d u = .ok () (inCode x d cs off) := by
  have level : w.cpl = selRpl cs := by
    obtain ⟨_, _, _, _, _, _, _, _, _, _, _, _, _, _, _, _, rfl⟩ := stack
    rfl
  unfold returnRest
  rw [bind_run_ok ready, decide_eq_true outer, bind_run_ok (onlyIf_true_run.trans (outerStack_run stack))]
  exact (require_bind_of (decide_eq_true inside)).trans (loadCode_same accessed level)

theorem selRpl_refl {s t : State} {cs : Word16} (level : selRpl cs = s.cpl) (same : t.cpl = s.cpl) :
    t.cpl ≤ selRpl cs := by
  rw [same, level]
  exact BitVec.le_refl _

/-- A far RET within its level (R490). -/
theorem farReturn_same_ok {s t1 t2 s1 s2 : State} {off sel : BitVec s.osz.width.bits} {d : Desc} {n : Word16}
    {g : GRegs} (mode : s.mode = .prot) (popped1 : Popped s.osz.width off s t1) (popped2 : Popped s.osz.width sel t1 t2)
    (named : 4 ≤ (sel.setWidth 16 : Word16).toNat) (level : selRpl (sel.setWidth 16) = s.cpl)
    (found : DescriptorAt (sel.setWidth 16) d t2 s1) (direct : DirectCode d (sel.setWidth 16) s.cpl)
    (inside : (off.setWidth 32 : Word32).toNat ≤ d.limit.toNat)
    (released : releaseStack n s1 = .ok () { s1 with regs := g }) (accessed : Accessed d { s1 with regs := g } s2) :
    farReturn n s = .ok () (inCode s2 d (sel.setWidth 16) (off.setWidth 32)) := by
  have cpl2 : t2.cpl = s.cpl := dataOnly_cpl (dataOnly_trans (popped_dataOnly popped1) (popped_dataOnly popped2))
  have cpl1 : s1.cpl = s.cpl := (frame_cpl (descriptorAt_frame found)).trans cpl2
  rw [farReturn_prot_run mode popped1 popped2, bind_run_ok
    (returnDescriptor_ok named (selRpl_refl level cpl2) found (returnCode_of_direct level direct))]
  exact returnRest_same_ok level released cpl1 inside accessed

/-- Settles O38: the checks of R490 for code of the caller's level, then CS:EIP. -/
theorem farProtected : Obligations.FarProtected := by
  unfold Obligations.FarProtected
  intro s unlocked mode
  refine ⟨fun sel off i j s0 d s1 named forms found direct inside => ?_,
    fun off sel t1 t2 d s1 s2 n popped1 popped2 => ?_⟩
  · have runs := farForms_run forms
    have same := dataOnly_of_frame runs.frame
    have mode0 : s0.mode = .prot := (dataOnly_mode same).trans mode
    have cpl0 : s0.cpl = s.cpl := (dataOnly_cpl same).trans rfl
    have osz0 : s0.osz = s.osz := (dataOnly_osz same).trans rfl
    have segs0 : s0.segs = s.segs := (dataOnly_segs same).trans rfl
    have eip0 : s0.eip = s.eip := (dataOnly_eip same).trans rfl
    rw [← cpl0] at direct
    refine ⟨fun s2 accessed => runs.jump_ok unlocked (farJump_direct mode0 named found direct inside accessed),
      fun t1 t2 s2 pushed1 pushed2 accessed => ?_⟩
    rw [← osz0, ← segs0] at pushed1
    rw [← osz0, ← eip0] at pushed2
    exact runs.call_ok unlocked (farCall_direct mode0 named found direct inside pushed1 pushed2 accessed)
  · intro cs named level found direct inside
    have size : s1.stackSize = s.begun.stackSize := dataOnly_stackSize (dataOnly_trans (popped_dataOnly popped1)
      (dataOnly_trans (popped_dataOnly popped2) (dataOnly_of_frame (descriptorAt_frame found))))
    obtain ⟨g, moved, released⟩ := releaseStack_run (s := s.begun) size n
    refine ⟨g, moved, fun accessed => ?_⟩
    have run := farReturn_same_ok (s := s.begun) mode popped1 popped2 named level found direct inside released accessed
    refine ⟨runInstr_ok_noLock unlocked (m := farReturn n) run, fun zero => ?_⟩
    rw [zero] at run
    exact runInstr_ok_noLock unlocked (m := farReturn 0) run

/-! Shutdown. -/

theorem push_shutdown {s : State} (mode : s.mode ≠ .prot) (top : topOffset s = 1) (w : Width) (v : BitVec w.bits) :
    push w v s = .error .shutdown s := by
  have dead : s.pushShutsDown = true := by
    unfold State.pushShutsDown
    rw [sp_eq_topOffset, top]
    simpa using mode
  unfold push
  rw [get_bind_run]
  exact congrFun (if_pos dead) s

theorem pushSelector_shutdown {s : State} (mode : s.mode ≠ .prot) (top : topOffset s = 1) (z : Size) (sel : Word16) :
    ∃ n, pushSelector z sel s = .error .shutdown { s with free := n } := by
  cases z
  · exact ⟨s.free, push_shutdown mode top .w16 sel⟩
  · exact ⟨s.free + 1, push_shutdown (s := { s with free := s.free + 1 }) mode top .d32 _⟩

theorem runInstr_shutdown_noLock {lockable : Bool} {m : M Unit} {s t : State} (unlocked : s.pfx.lock = false)
    (hm : m s.begun = .error .shutdown t) : runInstr lockable m s = .next { t.settled with shutdown := true } :=
  runInstr_shutdown (fun locked => by simp [unlocked] at locked) hm

theorem FarRuns.call_shutdown {s : State} {sel : Word16} {off : Word32} {i j : Instr} {t u : State}
    (runs : FarRuns s sel off i j t) (unlocked : s.pfx.lock = false) (run : farCall sel off t = .error .shutdown u) :
    exec j s = .next { u.settled with shutdown := true } := by
  obtain ⟨m, arm, same⟩ := runs.call
  rw [arm]
  exact runInstr_shutdown_noLock unlocked (same.trans run)

theorem frame_topOffset {s t : State} (h : AccessFrame s t) : topOffset t = topOffset s := by
  rw [← sp_eq_topOffset, ← sp_eq_topOffset, frame_sp h]

theorem callNearTo_shutdown {s u : State} (same : DataOnly s u) {x : Word32} (ok : NearOk s (truncated s x))
    (mode : u.mode ≠ .prot) (top : topOffset u = 1) : callNearTo x u = .error .shutdown u :=
  seq_error (get_run u) (seq_error (nearTarget_ok same ok) (bind_run_error (push_shutdown mode top _ _)))

theorem pushAllRegs_shutdown {s : State} (mode : s.mode ≠ .prot)
    (top : topOffset s = 1 ∨ topOffset s = 3 ∨ topOffset s = 5) : pushAllRegs s = .error .shutdown s := by
  have dead : (s.mode != .prot && s.sp.toNat % 2 == 1 && decide (s.sp.toNat ≤ 5)) = true := by
    rw [sp_eq_topOffset]
    rcases top with h | h | h <;> simp [h, mode]
  unfold pushAllRegs
  rw [get_bind_run]
  exact congrFun (if_pos dead) s

theorem pushAllRegs_fault {s : State} (mode : s.mode ≠ .prot) (odd : (topOffset s).toNat % 2 = 1)
    (high : 7 ≤ (topOffset s).toNat) (low : (topOffset s).toNat ≤ 15) :
    pushAllRegs s = .error (.exc exn13) s := by
  have alive : ¬(s.mode != .prot && s.sp.toNat % 2 == 1 && decide (s.sp.toNat ≤ 5)) = true := by
    rw [sp_eq_topOffset]
    simp
    omega
  have fault : (s.mode != .prot && s.sp.toNat % 2 == 1 && decide (s.sp.toNat ≤ 15)) = true := by
    rw [sp_eq_topOffset]
    simp [odd, low, mode]
  unfold pushAllRegs
  rw [get_bind_run]
  exact (congrFun (if_neg alive) s).trans (congrFun (if_pos fault) s)

/-- Settles O51: the push that meets SP = 1 ends the instruction where it stands. -/
theorem stackShutdown : Obligations.StackShutdown := by
  unfold Obligations.StackShutdown
  intro s unlocked mode dead
  refine ⟨fun top => ?_, fun sel off i j s0 t forms pushed top => ?_, fun top => ?_, fun odd high low => ?_⟩
  · have here (w : Width) (v : BitVec w.bits) := push_shutdown (s := s.begun) mode top w v
    refine ⟨fun r => ?_, fun v => ?_, fun v => ?_, fun m l s1 located => ?_, fun i listed => ?_, fun allowed => ?_,
      fun d ok => ?_, fun m l s1 located ok => ?_, fun sel off i j s0 forms => ?_, fun size level => ?_⟩
    · exact runInstr_shutdown_noLock unlocked (m := pushReg s.osz.width r) (seq_error (getReg_run _ r _) (here _ _))
    · exact runInstr_shutdown_noLock unlocked (m := push s.osz.width (sext _ v)) (here _ _)
    · exact runInstr_shutdown_noLock unlocked (m := push s.osz.width (Sized.at _ v)) (here _ _)
    · have frame := locate_frame located
      exact runInstr_shutdown_noLock unlocked (m := pushRm s.osz.width m) (seq_error (readRM_run_ok located)
        (push_shutdown (by rwa [frame_mode frame]) (by rwa [frame_topOffset frame]) _ _))
    · obtain ⟨sr, form⟩ : ∃ sr, (sr, i) ∈ [(SReg.cs, Instr.pushCs), (.ds, .pushDs), (.es, .pushEs), (.ss, .pushSs),
          (.fs, .pushFs), (.gs, .pushGs)] := by
        simp only [List.mem_cons, List.not_mem_nil, or_false] at listed
        rcases listed with rfl | rfl | rfl | rfl | rfl | rfl <;> exact ⟨_, by simp; rfl⟩
      obtain ⟨n, run⟩ := pushSelector_shutdown (s := s.begun) mode top s.osz (s.segs.get sr).sel
      rw [exec_pushSreg form]
      exact ⟨n, runInstr_shutdown_noLock unlocked (m := pushSreg sr) (seq_error (get_run _) run)⟩
    · exact runInstr_shutdown_noLock unlocked (m := pushFlags) (seq_error (requireIoplV86_run (s := s.begun) allowed)
        (seq_error (get_run _) (here _ _)))
    · exact runInstr_shutdown_noLock unlocked (m := callRel (Sized.sext d))
        (callNearTo_shutdown (dataOnly_refl s.begun) ok mode top)
    · have frame := locate_frame located
      rw [← truncated_setWidth s (s1.valueAt s.osz.width l)] at ok
      exact runInstr_shutdown_noLock unlocked ((callRm_run located).trans
        (callNearTo_shutdown (dataOnly_of_frame frame) ok (by rwa [frame_mode frame]) (by rwa [frame_topOffset frame])))
    · have runs := farForms_run forms
      have mode0 : s0.mode ≠ .prot := by rwa [frame_mode runs.frame]
      obtain ⟨n, run⟩ := pushSelector_shutdown mode0 (by rwa [frame_topOffset runs.frame]) s0.osz s0.segs.cs.sel
      exact ⟨n, runs.call_shutdown unlocked
        ((farCall_real mode0 sel off).trans (bind_run_error (bind_run_error run)))⟩
    · exact runInstr_shutdown_noLock unlocked (m := enterFrame size level)
        (seq_error (get_run _) (bind_run_error (here _ _)))
  · have runs := farForms_run forms
    have same := dataOnly_of_frame runs.frame
    have mode0 : s0.mode ≠ .prot := by rwa [frame_mode runs.frame]
    have modeT : t.mode ≠ .prot := by rwa [dataOnly_mode (pushedSel_dataOnly pushed)]
    have osz0 : s0.osz = s.osz := (dataOnly_osz same).trans rfl
    have segs0 : s0.segs = s.segs := (dataOnly_segs same).trans rfl
    rw [← osz0, ← segs0] at pushed
    exact runs.call_shutdown unlocked ((farCall_real mode0 sel off).trans
      (bind_run_error (seq_error (pushedSel_iff.mp pushed) (push_shutdown modeT top _ _))))
  · exact runInstr_shutdown_noLock unlocked (pushAllRegs_shutdown (s := s.begun) mode top)
  · exact runInstr_exc_noLock unlocked (pushAllRegs_fault (s := s.begun) mode odd high low)

end Sys2Proof.Machine

namespace Sys2Proof.Settled

open Sys2Proof.Safety Sys2Proof.Claims Sys2Proof.Machine

/-- Settles O37: the pointer, for CALL the return address, then CS and EIP. -/
theorem farReal : Obligations.FarReal := by
  unfold Obligations.FarReal
  intro s unlocked mode
  refine ⟨fun off sel inside => ⟨?_, fun t1 t2 pushed1 pushed2 => ?_⟩,
    fun m off sel s1 pointer inside => ⟨?_, fun t1 t2 pushed1 pushed2 => ?_⟩,
    fun off sel t1 t2 popped1 popped2 inside => ⟨?_, fun n => ?_⟩⟩
  · have runs := farForms_run (.inl ⟨off, rfl, rfl, rfl, rfl⟩ : FarForms s sel _ _ _ _)
    exact runs.jump_ok unlocked (farJump_real_ok (s := s.begun) mode (dataOnly_refl _) inside)
  · have runs := farForms_run (.inl ⟨off, rfl, rfl, rfl, rfl⟩ : FarForms s sel _ _ _ _)
    exact runs.call_ok unlocked (farCall_real_ok (s := s.begun) mode (dataOnly_refl _) pushed1 pushed2 inside)
  · have runs := farForms_run (.inr ⟨m, off, pointer, rfl, rfl, rfl⟩ : FarForms s sel _ _ _ _)
    rw [← truncated_setWidth s.begun off] at inside ⊢
    exact runs.jump_ok unlocked (farJump_real_ok (s := s.begun) mode (dataOnly_of_frame runs.frame) inside)
  · have runs := farForms_run (.inr ⟨m, off, pointer, rfl, rfl, rfl⟩ : FarForms s sel _ _ _ _)
    rw [← truncated_setWidth s.begun off] at inside ⊢
    exact runs.call_ok unlocked
      (farCall_real_ok (s := s.begun) mode (dataOnly_of_frame runs.frame) pushed1 pushed2 inside)
  · have run := farReturn_real_run (s := s.begun) mode popped1 popped2 inside 0
    exact runInstr_ok_noLock unlocked (run.trans (releaseStack_zero _))
  · have run := farReturn_real_run (s := s.begun) mode popped1 popped2 inside n
    have same := dataOnly_trans (popped_dataOnly popped1) (popped_dataOnly popped2)
    have size : (inReal t2 (sel.setWidth 16) (off.setWidth 32)).stackSize = s.stackSize := by
      have real : (inReal t2 (sel.setWidth 16) (off.setWidth 32)).mode = s.mode :=
        (dataOnly_mode same : t2.mode = s.begun.mode)
      rw [stackSize_real mode, stackSize_real (by rwa [real])]
    obtain ⟨g, moved, released⟩ := releaseStack_run size n
    exact ⟨g, moved, runInstr_ok_noLock unlocked (run.trans released)⟩

end Sys2Proof.Settled
end

