-- ==== Sys2Proof/Proofs/Returns.lean ====
section
/-! SUPPORT. IRET in every mode and the returns to an outer level (R490, R500, R575). -/

namespace Sys2Proof.Machine

open Sys2Proof.Safety Sys2Proof.Claims

/-! The flags IRET loads. -/

theorem image_bit {n : Nat} (img : BitVec n) {k : Nat} (small : k < 32) :
    (img.setWidth 32 : Word32).getLsbD k = img.getLsbD k := by
  rw [BitVec.getLsbD_setWidth, decide_eq_true small, Bool.true_and]

theorem iretProt_imageFlags (z : Size) (level : BitVec 2) (old : Flags) (v : Word32) :
    ImageFlags v (old.iretProt z level v) := by
  constructor <;> rfl

theorem iretReal_imageFlags (z : Size) (old : Flags) (v : Word32) :
    ImageFlags v (old.iretReal z v) ∧ ImageFlags v (old.iretV86 z v) := by
  constructor <;> constructor <;> rfl

/-- The rules of R500 for mode P determine the flags. -/
theorem returnFlags_eq {s : State} {v : Word32} {f : Flags} (h : ReturnFlags s v f) (vm : s.flags.vm = false) :
    s.flags.iretProt s.osz s.cpl v = f := by
  obtain ⟨⟨cf, pf, af, zf, sf, tf, df, of, nt⟩, iopl, ifl, rf, vm'⟩ := h
  cases f
  simp only at cf pf af zf sf tf df of nt iopl ifl rf vm'
  subst cf pf af zf sf tf df of nt iopl ifl rf vm'
  simp only [Flags.iretProt, Flags.popf, Flags.ofImage, vm]

/-! IRET in modes R and V. -/

/-- What every IRET ends with (R500, R575). -/
def afterIret (s : State) (t : State) : State :=
  { t with nmiMask := false, rfKept := t.rfKept || decide (s.osz = .s32) }

theorem interruptReturn_prot {s : State} (mode : s.mode = .prot) (noTask : s.flags.nt = false) :
    interruptReturn s = (iretProt >>= fun _ => modify (afterIret s)) s := by
  unfold interruptReturn
  rw [get_bind_run, mode, noTask]
  rfl

theorem interruptReturn_task {s : State} (mode : s.mode = .prot) (nested : s.flags.nt = true) :
    interruptReturn s = (iretTask >>= fun _ => modify (afterIret s)) s := by
  unfold interruptReturn
  rw [get_bind_run, mode, nested]
  rfl

theorem interruptReturn_real {s : State} (mode : s.mode = .real ∨ s.mode = .v86 ∧ s.flags.iopl = 3) :
    interruptReturn s = (iretReal >>= fun _ => modify (afterIret s)) s := by
  unfold interruptReturn
  rw [get_bind_run]
  rcases mode with mode | ⟨mode, iopl⟩
  · rw [mode]
    rfl
  · rw [mode]
    exact (require_bind_of (by simp [iopl])).trans rfl

theorem iretReal_run {s t1 t2 t3 : State} {off sel img : BitVec s.osz.width.bits} (popped1 : Popped s.osz.width off s t1)
    (popped2 : Popped s.osz.width sel t1 t2) (popped3 : Popped s.osz.width img t2 t3) :
    iretReal s = (do
      require (decide ((off.setWidth 32 : Word32) ≤ 0xFFFF)) exn13
      loadSegReal .cs (sel.setWidth 16)
      putEip (off.setWidth 32)
      putFlags (if s.mode = .real then s.flags.iretReal s.osz (img.setWidth 32)
        else s.flags.iretV86 s.osz (img.setWidth 32)) : M Unit) t3 := by
  unfold iretReal
  rw [get_bind_run, bind_run_ok (popped_iff.mp popped1), bind_run_ok (popped_iff.mp popped2),
    bind_run_ok (popped_iff.mp popped3)]

theorem iretReal_ok {s t1 t2 t3 : State} {off sel img : BitVec s.osz.width.bits} (popped1 : Popped s.osz.width off s t1)
    (popped2 : Popped s.osz.width sel t1 t2) (popped3 : Popped s.osz.width img t2 t3)
    (inside : (off.setWidth 32 : Word32).toNat ≤ 0xFFFF) :
    iretReal s = .ok () { inReal t3 (sel.setWidth 16) (off.setWidth 32) with
      flags := if s.mode = .real then s.flags.iretReal s.osz (img.setWidth 32)
        else s.flags.iretV86 s.osz (img.setWidth 32) } := by
  rw [iretReal_run popped1 popped2 popped3]
  refine (require_bind_of (decide_eq_true inside)).trans ?_
  rw [bind_run_ok (loadSegReal_run .cs _ t3), loadReal_eq]
  rfl

/-! IRET in mode P. -/

/-- IRET within a task up to the check of its code segment (R500). -/
theorem iretProt_run {s t1 t2 t3 : State} {off sel img : BitVec s.osz.width.bits} (popped1 : Popped s.osz.width off s t1)
    (popped2 : Popped s.osz.width sel t1 t2) (popped3 : Popped s.osz.width img t2 t3)
    (stays : ¬(s.osz = .s32 ∧ img.getLsbD 17 = true ∧ s.cpl = 0)) :
    iretProt s = (returnDescriptor (sel.setWidth 16) >>= returnRest s (off.setWidth 32) (sel.setWidth 16)
      (putFlags (s.flags.iretProt s.osz s.cpl (img.setWidth 32))) 0) t3 := by
  have here : ¬(s.osz = .s32 && (img.setWidth 32 : Word32).getLsbD 17 && s.cpl == 0) = true := by
    rw [image_bit img (by decide)]
    simpa [and_assoc] using stays
  unfold iretProt
  rw [get_bind_run, bind_run_ok (popped_iff.mp popped1), bind_run_ok (popped_iff.mp popped2),
    bind_run_ok (popped_iff.mp popped3)]
  exact congrFun (if_neg here) t3

/-- RF that was loaded stays, as it does after nothing but IRET with 32 bits (R500; log entry 16). -/
theorem afterIret_eq {s t : State} (fresh : t.rfKept = false) :
    afterIret s t = { t with nmiMask := false, rfKept := decide (s.osz = .s32) } := by
  unfold afterIret
  rw [fresh, Bool.false_or]

theorem afterIret_wide {s : State} (size : s.osz = .s32) (t : State) :
    afterIret s t = { t with nmiMask := false, rfKept := true } := by
  unfold afterIret
  rw [decide_eq_true size, Bool.or_true]

theorem iret_ok {s t : State} (unlocked : s.pfx.lock = false)
    (run : interruptReturn s.begun = .ok () (afterIret s.begun t)) (fresh : t.rfKept = false) :
    exec .iret s = .next (finished s { t with nmiMask := false, rfKept := decide (s.osz = .s32) }) := by
  have done : exec .iret s = .next (finished s (afterIret s.begun t)) :=
    runInstr_ok_noLock unlocked (m := interruptReturn) run
  rw [done, afterIret_eq fresh]
  rfl

/-- An IRET in modes R and V, to its end (R500, R575). -/
theorem iret_real_ok {s t1 t2 t3 : State} {off sel img : BitVec s.osz.width.bits} (unlocked : s.pfx.lock = false)
    (mode : s.mode = .real ∨ s.mode = .v86 ∧ s.flags.iopl = 3)
    (popped1 : Popped s.osz.width off s.begun t1) (popped2 : Popped s.osz.width sel t1 t2)
    (popped3 : Popped s.osz.width img t2 t3) (inside : (off.setWidth 32 : Word32).toNat ≤ 0xFFFF) :
    exec .iret s = .next (finished s { inReal t3 (sel.setWidth 16) (off.setWidth 32) with
      flags := if s.mode = .real then s.flags.iretReal s.osz (img.setWidth 32)
        else s.flags.iretV86 s.osz (img.setWidth 32)
      nmiMask := false
      rfKept := decide (s.osz = .s32) }) := by
  have fresh : t3.rfKept = s.begun.rfKept := dataOnly_rfKept (dataOnly_trans (popped_dataOnly popped1)
    (dataOnly_trans (popped_dataOnly popped2) (popped_dataOnly popped3)))
  have run := iretReal_ok (s := s.begun) popped1 popped2 popped3 inside
  exact iret_ok unlocked ((interruptReturn_real (s := s.begun) mode).trans (seq_ok run rfl)) fresh

/-- An IRET of mode P within a task, once the rest of it ran (R500, R575). -/
theorem iret_prot_ok {s t1 t2 t3 s1 t : State} {off sel img : BitVec s.osz.width.bits} {d : Desc}
    (unlocked : s.pfx.lock = false) (mode : s.mode = .prot) (noTask : s.flags.nt = false)
    (popped1 : Popped s.osz.width off s.begun t1) (popped2 : Popped s.osz.width sel t1 t2)
    (popped3 : Popped s.osz.width img t2 t3) (stays : ¬(s.osz = .s32 ∧ img.getLsbD 17 = true ∧ s.cpl = 0))
    (checked : returnDescriptor (sel.setWidth 16) t3 = .ok d s1)
    (rest : returnRest s.begun (off.setWidth 32) (sel.setWidth 16)
      (putFlags (s.flags.iretProt s.osz s.cpl (img.setWidth 32))) 0 d s1 = .ok () t) (fresh : t.rfKept = false) :
    exec .iret s = .next (finished s { t with nmiMask := false, rfKept := decide (s.osz = .s32) }) := by
  have run : iretProt s.begun = .ok () t :=
    (iretProt_run (s := s.begun) popped1 popped2 popped3 stays).trans (seq_ok checked rest)
  exact iret_ok unlocked ((interruptReturn_prot (s := s.begun) mode noTask).trans (seq_ok run rfl)) fresh

/-- Settles O44: the three items are popped, CS and EIP loaded as the mode says, and the flags by their rules. -/
theorem interruptReturns : Obligations.InterruptReturns := by
  unfold Obligations.InterruptReturns
  refine ⟨fun s t1 t2 t3 off sel img unlocked mode popped1 popped2 popped3 inside => ?_,
    fun s t1 t2 t3 s1 s2 off sel img d unlocked mode noTask popped1 popped2 popped3 stays => ?_⟩
  · refine ⟨_, ?_, ?_, ?_, ?_, ?_, iret_real_ok unlocked mode popped1 popped2 popped3 inside⟩
    · split
      · exact (iretReal_imageFlags _ _ _).1
      · exact (iretReal_imageFlags _ _ _).2
    · split <;> exact image_bit img (by decide)
    · split <;> rfl
    · rw [← image_bit img (by decide : 16 < 32)]
      split <;> rfl
    · split <;> rfl
  · intro cs named level found direct inside
    have same : DataOnly s.begun t3 := dataOnly_trans (popped_dataOnly popped1)
      (dataOnly_trans (popped_dataOnly popped2) (popped_dataOnly popped3))
    have same1 := dataOnly_trans same (dataOnly_of_frame (descriptorAt_frame found))
    have cpl3 : t3.cpl = s.cpl := (dataOnly_cpl same).trans rfl
    refine ⟨_, iretProt_imageFlags s.osz s.cpl s.flags _, rfl, ?_, ?_, mode_prot_vm mode, fun accessed => ?_⟩
    · rw [← image_bit img (by decide : 9 < 32)]
      rfl
    · rw [← image_bit img (by decide : 16 < 32)]
      rfl
    · have checked := returnDescriptor_ok named (selRpl_refl level cpl3) found (returnCode_of_direct level direct)
      refine iret_prot_ok unlocked mode noTask popped1 popped2 popped3 stays checked
        (returnRest_same_ok (s := s.begun) level rfl ((dataOnly_cpl same1 : s1.cpl = _)) inside accessed) ?_
      exact (dataOnly_rfKept (accessed_dataOnly accessed)).trans (dataOnly_rfKept same1)

/-! IRETD to a virtual-8086 task. -/

theorem iretToV86_run {off esp ss es ds fs gs img : Word32} {sel : Word16} {t3 t4 t5 t6 t7 t8 t9 : State}
    (popped4 : Popped .d32 esp t3 t4) (popped5 : Popped .d32 ss t4 t5) (popped6 : Popped .d32 es t5 t6)
    (popped7 : Popped .d32 ds t6 t7) (popped8 : Popped .d32 fs t7 t8) (popped9 : Popped .d32 gs t8 t9) :
    iretToV86 off sel img t3 = .ok () (goTo { t9 with
      flags := Flags.ofImage img
      cpl := 3
      regs := t9.regs.set .esp esp
      segs :=
        { es := realSeg t9.segs.es (es.setWidth 16)
          cs := realSeg t9.segs.cs sel
          ss := realSeg t9.segs.ss (ss.setWidth 16)
          ds := realSeg t9.segs.ds (ds.setWidth 16)
          fs := realSeg t9.segs.fs (fs.setWidth 16)
          gs := realSeg t9.segs.gs (gs.setWidth 16) } } off) := by
  unfold iretToV86
  rw [bind_run_ok (popped_iff.mp popped4), bind_run_ok (popped_iff.mp popped5), bind_run_ok (popped_iff.mp popped6),
    bind_run_ok (popped_iff.mp popped7), bind_run_ok (popped_iff.mp popped8), bind_run_ok (popped_iff.mp popped9)]
  simp only [← loadReal_eq]
  rfl

theorem outerStack_rfKept {w : Width} {rpl : BitVec 2} {n : Word16} {s t : State} (stack : OuterStack w rpl n s t) :
    t.rfKept = s.rfKept := by
  obtain ⟨_, _, _, _, _, _, _, popped1, popped2, _, found, _, _, _, _, accessed, rfl⟩ := stack
  exact (dataOnly_rfKept (dataOnly_trans (popped_dataOnly popped1) (dataOnly_trans (popped_dataOnly popped2)
    (dataOnly_trans (dataOnly_of_frame (descriptorAt_frame found)) (accessed_dataOnly accessed))))).trans rfl

/-- Settles O40: the code segment is checked, then the stack of the outer level, and CS:EIP last. -/
theorem outerReturns : Obligations.OuterReturns := by
  unfold Obligations.OuterReturns
  intro s unlocked mode
  refine ⟨fun off sel t1 t2 d s1 s2 s3 g n popped1 popped2 => ?_,
    fun noTask off sel img t1 t2 t3 d s1 s2 s3 f popped1 popped2 popped3 stays => ?_,
    fun noTask size level off sel img esp ss es ds fs gs t1 t2 t3 t4 t5 t6 t7 t8 t9 f popped1 popped2 popped3 vm => ?_⟩
  · intro cs named outer found code inside moved stack accessed
    have same : DataOnly s.begun t2 := dataOnly_trans (popped_dataOnly popped1) (popped_dataOnly popped2)
    have cpl2 : t2.cpl = s.cpl := (dataOnly_cpl same).trans rfl
    have size : s1.stackSize = s.begun.stackSize :=
      dataOnly_stackSize (dataOnly_trans same (dataOnly_of_frame (descriptorAt_frame found)))
    obtain ⟨g', moved', released⟩ := releaseStack_run (s := s.begun) size n
    have regs : g' = g := (spMoved_iff.mp moved').trans (spMoved_iff.mp moved).symm
    subst regs
    have checked := returnDescriptor_ok named (by rw [cpl2]; exact BitVec.le_of_lt outer) found code
    have run := (farReturn_prot_run (s := s.begun) mode popped1 popped2 n).trans
      (seq_ok checked (returnRest_outer_ok (s := s.begun) outer released stack inside accessed))
    refine ⟨runInstr_ok_noLock unlocked (m := farReturn n) run, fun zero => ?_⟩
    rw [zero] at run
    exact runInstr_ok_noLock unlocked (m := farReturn 0) run
  · intro cs named outer found code inside image iopl ifl rf vm stack accessed
    have same : DataOnly s.begun t3 := dataOnly_trans (popped_dataOnly popped1)
      (dataOnly_trans (popped_dataOnly popped2) (popped_dataOnly popped3))
    have cpl3 : t3.cpl = s.cpl := (dataOnly_cpl same).trans rfl
    have flags : s.flags.iretProt s.osz s.cpl (img.setWidth 32) = f := by
      rw [← image_bit img (by decide : 9 < 32)] at ifl
      rw [← image_bit img (by decide : 16 < 32)] at rf
      exact returnFlags_eq ⟨image, iopl, ifl, rf, vm⟩ (mode_prot_vm mode)
    have checked := returnDescriptor_ok named (by rw [cpl3]; exact BitVec.le_of_lt outer) found code
    have ready : putFlags (s.flags.iretProt s.osz s.cpl (img.setWidth 32)) s1 = .ok () { s1 with flags := f } := by
      rw [flags]
      rfl
    refine iret_prot_ok unlocked mode noTask popped1 popped2 popped3 stays checked
      (returnRest_outer_ok (s := s.begun) outer ready stack inside accessed) ?_
    have kept := dataOnly_rfKept (dataOnly_trans same (dataOnly_of_frame (descriptorAt_frame found)))
    exact (dataOnly_rfKept (accessed_dataOnly accessed)).trans ((outerStack_rfKept stack).trans (kept.trans rfl))
  · intro popped4 popped5 popped6 popped7 popped8 popped9 image ifl iopl rf vmLoaded
    have flags := imageFlags_eq image ifl iopl rf (vmLoaded.trans vm.symm)
    subst flags
    have width : s.begun.osz = .s32 := size
    have run : iretProt s.begun = iretToV86 off (sel.setWidth 16) img t3 := by
      unfold iretProt
      rw [get_bind_run, width, bind_run_ok (popped_iff.mp popped1), bind_run_ok (popped_iff.mp popped2),
        bind_run_ok (popped_iff.mp popped3)]
      exact congrFun (if_pos (by simp [Size.width, vm, level])) t3
    rw [iretToV86_run popped4 popped5 popped6 popped7 popped8 popped9] at run
    have last (t : State) : (modify (afterIret s.begun) : M Unit) t = .ok () { t with nmiMask := false, rfKept := true } :=
      congrArg (EStateM.Result.ok ()) (afterIret_wide width t)
    have all := (interruptReturn_prot (s := s.begun) mode noTask).trans (seq_ok run (last _))
    exact runInstr_ok_noLock unlocked (m := interruptReturn) all

end Sys2Proof.Machine
end

