-- ==== Sys2Proof/Proofs/FarFaults.lean ====
section
/-! SUPPORT. Call gates, and the far transfers that R490 forbids. -/

namespace Sys2Proof.Machine

open Sys2Proof.Safety Sys2Proof.Claims

/-! Selectors. -/

theorem selCode_null {sel : Word16} (null : sel.toNat < 4) : selCode sel = 0 := by
  have small : ∀ n < 4, BitVec.ofNat 16 n &&& 0xFFFC = 0 := by decide
  have := small sel.toNat null
  rwa [BitVec.ofNat_toNat, BitVec.setWidth_eq] at this

theorem require_selNull_fails {sel : Word16} (null : sel.toNat < 4) : (!selNull sel) = false := by
  rw [selNull_iff.mpr null]
  rfl

theorem not_inside {off limit : Word32} (beyond : off.toNat > limit.toNat) : ¬off ≤ limit :=
  Nat.not_le.mpr beyond

theorem outsideTable_congr {s t : State} (same : DataOnly s t) (sel : Word16) :
    OutsideTable t sel ↔ OutsideTable s sel := by
  unfold OutsideTable
  rw [same]

/-! The kinds of a descriptor a far transfer may name exclude each other (R119). -/

theorem callGate_not_code {d : Desc} (gate : d.isCallGate = true) : d.isCode = false := by
  unfold Desc.isCallGate at gate
  unfold Desc.isCode
  cases h : d.s <;> simp_all

theorem taskGate_not_code {d : Desc} (gate : d.isTaskGate = true) : d.isCode = false ∧ d.isCallGate = false := by
  unfold Desc.isTaskGate at gate
  unfold Desc.isCode Desc.isCallGate
  cases h : d.s
  · rw [h] at gate
    have type : d.sysType = 5 := by simpa using gate
    simp [type]
  · rw [h] at gate
    cases gate

theorem directAllowed_iff (d : Desc) (sel : Word16) (cpl : BitVec 2) :
    (if d.conforming then decide (d.dpl ≤ cpl) else decide (selRpl sel ≤ cpl) && d.dpl == cpl) = true ↔
      (if d.conforming then d.dpl ≤ cpl else selRpl sel ≤ cpl ∧ d.dpl = cpl) := by
  cases d.conforming <;> simp

/-! JMP and CALL in mode P by the kind of the descriptor (R490). -/

section
variable {s s1 : State} {call : Bool} {sel : Word16} {off : Word32} {d : Desc}

theorem farProt_null (null : sel.toNat < 4) : farProt call sel off s = .error (.exc (exnGP 0)) s := by
  unfold farProt
  rw [get_bind_run]
  exact require_bind_fail (require_selNull_fails null)

theorem farProt_outside (named : 4 ≤ sel.toNat) (outside : OutsideTable s sel) :
    farProt call sel off s = .error (.exc (exnGP (selCode sel))) s := by
  unfold farProt
  rw [get_bind_run]
  exact (require_bind_of (require_selNull_ok named)).trans (bind_run_error (readDescriptor_outside outside))

/-- A descriptor of code: its privilege, presence and limit are checked in this order (R490). -/
theorem farProt_code_fails {cpl : BitVec 2} {e : Exn} (level : s.cpl = cpl) (named : 4 ≤ sel.toNat)
    (found : DescriptorAt sel d s s1) (code : d.isCode = true)
    (fails : let may := if d.conforming then d.dpl ≤ cpl else selRpl sel ≤ cpl ∧ d.dpl = cpl
      ¬may ∧ e = exnGP (selCode sel) ∨ may ∧ d.p = false ∧ e = exnNP (selCode sel) ∨
        may ∧ d.p = true ∧ off.toNat > d.limit.toNat ∧ e = exnGP 0) :
    farProt call sel off s = .error (.exc e) s1 := by
  subst level
  unfold farProt
  rw [get_bind_run]
  refine (require_bind_of (require_selNull_ok named)).trans ?_
  rw [bind_run_ok (descriptorAt_run found _)]
  refine (congrFun (if_pos code) s1).trans ?_
  rcases fails with ⟨may, rfl⟩ | ⟨may, absent, rfl⟩ | ⟨may, present, beyond, rfl⟩
  · exact require_bind_fail (Bool.eq_false_iff.mpr (mt (directAllowed_iff d sel s.cpl).mp may))
  · exact (require_bind_of ((directAllowed_iff d sel s.cpl).mpr may)).trans (require_bind_fail absent)
  · exact (require_bind_of ((directAllowed_iff d sel s.cpl).mpr may)).trans ((require_bind_of present).trans
      (require_bind_fail (decide_eq_false (not_inside beyond))))

theorem farProt_callGate (named : 4 ≤ sel.toNat) (found : DescriptorAt sel d s s1) (gate : d.isCallGate = true) :
    farProt call sel off s = gateCall call sel d s1 := by
  unfold farProt
  rw [get_bind_run]
  refine (require_bind_of (require_selNull_ok named)).trans ?_
  rw [bind_run_ok (descriptorAt_run found _)]
  exact (congrFun (if_neg (by simp [callGate_not_code gate])) s1).trans (congrFun (if_pos gate) s1)

theorem farProt_task (named : 4 ≤ sel.toNat) (found : DescriptorAt sel d s s1) (code : d.isCode = false)
    (callGate : d.isCallGate = false) (task : (d.isTaskGate || d.isTss) = true) :
    farProt call sel off s = taskTransfer (if call then .call else .jmp) sel d s.eip s1 := by
  unfold farProt
  rw [get_bind_run]
  refine (require_bind_of (require_selNull_ok named)).trans ?_
  rw [bind_run_ok (descriptorAt_run found _)]
  exact (congrFun (if_neg (by simp [code])) s1).trans ((congrFun (if_neg (by simp [callGate])) s1).trans
    (congrFun (if_pos task) s1))

theorem farProt_other (named : 4 ≤ sel.toNat) (found : DescriptorAt sel d s s1) (code : d.isCode = false)
    (callGate : d.isCallGate = false) (taskGate : d.isTaskGate = false) (tss : d.isTss = false) :
    farProt call sel off s = .error (.exc (exnGP (selCode sel))) s1 := by
  unfold farProt
  rw [get_bind_run]
  refine (require_bind_of (require_selNull_ok named)).trans ?_
  rw [bind_run_ok (descriptorAt_run found _)]
  exact (congrFun (if_neg (by simp [code])) s1).trans ((congrFun (if_neg (by simp [callGate])) s1).trans
    ((congrFun (if_neg (by simp [taskGate, tss])) s1).trans rfl))

end

/-- The privilege and the presence of a task gate come first (R126, R596). -/
theorem taskTransfer_gate_fails {cause : TaskCause} {sel : Word16} {d : Desc} {ret : Word32} {s : State}
    {cpl : BitVec 2} {e : Exn} (level : s.cpl = cpl) (gate : d.isTaskGate = true)
    (fails : let use := cpl ≤ d.dpl ∧ selRpl sel ≤ d.dpl
      ¬use ∧ e = exnGP (selCode sel) ∨ use ∧ d.p = false ∧ e = exnNP (selCode sel)) :
    taskTransfer cause sel d ret s = .error (.exc e) s := by
  subst level
  unfold taskTransfer
  rw [get_bind_run]
  refine (congrFun (if_pos gate) s).trans ?_
  rcases fails with ⟨use, rfl⟩ | ⟨use, absent, rfl⟩
  · exact require_bind_fail (Bool.eq_false_iff.mpr fun h => use (by simpa using h))
  · exact (require_bind_of (by simpa using use)).trans (require_bind_fail absent)

/-! Through a call gate. -/

/-- What follows the check of the target of a call gate (R490). -/
def gateInto (call : Bool) (g c : Desc) (cpl : BitVec 2) : M Unit := do
  require (call || c.dpl == cpl || c.conforming) (exnGP (selCode g.gateSel))
  onlyIf call (gateFrame g.gateSize g.gateCount c)
  require (decide (g.gateOff ≤ c.limit)) (exnGP 0)
  loadCodeSeg c g.gateSel (if c.conforming then cpl else c.dpl)
  putEip g.gateOff

/-- What follows the checks of a call gate itself (R490). -/
def gateThrough (call : Bool) (g : Desc) (cpl : BitVec 2) : M Unit := do
  require (!selNull g.gateSel) (exnGP (selCode g.gateSel))
  let c ← readDescriptor g.gateSel (exnGP (selCode g.gateSel))
  require (c.isCode && decide (c.dpl ≤ cpl)) (exnGP (selCode g.gateSel))
  require c.p (exnNP (selCode g.gateSel))
  gateInto call g c cpl

section
variable {s s1 : State} {call : Bool} {sel : Word16} {g c : Desc} {cpl : BitVec 2} {e : Exn}

theorem gateCall_usable (level : s.cpl = cpl) (use : cpl ≤ g.dpl ∧ selRpl sel ≤ g.dpl) (present : g.p = true) :
    gateCall call sel g s = gateThrough call g cpl s := by
  subst level
  unfold gateCall
  rw [get_bind_run]
  exact (require_bind_of (by simpa using use)).trans (require_bind_of present)

theorem gateCall_fails (level : s.cpl = cpl)
    (fails : let use := cpl ≤ g.dpl ∧ selRpl sel ≤ g.dpl
      ¬use ∧ e = exnGP (selCode sel) ∨ use ∧ g.p = false ∧ e = exnNP (selCode sel)) :
    gateCall call sel g s = .error (.exc e) s := by
  subst level
  unfold gateCall
  rw [get_bind_run]
  rcases fails with ⟨use, rfl⟩ | ⟨use, absent, rfl⟩
  · exact require_bind_fail (Bool.eq_false_iff.mpr fun h => use (by simpa using h))
  · exact (require_bind_of (by simpa using use)).trans (require_bind_fail absent)

theorem gateThrough_null (null : g.gateSel.toNat < 4) :
    gateThrough call g cpl s = .error (.exc (exnGP 0)) s := by
  rw [← selCode_null null]
  exact require_bind_fail (require_selNull_fails null)

theorem gateThrough_outside (named : 4 ≤ g.gateSel.toNat) (outside : OutsideTable s g.gateSel) :
    gateThrough call g cpl s = .error (.exc (exnGP (selCode g.gateSel))) s :=
  (require_bind_of (require_selNull_ok named)).trans (bind_run_error (readDescriptor_outside outside))

theorem gateThrough_target_fails (named : 4 ≤ g.gateSel.toNat) (found : DescriptorAt g.gateSel c s s1)
    (fails : ¬(c.isCode = true ∧ c.dpl ≤ cpl) ∧ e = exnGP (selCode g.gateSel) ∨
      (c.isCode = true ∧ c.dpl ≤ cpl) ∧ c.p = false ∧ e = exnNP (selCode g.gateSel)) :
    gateThrough call g cpl s = .error (.exc e) s1 := by
  refine (require_bind_of (require_selNull_ok named)).trans ?_
  rw [bind_run_ok (descriptorAt_run found _)]
  rcases fails with ⟨may, rfl⟩ | ⟨may, absent, rfl⟩
  · exact require_bind_fail (Bool.eq_false_iff.mpr fun h => may (by simpa using h))
  · exact (require_bind_of (by simpa using may)).trans (require_bind_fail absent)

theorem gateThrough_target (named : 4 ≤ g.gateSel.toNat) (found : DescriptorAt g.gateSel c s s1)
    (may : c.isCode = true ∧ c.dpl ≤ cpl) (present : c.p = true) :
    gateThrough call g cpl s = gateInto call g c cpl s1 := by
  refine (require_bind_of (require_selNull_ok named)).trans ?_
  rw [bind_run_ok (descriptorAt_run found _)]
  exact (require_bind_of (by simpa using may)).trans (require_bind_of present)

/-- A JMP does not go to inner code (R490; log entry 27). -/
theorem gateInto_jump_inner (inner : c.dpl < cpl) (ordinary : c.conforming = false) :
    gateInto false g c cpl s = .error (.exc (exnGP (selCode g.gateSel))) s := by
  have other : c.dpl ≠ cpl := fun h => BitVec.lt_irrefl _ (h ▸ inner)
  exact require_bind_fail (by simp [other, ordinary])

theorem gateInto_jump_limit (stays : c.conforming = true ∨ c.dpl = cpl) (beyond : g.gateOff.toNat > c.limit.toNat) :
    gateInto false g c cpl s = .error (.exc (exnGP 0)) s := by
  have stays : (false || c.dpl == cpl || c.conforming) = true := by
    rcases stays with h | h <;> simp [h]
  refine (require_bind_of stays).trans (seq_error onlyIf_false_run ?_)
  exact require_bind_fail (decide_eq_false (not_inside beyond))

/-- A CALL to inner code whose stack is bad (R490). -/
theorem gateInto_stack_fails {u : State} (level : s.cpl = cpl) (inner : c.dpl < cpl) (ordinary : c.conforming = false)
    (stack : InnerStackFails c.dpl 0 e s u) : gateInto true g c cpl s = .error (.exc e) u := by
  subst level
  have frame : gateFrame g.gateSize g.gateCount c s = .error (.exc e) u := by
    unfold gateFrame
    rw [get_bind_run]
    exact (congrFun (if_pos (by simp [ordinary, inner])) s).trans (bind_run_error (innerStackFails_run stack))
  exact (require_bind_of (by simp)).trans (bind_run_error (onlyIf_true_run.trans frame))

theorem gateInto_call_limit {u : State} (framed : GateFrame g.gateSize g.gateCount c s u)
    (beyond : g.gateOff.toNat > c.limit.toNat) : gateInto true g c cpl s = .error (.exc (exnGP 0)) u :=
  (require_bind_of (by simp)).trans (seq_error (onlyIf_true_run.trans (gateFrame_run framed))
    (require_bind_fail (decide_eq_false (not_inside beyond))))

end

/-- Settles O39: the checks of the gate and of its target, the frame of a CALL, CS:EIP. -/
theorem callGates : Obligations.CallGates := by
  unfold Obligations.CallGates
  intro s s0 s1 t sel off i j g unlocked mode forms named found gate level rpl present
  have runs := farForms_run forms
  have mode0 : s0.mode = .prot := (frame_mode runs.frame).trans mode
  have cpl1 : s1.cpl = s.cpl := (frame_cpl (descriptorAt_frame found)).trans ((frame_cpl runs.frame).trans rfl)
  have run (call : Bool) (called : GateCalled call g s1 t) : farProt call sel off s0 = .ok () t :=
    (farProt_callGate named found gate).trans (gateCalled_run (by rwa [cpl1]) rpl present called)
  exact ⟨fun called => runs.jump_ok unlocked ((farJump_prot mode0 sel off).trans (run false called)),
    fun called => runs.call_ok unlocked ((farCall_prot mode0 sel off).trans (run true called))⟩

/-- A far JMP and a far CALL of mode P that fail alike. -/
theorem FarRuns.both_exc {s t u : State} {sel : Word16} {off : Word32} {i j : Instr} {e : Exn}
    (runs : FarRuns s sel off i j t) (unlocked : s.pfx.lock = false) (mode : t.mode = .prot)
    (run : ∀ call, farProt call sel off t = .error (.exc e) u) :
    exec i s = .next (deliver e (undo s u)) ∧ exec j s = .next (deliver e (undo s u)) :=
  ⟨runs.jump_exc unlocked ((farJump_prot mode sel off).trans (run false)),
    runs.call_exc unlocked ((farCall_prot mode sel off).trans (run true))⟩

/-! RET and IRET. -/

section
variable {s s1 : State} {sel : Word16} {d : Desc} {e : Exn}

theorem returnDescriptor_null (null : sel.toNat < 4) : returnDescriptor sel s = .error (.exc (exnGP 0)) s := by
  unfold returnDescriptor
  rw [get_bind_run]
  exact require_bind_fail (require_selNull_fails null)

theorem returnDescriptor_inner {cpl : BitVec 2} (level : s.cpl = cpl) (named : 4 ≤ sel.toNat)
    (inner : selRpl sel < cpl) : returnDescriptor sel s = .error (.exc (exnGP (selCode sel))) s := by
  subst level
  unfold returnDescriptor
  rw [get_bind_run]
  exact (require_bind_of (require_selNull_ok named)).trans
    (require_bind_fail (decide_eq_false (BitVec.not_le.mpr inner)))

theorem returnDescriptor_outside {cpl : BitVec 2} (level : s.cpl = cpl) (named : 4 ≤ sel.toNat)
    (outer : cpl ≤ selRpl sel) (outside : OutsideTable s sel) :
    returnDescriptor sel s = .error (.exc (exnGP (selCode sel))) s := by
  subst level
  unfold returnDescriptor
  rw [get_bind_run]
  exact (require_bind_of (require_selNull_ok named)).trans ((require_bind_of (decide_eq_true outer)).trans
    (bind_run_error (readDescriptor_outside outside)))

theorem returnAllowed_iff (d : Desc) (rpl : BitVec 2) :
    (d.isCode && (if d.conforming then decide (d.dpl ≤ rpl) else d.dpl == rpl)) = true ↔
      d.isCode = true ∧ (if d.conforming then d.dpl ≤ rpl else d.dpl = rpl) := by
  cases d.conforming <;> simp

theorem returnDescriptor_fails {cpl : BitVec 2} (level : s.cpl = cpl) (named : 4 ≤ sel.toNat)
    (outer : cpl ≤ selRpl sel) (found : DescriptorAt sel d s s1)
    (fails : let may := d.isCode = true ∧ (if d.conforming then d.dpl ≤ selRpl sel else d.dpl = selRpl sel)
      ¬may ∧ e = exnGP (selCode sel) ∨ may ∧ d.p = false ∧ e = exnNP (selCode sel)) :
    returnDescriptor sel s = .error (.exc e) s1 := by
  subst level
  unfold returnDescriptor
  rw [get_bind_run]
  refine (require_bind_of (require_selNull_ok named)).trans ((require_bind_of (decide_eq_true outer)).trans ?_)
  rw [bind_run_ok (descriptorAt_run found _)]
  rcases fails with ⟨may, rfl⟩ | ⟨may, absent, rfl⟩
  · exact require_bind_fail (Bool.eq_false_iff.mpr (mt (returnAllowed_iff d _).mp may))
  · exact (require_bind_of ((returnAllowed_iff d _).mpr may)).trans (require_bind_fail absent)

end

/-- The offset of a return within its level lies beyond the limit (R490, R500). -/
theorem returnRest_same_limit {s u v : State} {off : Word32} {cs : Word16} {pre : M Unit} {n : Word16} {d : Desc}
    (level : selRpl cs = s.cpl) (ready : pre u = .ok () v) (beyond : off.toNat > d.limit.toNat) :
    returnRest s off cs pre n d u = .error (.exc (exnGP 0)) v := by
  have stays : decide (s.cpl < selRpl cs) = false := by
    rw [level]
    exact decide_eq_false (BitVec.lt_irrefl _)
  unfold returnRest
  rw [bind_run_ok ready, stays]
  exact seq_error onlyIf_false_run (require_bind_fail (decide_eq_false (not_inside beyond)))

theorem returnRest_stack_fails {s u v w : State} {off : Word32} {cs : Word16} {pre : M Unit} {n : Word16} {d : Desc}
    {e : Exn} (outer : s.cpl < selRpl cs) (ready : pre u = .ok () v)
    (stack : OuterStackFails s.osz.width (selRpl cs) e v w) : returnRest s off cs pre n d u = .error (.exc e) w := by
  unfold returnRest
  rw [bind_run_ok ready, decide_eq_true outer]
  exact bind_run_error (onlyIf_true_run.trans (outerStackFails_run stack))

theorem returnRest_outer_limit {s u v w : State} {off : Word32} {cs : Word16} {pre : M Unit} {n : Word16} {d : Desc}
    (outer : s.cpl < selRpl cs) (ready : pre u = .ok () v) (stack : OuterStack s.osz.width (selRpl cs) n v w)
    (beyond : off.toNat > d.limit.toNat) : returnRest s off cs pre n d u = .error (.exc (exnGP 0)) w := by
  unfold returnRest
  rw [bind_run_ok ready, decide_eq_true outer]
  exact seq_error (onlyIf_true_run.trans (outerStack_run stack)) (require_bind_fail (decide_eq_false (not_inside beyond)))

/-- A RET or IRET `i` of mode P, begun in `s`, whose items are popped in `t3`: it is the check of its code segment and
the rest of the return with its own part `pre`, which changes registers and flags only, and `n` bytes to release. -/
structure ReturnRuns (s : State) (i : Instr) (off : Word32) (cs : Word16) (img : Word32) (t3 : State) (pre : M Unit)
    (n : Word16) : Prop where
  fails : ∀ e u, (returnDescriptor cs >>= returnRest s.begun off cs pre n) t3 = .error (.exc e) u →
    exec i s = .next (deliver e (undo s u))
  ready : ∀ u, ∃ g f, pre u = .ok () { u with regs := g, flags := f }
  outer : ∀ u m v, u.stackSize = s.stackSize → BeforeOuter s i m img u v → m = n ∧ pre u = .ok () v

theorem releaseStack_ready (n : Word16) (u : State) :
    ∃ g f, releaseStack n u = .ok () { u with regs := g, flags := f } := by
  obtain ⟨g, -, run⟩ := releaseStack_run (s := u) (t := u) rfl n
  exact ⟨g, u.flags, run⟩

theorem releaseStack_spMoved {s u : State} {n : Word16} {g : GRegs} (size : u.stackSize = s.stackSize)
    (moved : SpMoved s (n.setWidth 32) u.regs g) : releaseStack n u = .ok () { u with regs := g } := by
  obtain ⟨g', moved', run⟩ := releaseStack_run (s := s) size n
  rwa [(spMoved_iff.mp moved').trans (spMoved_iff.mp moved).symm] at run

theorem retFar_runs {s t1 t2 : State} {off sel : BitVec s.osz.width.bits} {n : Word16} {i : Instr}
    (unlocked : s.pfx.lock = false) (mode : s.mode = .prot) (popped1 : Popped s.osz.width off s.begun t1)
    (popped2 : Popped s.osz.width sel t1 t2) (arm : i = .retFarIw n ∨ n = 0 ∧ i = .retFar) (img : Word32) :
    ReturnRuns s i (off.setWidth 32) (sel.setWidth 16) img t2 (releaseStack n) n := by
  refine ⟨fun e u run => ?_, releaseStack_ready n, fun u m v size before => ?_⟩
  · have all := (farReturn_prot_run (s := s.begun) mode popped1 popped2 n).trans run
    rcases arm with rfl | ⟨rfl, rfl⟩
    · exact runInstr_exc_noLock unlocked (m := farReturn n) all
    · exact runInstr_exc_noLock unlocked (m := farReturn 0) all
  · rcases before with ⟨arm', g, moved, rfl⟩ | ⟨iret, -, -⟩
    · have count : m = n := by
        rcases arm with rfl | ⟨rfl, rfl⟩ <;> rcases arm' with h | ⟨rfl, h⟩ <;> cases h <;> rfl
      subst count
      exact ⟨rfl, releaseStack_spMoved size moved⟩
    · rcases arm with rfl | ⟨-, rfl⟩ <;> cases iret

theorem iret_runs {s t1 t2 t3 : State} {off sel img : BitVec s.osz.width.bits} (unlocked : s.pfx.lock = false)
    (mode : s.mode = .prot) (noTask : s.flags.nt = false)
    (stays : ¬(s.osz = .s32 ∧ img.getLsbD 17 = true ∧ s.cpl = 0)) (popped1 : Popped s.osz.width off s.begun t1)
    (popped2 : Popped s.osz.width sel t1 t2) (popped3 : Popped s.osz.width img t2 t3) :
    ReturnRuns s .iret (off.setWidth 32) (sel.setWidth 16) (img.setWidth 32) t3
      (putFlags (s.flags.iretProt s.osz s.cpl (img.setWidth 32))) 0 := by
  refine ⟨fun e u run => ?_, fun u => ⟨u.regs, _, rfl⟩, fun u m v size before => ?_⟩
  · have all := (iretProt_run (s := s.begun) popped1 popped2 popped3 stays).trans run
    exact runInstr_exc_noLock unlocked (m := interruptReturn)
      ((interruptReturn_prot (s := s.begun) mode noTask).trans (bind_run_error all))
  · rcases before with ⟨arm, -⟩ | ⟨-, rfl, f, rules, rfl⟩
    · rcases arm with h | ⟨-, h⟩ <;> cases h
    · rw [returnFlags_eq rules (mode_prot_vm mode)]
      exact ⟨rfl, rfl⟩

/-- What a failing return in modes R and V raises (R480, R500; log entry 18). -/
theorem farReturn_real_fails {s t1 t2 : State} {off sel : BitVec s.osz.width.bits} (mode : s.mode ≠ .prot)
    (popped1 : Popped s.osz.width off s t1) (popped2 : Popped s.osz.width sel t1 t2)
    (beyond : (off.setWidth 32 : Word32).toNat > 0xFFFF) (n : Word16) : farReturn n s = .error (.exc exn13) t2 := by
  have real : farReturn n s = farReturnReal n s := by
    unfold farReturn
    rw [get_bind_run]
    cases h : s.mode
    · rfl
    · exact absurd h mode
    · rfl
  rw [real]
  unfold farReturnReal
  rw [get_bind_run, bind_run_ok (popped_iff.mp popped1), bind_run_ok (popped_iff.mp popped2)]
  exact require_bind_fail (decide_eq_false (not_inside (limit := 0xFFFF) beyond))

theorem iretReal_fails {s t1 t2 t3 : State} {off sel img : BitVec s.osz.width.bits}
    (popped1 : Popped s.osz.width off s t1) (popped2 : Popped s.osz.width sel t1 t2)
    (popped3 : Popped s.osz.width img t2 t3) (beyond : (off.setWidth 32 : Word32).toNat > 0xFFFF) :
    iretReal s = .error (.exc exn13) t3 :=
  (iretReal_run popped1 popped2 popped3).trans (require_bind_fail (decide_eq_false (not_inside (limit := 0xFFFF) beyond)))


/-- The far CALL of modes R and V that fails has pushed its return address (R479; log entry 18). -/
theorem farReal_forms_fail {s s0 : State} {sel : Word16} {off : Word32} {i j : Instr}
    (runs : FarRuns s sel off i j s0) (unlocked : s.pfx.lock = false) (mode : s.mode ≠ .prot)
    (beyond : (truncated s off).toNat > 0xFFFF) :
    exec i s = .next (deliver exn13 (undo s s0)) ∧
      ∀ t, ReturnPushed s.osz s0 t → exec j s = .next (deliver exn13 (undo s t)) := by
  have same := dataOnly_of_frame runs.frame
  have mode0 : s0.mode ≠ .prot := by rwa [dataOnly_mode same]
  refine ⟨runs.jump_exc unlocked ((farJump_real mode0 sel off).trans (farReal_fails same (by exact Nat.not_le.mpr beyond))),
    fun t pushed => ?_⟩
  have osz0 : s0.osz = s.osz := (dataOnly_osz same).trans rfl
  rw [← osz0] at pushed
  obtain ⟨u, pushed1, pushed2⟩ := pushed
  have there := dataOnly_trans same (dataOnly_trans (pushedSel_dataOnly pushed1) (pushed_dataOnly pushed2))
  exact runs.call_exc unlocked ((farCall_real mode0 sel off).trans
    (seq_error (pushReturn_run pushed1 pushed2) (farReal_fails there (by exact Nat.not_le.mpr beyond))))

/-- The checks of the target of a usable call gate, in their order (R490; log entry 27). -/
theorem callGate_target_fails {s s0 s1 : State} {sel : Word16} {off : Word32} {i j : Instr} {d : Desc}
    (runs : FarRuns s sel off i j s0) (unlocked : s.pfx.lock = false) (mode : s.mode = .prot) (named : 4 ≤ sel.toNat)
    (found : DescriptorAt sel d s0 s1) (gate : d.isCallGate = true) (use : s.cpl ≤ d.dpl ∧ selRpl sel ≤ d.dpl)
    (present : d.p = true) :
    let target : Word16 := d.gateSel &&& 0xFFFC
    let fails := fun (e : Exn) (u : State) =>
      exec i s = .next (deliver e (undo s u)) ∧ exec j s = .next (deliver e (undo s u))
    (d.gateSel.toNat < 4 → fails (exnGP 0) s1) ∧
    (4 ≤ d.gateSel.toNat → OutsideTable s d.gateSel → fails (exnGP target) s1) ∧
    (∀ c s2, 4 ≤ d.gateSel.toNat → DescriptorAt d.gateSel c s1 s2 →
      (¬(c.isCode = true ∧ c.dpl ≤ s.cpl) → fails (exnGP target) s2) ∧
      (c.isCode = true → c.dpl ≤ s.cpl → c.p = false → fails (exnNP target) s2) ∧
      (c.isCode = true → c.dpl < s.cpl → c.conforming = false → c.p = true →
        exec i s = .next (deliver (exnGP target) (undo s s2)) ∧
        ∀ e u, InnerStackFails c.dpl 0 e s2 u → exec j s = .next (deliver e (undo s u))) ∧
      (c.isCode = true → c.dpl ≤ s.cpl → c.p = true → d.gateOff.toNat > c.limit.toNat →
        (c.conforming = true ∨ c.dpl = s.cpl → exec i s = .next (deliver (exnGP 0) (undo s s2))) ∧
        ∀ u, GateFrame d.gateSize d.gateCount c s2 u → exec j s = .next (deliver (exnGP 0) (undo s u)))) := by
  have frame1 := accessFrame_trans runs.frame (descriptorAt_frame found)
  have mode0 : s0.mode = .prot := (frame_mode runs.frame).trans mode
  have cpl1 : s1.cpl = s.cpl := (frame_cpl frame1).trans rfl
  have arrives (call : Bool) : farProt call sel off s0 = gateThrough call d s.cpl s1 :=
    (farProt_callGate named found gate).trans (gateCall_usable cpl1 use present)
  intro target fails
  refine ⟨fun null => ?_, fun inTable outside => ?_, fun c s2 inTable reached => ⟨fun may => ?_,
    fun code level absent => ?_, fun code inner ordinary there => ?_, fun code level there beyond => ?_⟩⟩
  · exact runs.both_exc unlocked mode0 fun call => (arrives call).trans (gateThrough_null null)
  · have outside1 := (outsideTable_congr (dataOnly_of_frame frame1) d.gateSel).mpr outside
    exact runs.both_exc unlocked mode0 fun call => (arrives call).trans (gateThrough_outside inTable outside1)
  · exact runs.both_exc unlocked mode0 fun call => (arrives call).trans
      (gateThrough_target_fails inTable reached (.inl ⟨may, rfl⟩))
  · exact runs.both_exc unlocked mode0 fun call => (arrives call).trans
      (gateThrough_target_fails inTable reached (.inr ⟨⟨code, level⟩, absent, rfl⟩))
  · have into (call : Bool) := (arrives call).trans
      (gateThrough_target inTable reached ⟨code, BitVec.le_of_lt inner⟩ there)
    have cpl2 : s2.cpl = s.cpl := (frame_cpl (descriptorAt_frame reached)).trans cpl1
    exact ⟨runs.jump_exc unlocked ((farJump_prot mode0 sel off).trans
        ((into false).trans (gateInto_jump_inner inner ordinary))),
      fun e u stack => runs.call_exc unlocked ((farCall_prot mode0 sel off).trans
        ((into true).trans (gateInto_stack_fails cpl2 inner ordinary stack)))⟩
  · have into (call : Bool) := (arrives call).trans (gateThrough_target inTable reached ⟨code, level⟩ there)
    exact ⟨fun stays => runs.jump_exc unlocked ((farJump_prot mode0 sel off).trans
        ((into false).trans (gateInto_jump_limit stays beyond))),
      fun u framed => runs.call_exc unlocked ((farCall_prot mode0 sel off).trans
        ((into true).trans (gateInto_call_limit framed beyond)))⟩

/-- Settles O41: each check of R490 that fails, in the order of the checks. -/
theorem farTransferFaults : Obligations.FarTransferFaults := by
  unfold Obligations.FarTransferFaults
  refine ⟨fun s s0 sel off i j unlocked forms => ?_,
    fun s t1 t2 t3 off sel img i unlocked popped1 popped2 third => ?_⟩
  · intro code fails
    have runs := farForms_run forms
    refine ⟨farReal_forms_fail runs unlocked, fun mode => ?_⟩
    have mode0 : s0.mode = .prot := (frame_mode runs.frame).trans mode
    have cpl0 : s0.cpl = s.cpl := (frame_cpl runs.frame).trans rfl
    refine ⟨fun null => runs.both_exc unlocked mode0 fun _ => farProt_null null, fun named outside => ?_,
      fun d s1 named found => ?_⟩
    · have outside0 := (outsideTable_congr (dataOnly_of_frame runs.frame) sel).mpr outside
      exact runs.both_exc unlocked mode0 fun _ => farProt_outside named outside0
    · intro may use
      have cpl1 : s1.cpl = s.cpl := (frame_cpl (descriptorAt_frame found)).trans cpl0
      refine ⟨fun isCode => ⟨fun no => ?_, fun yes absent => ?_, fun yes present beyond => ?_⟩,
        fun isCode callGate taskGate tss => ?_, fun gate => ?_, fun gate => ?_⟩
      · exact runs.both_exc unlocked mode0 fun _ => farProt_code_fails cpl0 named found isCode (.inl ⟨no, rfl⟩)
      · exact runs.both_exc unlocked mode0 fun _ =>
          farProt_code_fails cpl0 named found isCode (.inr (.inl ⟨yes, absent, rfl⟩))
      · exact runs.both_exc unlocked mode0 fun _ =>
          farProt_code_fails cpl0 named found isCode (.inr (.inr ⟨yes, present, beyond, rfl⟩))
      · exact runs.both_exc unlocked mode0 fun _ => farProt_other named found isCode callGate taskGate tss
      · obtain ⟨isCode, callGate⟩ := taskGate_not_code gate
        have arrives (call : Bool) := farProt_task (call := call) (off := off) named found isCode callGate
          (by rw [gate]; rfl)
        exact ⟨fun no => runs.both_exc unlocked mode0 fun call =>
            (arrives call).trans (taskTransfer_gate_fails cpl1 gate (.inl ⟨no, rfl⟩)),
          fun yes absent => runs.both_exc unlocked mode0 fun call =>
            (arrives call).trans (taskTransfer_gate_fails cpl1 gate (.inr ⟨yes, absent, rfl⟩))⟩
      · exact ⟨fun no => runs.both_exc unlocked mode0 fun call =>
            (farProt_callGate named found gate).trans (gateCall_fails cpl1 (.inl ⟨no, rfl⟩)),
          fun yes absent => runs.both_exc unlocked mode0 fun call =>
            (farProt_callGate named found gate).trans (gateCall_fails cpl1 (.inr ⟨yes, absent, rfl⟩)),
          fun yes present => callGate_target_fails runs unlocked mode named found gate yes present⟩
  · intro cs fails
    refine ⟨fun mode beyond => ?_, fun mode => ?_⟩
    · rcases third with ⟨rfl, rfl | ⟨n, rfl⟩⟩ | ⟨rfl, popped3, v86, -⟩
      · exact runInstr_exc_noLock unlocked (m := farReturn 0)
          (farReturn_real_fails (s := s.begun) mode popped1 popped2 beyond 0)
      · exact runInstr_exc_noLock unlocked (m := farReturn n)
          (farReturn_real_fails (s := s.begun) mode popped1 popped2 beyond n)
      · have real : s.mode = .real ∨ s.mode = .v86 ∧ s.flags.iopl = 3 := by
          cases h : s.mode
          · exact .inl rfl
          · exact absurd h mode
          · exact .inr ⟨rfl, v86 h⟩
        exact runInstr_exc_noLock unlocked (m := interruptReturn)
          ((interruptReturn_real (s := s.begun) real).trans
            (bind_run_error (iretReal_fails (s := s.begun) popped1 popped2 popped3 beyond)))
    · obtain ⟨pre, n, same, runs⟩ : ∃ pre n, DataOnly s.begun t3 ∧
          ReturnRuns s i (off.setWidth 32) cs (img.setWidth 32) t3 pre n := by
        have same2 : DataOnly s.begun t2 := dataOnly_trans (popped_dataOnly popped1) (popped_dataOnly popped2)
        rcases third with ⟨rfl, rfl | ⟨n, rfl⟩⟩ | ⟨rfl, popped3, -, prot⟩
        · exact ⟨_, 0, same2, retFar_runs unlocked mode popped1 popped2 (.inr ⟨rfl, rfl⟩) _⟩
        · exact ⟨_, n, same2, retFar_runs unlocked mode popped1 popped2 (.inl rfl) _⟩
        · obtain ⟨noTask, stays⟩ := prot mode
          exact ⟨_, 0, dataOnly_trans same2 (popped_dataOnly popped3),
            iret_runs unlocked mode noTask stays popped1 popped2 popped3⟩
      have cpl3 : t3.cpl = s.cpl := (dataOnly_cpl same).trans rfl
      refine ⟨fun null => runs.fails _ _ (bind_run_error (returnDescriptor_null null)),
        fun named inner => runs.fails _ _ (bind_run_error (returnDescriptor_inner cpl3 named inner)),
        fun named outer => ⟨fun outside => ?_, fun d s1 found => ?_⟩⟩
      · have outside3 := (outsideTable_congr same cs).mpr outside
        exact runs.fails _ _ (bind_run_error (returnDescriptor_outside cpl3 named outer outside3))
      · intro may beyond
        have passes (yes : may) (present : d.p = true) : returnDescriptor cs t3 = .ok d s1 :=
          returnDescriptor_ok named (by rwa [cpl3]) found ⟨yes.1, present, yes.2⟩
        refine ⟨fun no => runs.fails _ _ (bind_run_error
            (returnDescriptor_fails cpl3 named outer found (.inl ⟨no, rfl⟩))),
          fun yes absent => runs.fails _ _ (bind_run_error
            (returnDescriptor_fails cpl3 named outer found (.inr ⟨yes, absent, rfl⟩))),
          fun yes present level far => ?_, fun yes present away m s2 before => ?_⟩
        · obtain ⟨g, f, ready⟩ := runs.ready s1
          have undone := runs.fails _ _ (seq_error (passes yes present)
            (returnRest_same_limit (s := s.begun) level ready far))
          exact undone
        · have size : s1.stackSize = s.stackSize :=
            (dataOnly_stackSize (dataOnly_trans same (dataOnly_of_frame (descriptorAt_frame found)))).trans rfl
          obtain ⟨rfl, ready⟩ := runs.outer s1 m s2 size before
          exact ⟨fun e u stack => runs.fails _ _ (seq_error (passes yes present)
              (returnRest_stack_fails (s := s.begun) away ready stack)),
            fun far u stack => runs.fails _ _ (seq_error (passes yes present)
              (returnRest_outer_limit (s := s.begun) away ready stack far))⟩

end Sys2Proof.Machine
end

