-- ==== Sys2Proof/Proofs/Entries.lean ====
section
/-! SUPPORT. Software interrupts and the delivery of events in mode R and through gates (R495, R496, R570, R580). -/

namespace Sys2Proof.Machine

open Sys2Proof.Safety Sys2Proof.Claims

/-! Delivery by how the entry ends (R556, R590). -/

section
variable {e : Exn} {s t : State}

theorem deliverWithin_ok {n : Nat} (entry : interrupt e.vector e.kind e.code (reported e s) = .ok () t) :
    deliverWithin (n + 1) e s = t.settled := by
  unfold deliverWithin
  simp only [show interrupt e.vector e.kind e.code (report e s) = .ok () t from entry]

theorem deliver_ok (entry : interrupt e.vector e.kind e.code (reported e s) = .ok () t) : deliver e s = t.settled :=
  deliverWithin_ok entry

theorem deliver_shutdown (entry : interrupt e.vector e.kind e.code (reported e s) = .error .shutdown t) :
    deliver e s = { t.settled with shutdown := true } := by
  unfold deliver deliverFuel deliverWithin
  simp only [show interrupt e.vector e.kind e.code (report e s) = .error .shutdown t from entry]

end

/-! INT 3, INT n and INTO. -/

theorem intVector_run {s : State} (v : Byte) (allowed : s.mode = .v86 → s.flags.iopl = 3) :
    intVector v s = interrupt v .software none s := by
  have check : (s.mode != .v86 || s.flags.iopl == 3) = true := by
    by_cases h : s.mode = .v86
    · simp [allowed h]
    · simp [h]
  unfold intVector
  rw [get_bind_run]
  exact require_bind_of check

theorem interruptOnOverflow_run {s : State} (of : s.flags.of = true) :
    interruptOnOverflow s = interrupt 4 .software none s := by
  unfold interruptOnOverflow
  rw [bind_run_ok (getFlags_run s)]
  exact congrFun (if_pos of) s

/-- The instructions that raise a software interrupt with vector `v` in `s` (R495, R496). -/
def SoftwareInterrupt (s : State) (v : Byte) (i : Instr) : Prop :=
  (i = .int3 ∧ v = 3) ∨ (i = .intIb v ∧ (s.mode = .v86 → s.flags.iopl = 3)) ∨ (i = .into ∧ v = 4 ∧ s.flags.of = true)

/-- Such an instruction is the entry. -/
theorem software_run {s : State} {v : Byte} {i : Instr} (form : SoftwareInterrupt s v i) :
    ∃ m, exec i s = runInstr false m s ∧ m s.begun = interrupt v .software none s.begun := by
  rcases form with ⟨rfl, rfl⟩ | ⟨rfl, allowed⟩ | ⟨rfl, rfl, of⟩
  · exact ⟨softwareInterrupt 3, rfl, rfl⟩
  · exact ⟨intVector v, rfl, intVector_run (s := s.begun) v allowed⟩
  · exact ⟨interruptOnOverflow, rfl, interruptOnOverflow_run (s := s.begun) of⟩

section
variable {s t : State} {v : Byte} {i : Instr} (form : SoftwareInterrupt s v i) (unlocked : s.pfx.lock = false)
include form unlocked

theorem software_ok (entry : interrupt v .software none s.begun = .ok () t) : exec i s = .next (finished s t) := by
  obtain ⟨m, arm, same⟩ := software_run form
  rw [arm]
  exact runInstr_ok_noLock unlocked (same.trans entry)

theorem software_exc {e : Exn} (entry : interrupt v .software none s.begun = .error (.exc e) t) :
    exec i s = .next (deliver e (undo s t)) := by
  obtain ⟨m, arm, same⟩ := software_run form
  rw [arm]
  exact runInstr_exc_noLock unlocked (same.trans entry)

theorem software_shutdown (entry : interrupt v .software none s.begun = .error .shutdown t) :
    exec i s = .next { t.settled with shutdown := true } := by
  obtain ⟨m, arm, same⟩ := software_run form
  rw [arm]
  exact runInstr_shutdown_noLock unlocked (same.trans entry)

end

/-! The vector table of mode R. -/

theorem mode_real_iff {s : State} : s.mode = .real ↔ s.pe = false := by
  unfold State.mode
  cases s.pe
  · exact ⟨fun _ => rfl, fun _ => rfl⟩
  · cases s.flags.vm <;> simp

theorem paging_off_of_real {s : State} (mode : s.mode = .real) : s.paging = false := by
  unfold State.paging
  rw [mode_real_iff.mp mode, Bool.and_false]

/-- A word read at a low address with paging off (R101). -/
theorem sysRead16_off {s : State} (off : s.paging = false) {a : Nat} (low : a + 1 < 2 ^ 32) :
    sysRead16 (BitVec.ofNat 32 a) s = .ok (word16 (Memory.read s.mem a) (Memory.read s.mem (a + 1))) s := by
  have at0 : (BitVec.ofNat 32 a).toNat = a := by
    rw [BitVec.toNat_ofNat]
    omega
  have at1 : (BitVec.ofNat 32 a + 1).toNat = a + 1 := by
    rw [BitVec.toNat_add, at0]
    exact Nat.mod_eq_of_lt low
  have bytes : sysRead (BitVec.ofNat 32 a) 2 s =
      .ok [Memory.read s.mem a, Memory.read s.mem (a + 1)] s := by
    unfold sysRead
    rw [bind_run_ok (pages_run_off off _ _ _ _)]
    simp only [loadBytes, get_bind_run, pure_run, addressesFrom, readPhys, List.map_cons, List.map_nil, at0, at1]
  unfold sysRead16
  rw [bind_run_ok bytes, pure_run]
  congr 1
  apply BitVec.eq_of_toNat_eq
  have first := (Memory.read s.mem a).isLt
  have second := (Memory.read s.mem (a + 1)).isLt
  simp only [leNat, word16, BitVec.toNat_ofNat, BitVec.toNat_append]
  rw [← Nat.shiftLeft_add_eq_or_of_lt first, Nat.shiftLeft_eq]
  omega

section
variable {s t : State} (mode : s.mode = .real) {v : Byte} {kind : ExnKind}
include mode

theorem interrupt_real (code : Option Word16) : interrupt v kind code s = interruptReal v kind s := by
  unfold interrupt
  rw [get_bind_run, mode]

/-- The entry through the vector table, in the words of the claims (R570). -/
theorem enterReal_ok (entry : RealEntry v (if kind = .fault then s.curEip else s.eip) s t) :
    enterReal v kind s = .ok () t := by
  obtain ⟨t1, t2, t3, pushed1, pushed2, pushed3, rfl⟩ := entry
  have same := dataOnly_trans (pushed_dataOnly pushed1) (dataOnly_trans (pushed_dataOnly pushed2)
    (pushed_dataOnly pushed3))
  have off : t3.paging = false := paging_off_of_real ((dataOnly_mode same).trans mode)
  have small := v.isLt
  have readOff := sysRead16_off (s := t3.setFlags { t3.flags with ifl := false, tf := false }) off
    (a := 4 * v.toNat) (by omega)
  have readSel := sysRead16_off (s := t3.setFlags { t3.flags with ifl := false, tf := false }) off
    (a := 4 * v.toNat + 2) (by omega)
  rw [← returnEip_eq] at pushed3
  unfold enterReal
  rw [get_bind_run]
  refine seq_ok (pushed_iff.mp pushed1) (seq_ok (pushed_iff.mp pushed2) (seq_ok (pushed_iff.mp pushed3) ?_))
  rw [modify_bind_run, bind_run_ok readOff, bind_run_ok readSel, bind_run_ok (loadSegReal_run .cs _ _), loadReal_eq]
  rfl

/-- A push of the frame meets SP = 1 (R142, R570). -/
theorem enterReal_overrun (overrun : RealOverrun s t) : enterReal v kind s = .error .shutdown t := by
  obtain ⟨top, stage⟩ := overrun
  have dead (same : DataOnly s t) (x : Word16) : push .w16 x t = .error .shutdown t :=
    push_shutdown (by rw [dataOnly_mode same, mode]; decide) top .w16 x
  unfold enterReal
  rw [get_bind_run]
  rcases stage with rfl | pushed1 | ⟨u, pushed1, pushed2⟩
  · exact bind_run_error (dead (dataOnly_refl _) _)
  · exact seq_error (pushed_iff.mp pushed1) (bind_run_error (dead (pushed_dataOnly pushed1) _))
  · exact seq_error (pushed_iff.mp pushed1) (seq_error (pushed_iff.mp pushed2)
      (bind_run_error (dead (dataOnly_trans (pushed_dataOnly pushed1) (pushed_dataOnly pushed2)) _)))

omit mode in
theorem interruptReal_inside (inside : 4 * v.toNat + 3 ≤ s.idtr.limit.toNat) :
    interruptReal v kind s = enterReal v kind s := by
  have here : (!s.beyondVectors v) = true := by
    unfold State.beyondVectors
    simpa using inside
  unfold interruptReal
  rw [get_bind_run]
  exact congrFun (if_pos here) s

omit mode in
theorem beyondVectors_of {v : Byte} (beyond : s.idtr.limit.toNat < 4 * v.toNat + 3) :
    ¬(!s.beyondVectors v) = true := by
  unfold State.beyondVectors
  simpa using beyond

omit mode in
theorem interruptReal_eight (beyond : s.idtr.limit.toNat < 4 * v.toNat + 3) (held : 35 ≤ s.idtr.limit.toNat) :
    interruptReal v kind s = enterReal 8 .abort s := by
  have here : (!s.beyondVectors 8) = true := by
    unfold State.beyondVectors
    simpa using held
  unfold interruptReal
  rw [get_bind_run]
  exact (congrFun (if_neg (beyondVectors_of beyond)) s).trans (congrFun (if_pos here) s)

omit mode in
theorem interruptReal_dead (beyond : s.idtr.limit.toNat < 4 * v.toNat + 3) (short : s.idtr.limit.toNat < 35) :
    interruptReal v kind s = .error .shutdown s := by
  unfold interruptReal
  rw [get_bind_run]
  exact (congrFun (if_neg (beyondVectors_of beyond)) s).trans
    ((congrFun (if_neg (beyondVectors_of (v := 8) short)) s).trans rfl)

/-- An entry in mode R, by the limit of the vector table (R567, R570; log entry 35). -/
theorem interrupt_real_cases (code : Option Word16) :
    (4 * v.toNat + 3 ≤ s.idtr.limit.toNat → RealEntry v (if kind = .fault then s.curEip else s.eip) s t →
      interrupt v kind code s = .ok () t) ∧
    (s.idtr.limit.toNat < 4 * v.toNat + 3 → 35 ≤ s.idtr.limit.toNat → RealEntry 8 s.eip s t →
      interrupt v kind code s = .ok () t) ∧
    (s.idtr.limit.toNat < 4 * v.toNat + 3 → s.idtr.limit.toNat < 35 →
      interrupt v kind code s = .error .shutdown s) ∧
    (4 * v.toNat + 3 ≤ s.idtr.limit.toNat ∨ 35 ≤ s.idtr.limit.toNat → RealOverrun s t →
      interrupt v kind code s = .error .shutdown t) := by
  rw [interrupt_real mode]
  refine ⟨fun inside entry => (interruptReal_inside inside).trans (enterReal_ok mode entry),
    fun beyond held entry => (interruptReal_eight beyond held).trans (enterReal_ok (kind := .abort) mode entry),
    interruptReal_dead, fun reached overrun => ?_⟩
  by_cases inside : 4 * v.toNat + 3 ≤ s.idtr.limit.toNat
  · exact (interruptReal_inside inside).trans (enterReal_overrun mode overrun)
  · exact (interruptReal_eight (by omega) (by omega)).trans (enterReal_overrun mode overrun)

end

/-- Settles O43: the vector table is entered, or vector 8 of it, or the processor shuts down. -/
theorem realDelivery : Obligations.RealDelivery := by
  unfold Obligations.RealDelivery
  refine ⟨fun s unlocked of => ?_, fun s t v i unlocked mode form => ?_, fun e s t mode => ?_⟩
  · have none : interruptOnOverflow s.begun = .ok () s.begun := by
      unfold interruptOnOverflow
      rw [bind_run_ok (getFlags_run s.begun)]
      exact (congrFun (if_neg (by simp [of])) s.begun).trans rfl
    exact runInstr_ok_noLock unlocked none
  · have form : SoftwareInterrupt s v i := by
      rcases form with h | h | h
      · exact .inl h
      · exact .inr (.inl ⟨h, fun v86 => by rw [mode] at v86; cases v86⟩)
      · exact .inr (.inr h)
    obtain ⟨entered, eight, dead, overrun⟩ :=
      interrupt_real_cases (s := s.begun) (t := t) mode (v := v) (kind := .software) none
    exact ⟨fun inside entry => software_ok form unlocked (entered inside entry),
      fun beyond held entry => software_ok form unlocked (eight beyond held entry),
      fun beyond short => software_shutdown form unlocked (dead beyond short),
      fun reached overruns => software_shutdown form unlocked (overrun reached overruns)⟩
  · intro r
    obtain ⟨entered, eight, dead, overrun⟩ :=
      interrupt_real_cases (s := r) (t := t) mode (v := e.vector) (kind := e.kind) e.code
    exact ⟨fun inside entry => deliver_ok (entered inside entry),
      fun beyond held entry => deliver_ok (eight beyond held entry),
      fun beyond short => deliver_shutdown (dead beyond short),
      fun reached overruns => deliver_shutdown (overrun reached overruns)⟩

/-- Settles O45: the entry through the gate is the instruction, or the delivery. -/
theorem gateEntries : Obligations.GateEntries := by
  unfold Obligations.GateEntries
  refine ⟨fun s t unlocked mode => ?_, fun e s t mode entered => deliver_gate mode entered⟩
  have entry (v : Byte) (entered : GateEntered v .software none s.begun t) :=
    gateEntered_run (s := s.begun) mode entered
  exact ⟨fun v allowed entered => software_ok (.inr (.inl ⟨rfl, allowed⟩)) unlocked (entry v entered),
    fun entered => software_ok (.inl ⟨rfl, rfl⟩) unlocked (entry 3 entered),
    fun entered of => software_ok (.inr (.inr ⟨rfl, rfl, of⟩)) unlocked (entry 4 entered)⟩


/-! A word pushed in mode R pops again. -/

/-- The addresses of the word at offset `o` of SS with paging off (R110, R111). -/
def stackSlot (s : State) (o : Word16) : List Word32 := addressesFrom (s.segs.ss.base + o.setWidth 32) 2

theorem stackSlot_toNat {s : State} (low : s.segs.ss.base.toNat ≤ 0xFFFF0) (o : Word16) :
    (stackSlot s o).map (·.toNat) = [s.segs.ss.base.toNat + o.toNat, s.segs.ss.base.toNat + o.toNat + 1] := by
  have small := o.isLt
  have at0 : (s.segs.ss.base + o.setWidth 32).toNat = s.segs.ss.base.toNat + o.toNat := by
    simp only [BitVec.toNat_add, BitVec.toNat_setWidth]
    omega
  have at1 : (s.segs.ss.base + o.setWidth 32 + 1).toNat = s.segs.ss.base.toNat + o.toNat + 1 := by
    rw [BitVec.toNat_add, at0]
    exact Nat.mod_eq_of_lt (show s.segs.ss.base.toNat + o.toNat + 1 < 2 ^ 32 by omega)
  simp only [stackSlot, addressesFrom, List.map_cons, List.map_nil, at0, at1]

theorem readPhys_congr {m m' : List Host.Cell} {ps : List Word32}
    (same : ∀ x ∈ ps.map (·.toNat), Memory.read m x = Memory.read m' x) : readPhys m ps = readPhys m' ps :=
  List.map_congr_left fun p h => same p.toNat (List.mem_map_of_mem h)

/-- Words of different offsets do not meet. -/
theorem readPhys_other_slot {s : State} (low : s.segs.ss.base.toNat ≤ 0xFFFF0) (m : List Host.Cell) {o o' : Word16}
    (apart : o.toNat + 2 ≤ o'.toNat ∨ o'.toNat + 2 ≤ o.toNat) (bs : List Byte) :
    readPhys (writePhys m (stackSlot s o) bs) (stackSlot s o') = readPhys m (stackSlot s o') := by
  refine readPhys_congr fun x here => read_writePhys_other _ _ _ _ fun there => ?_
  rw [stackSlot_toNat low] at here there
  simp only [List.mem_cons, List.not_mem_nil, or_false] at here there
  omega

theorem readPhys_same_slot {s : State} (low : s.segs.ss.base.toNat ≤ 0xFFFF0) (m : List Host.Cell) (o v : Word16) :
    readPhys (writePhys m (stackSlot s o) (leBytes 2 v)) (stackSlot s o) = leBytes 2 v :=
  readPhys_writePhys _ _ _ rfl (by rw [stackSlot_toNat low]; simp)

/-- A push of a word in mode R (R140). -/
theorem pushed_real {s t : State} {v : Word16} (mode : s.mode = .real) (pushed : Pushed .w16 v s t) :
    (readReg .w16 s.regs .esp - 2).toNat + 2 ≤ 0x10000 ∧
      t.regs = writeReg .w16 s.regs .esp (readReg .w16 s.regs .esp - 2) ∧
      t.mem = writePhys s.mem (stackSlot s (readReg .w16 s.regs .esp - 2)) (leBytes 2 v) := by
  have size : s.stackSize = .s16 := stackSize_real (by rw [mode]; decide)
  have place : pushOffset s .w16 = (readReg .w16 s.regs .esp - 2).setWidth 32 := by
    unfold pushOffset
    rw [size]
    rfl
  have real : s.mode ≠ .prot := by rw [mode]; decide
  obtain ⟨-, ps, s1, g, translated, moved, rfl⟩ := pushed
  rw [place] at translated
  have off := paging_off_of_real mode
  have inside : (readReg .w16 s.regs .esp - 2).toNat + 2 ≤ 0x10000 := by
    by_contra beyond
    obtain ⟨e, fault⟩ : ∃ e, linear s .write .ss ((readReg .w16 s.regs .esp - 2).setWidth 32) 2 = .error e := by
      rw [linear_of_not_prot real]
      exact ⟨_, if_neg (by rwa [BitVec.toNat_setWidth_of_le (by decide)])⟩
    unfold translate at translated
    rw [get_bind_run, show Width.w16.bytes = 2 from rfl, fault] at translated
    cases translated
  have lin : linear s .write .ss ((readReg .w16 s.regs .esp - 2).setWidth 32) 2 =
      .ok (s.segs.ss.base + (readReg .w16 s.regs .esp - 2).setWidth 32) := by
    rw [linear_of_not_prot real]
    exact if_pos (by rwa [BitVec.toNat_setWidth_of_le (by decide)])
  have run := translate_run_off off lin
  cases run.symm.trans translated
  refine ⟨inside, ?_, rfl⟩
  have fall : (-(BitVec.ofNat 32 Width.w16.bytes)).setWidth 16 = -(2 : Word16) := by decide
  have regs := writesReg_iff.mp moved
  rw [size] at regs
  refine regs.trans (congrArg (writeReg .w16 s.regs .esp) ?_)
  rw [BitVec.sub_eq_add_neg, ← fall]
  rfl

/-- A pop of a word in mode R (R141). -/
theorem popped_real {s : State} {v : Word16} (mode : s.mode = .real)
    (inside : (readReg .w16 s.regs .esp).toNat + 2 ≤ 0x10000)
    (held : readPhys s.mem (stackSlot s (readReg .w16 s.regs .esp)) = leBytes 2 v) :
    ∃ t, Popped .w16 v s t ∧ t.regs = writeReg .w16 s.regs .esp (readReg .w16 s.regs .esp + 2) ∧ t.mem = s.mem := by
  have size : s.stackSize = .s16 := stackSize_real (by rw [mode]; decide)
  have place : topOffset s = (readReg .w16 s.regs .esp).setWidth 32 := by
    unfold topOffset
    rw [size]
  have lin : linear s .read .ss (topOffset s) 2 = .ok (s.segs.ss.base + (readReg .w16 s.regs .esp).setWidth 32) := by
    rw [linear_of_not_prot (by rw [mode]; decide), place]
    exact if_pos (by rwa [BitVec.toNat_setWidth_of_le (by decide)])
  have run := translate_run_off (paging_off_of_real mode) lin
  refine ⟨_, ⟨_, _, writeReg .w16 s.regs .esp (readReg .w16 s.regs .esp + 2), run, ?_, ?_, rfl⟩, rfl, rfl⟩
  · exact ((congrArg (valueOf .w16) held).trans (valueOf_leBytes .w16 v)).symm
  · refine writesReg_iff.mpr ?_
    rw [size]
    rfl


/-- SP of a state as a word. -/
def spWord (s : State) : Word16 := readReg .w16 s.regs .esp

/-- The three words of a frame lie on the stack of `s`, the return offset on top (R570). -/
structure FrameStands (s : State) (eip cs img : Word16) : Prop where
  mode : s.mode = .real
  low : s.segs.ss.base.toNat ≤ 0xFFFF0
  inside : (spWord s).toNat + 2 ≤ 0x10000 ∧ (spWord s + 2).toNat + 2 ≤ 0x10000 ∧
    (spWord s + 4).toNat + 2 ≤ 0x10000
  eip : readPhys s.mem (stackSlot s (spWord s)) = leBytes 2 eip
  cs : readPhys s.mem (stackSlot s (spWord s + 2)) = leBytes 2 cs
  img : readPhys s.mem (stackSlot s (spWord s + 4)) = leBytes 2 img

theorem spWord_writeReg {s : State} {g : GRegs} {v : Word16} (h : s.regs = writeReg .w16 g .esp v) : spWord s = v := by
  unfold spWord
  rw [h, readReg_writeReg]

theorem setLowWord_setLowWord (a : Word32) (v x : Word16) : setLowWord (setLowWord a v) x = setLowWord a x := by
  unfold setLowWord
  congr 1
  exact BitVec.extractLsb'_append_eq_left

theorem setLowWord_same (a : Word32) : setLowWord a (a.extractLsb' 0 16) = a := by
  unfold setLowWord
  apply BitVec.eq_of_getLsbD_eq
  intro i small
  rw [BitVec.getLsbD_append]
  rcases Nat.lt_or_ge i 16 with low | high
  · simp [low]
  · have inside : 16 + (i - 16) = i := by omega
    simp [Nat.not_lt.mpr high, inside]
    omega

theorem writeReg_word_writeReg (g : GRegs) (v x : Word16) :
    writeReg .w16 (writeReg .w16 g .esp v) .esp x = writeReg .w16 g .esp x :=
  congrArg (fun y => { g with esp := y }) (setLowWord_setLowWord g.esp v x)

theorem writeReg_word_same (g : GRegs) : writeReg .w16 g .esp (readReg .w16 g .esp) = g :=
  congrArg (fun y => { g with esp := y }) (setLowWord_same g.esp)

theorem stackSlot_congr {s t : State} (h : t.segs.ss = s.segs.ss) (o : Word16) : stackSlot t o = stackSlot s o := by
  unfold stackSlot
  rw [h]

/-- Three words are pushed in mode R (R570). -/
theorem frame_pushed {s t1 t2 t3 : State} {eip cs img : Word16} (mode : s.mode = .real)
    (low : s.segs.ss.base.toNat ≤ 0xFFFF0) (pushed1 : Pushed .w16 img s t1) (pushed2 : Pushed .w16 cs t1 t2)
    (pushed3 : Pushed .w16 eip t2 t3) :
    FrameStands t3 eip cs img ∧ t3.regs = writeReg .w16 s.regs .esp (spWord s - 6) := by
  have same1 := pushed_dataOnly pushed1
  have same2 := dataOnly_trans same1 (pushed_dataOnly pushed2)
  have same3 := dataOnly_trans same2 (pushed_dataOnly pushed3)
  obtain ⟨in1, regs1, mem1⟩ := pushed_real mode pushed1
  obtain ⟨in2, regs2, mem2⟩ := pushed_real ((dataOnly_mode same1).trans mode) pushed2
  obtain ⟨in3, regs3, mem3⟩ := pushed_real ((dataOnly_mode same2).trans mode) pushed3
  have sp1 : spWord t1 = spWord s - 2 := spWord_writeReg regs1
  have sp2 : spWord t2 = spWord t1 - 2 := spWord_writeReg regs2
  have sp3 : spWord t3 = spWord t2 - 2 := spWord_writeReg regs3
  change (spWord s - 2).toNat + 2 ≤ _ at in1
  change (spWord t1 - 2).toNat + 2 ≤ _ at in2
  change (spWord t2 - 2).toNat + 2 ≤ _ at in3
  change t1.regs = writeReg .w16 s.regs .esp (spWord s - 2) at regs1
  change t2.regs = writeReg .w16 t1.regs .esp (spWord t1 - 2) at regs2
  change t3.regs = writeReg .w16 t2.regs .esp (spWord t2 - 2) at regs3
  change t1.mem = writePhys s.mem (stackSlot s (spWord s - 2)) _ at mem1
  change t2.mem = writePhys t1.mem (stackSlot t1 (spWord t1 - 2)) _ at mem2
  change t3.mem = writePhys t2.mem (stackSlot t2 (spWord t2 - 2)) _ at mem3
  rw [stackSlot_congr (congrArg SegRegs.ss (dataOnly_segs same1)), mem1] at mem2
  rw [stackSlot_congr (congrArg SegRegs.ss (dataOnly_segs same2)), mem2] at mem3
  have slot (o : Word16) := stackSlot_congr (congrArg SegRegs.ss (dataOnly_segs same3)) o
  have at1 : spWord s - 2 = spWord t3 + 4 := by bv_omega
  have at2 : spWord t1 - 2 = spWord t3 + 2 := by bv_omega
  have at3 : spWord t2 - 2 = spWord t3 := sp3.symm
  rw [at1] at in1
  rw [at2] at in2
  rw [at3] at in3
  rw [at1, at2, at3] at mem3
  have apart12 : (spWord t3 + 2).toNat + 2 ≤ (spWord t3 + 4).toNat ∨ (spWord t3 + 4).toNat + 2 ≤ (spWord t3 + 2).toNat := by
    bv_omega
  have apart13 : (spWord t3).toNat + 2 ≤ (spWord t3 + 4).toNat ∨ (spWord t3 + 4).toNat + 2 ≤ (spWord t3).toNat := by
    bv_omega
  have apart23 : (spWord t3).toNat + 2 ≤ (spWord t3 + 2).toNat ∨ (spWord t3 + 2).toNat + 2 ≤ (spWord t3).toNat := by
    bv_omega
  refine ⟨⟨(dataOnly_mode same3).trans mode, by rwa [dataOnly_segs same3], ⟨in3, in2, in1⟩, ?_, ?_, ?_⟩, ?_⟩
  · rw [slot, mem3, readPhys_same_slot low]
  · rw [slot, mem3, readPhys_other_slot low _ apart23, readPhys_same_slot low]
  · rw [slot, mem3, readPhys_other_slot low _ apart13, readPhys_other_slot low _ apart12, readPhys_same_slot low]
  · rw [regs3, regs2, regs1, writeReg_word_writeReg, writeReg_word_writeReg]
    exact congrArg (writeReg .w16 s.regs .esp) (by bv_omega)

/-- Such a frame pops (R500). -/
theorem frame_pops {s : State} {eip cs img : Word16} (frame : FrameStands s eip cs img) :
    ∃ t1 t2 t3, Popped .w16 eip s t1 ∧ Popped .w16 cs t1 t2 ∧ Popped .w16 img t2 t3 ∧
      t3.regs = writeReg .w16 s.regs .esp (spWord s + 6) := by
  obtain ⟨mode, low, ⟨in1, in2, in3⟩, atEip, atCs, atImg⟩ := frame
  obtain ⟨t1, popped1, regs1, mem1⟩ := popped_real mode in1 atEip
  have same1 := popped_dataOnly popped1
  have sp1 : spWord t1 = spWord s + 2 := spWord_writeReg regs1
  have slot1 (o : Word16) := stackSlot_congr (congrArg SegRegs.ss (dataOnly_segs same1)) o
  obtain ⟨t2, popped2, regs2, mem2⟩ := popped_real (s := t1) (v := cs) ((dataOnly_mode same1).trans mode)
    (by rw [← sp1] at in2; exact in2) (by rw [mem1, slot1, ← atCs, ← sp1]; rfl)
  have same2 := dataOnly_trans same1 (popped_dataOnly popped2)
  have sp2 : spWord t2 = spWord s + 4 := by
    have : spWord t2 = spWord t1 + 2 := spWord_writeReg regs2
    bv_omega
  have slot2 (o : Word16) := stackSlot_congr (congrArg SegRegs.ss (dataOnly_segs same2)) o
  obtain ⟨t3, popped3, regs3, -⟩ := popped_real (s := t2) (v := img) ((dataOnly_mode same2).trans mode)
    (by rw [← sp2] at in3; exact in3) (by rw [mem2, mem1, slot2, ← atImg, ← sp2]; rfl)
  refine ⟨t1, t2, t3, popped1, popped2, popped3, ?_⟩
  change t1.regs = writeReg .w16 s.regs .esp (spWord s + 2) at regs1
  change t2.regs = writeReg .w16 t1.regs .esp (spWord t1 + 2) at regs2
  change t3.regs = writeReg .w16 t2.regs .esp (spWord t2 + 2) at regs3
  rw [regs3, regs2, regs1, writeReg_word_writeReg, writeReg_word_writeReg]
  exact congrArg (writeReg .w16 s.regs .esp) (by bv_omega)

/-! The round trip. -/

/-- The flags an IRET loads from the word INT n saved (R283, R500). -/
theorem iretReal_saved (f old : Flags) (vm : f.vm = old.vm) :
    { old.iretReal .s16 ((((f.image &&& 0x00FCFFFF).setWidth 16 : Word16).setWidth 32)) with rf := false } =
      { f with rf := false } := by
  have bit (k : Nat) (low : k < 16) :
      (((f.image &&& 0x00FCFFFF).setWidth 16 : Word16).setWidth 32 : Word32).getLsbD k = f.image.getLsbD k := by
    have kept : (0x00FCFFFF : Word32).getLsbD k = true := by
      interval_cases k <;> rfl
    rw [BitVec.getLsbD_setWidth, BitVec.getLsbD_setWidth, BitVec.getLsbD_and, kept]
    simp [low, show k < 32 by omega]
  have iopl : (((f.image &&& 0x00FCFFFF).setWidth 16 : Word16).setWidth 32 : Word32).extractLsb' 12 2 =
      f.image.extractLsb' 12 2 := by
    apply BitVec.eq_of_getLsbD_eq
    intro i small
    rw [BitVec.getLsbD_extractLsb', BitVec.getLsbD_extractLsb', bit (12 + i) (by omega)]
  have loaded : f.image.extractLsb' 12 2 = f.iopl := congrArg Flags.iopl (ofImage_image f)
  simp only [Flags.iretReal, Flags.ofImage, iopl, bit 0 (by decide), bit 2 (by decide), bit 4 (by decide),
    bit 6 (by decide), bit 7 (by decide), bit 8 (by decide), bit 9 (by decide), bit 10 (by decide),
    bit 11 (by decide), bit 14 (by decide), ← vm, loaded, image_getLsbD]

/-- An IRET in mode R with word items (R500). -/
theorem iret_words {s t1 t2 t3 : State} {off sel img : Word16} (unlocked : s.pfx.lock = false) (mode : s.mode = .real)
    (size : s.osz = .s16) (popped1 : Popped .w16 off s.begun t1) (popped2 : Popped .w16 sel t1 t2)
    (popped3 : Popped .w16 img t2 t3) :
    exec .iret s = .next (finished s { inReal t3 sel (off.setWidth 32) with
      flags := s.flags.iretReal .s16 (img.setWidth 32)
      nmiMask := false
      rfKept := false }) := by
  have width : s.begun.osz = .s16 := size
  have fresh : t3.rfKept = s.begun.rfKept := dataOnly_rfKept (dataOnly_trans (popped_dataOnly popped1)
    (dataOnly_trans (popped_dataOnly popped2) (popped_dataOnly popped3)))
  have inside : decide ((off.setWidth 32 : Word32) ≤ 0xFFFF) = true := by
    refine decide_eq_true ?_
    rw [BitVec.le_def, BitVec.toNat_setWidth_of_le (by decide)]
    exact Nat.le_of_lt_succ off.isLt
  have run : iretReal s.begun = .ok () { inReal t3 sel (off.setWidth 32) with
      flags := s.flags.iretReal .s16 (img.setWidth 32) } := by
    unfold iretReal
    rw [get_bind_run, width]
    refine seq_ok (popped_iff.mp popped1) (seq_ok (popped_iff.mp popped2) (seq_ok (popped_iff.mp popped3) ?_))
    refine (require_bind_of inside).trans ?_
    rw [bind_run_ok (loadSegReal_run .cs _ t3), loadReal_eq]
    exact congrArg (fun f => EStateM.Result.ok () { inReal t3 sel (off.setWidth 32) with flags := f }) (if_pos mode)
  have done := iret_ok unlocked ((interruptReturn_real (s := s.begun) (.inl mode)).trans (seq_ok run rfl)) fresh
  rw [size] at done
  exact done

theorem osz_real {s : State} (mode : s.mode = .real) (plain : s.pfx = Pfx.none) : s.osz = .s16 := by
  unfold State.osz State.defaultSize
  rw [mode, plain]
  rfl

/-- Settles O48: IRET pops the frame that INT n pushed. -/
theorem interruptRoundTrip : Obligations.InterruptRoundTrip := by
  unfold Obligations.InterruptRoundTrip
  intro s t v mode plain vm inside code low held entry
  have unlocked : s.pfx.lock = false := by rw [plain]; rfl
  have notV86 (v86 : s.mode = .v86) : s.flags.iopl = 3 := by
    rw [mode] at v86
    cases v86
  obtain ⟨entered, -⟩ := interrupt_real_cases (s := s.begun) (t := t) mode (v := v) (kind := .software) none
  refine ⟨software_ok (.inr (.inl ⟨rfl, notV86⟩)) unlocked (entered held entry), ?_⟩
  obtain ⟨t1, t2, t3, pushed1, pushed2, pushed3, rfl⟩ := entry
  have same := dataOnly_trans (pushed_dataOnly pushed1) (dataOnly_trans (pushed_dataOnly pushed2)
    (pushed_dataOnly pushed3))
  obtain ⟨⟨mode3, low3, fits, atEip, atCs, atImg⟩, regs3⟩ :=
    frame_pushed (s := s.begun) mode low pushed1 pushed2 pushed3
  generalize word16 (Memory.read t3.mem (4 * v.toNat + 2)) (Memory.read t3.mem (4 * v.toNat + 3)) = sel
  generalize (word16 (Memory.read t3.mem (4 * v.toNat)) (Memory.read t3.mem (4 * v.toNat + 1))).setWidth 32 = off
  let handler : State :=
    finished s (inReal { t3 with flags := { t3.flags with ifl := false, tf := false } } sel off)
  have modeH : handler.mode = .real := mode_real_iff.mpr (mode_real_iff.mp mode3)
  have stands : FrameStands handler.begun (s.eip.setWidth 16) s.segs.cs.sel
      ((s.flags.image &&& 0x00FCFFFF).setWidth 16) :=
    ⟨modeH, low3, fits, atEip, atCs, atImg⟩
  obtain ⟨u1, u2, u3, popped1, popped2, popped3, regs⟩ := frame_pops stands
  have back := dataOnly_trans (popped_dataOnly popped1) (dataOnly_trans (popped_dataOnly popped2)
    (popped_dataOnly popped3))
  refine ⟨_, iret_words rfl modeH (osz_real modeH rfl) popped1 popped2 popped3, ?_, ?_, ?_, ?_⟩
  · change (s.eip.setWidth 16).setWidth 32 = s.eip
    bv_omega
  · change u3.segs.set .cs (realSeg u3.segs.cs s.segs.cs.sel) = s.segs
    rw [dataOnly_segs back]
    change (t3.segs.set .cs (realSeg t3.segs.cs s.segs.cs.sel)) = s.segs
    rw [dataOnly_segs same]
    exact congrArg (s.segs.set .cs) code.symm
  · change u3.regs = s.regs
    have moved : spWord handler.begun = spWord s - 6 := spWord_writeReg regs3
    rw [regs, moved]
    change writeReg .w16 t3.regs .esp _ = _
    rw [regs3]
    exact (writeReg_word_writeReg _ _ _).trans
      ((congrArg (writeReg .w16 s.regs .esp) (by unfold spWord; bv_omega)).trans (writeReg_word_same s.regs))
  · refine iretReal_saved s.flags handler.flags ?_
    exact (congrArg Flags.vm (dataOnly_flags same)).symm

end Sys2Proof.Machine
end

