-- ==== Sys2Proof/Proofs/EntryFaults.lean ====
section
/-! SUPPORT. Entries through the IDT that fail, and what delivery makes of an exception met on the way (R567, R580). -/

namespace Sys2Proof.Machine

open Sys2Proof.Safety Sys2Proof.Claims

/-- The EXT bit of the codes of a failed entry (R557; log entry 33). -/
def extOf (kind : ExnKind) : Word16 := if kind = .software then 0 else 1

/-- The code that names entry `v` of the IDT (R557). -/
def idtCode (v : Byte) : Word16 := BitVec.ofNat 16 (8 * v.toNat + 2)

/-- What follows the read of the gate `g` of an entry begun in `s` (R580). -/
def throughGate (s : State) (v : Byte) (kind : ExnKind) (code : Option Word16) (g : Desc) : M Unit := do
  require (g.isTaskGate || g.isIntGate) (exnGP (idtCode v ||| extOf kind))
  require (kind != .software || decide (s.level ≤ g.dpl)) (exnGP (idtCode v))
  require g.p (exnNP (idtCode v ||| extOf kind))
  if g.isTaskGate then
    taskSwitch .interrupt false g.gateSel (s.returnEip kind) (s.savedFlags kind) (extOf kind)
    inNewTask (pushCode .s32 code)
  else enterGate kind code g (extOf kind)

section
variable {s s1 u : State} {v : Byte} {kind : ExnKind} {code : Option Word16} {g : Desc} {e : Exn}

theorem interrupt_prot (mode : s.mode ≠ .real) : interrupt v kind code s = interruptProt v kind code s := by
  unfold interrupt
  rw [get_bind_run]
  cases h : s.mode
  · exact absurd h mode
  · rfl
  · rfl

theorem interrupt_beyond (mode : s.mode ≠ .real) (beyond : s.idtr.limit.toNat < 8 * v.toNat + 7) :
    interrupt v kind code s = .error (.exc (exnGP (idtCode v ||| extOf kind))) s := by
  rw [interrupt_prot mode]
  unfold interruptProt
  rw [get_bind_run]
  exact require_bind_fail (decide_eq_false (by omega))

theorem interrupt_gate (mode : s.mode ≠ .real) (inside : 8 * v.toNat + 7 ≤ s.idtr.limit.toNat)
    (read : readEntry (s.idtr.base + BitVec.ofNat 32 (8 * v.toNat)) s = .ok g s1) :
    interrupt v kind code s = throughGate s v kind code g s1 := by
  rw [interrupt_prot mode]
  unfold interruptProt
  rw [get_bind_run]
  exact (require_bind_of (decide_eq_true inside)).trans (bind_run_ok read)

theorem gateUse_iff (kind : ExnKind) (s : State) (g : Desc) :
    (kind != .software || decide (s.level ≤ g.dpl)) = true ↔ (kind = .software → s.level ≤ g.dpl) := by
  by_cases h : kind = .software <;> simp [h]

theorem throughGate_other (int : g.isIntGate = false) (task : g.isTaskGate = false) :
    throughGate s v kind code g s1 = .error (.exc (exnGP (idtCode v ||| extOf kind))) s1 :=
  require_bind_fail (by rw [int, task]; rfl)

theorem gate_kind_ok (gate : g.isIntGate = true ∨ g.isTaskGate = true) : (g.isTaskGate || g.isIntGate) = true := by
  rcases gate with h | h <;> simp [h]

/-- The privilege and the presence of a gate (R580). -/
theorem throughGate_fails (gate : g.isIntGate = true ∨ g.isTaskGate = true)
    (fails : let use := kind = .software → s.level ≤ g.dpl
      ¬use ∧ e = exnGP (idtCode v ||| extOf kind) ∨ use ∧ g.p = false ∧ e = exnNP (idtCode v ||| extOf kind)) :
    throughGate s v kind code g s1 = .error (.exc e) s1 := by
  refine (require_bind_of (gate_kind_ok gate)).trans ?_
  rcases fails with ⟨no, rfl⟩ | ⟨yes, absent, rfl⟩
  · have software : extOf kind = 0 := if_pos (by by_contra h; exact no fun k => absurd k h)
    have same : idtCode v = idtCode v ||| extOf kind := by
      rw [software]
      exact BitVec.or_zero.symm
    exact (require_bind_fail (Bool.eq_false_iff.mpr (mt (gateUse_iff kind s g).mp no))).trans
      (congrArg (fun x => EStateM.Result.error (Stop.exc (exnGP x)) s1) same)
  · exact (require_bind_of ((gateUse_iff kind s g).mpr yes)).trans (require_bind_fail absent)

theorem throughGate_task (gate : g.isTaskGate = true) (use : kind = .software → s.level ≤ g.dpl)
    (present : g.p = true) :
    throughGate s v kind code g s1 = (taskSwitch .interrupt false g.gateSel (s.returnEip kind) (s.savedFlags kind)
      (extOf kind) >>= fun _ => inNewTask (pushCode .s32 code)) s1 := by
  refine (require_bind_of (gate_kind_ok (.inr gate))).trans ((require_bind_of ((gateUse_iff kind s g).mpr use)).trans
    ((require_bind_of present).trans ?_))
  exact congrFun (if_pos gate) s1

theorem throughGate_int (gate : g.isIntGate = true) (use : kind = .software → s.level ≤ g.dpl)
    (present : g.p = true) : throughGate s v kind code g s1 = enterGate kind code g (extOf kind) s1 := by
  refine (require_bind_of (gate_kind_ok (.inl gate))).trans ((require_bind_of ((gateUse_iff kind s g).mpr use)).trans
    ((require_bind_of present).trans ?_))
  exact congrFun (if_neg (by rw [not_taskGate gate]; decide)) s1

end

/-! The target of an interrupt or trap gate. -/

/-- What follows the checks of the target `c` of a gate whose entry is made in `s` (R580). -/
def intoHandler (s : State) (kind : ExnKind) (code : Option Word16) (g c : Desc) (ext : Word16) : M Unit := do
  frameStack g.gateSize c ext (exnGP (selCode g.gateSel ||| ext))
  push g.gateSize.width ((s.savedFlags kind).setWidth g.gateSize.width.bits)
  pushReturn g.gateSize s.segs.cs.sel (s.returnEip kind)
  pushCode g.gateSize code
  modify fun s => s.setFlags (s.flags.inHandler g)
  require (decide (g.gateOff ≤ c.limit)) (exnGP 0)
  loadCodeSeg c g.gateSel (if c.conforming then s.level else c.dpl)
  putEip g.gateOff

section
variable {s s2 u : State} {kind : ExnKind} {code : Option Word16} {g c : Desc} {ext : Word16} {e : Exn}

theorem enterGate_null (null : g.gateSel.toNat < 4 ∨ OutsideTable s g.gateSel) :
    enterGate kind code g ext s = .error (.exc (exnGP (selCode g.gateSel ||| ext))) s := by
  unfold enterGate
  rw [get_bind_run]
  by_cases isNull : g.gateSel.toNat < 4
  · exact require_bind_fail (require_selNull_fails isNull)
  · have outside : OutsideTable s g.gateSel := null.resolve_left isNull
    exact (require_bind_of (require_selNull_ok (Nat.not_lt.mp isNull))).trans
      (bind_run_error (readDescriptor_outside outside))

theorem enterGate_target_fails (named : 4 ≤ g.gateSel.toNat) (found : DescriptorAt g.gateSel c s s2)
    (fails : ¬(c.isCode = true ∧ c.dpl ≤ s.level) ∧ e = exnGP (selCode g.gateSel ||| ext) ∨
      (c.isCode = true ∧ c.dpl ≤ s.level) ∧ c.p = false ∧ e = exnNP (selCode g.gateSel ||| ext)) :
    enterGate kind code g ext s = .error (.exc e) s2 := by
  unfold enterGate
  rw [get_bind_run]
  refine (require_bind_of (require_selNull_ok named)).trans ?_
  rw [bind_run_ok (descriptorAt_run found _)]
  rcases fails with ⟨no, rfl⟩ | ⟨yes, absent, rfl⟩
  · exact require_bind_fail (Bool.eq_false_iff.mpr fun h => no (by simpa using h))
  · exact (require_bind_of (by simpa using yes)).trans (require_bind_fail absent)

theorem enterGate_target (named : 4 ≤ g.gateSel.toNat) (found : DescriptorAt g.gateSel c s s2)
    (yes : c.isCode = true ∧ c.dpl ≤ s.level) (present : c.p = true) :
    enterGate kind code g ext s = intoHandler s kind code g c ext s2 := by
  unfold enterGate
  rw [get_bind_run]
  refine (require_bind_of (require_selNull_ok named)).trans ?_
  rw [bind_run_ok (descriptorAt_run found _)]
  exact (require_bind_of (by simpa using yes)).trans (require_bind_of present)

/-- The stack of inner code is bad, or a virtual-8086 task would not reach level 0 (R580). -/
theorem frameStack_inner_fails {z : Size} {bad : Exn} (ordinary : c.conforming = false) (inner : c.dpl < s.level)
    (fails : InnerStackFails c.dpl ext e s u ∨
      s.mode = .v86 ∧ c.dpl ≠ 0 ∧ e = bad ∧ ∃ ss esp d, InnerStackAt c.dpl ss esp d s u) :
    frameStack z c ext bad s = .error (.exc e) u := by
  unfold frameStack
  rw [get_bind_run]
  refine (congrFun (if_pos (by simp [ordinary, inner])) s).trans ?_
  rcases fails with stack | ⟨mode, level, rfl, ss, esp, d, stack⟩
  · exact bind_run_error (innerStackFails_run stack)
  · rw [bind_run_ok (innerStack_run stack)]
    have outer : (c.dpl == 0) = false := beq_eq_false_iff_ne.mpr level
    exact require_bind_fail (by rw [mode_v86_vm mode, outer]; rfl)

theorem frameStack_same_fails {z : Size} {bad : Exn} (mode : s.mode = .v86)
    (same : c.conforming = true ∨ c.dpl = s.level) : frameStack z c ext bad s = .error (.exc bad) s := by
  have stays : ¬(!c.conforming && decide (c.dpl < s.level)) = true := by
    rcases same with h | h <;> simp [h]
  unfold frameStack
  rw [get_bind_run]
  refine (congrFun (if_neg stays) s).trans ?_
  rw [mode_v86_vm mode]
  rfl

/-- The frame of an entry stands, and the offset lies beyond the limit of its target (R580). -/
theorem intoHandler_limit (frame : AccessFrame s s2) (framed : GateFramed g c kind code s2 u)
    (beyond : g.gateOff.toNat > c.limit.toNat) :
    intoHandler s kind code g c ext s2 = .error (.exc (exnGP 0)) u := by
  obtain ⟨s1, t1, t2, t3, t4, stack, flags, cs, eip, pushed, rfl⟩ := framed
  rw [frame_flags frame, ← savedFlags_eq] at flags
  rw [frame_segs frame] at cs
  rw [frame_curEip frame, frame_eip frame, ← returnEip_eq] at eip
  unfold intoHandler
  rw [bind_run_ok (frameStack_run stack), bind_run_ok (pushed_iff.mp flags), bind_run_ok (pushReturn_run cs eip),
    bind_run_ok (pushCode_run pushed), modify_bind_run, inHandler_eq]
  exact require_bind_fail (decide_eq_false (not_inside beyond))

end

/-- Settles O46: the checks of R580 in their order; the software interrupts are undone. -/
theorem entryFaults : Obligations.EntryFaults := by
  unfold Obligations.EntryFaults
  refine ⟨fun v kind code s mode => ?_, fun s u e unlocked mode => ?_⟩
  · intro ext idt fails
    refine ⟨interrupt_beyond mode, fun g s1 inside read => ?_⟩
    intro use
    have frame1 := readEntry_frame read
    have level1 : s1.level = s.level := frame_level frame1
    have arrives := interrupt_gate (kind := kind) (code := code) mode inside read
    refine ⟨fun int task => arrives.trans (throughGate_other int task), fun gate =>
        ⟨fun no => arrives.trans (throughGate_fails gate (.inl ⟨no, rfl⟩)),
          fun yes absent => arrives.trans (throughGate_fails gate (.inr ⟨yes, absent, rfl⟩))⟩,
      fun gate yes present e u switch => ?_, fun gate yes present => ?_⟩
    · rw [← savedFlags_eq, ← returnEip_eq] at switch
      exact arrives.trans ((throughGate_task gate yes present).trans (bind_run_error switch))
    · intro target
      have enters := arrives.trans (throughGate_int gate yes present)
      refine ⟨fun bad => enters.trans (enterGate_null (bad.imp id
          (outsideTable_congr (dataOnly_of_frame frame1) g.gateSel).mpr)), fun c s2 named found => ?_⟩
      have frame2 := descriptorAt_frame found
      have level2 : s2.level = s.level := (frame_level frame2).trans level1
      have mode2 : s2.mode = s.mode := (frame_mode frame2).trans (frame_mode frame1)
      have into (isCode : c.isCode = true) (outer : c.dpl ≤ s.level) (there : c.p = true) :
          interrupt v kind code s = intoHandler s1 kind code g c (extOf kind) s2 :=
        enters.trans (enterGate_target named found ⟨isCode, by rwa [level1]⟩ there)
      refine ⟨fun no => enters.trans (enterGate_target_fails named found (.inl ⟨by rwa [level1], rfl⟩)),
        fun isCode outer => ⟨fun absent => enters.trans
            (enterGate_target_fails named found (.inr ⟨⟨isCode, by rwa [level1]⟩, absent, rfl⟩)),
          fun there ordinary inner => ?_, fun there v86 same => ?_, fun there beyond u framed => ?_⟩⟩
      · rw [← level2] at inner
        exact ⟨fun e u stack => (into isCode outer there).trans (bind_run_error (frameStack_inner_fails ordinary inner (.inl stack))),
          fun v86 away ss esp d u stack => (into isCode outer there).trans (bind_run_error (frameStack_inner_fails ordinary inner
            (.inr ⟨mode2.trans v86, away, rfl, ss, esp, d, stack⟩)))⟩
      · exact (into isCode outer there).trans (bind_run_error (frameStack_same_fails (mode2.trans v86) (by rwa [level2])))
      · exact (into isCode outer there).trans (intoHandler_limit frame2 framed beyond)
  · exact ⟨fun v allowed entry => software_exc (.inr (.inl ⟨rfl, allowed⟩)) unlocked entry,
      fun entry => software_exc (.inl ⟨rfl, rfl⟩) unlocked entry,
      fun entry of => software_exc (.inr (.inr ⟨rfl, rfl, of⟩)) unlocked entry⟩

/-! An exception met while another event is delivered (R567, R590). -/

theorem contributory_iff (v : Byte) : contributory v = true ↔ v ∈ ([0, 10, 11, 12, 13] : List Byte) := by
  simp [contributory, or_assoc]

theorem doubleFault_iff (e e2 : Exn) :
    doubleFault e e2 = true ↔ e.kind = .fault ∧ Escalates e.vector e2.vector := by
  unfold doubleFault Escalates
  simp only [Bool.and_eq_true, Bool.or_eq_true, beq_iff_eq, contributory_iff]

/-- An exception `e2` met while `e` is delivered from `s`: `back` is the state in which delivery begins again, `base`
the one a shutdown keeps (R556, R567, R569; log entry 34). -/
def MetWhile (e e2 : Exn) (s u back base : State) : Prop :=
  (interrupt e.vector e.kind e.code (reported e s) = .error (.exc e2) u ∧ back = undo (reported e s) u ∧
      base = reported e s) ∨
    (interrupt e.vector e.kind e.code (reported e s) = .error (.excNew e2) u ∧ back = u ∧ base = u)

theorem deliverWithin_met {n : Nat} {e e2 : Exn} {s u back base : State} (met : MetWhile e e2 s u back base) :
    deliverWithin (n + 1) e s =
      if e.kind = .abort then faultShutdown e2 base else deliverWithin n (nextFault e e2) back := by
  have same : report e s = reported e s := rfl
  rw [deliverWithin]
  rcases met with ⟨entry, rfl, rfl⟩ | ⟨entry, rfl, rfl⟩
  · simp only [same, entry]
  · simp only [same, entry]

end Sys2Proof.Machine

namespace Sys2Proof.Settled

open Sys2Proof.Safety Sys2Proof.Claims Sys2Proof.Machine

/-- Settles O47: what delivery goes on with. -/
theorem doubleFault : Obligations.DoubleFault := by
  unfold Obligations.DoubleFault
  intro e e2 s u back base met double isDouble
  have step : deliver e s =
      if e.kind = .abort then faultShutdown e2 base else deliverWithin 7 (nextFault e e2) back :=
    deliverWithin_met met
  refine ⟨fun abort => step.trans (if_pos abort), fun other isTwo => ?_, fun other isOne t entered => ?_⟩
  · have next : nextFault e e2 = double := if_pos ((doubleFault_iff e e2).mpr isTwo)
    rw [if_neg other, next] at step
    refine ⟨fun t entered => step.trans (deliverWithin_ok (entered_run entered)), fun e3 u3 entry => ?_⟩
    exact step.trans ((deliverWithin_met (.inl ⟨entry, rfl, rfl⟩)).trans (if_pos rfl))
  · have next : nextFault e e2 = e2 := if_neg (mt (doubleFault_iff e e2).mp isOne)
    rw [if_neg other, next] at step
    exact step.trans (deliverWithin_ok (entered_run entered))

end Sys2Proof.Settled
end

