-- ==== Sys2Proof/Proofs/TaskSwitches.lean ====
section
/-! SUPPORT. What segment loads and the parts of a task switch keep, and the task switch itself (R118, R596). -/

namespace Sys2Proof.Machine

open Sys2Proof.Safety Sys2Proof.Claims

/-! Properties of the state that the processor's own accesses and the loads of segment registers keep. -/

/-- A property that page translations, stores, and replaced segment registers and LDTR do not touch. -/
structure LoadClosed (P : State → Prop) : Prop where
  page : ∀ kind user lin, Keeps P (page kind user lin)
  mem : ∀ s ps bs, P s → P (s.setMem (writePhys s.mem ps bs))
  seg : ∀ s sr g, P s → P (s.setSeg sr g)
  ldtr : ∀ s l, P s → P { s with ldtr := l }

theorem keeps_onlyIf {P : State → Prop} {c : Bool} {m : M Unit} (h : Keeps P m) : Keeps P (onlyIf c m) :=
  keeps_ite h (keeps_pure _)

section
variable {P : State → Prop} (closed : LoadClosed P)
include closed

theorem LoadClosed.pages (kind : Access) (user : Bool) (lin : Word32) (n : Nat) :
    Keeps P (pages kind user lin n) := by
  induction n generalizing lin with
  | zero => exact keeps_pure _
  | succ n ih => exact keeps_bind (closed.page kind user lin) fun _ => keeps_bind (ih _) fun _ => keeps_pure _

omit closed in
theorem keeps_loadBytes_any (ps : List Word32) : Keeps P (loadBytes ps) :=
  keeps_bind keeps_get fun _ => keeps_pure _

theorem LoadClosed.storeBytes (ps : List Word32) (bs : List Byte) : Keeps P (storeBytes ps bs) :=
  keeps_modify fun s h => closed.mem s ps bs h

theorem LoadClosed.sysRead (lin : Word32) (n : Nat) : Keeps P (sysRead lin n) :=
  keeps_bind (closed.pages _ _ _ _) fun _ => keeps_loadBytes_any _

theorem LoadClosed.sysRead16 (lin : Word32) : Keeps P (sysRead16 lin) :=
  keeps_bind (closed.sysRead _ _) fun _ => keeps_pure _

theorem LoadClosed.sysRead32 (lin : Word32) : Keeps P (sysRead32 lin) :=
  keeps_bind (closed.sysRead _ _) fun _ => keeps_pure _

theorem LoadClosed.sysWrite (lin : Word32) (bs : List Byte) : Keeps P (sysWrite lin bs) :=
  keeps_bind (closed.pages _ _ _ _) fun _ => closed.storeBytes _ _

theorem LoadClosed.readEntry (addr : Word32) : Keeps P (readEntry addr) :=
  keeps_bind (closed.sysRead32 _) fun _ => keeps_bind (closed.sysRead32 _) fun _ => keeps_pure _

theorem LoadClosed.readDescriptor (sel : Word16) (e : Exn) : Keeps P (readDescriptor sel e) :=
  keeps_bind keeps_get fun _ => keeps_ite (keeps_ite (keeps_raise _) (closed.readEntry _))
    (keeps_ite (keeps_raise _) (closed.readEntry _))

theorem LoadClosed.markAccessed (d : Desc) : Keeps P (markAccessed d) :=
  keeps_ite (keeps_pure _) (closed.sysWrite _ _)

theorem LoadClosed.putSeg (sr : SReg) (g : SegReg) : Keeps P (putSeg sr g) :=
  keeps_modify fun s h => closed.seg s sr g h

theorem LoadClosed.loadSegReal (sr : SReg) (sel : Word16) : Keeps P (loadSegReal sr sel) :=
  keeps_bind keeps_get fun _ => closed.putSeg _ _

theorem LoadClosed.loadStackSeg (sel : Word16) (cpl : BitVec 2) (null : Exn) (bad absent : Word16 → Exn) :
    Keeps P (loadStackSeg sel cpl null bad absent) :=
  keeps_ite (keeps_raise _) (keeps_bind (closed.readDescriptor _ _) fun _ => keeps_bind (keeps_require _ _) fun _ =>
    keeps_bind (keeps_require _ _) fun _ => keeps_bind (closed.markAccessed _) fun _ => closed.putSeg _ _)

theorem LoadClosed.loadDataSeg (sr : SReg) (sel : Word16) (cpl : BitVec 2) (bad absent : Word16 → Exn) :
    Keeps P (loadDataSeg sr sel cpl bad absent) :=
  keeps_ite (keeps_bind keeps_get fun _ => closed.putSeg _ _)
    (keeps_bind (closed.readDescriptor _ _) fun _ => keeps_bind (keeps_require _ _) fun _ =>
      keeps_bind (keeps_require _ _) fun _ => keeps_bind (keeps_require _ _) fun _ =>
        keeps_bind (closed.markAccessed _) fun _ => closed.putSeg _ _)

theorem LoadClosed.loadLdtr (sel ext : Word16) : Keeps P (loadLdtr sel ext) :=
  keeps_ite (keeps_modify fun s h => closed.ldtr s _ h)
    (keeps_bind (keeps_require _ _) fun _ => keeps_bind (closed.readDescriptor _ _) fun _ =>
      keeps_bind (keeps_require _ _) fun _ => keeps_modify fun s h => closed.ldtr s _ h)

theorem LoadClosed.loadTaskCode (sel ext : Word16) : Keeps P (loadTaskCode sel ext) :=
  keeps_bind (keeps_require _ _) fun _ => keeps_bind (closed.readDescriptor _ _) fun _ =>
    keeps_bind (keeps_require _ _) fun _ => keeps_bind (keeps_require _ _) fun _ =>
      keeps_bind (closed.markAccessed _) fun _ => closed.putSeg _ _

theorem LoadClosed.loadTaskSegs (k : TssImage) (ext : Word16) : Keeps P (loadTaskSegs k ext) := by
  refine keeps_bind (closed.loadLdtr _ _) fun _ => keeps_bind keeps_get fun s => keeps_ite ?_ ?_
  · have real (sr : SReg) (sel : Word16) := closed.loadSegReal sr sel
    exact keeps_bind (real _ _) fun _ => keeps_bind (real _ _) fun _ => keeps_bind (real _ _) fun _ =>
      keeps_bind (real _ _) fun _ => keeps_bind (real _ _) fun _ => real _ _
  · have data (sr : SReg) (sel : Word16) (bad absent : Word16 → Exn) := closed.loadDataSeg sr sel s.cpl bad absent
    exact keeps_bind (closed.loadTaskCode _ _) fun _ => keeps_bind (closed.loadStackSeg _ _ _ _ _) fun _ =>
      keeps_bind (data _ _ _ _) fun _ => keeps_bind (data _ _ _ _) fun _ => keeps_bind (data _ _ _ _) fun _ =>
        data _ _ _ _

theorem LoadClosed.checkTask (cause : TaskCause) (direct : Bool) (sel ext : Word16) :
    Keeps P (checkTask cause direct sel ext) := by
  refine keeps_bind keeps_get fun s => keeps_bind (keeps_require _ _) fun _ =>
    keeps_bind (closed.readDescriptor _ _) fun d => ?_
  iterate 6 refine keeps_bind (keeps_require _ _) fun _ => ?_
  exact keeps_pure _

theorem LoadClosed.saveTss (ret img : Word32) : Keeps P (saveTss ret img) := by
  refine keeps_bind keeps_get fun s => ?_
  iterate 15 refine keeps_bind (closed.sysWrite _ _) fun _ => ?_
  exact closed.sysWrite _ _

theorem LoadClosed.setBusy (sel : Word16) (b : Bool) : Keeps P (setBusy sel b) :=
  keeps_bind keeps_get fun _ => keeps_bind (closed.sysRead _ _) fun _ => closed.sysWrite _ _

theorem LoadClosed.readTss (base : Word32) : Keeps P (readTss base) := by
  refine keeps_bind (closed.sysRead16 _) fun _ => ?_
  iterate 10 refine keeps_bind (closed.sysRead32 _) fun _ => ?_
  iterate 6 refine keeps_bind (closed.sysRead16 _) fun _ => ?_
  exact keeps_pure _

end

/-! What a task switch that ends well leaves (R596). -/

/-- Nothing but segment registers, LDTR, memory with the TLB and its marks, and the causes of a debug trap differs. -/
def SameTask (s t : State) : Prop :=
  t = { s with segs := t.segs, ldtr := t.ldtr, tlb := t.tlb, dbg := t.dbg, mem := t.mem, adMarks := t.adMarks }

theorem sameTask_refl (s : State) : SameTask s s := rfl

theorem sameTask_frame {s t u : State} (same : SameTask s t) (frame : AccessFrame t u) : SameTask s u := by
  unfold SameTask at same ⊢
  rw [frame.same, same]

theorem sameTask_closed (s : State) : LoadClosed (SameTask s) where
  page kind user lin := fun _ same => sameTask_frame same (page_frame kind user lin _)
  mem t ps bs same := by
    unfold SameTask at same ⊢
    rw [same]
    rfl
  seg t sr g same := by
    unfold SameTask at same ⊢
    rw [same]
    rfl
  ldtr t l same := by
    unfold SameTask at same ⊢
    rw [same]

section
variable {s t : State} (same : SameTask s t)
include same

theorem sameTask_tr : t.tr = s.tr := by rw [same]
theorem sameTask_cr0 : t.cr0 = s.cr0 := by rw [same]
theorem sameTask_cr3 : t.cr3 = s.cr3 := by rw [same]
theorem sameTask_dr : t.dr = s.dr := by rw [same]
theorem sameTask_flags : t.flags = s.flags := by rw [same]
theorem sameTask_rfKept : t.rfKept = s.rfKept := by rw [same]
theorem sameTask_paging : t.paging = s.paging := by rw [same]; rfl

end

theorem inNewTask_eq_ok {m : M Unit} {s t : State} (h : inNewTask m s = .ok () t) : m s = .ok () t := by
  unfold inNewTask at h
  split at h
  · cases h
  · exact h

theorem keeps_noteTaskTrap (s0 : State) (base : Word32) : Keeps (SameTask s0) (noteTaskTrap base) := by
  refine keeps_bind ((sameTask_closed s0).sysRead16 _) fun v => keeps_ite (keeps_modify fun s same => ?_) (keeps_pure _)
  unfold SameTask at same ⊢
  rw [same]

/-- The states of a task switch that ends well: the old task up to `a`, TR and TS loaded, CR3 with paging up to `b`, the
new task `k` begun, its segment registers up to `t` (R596). -/
structure SwitchStates (cause : TaskCause) (sel : Word16) (s t : State) : Prop where
  stages : ∃ (d : Desc) (a b c : State) (k : TssImage), SameTask s a ∧ loadTaskCr3 d.base (a.enterTss sel d) = .ok () b ∧
    SameTask b c ∧ SameTask (c.enterTask k (cause = .call || cause = .interrupt)) t

theorem taskSwitch_states {cause : TaskCause} {direct : Bool} {sel ext : Word16} {ret img : Word32} {s t : State}
    (h : taskSwitch cause direct sel ret img ext s = .ok () t) : SwitchStates cause sel s t := by
  have old := sameTask_closed s
  obtain ⟨d, s1, checked, h⟩ := bind_run_eq_ok h
  rw [get_bind_run] at h
  obtain ⟨_, s2, saved, h⟩ := bind_run_eq_ok h
  obtain ⟨_, s3, cleared, h⟩ := bind_run_eq_ok h
  obtain ⟨_, s4, linked, h⟩ := bind_run_eq_ok h
  obtain ⟨_, s5, marked, h⟩ := bind_run_eq_ok h
  have same1 := keeps_ok (old.checkTask _ _ _ _) (sameTask_refl s) checked
  have same2 := keeps_ok (old.saveTss _ _) same1 saved
  have same3 := keeps_ok (keeps_onlyIf (old.setBusy _ _)) same2 cleared
  have same4 := keeps_ok (keeps_onlyIf (old.sysWrite _ _)) same3 linked
  have same5 := keeps_ok (keeps_onlyIf (old.setBusy _ _)) same4 marked
  rw [modify_bind_run] at h
  obtain ⟨_, s6, cr3, h⟩ := bind_run_eq_ok h
  obtain ⟨k, s7, read, h⟩ := bind_run_eq_ok h
  have same7 := keeps_ok ((sameTask_closed s6).readTss _) (sameTask_refl s6) read
  rw [modify_bind_run] at h
  have last := inNewTask_eq_ok h
  have new := sameTask_closed (s7.enterTask k (cause = .call || cause = .interrupt))
  exact ⟨d, s5, s6, s7, k, same5, cr3, same7,
    keeps_ok (keeps_bind (new.loadTaskSegs _ _) fun _ => keeps_noteTaskTrap _ _) (sameTask_refl _) last⟩

/-- CR3 after its load from a TSS, with paging and without (R47, R596). -/
theorem loadTaskCr3_ok {base : Word32} {a b : State} (h : loadTaskCr3 base a = .ok () b) :
    b.tr = a.tr ∧ b.cr0 = a.cr0 ∧ b.dr = a.dr ∧
      if a.paging then b.cr3 &&& 0xFFF = 0 else b.cr3 = a.cr3 := by
  unfold loadTaskCr3 at h
  rw [get_bind_run] at h
  split at h
  · next on =>
    obtain ⟨v, u, read, h⟩ := bind_run_eq_ok h
    have frame := sysRead32_frame read
    cases h
    rw [if_pos on]
    refine ⟨(frame_tr frame : u.tr = a.tr), by rw [frame.same]; rfl, by rw [frame.same]; rfl, ?_⟩
    change (v &&& 0xFFFFF000) &&& 0xFFF = 0
    rw [BitVec.and_assoc]
    exact BitVec.and_zero
  · next off =>
    cases h
    rw [if_neg off]
    exact ⟨rfl, rfl, rfl, rfl⟩

theorem taskSwitch_facts {cause : TaskCause} {direct : Bool} {sel ext : Word16} {ret img : Word32} {s t : State}
    (h : taskSwitch cause direct sel ret img ext s = .ok () t) :
    t.tr.sel = sel ∧ t.tr.valid = true ∧ t.cr0 = s.cr0 ||| 8 ∧ t.dr.dr7 = s.dr.dr7 &&& 0xFFFFFEAA ∧
      (cause = .call ∨ cause = .interrupt → t.flags.nt = true) ∧
      (s.paging = false → t.cr3 = s.cr3) ∧ t.cr3 &&& 0xFFF = (if s.paging then 0 else s.cr3 &&& 0xFFF) := by
  obtain ⟨d, a, b, c, k, old, cr3, reads, new⟩ := taskSwitch_states h
  obtain ⟨tr, cr0, dr, page⟩ := loadTaskCr3_ok cr3
  have paging : (a.enterTss sel d).paging = s.paging := (enterTss_paging a sel d).trans (sameTask_paging old)
  have trT : t.tr = ⟨sel, d.base, d.limit, true⟩ := (sameTask_tr new).trans ((sameTask_tr reads : c.tr = b.tr).trans tr)
  have cr3T : t.cr3 = b.cr3 := (sameTask_cr3 new).trans (sameTask_cr3 reads : c.cr3 = b.cr3)
  rw [paging] at page
  refine ⟨by rw [trT], by rw [trT], ?_, ?_, fun nested => ?_, fun off => ?_, ?_⟩
  · rw [sameTask_cr0 new]
    change c.cr0 = _
    rw [sameTask_cr0 reads, cr0]
    change a.cr0 ||| 8 = _
    rw [sameTask_cr0 old]
  · rw [sameTask_dr new]
    change dr7AfterSwitch c.dr.dr7 = _
    rw [sameTask_dr reads, dr]
    change dr7AfterSwitch a.dr.dr7 = _
    rw [sameTask_dr old]
    rfl
  · rw [sameTask_flags new]
    rcases nested with rfl | rfl <;> exact Bool.or_true _
  · rw [if_neg (by simp [off])] at page
    exact cr3T.trans (page.trans (sameTask_cr3 old : a.cr3 = s.cr3))
  · rw [cr3T]
    by_cases on : s.paging = true
    · rw [if_pos on] at page ⊢
      exact page
    · rw [if_neg on] at page ⊢
      rw [page]
      exact congrArg (· &&& 0xFFF) (sameTask_cr3 old : a.cr3 = s.cr3)

theorem taskSwitch_rfKept {cause : TaskCause} {direct : Bool} {sel ext : Word16} {ret img : Word32} {s t : State}
    (h : taskSwitch cause direct sel ret img ext s = .ok () t) : t.rfKept = true := by
  obtain ⟨d, a, b, c, k, -, -, -, new⟩ := taskSwitch_states h
  exact sameTask_rfKept new

/-! The checks of a task switch (R596; log entry 26). -/

section
variable {cause : TaskCause} {direct : Bool} {sel ext : Word16} {ret img : Word32} {s u : State} {d : Desc} {e : Exn}

/-- The exception of a selector that names no TSS (R596; log entry 26). -/
def badTask (cause : TaskCause) (sel ext : Word16) : Exn :=
  if cause = .iret then exnTS (selCode sel ||| ext) else exnGP (selCode sel ||| ext)

theorem checkTask_selector_fails (bad : sel.toNat < 4 ∨ sel.getLsbD 2 = true ∨ OutsideTable s sel) :
    checkTask cause direct sel ext s = .error (.exc (badTask cause sel ext)) s := by
  unfold checkTask
  rw [get_bind_run]
  by_cases null : sel.toNat < 4
  · exact require_bind_fail (by rw [selNull_iff.mpr null, Bool.not_true, Bool.and_false])
  · by_cases ti : sel.getLsbD 2 = true
    · exact require_bind_fail (by rw [selTi_eq, ti]; rfl)
    · have outside : OutsideTable s sel := (bad.resolve_left null).resolve_left ti
      have named : (!selTi sel && !selNull sel) = true := by
        rw [selTi_eq, Bool.eq_false_iff.mpr ti, not_selNull (Nat.not_lt.mp null)]
        rfl
      exact (require_bind_of named).trans (bind_run_error (readDescriptor_outside outside))

/-- The checks of the descriptor, in their order (R596). -/
theorem checkTask_descriptor_fails (named : 4 ≤ sel.toNat) (global : sel.getLsbD 2 = false)
    (found : DescriptorAt sel d s u)
    (fails : d.isTss = false ∧ e = badTask cause sel ext ∨
      d.isTss = true ∧ d.p = false ∧ e = exnNP (selCode sel ||| ext) ∨
      d.isTss = true ∧ d.p = true ∧ d.limit.toNat < 103 ∧ e = exnTS (selCode sel ||| ext) ∨
      d.isTss = true ∧ d.p = true ∧ 103 ≤ d.limit.toNat ∧
        (direct = true ∧ ¬(s.cpl ≤ d.dpl ∧ selRpl sel ≤ d.dpl) ∧ e = exnGP (selCode sel ||| ext) ∨
          (direct = true → s.cpl ≤ d.dpl ∧ selRpl sel ≤ d.dpl) ∧ ¬(d.busy = true ↔ cause = .iret) ∧
            e = badTask cause sel ext)) :
    checkTask cause direct sel ext s = .error (.exc e) u := by
  have first : (!selTi sel && !selNull sel) = true := by
    rw [selTi_eq, global, not_selNull named]
    rfl
  unfold checkTask
  rw [get_bind_run]
  refine (require_bind_of first).trans ((bind_run_ok (descriptorAt_run found _)).trans ?_)
  rcases fails with ⟨tss, rfl⟩ | ⟨tss, absent, rfl⟩ | ⟨tss, present, short, rfl⟩ | ⟨tss, present, long, rest⟩
  · exact require_bind_fail tss
  · exact (require_bind_of tss).trans (require_bind_fail absent)
  · exact (require_bind_of tss).trans ((require_bind_of present).trans
      (require_bind_fail (decide_eq_false (by omega))))
  · refine (require_bind_of tss).trans ((require_bind_of present).trans
      ((require_bind_of (decide_eq_true long)).trans ?_))
    rcases rest with ⟨rfl, no, rfl⟩ | ⟨yes, busy, rfl⟩
    · exact require_bind_fail (Bool.eq_false_iff.mpr fun h => no (by simpa using h))
    · have privilege : (!direct || (decide (s.cpl ≤ d.dpl) && decide (selRpl sel ≤ d.dpl))) = true := by
        cases direct
        · rfl
        · simpa using yes rfl
      refine (require_bind_of privilege).trans (require_bind_fail ?_)
      by_cases iret : cause = .iret <;> simpa [iret] using busy

end

theorem pe_of_mode {s : State} (mode : s.mode ≠ .real) : s.pe = true :=
  (Bool.eq_false_or_eq_true s.pe).resolve_right (mt mode_real_iff.mpr mode)

theorem tss_not_gate {d : Desc} (tss : d.isTss = true) :
    d.isCode = false ∧ d.isCallGate = false ∧ d.isTaskGate = false := by
  unfold Desc.isTss at tss
  unfold Desc.isCode Desc.isCallGate Desc.isTaskGate
  have kinds : ∀ y : BitVec 4, (y == 1 || y == 3 || y == 9 || y == 0xB) = true → (y == 4 || y == 0xC) = false ∧
      (y == 5) = false := by decide
  cases h : d.s
  · rw [h] at tss
    exact ⟨rfl, kinds d.sysType tss⟩
  · rw [h] at tss
    cases tss

/-- A far JMP or CALL that names a TSS or a task gate is the task switch (R596). -/
theorem farProt_switch {s0 s1 t : State} {call : Bool} {sel dest : Word16} {off : Word32} {d : Desc} {direct : Bool}
    (pe : s1.pe = true) (named : 4 ≤ sel.toNat) (found : DescriptorAt sel d s0 s1)
    (kind : d.isTss = true ∧ direct = true ∧ dest = sel ∨
      d.isTaskGate = true ∧ s1.cpl ≤ d.dpl ∧ selRpl sel ≤ d.dpl ∧ d.p = true ∧ direct = false ∧ dest = d.gateSel)
    (switched : TaskSwitched (if call then .call else .jmp) direct dest s0.eip s1.flags.image s1 t) :
    farProt call sel off s0 = .ok () t := by
  have run := taskSwitched_run (ext := 0) pe switched
  rcases kind with ⟨tss, rfl, rfl⟩ | ⟨gate, level, rpl, present, rfl, rfl⟩
  · obtain ⟨code, callGate, taskGate⟩ := tss_not_gate tss
    refine (farProt_task named found code callGate (by simp [tss])).trans ?_
    unfold taskTransfer
    rw [get_bind_run]
    exact (congrFun (if_neg (by simp [taskGate])) s1).trans run
  · obtain ⟨code, callGate⟩ := taskGate_not_code gate
    refine (farProt_task named found code callGate (by simp [gate])).trans ?_
    unfold taskTransfer
    rw [get_bind_run]
    refine (congrFun (if_pos gate) s1).trans ?_
    exact (require_bind_of (by simp [level, rpl])).trans ((require_bind_of present).trans run)

/-- IRET with NT = 1 (R500, R596). -/
theorem iret_nested_ok {s s1 t : State} {link : Word16} (unlocked : s.pfx.lock = false) (mode : s.mode = .prot)
    (nested : s.flags.nt = true) (valid : s.tr.valid = true) (read : sysRead16 s.tr.base s.begun = .ok link s1)
    (switched : TaskSwitched .iret false link s.eip s.flags.image s1 t) :
    exec .iret s = .next (finished s { t with nmiMask := false }) := by
  have pe : s1.pe = true := (frame_pe (sysRead16_frame read)).trans (pe_of_mode (s := s) (by rw [mode]; decide))
  have run := taskSwitched_run (ext := 0) pe switched
  have task : iretTask s.begun = .ok () t := by
    unfold iretTask
    rw [get_bind_run]
    exact (require_bind_of valid).trans (seq_ok read run)
  have kept : (t.rfKept || decide (s.begun.osz = .s32)) = t.rfKept := by rw [taskSwitch_rfKept run, Bool.true_or]
  have last : (modify (afterIret s.begun) : M Unit) t = .ok () { t with nmiMask := false } :=
    congrArg (fun b => (EStateM.Result.ok () { t with nmiMask := false, rfKept := b } : EStateM.Result Stop State Unit)) kept
  exact runInstr_ok_noLock unlocked (m := interruptReturn)
    ((interruptReturn_task (s := s.begun) mode nested).trans (seq_ok task last))

/-- Settles O56: each way to a task switch is the switch, its checks fail in their order, and its facts hold. -/
theorem taskSwitches : Obligations.TaskSwitches := by
  unfold Obligations.TaskSwitches
  refine ⟨fun s s0 s1 t sel off i j d unlocked mode forms named found => ?_,
    fun s s1 t link unlocked mode nested valid read switched =>
      iret_nested_ok unlocked mode nested valid read switched,
    fun s t unlocked mode => ?_, fun cause direct sel ret img ext s => ?_⟩
  · have runs := farForms_run forms
    have frame1 := accessFrame_trans runs.frame (descriptorAt_frame found)
    have mode0 : s0.mode = .prot := (frame_mode runs.frame).trans mode
    have pe1 : s1.pe = true := (frame_pe frame1).trans (pe_of_mode (s := s) (by rw [mode]; decide))
    have flags1 : s1.flags = s.flags := (frame_flags frame1).trans rfl
    have cpl1 : s1.cpl = s.cpl := (frame_cpl frame1).trans rfl
    have eip0 : s0.eip = s.eip := (frame_eip runs.frame).trans rfl
    rw [← flags1, ← eip0]
    refine ⟨fun tss => ?_, fun gate level rpl present => ?_⟩
    · have kind : d.isTss = true ∧ true = true ∧ sel = sel := ⟨tss, rfl, rfl⟩
      exact ⟨fun switched => runs.jump_ok unlocked ((farJump_prot mode0 sel off).trans
          (farProt_switch (call := false) pe1 named found (.inl kind) switched)),
        fun switched => runs.call_ok unlocked ((farCall_prot mode0 sel off).trans
          (farProt_switch (call := true) pe1 named found (.inl kind) switched))⟩
    · have kind : d.isTaskGate = true ∧ s1.cpl ≤ d.dpl ∧ selRpl sel ≤ d.dpl ∧ d.p = true ∧ false = false ∧
          d.gateSel = d.gateSel := ⟨gate, by rwa [cpl1], rpl, present, rfl, rfl⟩
      exact ⟨fun switched => runs.jump_ok unlocked ((farJump_prot mode0 sel off).trans
          (farProt_switch (call := false) pe1 named found (.inr kind) switched)),
        fun switched => runs.call_ok unlocked ((farCall_prot mode0 sel off).trans
          (farProt_switch (call := true) pe1 named found (.inr kind) switched))⟩
  · have entry (v : Byte) (entered : TaskGateEntered v .software none s.begun t) :=
      taskGateEntered_run (s := s.begun) mode entered
    exact ⟨fun v allowed entered => software_ok (.inr (.inl ⟨rfl, allowed⟩)) unlocked (entry v entered),
      fun entered => software_ok (.inl ⟨rfl, rfl⟩) unlocked (entry 3 entered),
      fun entered of => software_ok (.inr (.inr ⟨rfl, rfl, of⟩)) unlocked (entry 4 entered),
      fun e u entered => deliver_ok (taskGateEntered_run (s := reported e s) mode entered)⟩
  · intro code bad fails
    have stops {e : Exn} {u : State} (check : checkTask cause direct sel ext s = .error (.exc e) u) : fails e u :=
      bind_run_error check
    refine ⟨fun wrong => stops (checkTask_selector_fails wrong), fun d u named global found => ?_,
      fun t => taskSwitch_facts⟩
    have descriptor {e : Exn} := checkTask_descriptor_fails (cause := cause) (direct := direct) (ext := ext) (e := e)
      named global found
    exact ⟨fun other => stops (descriptor (.inl ⟨other, rfl⟩)),
      fun tss absent => stops (descriptor (.inr (.inl ⟨tss, absent, rfl⟩))),
      fun tss present short => stops (descriptor (.inr (.inr (.inl ⟨tss, present, short, rfl⟩)))),
      fun tss present long =>
        ⟨fun named no => stops (descriptor (.inr (.inr (.inr ⟨tss, present, long, .inl ⟨named, no, rfl⟩⟩)))),
          fun yes busy => stops (descriptor (.inr (.inr (.inr ⟨tss, present, long, .inr ⟨yes, busy, rfl⟩⟩))))⟩⟩

end Sys2Proof.Machine
end

