-- ==== Sys2Proof/Proofs/Traps.lean ====
section
/-! SUPPORT. Instructions that LOCK or the privilege rules forbid (R108, R152, R530, R612), and the system registers
(R45 to R58). -/

namespace Sys2Proof.Machine

open Sys2Proof.Safety Sys2Proof.Claims

/-! LOCK. -/

/-- Whether an instruction may stand after LOCK (R530). -/
def takesLock : Instr → Bool
  | .addRmbRb m _ | .addRmvRv m _ | .addRmbIb m _ | .addRmvIv m _ | .addRmvIb m _
  | .orRmbRb m _ | .orRmvRv m _ | .orRmbIb m _ | .orRmvIv m _ | .orRmvIb m _
  | .adcRmbRb m _ | .adcRmvRv m _ | .adcRmbIb m _ | .adcRmvIv m _ | .adcRmvIb m _
  | .sbbRmbRb m _ | .sbbRmvRv m _ | .sbbRmbIb m _ | .sbbRmvIv m _ | .sbbRmvIb m _
  | .andRmbRb m _ | .andRmvRv m _ | .andRmbIb m _ | .andRmvIv m _ | .andRmvIb m _
  | .subRmbRb m _ | .subRmvRv m _ | .subRmbIb m _ | .subRmvIv m _ | .subRmvIb m _
  | .xorRmbRb m _ | .xorRmvRv m _ | .xorRmbIb m _ | .xorRmvIv m _ | .xorRmvIb m _
  | .incRmb m | .incRmv m | .decRmb m | .decRmv m | .notRmb m | .notRmv m | .negRmb m | .negRmv m
  | .btRmvRv m _ | .btRmvIb m _ | .btsRmvRv m _ | .btsRmvIb m _
  | .btrRmvRv m _ | .btrRmvIb m _ | .btcRmvRv m _ | .btcRmvIb m _
  | .xchgRbRmb _ m | .xchgRvRmv _ m => RMisMem m
  | _ => false

/-- Every instruction is its actions, under the rule for LOCK. -/
theorem exec_action (i : Instr) (s : State) (item : i.isPrefix = false) :
    ∃ m, exec i s = runInstr (takesLock i) m s := by
  cases i
  case lock | repne | rep | segEs | segCs | segSs | segDs | segFs | segGs | opSize | addrSize => cases item
  all_goals exact ⟨_, rfl⟩

theorem takesLock_of_lockable {i : Instr} (lockable : Lockable i) : takesLock i = true := by
  rcases lockable with ⟨op, m, x, named, rfl⟩ | ⟨op, wide, m, rfl⟩ | ⟨op, m, x, rfl⟩ | ⟨r, m, rfl | rfl⟩
  · cases op
    case cmp => exact absurd rfl named
    all_goals cases x <;> rfl
  · cases op <;> cases wide <;> rfl
  · cases op <;> cases x <;> rfl
  · rfl
  · rfl

theorem lockable_alu (op : AluOp) (x : Src) {m : RM} (mem : RMisMem m = true) (named : op ≠ .cmp) :
    Lockable (aluToRm op m x) := by
  cases m
  · cases mem
  · exact .inl ⟨op, _, x, named, rfl⟩

theorem lockable_un (op : UnOp) (wide : Bool) {m : RM} (mem : RMisMem m = true) : Lockable (unInstr op wide m) := by
  cases m
  · cases mem
  · exact .inr (.inl ⟨op, wide, _, rfl⟩)

theorem lockable_bit (op : BitOp) (x : Reg ⊕ Byte) {m : RM} (mem : RMisMem m = true) : Lockable (bitInstr op m x) := by
  cases m
  · cases mem
  · exact .inr (.inr (.inl ⟨op, _, x, rfl⟩))

theorem lockable_of_takesLock {i : Instr} (h : takesLock i = true) : Lockable i := by
  cases i
  case addRmbRb m r => exact lockable_alu .add (.rb r) h (by decide)
  case addRmvRv m r => exact lockable_alu .add (.rv r) h (by decide)
  case addRmbIb m v => exact lockable_alu .add (.ib v) h (by decide)
  case addRmvIv m v => exact lockable_alu .add (.iv v) h (by decide)
  case addRmvIb m v => exact lockable_alu .add (.sx v) h (by decide)
  case orRmbRb m r => exact lockable_alu .or (.rb r) h (by decide)
  case orRmvRv m r => exact lockable_alu .or (.rv r) h (by decide)
  case orRmbIb m v => exact lockable_alu .or (.ib v) h (by decide)
  case orRmvIv m v => exact lockable_alu .or (.iv v) h (by decide)
  case orRmvIb m v => exact lockable_alu .or (.sx v) h (by decide)
  case adcRmbRb m r => exact lockable_alu .adc (.rb r) h (by decide)
  case adcRmvRv m r => exact lockable_alu .adc (.rv r) h (by decide)
  case adcRmbIb m v => exact lockable_alu .adc (.ib v) h (by decide)
  case adcRmvIv m v => exact lockable_alu .adc (.iv v) h (by decide)
  case adcRmvIb m v => exact lockable_alu .adc (.sx v) h (by decide)
  case sbbRmbRb m r => exact lockable_alu .sbb (.rb r) h (by decide)
  case sbbRmvRv m r => exact lockable_alu .sbb (.rv r) h (by decide)
  case sbbRmbIb m v => exact lockable_alu .sbb (.ib v) h (by decide)
  case sbbRmvIv m v => exact lockable_alu .sbb (.iv v) h (by decide)
  case sbbRmvIb m v => exact lockable_alu .sbb (.sx v) h (by decide)
  case andRmbRb m r => exact lockable_alu .and (.rb r) h (by decide)
  case andRmvRv m r => exact lockable_alu .and (.rv r) h (by decide)
  case andRmbIb m v => exact lockable_alu .and (.ib v) h (by decide)
  case andRmvIv m v => exact lockable_alu .and (.iv v) h (by decide)
  case andRmvIb m v => exact lockable_alu .and (.sx v) h (by decide)
  case subRmbRb m r => exact lockable_alu .sub (.rb r) h (by decide)
  case subRmvRv m r => exact lockable_alu .sub (.rv r) h (by decide)
  case subRmbIb m v => exact lockable_alu .sub (.ib v) h (by decide)
  case subRmvIv m v => exact lockable_alu .sub (.iv v) h (by decide)
  case subRmvIb m v => exact lockable_alu .sub (.sx v) h (by decide)
  case xorRmbRb m r => exact lockable_alu .xor (.rb r) h (by decide)
  case xorRmvRv m r => exact lockable_alu .xor (.rv r) h (by decide)
  case xorRmbIb m v => exact lockable_alu .xor (.ib v) h (by decide)
  case xorRmvIv m v => exact lockable_alu .xor (.iv v) h (by decide)
  case xorRmvIb m v => exact lockable_alu .xor (.sx v) h (by decide)
  case incRmb m => exact lockable_un .inc false h
  case incRmv m => exact lockable_un .inc true h
  case decRmb m => exact lockable_un .dec false h
  case decRmv m => exact lockable_un .dec true h
  case notRmb m => exact lockable_un .not false h
  case notRmv m => exact lockable_un .not true h
  case negRmb m => exact lockable_un .neg false h
  case negRmv m => exact lockable_un .neg true h
  case btRmvRv m r => exact lockable_bit .bt (.inl r) h
  case btRmvIb m v => exact lockable_bit .bt (.inr v) h
  case btsRmvRv m r => exact lockable_bit .bts (.inl r) h
  case btsRmvIb m v => exact lockable_bit .bts (.inr v) h
  case btrRmvRv m r => exact lockable_bit .btr (.inl r) h
  case btrRmvIb m v => exact lockable_bit .btr (.inr v) h
  case btcRmvRv m r => exact lockable_bit .btc (.inl r) h
  case btcRmvIb m v => exact lockable_bit .btc (.inr v) h
  case xchgRbRmb r m =>
    cases m
    · cases h
    · exact .inr (.inr (.inr ⟨r, _, .inl rfl⟩))
  case xchgRvRmv r m =>
    cases m
    · cases h
    · exact .inr (.inr (.inr ⟨r, _, .inr rfl⟩))
  all_goals cases h

theorem checkLock_fails {s : State} {lockable : Bool} {e : Exn} (locked : s.pfx.lock = true)
    (fails : lockable = false ∧ e = exnUD ∨ lockable = true ∧ s.mode = .prot ∧ ¬s.cpl ≤ s.flags.iopl ∧ e = exnGP 0) :
    checkLock lockable s = .error (.exc e) s := by
  unfold checkLock
  rw [get_bind_run]
  refine (congrFun (if_pos locked) s).trans ?_
  rcases fails with ⟨rfl, rfl⟩ | ⟨rfl, mode, level, rfl⟩
  · exact require_bind_fail rfl
  · refine (require_bind_of rfl).trans ?_
    rw [require_run, if_neg (by simp [mode, level])]

theorem runInstr_lock_fails {s : State} {lockable : Bool} {m : M Unit} {e : Exn}
    (check : checkLock lockable s.begun = .error (.exc e) s.begun) :
    runInstr lockable m s = .next (deliver e (undo s s.begun)) := by
  unfold runInstr
  rw [bind_run_error check]
  rfl

/-- Settles O49: the check of LOCK comes before the instruction. -/
theorem lockTraps : Obligations.LockTraps := by
  unfold Obligations.LockTraps
  intro s i locked item
  obtain ⟨m, arm⟩ := exec_action i s item
  refine ⟨fun no => ?_, fun yes mode level => ?_⟩
  · have flag : takesLock i = false := Bool.eq_false_iff.mpr (mt lockable_of_takesLock no)
    rw [arm]
    exact runInstr_lock_fails (checkLock_fails (s := s.begun) locked (.inl ⟨flag, rfl⟩))
  · rw [arm]
    exact runInstr_lock_fails
      (checkLock_fails (s := s.begun) locked (.inr ⟨takesLock_of_lockable yes, mode, level, rfl⟩))

/-! Privilege. -/

theorem requireIopl_fails {s : State} (denied : s.mode = .prot ∧ ¬s.cpl ≤ s.flags.iopl ∨
    s.mode = .v86 ∧ s.flags.iopl ≠ 3) : requireIopl s = .error (.exc (exnGP 0)) s := by
  unfold requireIopl
  rw [get_bind_run, require_run]
  rcases denied with ⟨mode, level⟩ | ⟨mode, level⟩
  · simp only [mode, decide_eq_false level, Bool.false_eq_true, if_false]
  · simp only [mode, beq_eq_false_iff_ne.mpr level, Bool.false_eq_true, if_false]

theorem requireLevel0_fails {s : State} (outer : ¬Level0 s) : requireLevel0 s = .error (.exc (exnGP 0)) s := by
  have other : (s.level == 0) = false := beq_eq_false_iff_ne.mpr (mt (level0_iff s).mpr outer)
  unfold requireLevel0
  rw [get_bind_run, other]
  rfl

theorem requireIoplV86_fails {s : State} (mode : s.mode = .v86) (level : s.flags.iopl ≠ 3) :
    requireIoplV86 s = .error (.exc (exnGP 0)) s := by
  have denied : (s.mode != .v86 || s.flags.iopl == 3) = false := by
    rw [mode, beq_eq_false_iff_ne.mpr level]
    rfl
  unfold requireIoplV86
  rw [get_bind_run, denied]
  rfl

theorem interruptReturn_denied {s : State} (mode : s.mode = .v86) (level : s.flags.iopl ≠ 3) :
    interruptReturn s = .error (.exc (exnGP 0)) s := by
  unfold interruptReturn
  rw [get_bind_run, mode]
  exact require_bind_fail (beq_eq_false_iff_ne.mpr level)

theorem intVector_denied {s : State} (v : Byte) (mode : s.mode = .v86) (level : s.flags.iopl ≠ 3) :
    intVector v s = .error (.exc (exnGP 0)) s := by
  have denied : (s.mode != .v86 || s.flags.iopl == 3) = false := by
    rw [mode, beq_eq_false_iff_ne.mpr level]
    rfl
  unfold intVector
  rw [get_bind_run]
  exact require_bind_fail denied

/-! Ports. -/

theorem inPort_denied {w : Width} {port : Word16} {s t : State} (denied : IoDenied port w.bytes s t) :
    inPort w port s = .error (.exc (exnGP 0)) t :=
  bind_run_error (bind_run_error (ioDenied_run denied))

theorem outPort_denied {w : Width} {port : Word16} {s t : State} (denied : IoDenied port w.bytes s t) :
    outPort w port s = .error (.exc (exnGP 0)) t :=
  seq_error (getReg_run w .eax s) (bind_run_error (ioDenied_run denied))

theorem insOnce_denied {w : Width} {s t : State} (denied : IoDenied (readReg .w16 s.regs .edx) w.bytes s t) :
    insOnce w s = .error (.exc (exnGP 0)) t :=
  seq_error (getReg_run .w16 .edx s) (bind_run_error (ioDenied_run denied))

/-- OUTS reads its source first (R437). -/
theorem outsOnce_denied {w : Width} {v : BitVec w.bits} {s s1 t : State}
    (read : MemReads w (s.pfx.seg.getD .ds) (atAsz s .esi) v s s1)
    (denied : IoDenied (readReg .w16 s.regs .edx) w.bytes s1 t) : outsOnce w s = .error (.exc (exnGP 0)) t := by
  refine seq_error (readSource_run read) (seq_error (getReg_run .w16 .edx s1) ?_)
  rw [frame_regs (memReads_frame read)]
  exact bind_run_error (bind_run_error (ioDenied_run denied))

/-- An element that fails ends the string instruction, repeated or not (R440). -/
theorem string_exc {op : StrOp} {wide : Bool} {s t : State} {e : Exn} (unlocked : s.pfx.lock = false)
    (begins : s.pfx.rep = none ∨ atAsz s .ecx ≠ 0)
    (element : elementRun op (widthOf s wide) s.begun = .error (.exc e) t) :
    exec (stringInstr op wide) s = .next (deliver e (undo s t)) := by
  rw [exec_stringInstr]
  refine runInstr_exc_noLock unlocked ?_
  unfold repeated
  rw [get_bind_run, begun_pfx]
  cases rep : s.pfx.rep with
  | none => exact element
  | some p =>
    have nonzero := begins.resolve_left (by rw [rep]; simp)
    rw [atAsz_eq] at nonzero
    exact (congrFun (if_neg nonzero) _).trans (bind_run_error element)

/-- Settles O50: the check that fails comes before any other effect. -/
theorem privilegeTraps : Obligations.PrivilegeTraps := by
  unfold Obligations.PrivilegeTraps
  refine fun s unlocked => ⟨fun i denied => ?_, fun wide port i t denied form => ?_, fun begins wide t => ?_⟩
  · rcases denied with ⟨rfl | rfl, level⟩ | ⟨rfl, level⟩ | ⟨mode, level, rfl | rfl | rfl | ⟨v, rfl⟩⟩
    · exact runInstr_exc_noLock unlocked (m := clearInterrupts) (bind_run_error (requireIopl_fails (s := s.begun) level))
    · exact runInstr_exc_noLock unlocked (m := setInterrupts) (bind_run_error (requireIopl_fails (s := s.begun) level))
    · exact runInstr_exc_noLock unlocked (m := halt) (bind_run_error (requireLevel0_fails (s := s.begun) level))
    · exact runInstr_exc_noLock unlocked (m := pushFlags)
        (bind_run_error (requireIoplV86_fails (s := s.begun) mode level))
    · exact runInstr_exc_noLock unlocked (m := popFlags)
        (bind_run_error (requireIoplV86_fails (s := s.begun) mode level))
    · exact runInstr_exc_noLock unlocked (m := interruptReturn) (interruptReturn_denied (s := s.begun) mode level)
    · exact runInstr_exc_noLock unlocked (m := intVector v) (intVector_denied (s := s.begun) v mode level)
  · have isIn := inPort_denied (s := s.begun) denied
    have isOut := outPort_denied (s := s.begun) denied
    rcases form with ⟨p, isPort, form | form⟩ | ⟨isPort, form | form⟩
    · rw [exec_inPort (.inl ⟨p, isPort, form⟩)]
      exact runInstr_exc_noLock unlocked isIn
    · rw [exec_outPort (.inl ⟨p, isPort, form⟩)]
      exact runInstr_exc_noLock unlocked isOut
    · rw [exec_inPort (.inr ⟨isPort, form⟩)]
      exact runInstr_exc_noLock unlocked isIn
    · rw [exec_outPort (.inr ⟨isPort, form⟩)]
      exact runInstr_exc_noLock unlocked isOut
  · intro port
    exact ⟨fun denied => string_exc unlocked begins (insOnce_denied (s := s.begun) denied),
      fun v s1 read denied => string_exc unlocked begins (outsOnce_denied (s := s.begun) read denied)⟩

/-! The system registers (log entry 22). -/

theorem requireSystem_run {s : State} (level0 : Level0 s) : requireSystem s = .ok () s := requireLevel0_run level0

theorem requireSystem_fails {s : State} (outer : ¬Level0 s) : requireSystem s = .error (.exc (exnGP 0)) s :=
  requireLevel0_fails outer

section
variable {n : Nat} {r : Reg} {s : State}

theorem readCR_none (h : s.crValue n = none) : readCR n r s = .error (.exc exnUD) s := by
  unfold readCR
  rw [get_bind_run, h]
  rfl

theorem readCR_some {v : Word32} (h : s.crValue n = some v) :
    readCR n r s = (requireSystem >>= fun _ => putReg .d32 r v) s := by
  unfold readCR
  rw [get_bind_run, h]

theorem writeCR_none (h : s.withCr (s.regs.get r) n = none) : writeCR n r s = .error (.exc exnUD) s := by
  unfold writeCR
  rw [get_bind_run, show readReg .d32 s.regs r = s.regs.get r from rfl, h]
  rfl

theorem writeCR_some {t : State} (h : s.withCr (s.regs.get r) n = some t) :
    writeCR n r s = (requireSystem >>= fun _ => set t) s := by
  unfold writeCR
  rw [get_bind_run, show readReg .d32 s.regs r = s.regs.get r from rfl, h]

theorem readDR_none (h : s.dr.value n = none) : readDR n r s = .error (.exc exnUD) s := by
  unfold readDR
  rw [get_bind_run, h]
  rfl

theorem readDR_some {v : Word32} (h : s.dr.value n = some v) : readDR n r s = (do
    requireSystem
    checkGd
    putReg .d32 r v : M Unit) s := by
  unfold readDR
  rw [get_bind_run, h]

theorem writeDR_none (h : s.dr.withReg (s.regs.get r) n = none) : writeDR n r s = .error (.exc exnUD) s := by
  unfold writeDR
  rw [get_bind_run, show readReg .d32 s.regs r = s.regs.get r from rfl, h]
  rfl

theorem writeDR_some {d : DebugRegs} (h : s.dr.withReg (s.regs.get r) n = some d) : writeDR n r s = (do
    requireSystem
    checkGd
    set { s with dr := d } : M Unit) s := by
  unfold writeDR
  rw [get_bind_run, show readReg .d32 s.regs r = s.regs.get r from rfl, h]

theorem checkGd_ok (clear : s.dr.dr7.getLsbD 13 = false) : checkGd s = .ok () s := by
  unfold checkGd
  rw [get_bind_run, clear]
  rfl

theorem checkGd_fails (set : s.dr.dr7.getLsbD 13 = true) :
    checkGd s = .error (.exc ⟨1, .fault, none, none, 0x2000⟩) s := by
  unfold checkGd
  rw [get_bind_run, set]
  rfl

/-- The numbers of the debug registers there are (R50). -/
theorem dr_defined (h : n ∈ [0, 1, 2, 3, 6, 7]) (d : DebugRegs) (v : Word32) :
    (∃ x, d.value n = some x) ∧ ∃ e, d.withReg v n = some e := by
  simp only [List.mem_cons, List.not_mem_nil, or_false] at h
  rcases h with rfl | rfl | rfl | rfl | rfl | rfl <;> exact ⟨⟨_, rfl⟩, ⟨_, rfl⟩⟩

theorem cr_defined (h : n ∈ [0, 2, 3]) (v : Word32) : (∃ x, s.crValue n = some x) ∧ ∃ t, s.withCr v n = some t := by
  simp only [List.mem_cons, List.not_mem_nil, or_false] at h
  rcases h with rfl | rfl | rfl <;> exact ⟨⟨_, rfl⟩, ⟨_, rfl⟩⟩

end

/-! LDTR and TR. -/

section
variable {sel : Word16} {s t : State} {d : Desc} {e : Exn}

theorem requireProt_run (mode : s.mode = .prot) : requireProt s = .ok () s := by
  unfold requireProt
  rw [get_bind_run, mode]
  rfl

theorem requireProt_fails (mode : s.mode ≠ .prot) : requireProt s = .error (.exc exnUD) s := by
  unfold requireProt
  rw [get_bind_run, require_run, if_neg (by simpa using mode)]

theorem loadLdtrOp_denied (mode : s.mode = .prot) (outer : ¬Level0 s) :
    loadLdtrOp sel s = .error (.exc (exnGP 0)) s ∧ loadTrOp sel s = .error (.exc (exnGP 0)) s :=
  ⟨seq_error (requireProt_run mode) (bind_run_error (requireSystem_fails outer)),
    seq_error (requireProt_run mode) (bind_run_error (requireSystem_fails outer))⟩

/-- What follows the mode and the level of a load of LDTR with a selector that is not null (R57). -/
theorem loadLdtrOp_named (mode : s.mode = .prot) (level : s.cpl = 0) (named : 4 ≤ sel.toNat) :
    loadLdtrOp sel s = (do
      require (!selTi sel) (exnGP (selCode sel))
      let d ← readDescriptor sel (exnGP (selCode sel))
      require d.isLdt (exnGP (selCode sel))
      require d.p (exnNP (selCode sel))
      modify fun s => { s with ldtr := ⟨sel, d.base, d.limit, true⟩ } : M Unit) s := by
  unfold loadLdtrOp
  rw [bind_run_ok (requireProt_run mode), bind_run_ok (requireSystem_run (.inr ⟨mode, level⟩))]
  exact congrFun (if_neg (by simp [not_selNull named])) s

theorem loadLdtrOp_null (mode : s.mode = .prot) (level : s.cpl = 0) (null : sel.toNat < 4) :
    loadLdtrOp sel s = .ok () { s with ldtr := ⟨sel, 0, 0, false⟩ } := by
  unfold loadLdtrOp
  rw [bind_run_ok (requireProt_run mode), bind_run_ok (requireSystem_run (.inr ⟨mode, level⟩))]
  exact congrFun (if_pos (selNull_iff.mpr null)) s

theorem loadTrOp_level (mode : s.mode = .prot) (level : s.cpl = 0) :
    loadTrOp sel s = (do
      require (!selNull sel && !selTi sel) (exnGP (selCode sel))
      let d ← readDescriptor sel (exnGP (selCode sel))
      require (d.isTss && !d.busy) (exnGP (selCode sel))
      require d.p (exnNP (selCode sel))
      setBusy sel true
      modify fun s => { s with tr := ⟨sel, d.base, d.limit, true⟩ } : M Unit) s := by
  unfold loadTrOp
  rw [bind_run_ok (requireProt_run mode), bind_run_ok (requireSystem_run (.inr ⟨mode, level⟩))]

/-- A selector that names no entry of the GDT (R57, R58). -/
theorem loadOps_outside (mode : s.mode = .prot) (level : s.cpl = 0) (named : 4 ≤ sel.toNat)
    (bad : sel.getLsbD 2 = true ∨ OutsideTable s sel) :
    loadLdtrOp sel s = .error (.exc (exnGP (selCode sel))) s ∧
      loadTrOp sel s = .error (.exc (exnGP (selCode sel))) s := by
  rw [loadLdtrOp_named mode level named, loadTrOp_level mode level]
  by_cases ti : sel.getLsbD 2 = true
  · have local' : selTi sel = true := (selTi_eq sel).trans ti
    exact ⟨require_bind_fail (by rw [local']; rfl), require_bind_fail (by rw [local', Bool.not_true, Bool.and_false])⟩
  · have outside := bad.resolve_left ti
    have global : selTi sel = false := (selTi_eq sel).trans (Bool.eq_false_iff.mpr ti)
    exact ⟨(require_bind_of (by rw [global]; rfl)).trans (bind_run_error (readDescriptor_outside outside)),
      (require_bind_of (by rw [not_selNull named, global]; rfl)).trans
        (bind_run_error (readDescriptor_outside outside))⟩

/-- A load of LDTR, once its descriptor is read (R57). -/
theorem loadLdtrOp_found (mode : s.mode = .prot) (level : s.cpl = 0) (named : 4 ≤ sel.toNat)
    (global : sel.getLsbD 2 = false) (found : DescriptorAt sel d s t) :
    loadLdtrOp sel s = (do
      require d.isLdt (exnGP (selCode sel))
      require d.p (exnNP (selCode sel))
      modify fun s => { s with ldtr := ⟨sel, d.base, d.limit, true⟩ } : M Unit) t := by
  rw [loadLdtrOp_named mode level named]
  exact (require_bind_of (by rw [selTi_eq, global]; rfl)).trans (bind_run_ok (descriptorAt_run found _))

/-- A load of TR, once its descriptor is read (R58). -/
theorem loadTrOp_found (mode : s.mode = .prot) (level : s.cpl = 0) (named : 4 ≤ sel.toNat)
    (global : sel.getLsbD 2 = false) (found : DescriptorAt sel d s t) :
    loadTrOp sel s = (do
      require (d.isTss && !d.busy) (exnGP (selCode sel))
      require d.p (exnNP (selCode sel))
      setBusy sel true
      modify fun s => { s with tr := ⟨sel, d.base, d.limit, true⟩ } : M Unit) t := by
  rw [loadTrOp_level mode level]
  exact (require_bind_of (by rw [selTi_eq, global, not_selNull named]; rfl)).trans
    (bind_run_ok (descriptorAt_run found _))

end

theorem setBusy_true_run {sel : Word16} {s t : State} (busy : BusyIf True sel true s t) :
    setBusy sel true s = .ok () t :=
  onlyIf_true_run.symm.trans (setBusy_run (q := true) ⟨fun _ => trivial, fun _ => rfl⟩ busy)

/-- LDTR and TR at level 0 of mode P (R57, R58; log entry 22). -/
theorem loadOps_level0 {s : State} (mode : s.mode = .prot) (level : s.cpl = 0) (sel : Word16) :
    let code : Word16 := sel &&& 0xFFFC
    (sel.toNat < 4 → loadLdtrOp sel s = .ok () { s with ldtr := ⟨sel, 0, 0, false⟩ } ∧
      loadTrOp sel s = .error (.exc (exnGP code)) s) ∧
    (4 ≤ sel.toNat → sel.getLsbD 2 = true ∨ OutsideTable s sel →
      loadLdtrOp sel s = .error (.exc (exnGP code)) s ∧ loadTrOp sel s = .error (.exc (exnGP code)) s) ∧
    (∀ d t, 4 ≤ sel.toNat → sel.getLsbD 2 = false → DescriptorAt sel d s t →
      (d.isLdt = false → loadLdtrOp sel s = .error (.exc (exnGP code)) t) ∧
      (d.isLdt = true → d.p = false → loadLdtrOp sel s = .error (.exc (exnNP code)) t) ∧
      (d.isLdt = true → d.p = true → loadLdtrOp sel s = .ok () { t with ldtr := ⟨sel, d.base, d.limit, true⟩ }) ∧
      (d.isTss = false ∨ d.busy = true → loadTrOp sel s = .error (.exc (exnGP code)) t) ∧
      (d.isTss = true → d.busy = false → d.p = false → loadTrOp sel s = .error (.exc (exnNP code)) t) ∧
      (d.isTss = true → d.busy = false → d.p = true → ∀ u, BusyIf True sel true t u →
        loadTrOp sel s = .ok () { u with tr := ⟨sel, d.base, d.limit, true⟩ })) := by
  intro code
  refine ⟨fun null => ⟨loadLdtrOp_null mode level null, ?_⟩, fun named bad => loadOps_outside mode level named bad,
    fun d t named global found => ?_⟩
  · rw [loadTrOp_level mode level]
    exact require_bind_fail (by rw [selNull_iff.mpr null]; rfl)
  · rw [loadLdtrOp_found mode level named global found, loadTrOp_found mode level named global found]
    have free (tss : d.isTss = true) (busy : d.busy = false) : (d.isTss && !d.busy) = true := by rw [tss, busy]; rfl
    refine ⟨require_bind_fail, fun ldt absent => (require_bind_of ldt).trans (require_bind_fail absent),
      fun ldt present => (require_bind_of ldt).trans (require_bind_of present), fun bad => require_bind_fail ?_,
      fun tss busy absent => (require_bind_of (free tss busy)).trans (require_bind_fail absent),
      fun tss busy present u set => (require_bind_of (free tss busy)).trans ((require_bind_of present).trans
        (seq_ok (setBusy_true_run set) rfl))⟩
    rcases bad with h | h <;> simp [h]

/-- Settles O55: which registers there are, the level, DR7.GD, then the access. -/
theorem systemRegisters : Obligations.SystemRegisters := by
  unfold Obligations.SystemRegisters
  refine fun s r => ⟨⟨readCR_none rfl, writeCR_none rfl, fun n h => ?_⟩, fun outer => ⟨fun n h => ?_, fun n h => ?_,
      fun x => ⟨bind_run_error (requireSystem_fails outer), bind_run_error (requireSystem_fails outer)⟩,
      fun mode sel => loadLdtrOp_denied mode outer⟩,
    fun mode sel => ⟨bind_run_error (requireProt_fails mode), bind_run_error (requireProt_fails mode)⟩,
    fun level0 => ?_, fun mode level sel => loadOps_level0 mode level sel⟩
  · simp only [List.mem_cons, List.not_mem_nil, or_false] at h
    rcases h with rfl | rfl <;> exact ⟨readDR_none rfl, writeDR_none rfl⟩
  · obtain ⟨⟨x, read⟩, t, write⟩ := cr_defined (s := s) h (s.regs.get r)
    exact ⟨(readCR_some read).trans (bind_run_error (requireSystem_fails outer)),
      (writeCR_some write).trans (bind_run_error (requireSystem_fails outer))⟩
  · obtain ⟨⟨x, read⟩, d, write⟩ := dr_defined h s.dr (s.regs.get r)
    exact ⟨(readDR_some read).trans (bind_run_error (requireSystem_fails outer)),
      (writeDR_some write).trans (bind_run_error (requireSystem_fails outer))⟩
  · have level := requireSystem_run level0
    have readCr {n : Nat} {v : Word32} (h : s.crValue n = some v) :
        readCR n r s = .ok () { s with regs := s.regs.set r v } := (readCR_some h).trans (seq_ok level rfl)
    have writeCr {n : Nat} {t : State} (h : s.withCr (s.regs.get r) n = some t) : writeCR n r s = .ok () t :=
      (writeCR_some h).trans (seq_ok level rfl)
    refine ⟨fun n v h => ?_, writeCr rfl, writeCr rfl, ⟨_, writeCr rfl, fun pe => if_pos pe⟩, fun clear => ?_,
      fun guarded n h => ?_, fun x => ⟨seq_ok level rfl, seq_ok level rfl⟩⟩
    · simp only [List.mem_cons, Prod.mk.injEq, List.not_mem_nil, or_false] at h
      rcases h with ⟨rfl, rfl⟩ | ⟨rfl, rfl⟩ | ⟨rfl, rfl⟩ <;> exact readCr rfl
    · have open' := checkGd_ok clear
      have readDr {n : Nat} {v : Word32} (h : s.dr.value n = some v) :
          readDR n r s = .ok () { s with regs := s.regs.set r v } :=
        (readDR_some h).trans (seq_ok level (seq_ok open' rfl))
      have writeDr {n : Nat} {d : DebugRegs} (h : s.dr.withReg (s.regs.get r) n = some d) :
          writeDR n r s = .ok () { s with dr := d } := (writeDR_some h).trans (seq_ok level (seq_ok open' rfl))
      refine ⟨fun n v h => ?_, fun n d h => ?_⟩
      · simp only [List.mem_cons, Prod.mk.injEq, List.not_mem_nil, or_false] at h
        rcases h with ⟨rfl, rfl⟩ | ⟨rfl, rfl⟩ | ⟨rfl, rfl⟩ | ⟨rfl, rfl⟩ | ⟨rfl, rfl⟩ | ⟨rfl, rfl⟩ <;> exact readDr rfl
      · simp only [List.mem_cons, Prod.mk.injEq, List.not_mem_nil, or_false] at h
        rcases h with ⟨rfl, rfl⟩ | ⟨rfl, rfl⟩ | ⟨rfl, rfl⟩ | ⟨rfl, rfl⟩ | ⟨rfl, rfl⟩ | ⟨rfl, rfl⟩ <;> exact writeDr rfl
    · have refused := checkGd_fails guarded
      obtain ⟨⟨x, read⟩, d, write⟩ := dr_defined h s.dr (s.regs.get r)
      exact ⟨(readDR_some read).trans (seq_error level (bind_run_error refused)),
        (writeDR_some write).trans (seq_error level (bind_run_error refused))⟩

end Sys2Proof.Machine
end

