-- ==== Sys2Proof/Proofs/Frames.lean ====
section
/-! SUPPORT. What an instruction with one r/m operand does around that operand: its access comes first, ends the
instruction where it fails, and what follows it cannot fail and changes only registers, the operand and flags. -/

namespace Sys2Proof.Machine

open Sys2Proof.Safety Sys2Proof.Claims

/-- Actions that access their r/m operand for reading first; the rest cannot fail and changes general registers,
status flags and the count of free values only. -/
structure ReadsFirst (w : Width) (m : RM) (act : M Unit) : Prop where
  ends : ∀ {s s1 : State} {l : Loc}, locate w .read m s = .ok l s1 →
    ∃ g f n, OnlyStatus s1.flags f ∧ act s = .ok () { s1 with regs := g, flags := f, free := n }
  fails : ∀ {s u : State} {e : Stop}, locate w .read m s = .error e u → act s = .error e u

/-- Actions that access their r/m operand for writing first; the rest cannot fail, stores there and changes status
flags and the count of free values only. -/
structure StoresFirst (w : Width) (m : RM) (act : M Unit) : Prop where
  ends : ∀ {s s1 : State} {l : Loc}, locate w .write m s = .ok l s1 →
    ∃ v f n, OnlyStatus s1.flags f ∧ act s = .ok () { s1.storeAt w l v with flags := f, free := n }
  fails : ∀ {s u : State} {e : Stop}, locate w .write m s = .error e u → act s = .error e u

theorem onlyStatus_refl (f : Flags) : OnlyStatus f f := rfl

theorem onlyStatus_zf (f : Flags) (b : Bool) : OnlyStatus f { f with zf := b } := rfl

theorem onlyStatus_cf (f : Flags) (b : Bool) : OnlyStatus f { f with cf := b } := rfl

theorem onlyStatus_aluFlags {n : Nat} (op : AluOp) (a b : BitVec n) (f : Flags) :
    OnlyStatus f (aluFlags op a b f) := by
  cases op <;> rfl

theorem onlyStatus_unFlags {n : Nat} (op : UnOp) (a : BitVec n) (f : Flags) : OnlyStatus f (unFlags op a f) := by
  cases op <;> rfl

theorem readRM_run_error {w : Width} {m : RM} {s u : State} {e : Stop} (h : locate w .read m s = .error e u) :
    readRM w m s = .error e u :=
  bind_run_error h

/-! The actions that read. -/

theorem readsFirst_cmp (w : Width) (m : RM) (b : BitVec w.bits) : ReadsFirst w m (aluRm .cmp w m b) where
  ends located := ⟨_, _, _, onlyStatus_aluFlags .cmp _ b _, aluRm_run_ok (op := .cmp) b located⟩
  fails failed := bind_run_error failed

theorem readsFirst_aluRegRm (op : AluOp) (w : Width) (r : Reg) (m : RM) : ReadsFirst w m (aluRegRm op w r m) where
  ends located := ⟨_, _, _, onlyStatus_aluFlags op _ _ _, seq_ok (readRM_run_ok located) (aluReg_run op w r _ _)⟩
  fails failed := bind_run_error (readRM_run_error failed)

theorem readsFirst_testRm (w : Width) (m : RM) (b : BitVec w.bits) : ReadsFirst w m (testRm w m b) where
  ends located := ⟨_, _, _, onlyStatus_aluFlags .and _ b _, testRm_run_ok b located⟩
  fails failed := bind_run_error (readRM_run_error failed)

theorem readsFirst_movRegRm (w : Width) (r : Reg) (m : RM) : ReadsFirst w m (movRegRm w r m) where
  ends located := ⟨_, _, _, onlyStatus_refl _, movRegRm_run_ok located⟩
  fails failed := bind_run_error (readRM_run_error failed)

theorem readsFirst_movExtend (src dst : Width) (ext : BitVec src.bits → BitVec dst.bits) (r : Reg) (m : RM) :
    ReadsFirst src m (movExtend src dst ext r m) where
  ends located := ⟨_, _, _, onlyStatus_refl _, movExtend_run_ok located⟩
  fails failed := bind_run_error (readRM_run_error failed)

theorem readsFirst_bt (w : Width) (m : RM) (i : Nat) : ReadsFirst w m (bitRm .bt w m i) where
  ends located := ⟨_, _, _, onlyStatus_cf _ _, bitRm_run_ok (op := .bt) i located⟩
  fails failed := bind_run_error failed

theorem readsFirst_bitScan (up : Bool) (w : Width) (r : Reg) (m : RM) : ReadsFirst w m (bitScan up w r m) where
  ends {s s1 l} located := by
    by_cases h : s1.valueAt w l = 0
    · exact ⟨_, _, _, onlyStatus_zf _ _, bitScan_run_zero located h⟩
    · exact ⟨_, _, _, onlyStatus_zf _ _, bitScan_run_ne located h⟩
  fails failed := bind_run_error (readRM_run_error failed)

/-- The flags of a product are status flags (R330, R331). -/
theorem putMulFlags_status (lost : Bool) (s : State) :
    ∃ f n, OnlyStatus s.flags f ∧ putMulFlags lost s = .ok () { s with flags := f, free := n } := by
  refine ⟨_, _, ?_, rfl⟩
  rfl

theorem readsFirst_mulAcc (w : Width) (m : RM) : ReadsFirst w m (mulAcc w m) where
  ends located := by
    obtain ⟨f, n, status, run⟩ := putMulFlags_status _ (withHalves _ w _ _)
    exact ⟨_, f, n, status, (mulAcc_run_ok located).trans run⟩
  fails failed := bind_run_error (readRM_run_error failed)

theorem readsFirst_imulAcc (w : Width) (m : RM) : ReadsFirst w m (imulAcc w m) where
  ends located := by
    obtain ⟨f, n, status, run⟩ := putMulFlags_status _ (withHalves _ w _ _)
    exact ⟨_, f, n, status, (imulAcc_run_ok located).trans run⟩
  fails failed := bind_run_error (readRM_run_error failed)

theorem readsFirst_imulRegRm (w : Width) (r : Reg) (m : RM) : ReadsFirst w m (imulRegRm w r m) where
  ends {s s1 l} located := by
    obtain ⟨_, g, f, n, -, -, flags, run⟩ := imulReg_run r (readReg w s1.regs r) (s1.valueAt w l) s1
    exact ⟨g, f, n, flags.rest, (bind_run_ok (readRM_run_ok located)).trans run⟩
  fails failed := bind_run_error (readRM_run_error failed)

theorem readsFirst_imulRegRmImm (w : Width) (r : Reg) (m : RM) (v : BitVec w.bits) :
    ReadsFirst w m (imulRegRmImm w r m v) where
  ends {s s1 l} located := by
    obtain ⟨_, g, f, n, -, -, flags, run⟩ := imulReg_run r (s1.valueAt w l) v s1
    exact ⟨g, f, n, flags.rest, (bind_run_ok (readRM_run_ok located)).trans run⟩
  fails failed := bind_run_error (readRM_run_error failed)

/-! The actions that store. -/

/-- The state after a store and new flags, written in one go. -/
theorem storeAt_withFlags (s : State) (w : Width) (l : Loc) (v : BitVec w.bits) (f : Flags) :
    (s.storeAt w l v).setFlags f = { s.storeAt w l v with flags := f, free := s.free } := by
  cases l <;> rfl

theorem aluOp_access {op : AluOp} (stores : op ≠ .cmp) : op.access = .write := by
  rw [AluOp.access, if_pos ((aluOp_writes_iff op).mpr stores)]

theorem bitOp_access {op : BitOp} (stores : op ≠ .bt) : op.access = .write := by
  rw [BitOp.access, if_pos ((bitOp_writes_iff op).mpr stores)]

theorem storesFirst_aluRm {op : AluOp} (stores : op ≠ .cmp) (w : Width) (m : RM) (b : BitVec w.bits) :
    StoresFirst w m (aluRm op w m b) where
  ends located := by
    have run := aluRm_run_ok b ((aluOp_access stores).symm ▸ located)
    rw [if_neg stores, storeAt_withFlags] at run
    exact ⟨_, _, _, onlyStatus_aluFlags op _ b _, run⟩
  fails failed := bind_run_error ((aluOp_access stores).symm ▸ failed)

theorem storesFirst_unRm (op : UnOp) (w : Width) (m : RM) : StoresFirst w m (unRm op w m) where
  ends located := by
    have run := unRm_run_ok (op := op) located
    rw [storeAt_withFlags] at run
    exact ⟨_, _, _, onlyStatus_unFlags op _ _, run⟩
  fails failed := bind_run_error failed

theorem storesFirst_bitRm {op : BitOp} (stores : op ≠ .bt) (w : Width) (m : RM) (i : Nat) :
    StoresFirst w m (bitRm op w m i) where
  ends located := by
    have run := bitRm_run_ok i ((bitOp_access stores).symm ▸ located)
    rw [if_neg stores, storeAt_withFlags] at run
    exact ⟨_, _, _, onlyStatus_cf _ _, run⟩
  fails failed := bind_run_error ((bitOp_access stores).symm ▸ failed)

theorem storesFirst_shiftRm (op : ShiftOp) (w : Width) (m : RM) {c : Nat} (hc : c ≠ 0) :
    StoresFirst w m (shiftRm op w m c) where
  ends located := by
    obtain ⟨r, f, k, rule, run⟩ := shiftRm_run (op := op) hc located
    exact ⟨r, f, k, rule.rest, run⟩
  fails failed := (congrFun (if_neg hc) _).trans (bind_run_error failed)

theorem storesFirst_doubleShiftRm (left : Bool) (w : Width) (m : RM) (q : Reg) {c : Nat} (hc : c ≠ 0) :
    StoresFirst w m (doubleShiftRm left w m q c) where
  ends located := by
    obtain ⟨r, f, k, -, status, run⟩ := doubleShiftRm_run (left := left) (q := q) hc located
    exact ⟨r, f, k, status, run⟩
  fails failed := (congrFun (if_neg hc) _).trans (bind_run_error failed)

theorem storesFirst_writeRM (w : Width) (m : RM) (v : BitVec w.bits) : StoresFirst w m (writeRM w m v) where
  ends {s s1 l} located := ⟨v, s1.flags, s1.free, onlyStatus_refl _, by
    rw [writeRM_run_ok v located]
    cases l <;> rfl⟩
  fails failed := bind_run_error failed

/-! The instructions of the two kinds. -/

/-- An instruction that only reads its operand runs actions that read first. -/
theorem readsOperand_runs {s : State} {i : Instr} {w : Width} {m : RM} (h : ReadsOperand s i w m) :
    ∃ lockable act, exec i s = runInstr lockable act s ∧ ReadsFirst w m act := by
  rcases h with ⟨op, wide, r, rfl, rfl⟩ | ⟨x, rfl, rfl⟩ | ⟨rfl, bytes⟩ | ⟨rfl, r, rfl | rfl⟩ | ⟨rfl, wide⟩
  · exact ⟨_, _, exec_aluFromRm op wide r m s, readsFirst_aluRegRm op _ r m⟩
  · exact ⟨_, _, exec_aluToRm .cmp m x s, readsFirst_cmp _ m _⟩
  · rcases bytes with ⟨r, rfl | rfl | rfl | rfl⟩ | ⟨v, rfl⟩ | rfl | rfl
    · exact ⟨_, _, rfl, readsFirst_movRegRm .b8 r m⟩
    · exact ⟨_, _, rfl, readsFirst_movExtend .b8 _ _ r m⟩
    · exact ⟨_, _, rfl, readsFirst_movExtend .b8 _ _ r m⟩
    · exact ⟨_, _, testRmReg_run .b8 m r s, readsFirst_testRm .b8 m _⟩
    · exact ⟨_, _, rfl, readsFirst_testRm .b8 m v⟩
    · exact ⟨_, _, rfl, readsFirst_mulAcc .b8 m⟩
    · exact ⟨_, _, rfl, readsFirst_imulAcc .b8 m⟩
  · exact ⟨_, _, rfl, readsFirst_movExtend .w16 _ _ r m⟩
  · exact ⟨_, _, rfl, readsFirst_movExtend .w16 _ _ r m⟩
  · rcases wide with ⟨r, rfl | rfl | rfl | rfl | rfl⟩ | ⟨v, rfl⟩ | ⟨x, rfl⟩ | ⟨r, v, rfl⟩ | ⟨r, v, rfl⟩ | rfl | rfl
    · exact ⟨_, _, rfl, readsFirst_movRegRm _ r m⟩
    · exact ⟨_, _, testRmReg_run _ m r s, readsFirst_testRm _ m _⟩
    · exact ⟨_, _, rfl, readsFirst_bitScan true _ r m⟩
    · exact ⟨_, _, rfl, readsFirst_bitScan false _ r m⟩
    · exact ⟨_, _, rfl, readsFirst_imulRegRm _ r m⟩
    · exact ⟨_, _, rfl, readsFirst_testRm _ m _⟩
    · exact ⟨_, _, exec_bitInstr .bt m x s, readsFirst_bt _ m _⟩
    · exact ⟨_, _, rfl, readsFirst_imulRegRmImm _ r m _⟩
    · exact ⟨_, _, rfl, readsFirst_imulRegRmImm _ r m _⟩
    · exact ⟨_, _, rfl, readsFirst_mulAcc _ m⟩
    · exact ⟨_, _, rfl, readsFirst_imulAcc _ m⟩

/-- A shift whose count is 0: it does not touch its operand (R370, R385). -/
def ZeroShift (s : State) (i : Instr) (m : RM) : Prop :=
  (∃ op wide c, i = shiftInstr op wide c m ∧ c.value s = 0) ∨
    ∃ left r k, i = doubleInstr left m r k ∧ (k.getD (readReg .b8 s.regs .cl)).toNat % 32 = 0

/-- MOV to r/m is the store of its source (R250). -/
theorem movRmReg_runs (w : Width) (m : RM) (r : Reg) (s : State) :
    runInstr false (movRmReg w m r) s = runInstr false (writeRM w m (readReg w s.regs r)) s :=
  runInstr_congr rfl

/-- An instruction that stores to its operand runs actions that store first, but for a shift by 0. -/
theorem writesOperand_runs {s : State} {i : Instr} {w : Width} {m : RM} {lockable : Bool}
    (h : WritesOperand s i w m lockable) :
    (∃ act, exec i s = runInstr lockable act s ∧ StoresFirst w m act) ∨
      (ZeroShift s i m ∧ exec i s = runInstr lockable (pure ()) s) := by
  rcases h with ⟨op, x, stores, rfl, rfl, rfl⟩ | ⟨op, wide, rfl, rfl, rfl⟩ | ⟨op, x, stores, rfl, rfl, rfl⟩ |
    ⟨rfl, ⟨op, wide, c, rfl, rfl⟩ | ⟨left, r, k, rfl, rfl⟩ | ⟨rfl, bytes⟩ | ⟨rfl, sr, rfl⟩ | ⟨rfl, wide⟩⟩
  · have lock : (op.writes && RMisMem m) = RMisMem m := by rw [(aluOp_writes_iff op).mpr stores, Bool.true_and]
    exact .inl ⟨_, lock ▸ exec_aluToRm op m x s, storesFirst_aluRm stores _ m _⟩
  · exact .inl ⟨_, exec_unInstr op wide m s, storesFirst_unRm op _ m⟩
  · exact .inl ⟨_, exec_bitInstr op m x s, storesFirst_bitRm stores _ m _⟩
  · by_cases zero : c.value s = 0
    · refine .inr ⟨.inl ⟨op, wide, c, rfl, zero⟩, ?_⟩
      rw [exec_shiftInstr, zero]
      rfl
    · exact .inl ⟨_, exec_shiftInstr op wide c m s, storesFirst_shiftRm op _ m zero⟩
  · by_cases zero : (k.getD (readReg .b8 s.regs .cl)).toNat % 32 = 0
    · refine .inr ⟨.inr ⟨left, r, k, rfl, zero⟩, ?_⟩
      rw [exec_doubleInstr, zero]
      rfl
    · exact .inl ⟨_, exec_doubleInstr left m r k s, storesFirst_doubleShiftRm left _ m r zero⟩
  · rcases bytes with ⟨r, rfl⟩ | ⟨v, rfl⟩ | ⟨c, rfl⟩
    · exact .inl ⟨_, movRmReg_runs .b8 m r s, storesFirst_writeRM .b8 m _⟩
    · exact .inl ⟨_, rfl, storesFirst_writeRM .b8 m v⟩
    · exact .inl ⟨writeRM .b8 m (if s.flags.cond c then 1 else 0), runInstr_congr rfl, storesFirst_writeRM .b8 m _⟩
  · exact .inl ⟨writeRM .w16 m (s.segs.get sr).sel, runInstr_congr rfl, storesFirst_writeRM .w16 m _⟩
  · rcases wide with ⟨r, rfl⟩ | ⟨v, rfl⟩
    · exact .inl ⟨_, movRmReg_runs _ m r s, storesFirst_writeRM _ m _⟩
    · exact .inl ⟨_, rfl, storesFirst_writeRM _ m _⟩

/-! What an access and the end of an instruction leave as it was. -/

theorem systemSame_access {s t : State} (h : AccessFrame s.begun t) : SystemSame s t := by
  constructor <;> rw [h.same] <;> rfl

/-- Registers, flags, memory and the bookkeeping of an instruction are no part of the system state. -/
theorem systemSame_finished {s t : State} (h : SystemSame s t) (b : State) (g : GRegs) (f : Flags) (n : Nat)
    (m : List Host.Cell) : SystemSame s (finished b { t with regs := g, flags := f, free := n, mem := m }) :=
  ⟨h.segs, h.cpl, h.cr0, h.cr2, h.cr3, h.dr, h.gdtr, h.idtr, h.ldtr, h.tr, h.nmiMask, h.nmiPending, h.inhibit, h.eipPast,
    h.halted, h.shutdown, h.lines, h.ioReads, h.ioOut⟩

theorem eip_access {s t : State} (h : AccessFrame s.begun t) : t.eip = s.eip := by rw [h.same]; rfl

theorem bytesSame_access {s t : State} (h : AccessFrame s.begun t) : BytesSame s t (markedAt t) :=
  fun _ outside => accessFrame_read h outside

/-- A store at a location changes only its bytes. -/
theorem bytesSame_storeAt {s t : State} (h : AccessFrame s.begun t) (w : Width) (l : Loc) (v : BitVec w.bits) :
    BytesSame s (t.storeAt w l v) (storedAt l ++ markedAt t) := by
  intro x outside
  rw [List.mem_append, not_or] at outside
  cases l with
  | reg r => exact bytesSame_access h x outside.2
  | mem ps => exact (read_writePhys_other ps _ _ x outside.1).trans (bytesSame_access h x outside.2)

/-- A store at a location changes no register but its own. -/
theorem storeAt_otherRegs (t : State) (w : Width) (l : Loc) (v : BitVec w.bits) {q : Reg}
    (other : ∀ r, l = .reg r → q ≠ wholeReg w r) : (t.storeAt w l v).regs.get q = t.regs.get q := by
  cases l with
  | reg r => exact (writesReg_writeReg w t.regs r v).others q (other r rfl)
  | mem ps => rfl

/-- Settles O58: after the access only registers, the operand and flags change. -/
theorem frameOperands : Obligations.FrameOperands := by
  unfold Obligations.FrameOperands
  refine ⟨fun s s1 i w m l unlocked reads located => ?_, fun s s1 i w m lockable l lock writes located => ?_⟩
  all_goals
    have frame := locate_frame located
    have system := systemSame_access frame
    have eip := eip_access frame
  · obtain ⟨lockable, act, arm, first⟩ := readsOperand_runs reads
    obtain ⟨g, f, n, -, run⟩ := first.ends located
    exact ⟨_, arm.trans (runInstr_ok_noLock unlocked run), bytesSame_access frame,
      systemSame_finished system s g f n s1.mem, eip⟩
  · rcases writesOperand_runs writes with ⟨act, arm, first⟩ | ⟨-, arm⟩
    · obtain ⟨v, f, n, -, run⟩ := first.ends located
      refine ⟨_, arm.trans (runInstr_ok lock run), bytesSame_storeAt frame w l v, ?_, ?_,
        fun q other => (storeAt_otherRegs s1 w l v other).trans (congrArg (·.get q) (frame_regs frame))⟩
      · cases l <;> exact systemSame_finished system s _ f n _
      · cases l <;> exact eip
    · exact ⟨_, arm.trans (runInstr_ok lock rfl), fun _ _ => rfl,
        systemSame_finished (systemSame_access (accessFrame_refl s.begun)) s _ _ _ _, rfl, fun _ _ => rfl⟩

/-! Instructions whose operands all lie in registers. -/

/-- A change of the status flags and DF. -/
def OnlyStatusDf (f g : Flags) : Prop := ∃ d, OnlyStatus { f with df := d } g

/-- The instruction ends with new registers, status flags, DF and count of free values, and nothing else. -/
def EndsInRegisters (s : State) (i : Instr) : Prop :=
  ∃ g f n, OnlyStatusDf s.flags f ∧ exec i s = .next (finished s { s.begun with regs := g, flags := f, free := n })

theorem onlyStatusDf_of_status {f g : Flags} (h : OnlyStatus f g) : OnlyStatusDf f g := ⟨f.df, h⟩

theorem endsInRegisters_of_run {s : State} {i : Instr} {lockable : Bool} {act : M Unit} {g : GRegs} {f : Flags} {n : Nat}
    (unlocked : s.pfx.lock = false) (arm : exec i s = runInstr lockable act s) (flags : OnlyStatusDf s.flags f)
    (run : act s.begun = .ok () { s.begun with regs := g, flags := f, free := n }) : EndsInRegisters s i :=
  ⟨g, f, n, flags, arm.trans (runInstr_ok_noLock unlocked run)⟩

theorem endsInRegisters_of_reads {s : State} {i : Instr} {w : Width} {r : Reg} (unlocked : s.pfx.lock = false)
    (reads : ReadsOperand s i w (.reg r)) : EndsInRegisters s i := by
  obtain ⟨lockable, act, arm, first⟩ := readsOperand_runs reads
  obtain ⟨g, f, n, flags, run⟩ := first.ends (locate_reg_run w .read r s.begun)
  exact endsInRegisters_of_run unlocked arm (onlyStatusDf_of_status flags) run

theorem endsInRegisters_of_writes {s : State} {i : Instr} {w : Width} {r : Reg} {lockable : Bool}
    (unlocked : s.pfx.lock = false) (writes : WritesOperand s i w (.reg r) lockable) : EndsInRegisters s i := by
  rcases writesOperand_runs writes with ⟨act, arm, first⟩ | ⟨-, arm⟩
  · obtain ⟨v, f, n, flags, run⟩ := first.ends (locate_reg_run w .write r s.begun)
    exact endsInRegisters_of_run unlocked arm (onlyStatusDf_of_status flags) run
  · exact endsInRegisters_of_run unlocked arm (onlyStatusDf_of_status (onlyStatus_refl _)) rfl

theorem endsInRegisters_aluToRm {s : State} (unlocked : s.pfx.lock = false) (op : AluOp) (d : Reg) (x : Src) :
    EndsInRegisters s (aluToRm op (.reg d) x) := by
  by_cases cmp : op = .cmp
  · exact cmp ▸ endsInRegisters_of_reads unlocked (.inr (.inl ⟨x, rfl, rfl⟩))
  · exact endsInRegisters_of_writes unlocked (.inl ⟨op, x, cmp, rfl, rfl, rfl⟩)

theorem endsInRegisters_bitInstr {s : State} (unlocked : s.pfx.lock = false) (op : BitOp) (d : Reg) (x : Reg ⊕ Byte) :
    EndsInRegisters s (bitInstr op (.reg d) x) := by
  by_cases bt : op = .bt
  · subst bt
    exact endsInRegisters_of_reads (w := s.osz.width) (r := d) unlocked (by unfold ReadsOperand; tauto)
  · exact endsInRegisters_of_writes unlocked (.inr (.inr (.inl ⟨op, x, bt, rfl, rfl, rfl⟩)))

theorem endsInRegisters_xchg {s : State} {i : Instr} {lockable : Bool} {w : Width} {q r : Reg}
    (unlocked : s.pfx.lock = false) (arm : exec i s = runInstr lockable (xchgRegRm w q (.reg r)) s) :
    EndsInRegisters s i :=
  endsInRegisters_of_run unlocked arm (onlyStatusDf_of_status (onlyStatus_refl _))
    (xchgRegRm_run_ok (locate_reg_run w .write r s.begun))

theorem endsInRegisters_unReg {s : State} {i : Instr} {w : Width} {r : Reg} (unlocked : s.pfx.lock = false) (op : UnOp)
    (arm : exec i s = runInstr false (unReg op w r) s) : EndsInRegisters s i :=
  endsInRegisters_of_run unlocked arm (onlyStatusDf_of_status (onlyStatus_unFlags op _ _))
    (unRm_run_ok (locate_reg_run w .write r s.begun))

theorem onlyStatus_sahf (f : Flags) (ah : Byte) : OnlyStatus f (f.sahf ah) := rfl

theorem convertAcc_run_s16 {s : State} (size : s.osz = .s16) : convertAcc s = .ok () { s with
    regs := writeReg .w16 s.regs .eax ((readReg .b8 s.regs .al).signExtend 16) } := by
  unfold convertAcc
  rw [get_bind_run, size]
  rfl

theorem convertAcc_run_s32 {s : State} (size : s.osz = .s32) : convertAcc s = .ok () { s with
    regs := writeReg .d32 s.regs .eax ((readReg .w16 s.regs .eax).signExtend 32) } := by
  unfold convertAcc
  rw [get_bind_run, size]
  rfl

theorem signAcc_run (s : State) : signAcc s = .ok () { s with
    regs := writeReg s.osz.width s.regs .edx
      (if (readReg s.osz.width s.regs .eax).msb then BitVec.allOnes _ else 0) } := rfl

/-- An instruction of the accumulator, the flags, or nothing (R298 to R301, R313, R316 to R318, R520 to R524, R533). -/
theorem endsInRegisters_implied {s : State} {i : Instr} (unlocked : s.pfx.lock = false)
    (h : i ∈ [Instr.lahf, .sahf, .cbw, .cwd, .aaa, .aas, .daa, .das, .clc, .stc, .cmc, .cld, .std, .nop]) :
    EndsInRegisters s i := by
  have kept : OnlyStatusDf s.flags s.flags := onlyStatusDf_of_status (onlyStatus_refl _)
  have ascii (delta step : Byte) (arm : exec i s = runInstr false (asciiAdjust delta step) s) : EndsInRegisters s i := by
    obtain ⟨f, n, -, -, status, run⟩ := asciiAdjust_run delta step s.begun
    exact endsInRegisters_of_run unlocked arm (onlyStatusDf_of_status status) run
  have decimal (low high : Byte) (arm : exec i s = runInstr false (Machine.decimalAdjust low high) s) :
      EndsInRegisters s i := by
    obtain ⟨f, n, -, -, -, status, run⟩ := decimalAdjust_run low high s.begun
    exact endsInRegisters_of_run unlocked arm (onlyStatusDf_of_status status) run
  simp only [List.mem_cons, List.not_mem_nil, or_false] at h
  rcases h with rfl | rfl | rfl | rfl | rfl | rfl | rfl | rfl | rfl | rfl | rfl | rfl | rfl | rfl
  · exact endsInRegisters_of_run unlocked rfl kept (putReg_run .b8 .ah s.flags.low s.begun)
  · exact endsInRegisters_of_run unlocked rfl (onlyStatusDf_of_status (onlyStatus_sahf _ _))
      (putFlags_run (s.begun.flags.sahf (readReg .b8 s.regs .ah)) s.begun)
  · cases size : s.osz with
    | s16 => exact endsInRegisters_of_run unlocked rfl kept (convertAcc_run_s16 (s := s.begun) size)
    | s32 => exact endsInRegisters_of_run unlocked rfl kept (convertAcc_run_s32 (s := s.begun) size)
  · exact endsInRegisters_of_run unlocked rfl kept (signAcc_run s.begun)
  · exact ascii _ _ rfl
  · exact ascii _ _ rfl
  · exact decimal _ _ rfl
  · exact decimal _ _ rfl
  · exact endsInRegisters_of_run unlocked rfl (onlyStatusDf_of_status (onlyStatus_cf _ false)) rfl
  · exact endsInRegisters_of_run unlocked rfl (onlyStatusDf_of_status (onlyStatus_cf _ true)) rfl
  · exact endsInRegisters_of_run unlocked rfl (onlyStatusDf_of_status (onlyStatus_cf _ (!s.flags.cf))) rfl
  · exact endsInRegisters_of_run unlocked rfl ⟨false, onlyStatus_refl _⟩ rfl
  · exact endsInRegisters_of_run unlocked rfl ⟨true, onlyStatus_refl _⟩ rfl
  · exact endsInRegisters_of_run unlocked rfl kept rfl

theorem registerOnly_ends {s : State} {i : Instr} (unlocked : s.pfx.lock = false) (h : RegisterOnly i) :
    EndsInRegisters s i := by
  have kept : OnlyStatusDf s.flags s.flags := onlyStatusDf_of_status (onlyStatus_refl _)
  have reads {w : Width} {r : Reg} := endsInRegisters_of_reads (s := s) (i := i) (w := w) (r := r) unlocked
  have writes {w : Width} {r : Reg} {lockable : Bool} :=
    endsInRegisters_of_writes (s := s) (i := i) (w := w) (r := r) (lockable := lockable) unlocked
  rcases h with ⟨op, d, x, rfl⟩ | ⟨op, wide, d, r, rfl⟩ | ⟨op, v, rfl⟩ | ⟨op, v, rfl⟩ | ⟨op, wide, d, rfl⟩ |
    ⟨op, wide, c, d, rfl⟩ | ⟨left, d, r, c, rfl⟩ | ⟨op, d, x, rfl⟩ | ⟨d, r, regs⟩ | ⟨d, v, bytes⟩ | ⟨d, v, sized⟩ |
    ⟨d, sr, rfl⟩ | ⟨c, d, rfl⟩ | ⟨d, m, rfl⟩ | ⟨d, one⟩ | implied
  · exact endsInRegisters_aluToRm unlocked op d x
  · exact reads (.inl ⟨op, wide, d, rfl, rfl⟩)
  · exact endsInRegisters_of_run unlocked (exec_aluAl op v s) (onlyStatusDf_of_status (onlyStatus_aluFlags op _ v _))
      (aluReg_run op .b8 .eax v s.begun)
  · exact endsInRegisters_of_run unlocked (exec_aluAx op v s)
      (onlyStatusDf_of_status (onlyStatus_aluFlags op _ (Sized.at _ v) _)) (aluReg_run op _ .eax _ s.begun)
  · exact writes (.inr (.inl ⟨op, wide, rfl, rfl, rfl⟩))
  · exact writes (.inr (.inr (.inr ⟨rfl, .inl ⟨op, wide, c, rfl, rfl⟩⟩)))
  · exact writes (.inr (.inr (.inr ⟨rfl, .inr (.inl ⟨left, r, c, rfl, rfl⟩)⟩)))
  · exact endsInRegisters_bitInstr unlocked op d x
  · rcases regs with rfl | rfl | rfl | rfl | rfl | rfl | rfl | rfl | rfl | rfl | rfl | rfl | rfl | rfl | rfl
    · exact writes (w := .b8) (r := d) (lockable := false) (by simp [WritesOperand])
    · exact writes (w := s.osz.width) (r := d) (lockable := false) (by simp [WritesOperand])
    · exact reads (w := .b8) (r := r) (by simp [ReadsOperand])
    · exact reads (w := s.osz.width) (r := r) (by simp [ReadsOperand])
    · exact reads (w := .b8) (r := r) (by simp [ReadsOperand])
    · exact reads (w := .w16) (r := r) (by simp [ReadsOperand])
    · exact reads (w := .b8) (r := r) (by simp [ReadsOperand])
    · exact reads (w := .w16) (r := r) (by simp [ReadsOperand])
    · exact endsInRegisters_xchg unlocked rfl
    · exact endsInRegisters_xchg unlocked rfl
    · exact reads (w := s.osz.width) (r := r) (by simp [ReadsOperand])
    · exact reads (w := s.osz.width) (r := r) (by simp [ReadsOperand])
    · exact reads (w := s.osz.width) (r := r) (by simp [ReadsOperand])
    · exact reads (w := .b8) (r := d) (by simp [ReadsOperand])
    · exact reads (w := s.osz.width) (r := d) (by simp [ReadsOperand])
  · rcases bytes with rfl | rfl | rfl
    · exact endsInRegisters_of_run unlocked rfl kept (putReg_run .b8 d v s.begun)
    · exact writes (w := .b8) (r := d) (lockable := false) (by simp [WritesOperand])
    · exact reads (w := .b8) (r := d) (by simp [ReadsOperand])
  · rcases sized with rfl | rfl | rfl
    · exact endsInRegisters_of_run unlocked rfl kept (putReg_run s.osz.width d (Sized.at _ v) s.begun)
    · exact writes (w := s.osz.width) (r := d) (lockable := false) (by simp [WritesOperand])
    · exact reads (w := s.osz.width) (r := d) (by simp [ReadsOperand])
  · exact writes (w := .w16) (r := d) (lockable := false) (by simp [WritesOperand])
  · exact writes (w := .b8) (r := d) (lockable := false) (by simp [WritesOperand])
  · exact endsInRegisters_of_run unlocked rfl kept (putReg_run s.osz.width d ((eaOffset s.regs m).setWidth _) s.begun)
  · rcases one with rfl | rfl | rfl | rfl | rfl | rfl | rfl
    · exact endsInRegisters_xchg unlocked rfl
    · exact endsInRegisters_unReg unlocked .inc rfl
    · exact endsInRegisters_unReg unlocked .dec rfl
    · exact reads (w := .b8) (r := d) (by simp [ReadsOperand])
    · exact reads (w := s.osz.width) (r := d) (by simp [ReadsOperand])
    · exact reads (w := .b8) (r := d) (by simp [ReadsOperand])
    · exact reads (w := s.osz.width) (r := d) (by simp [ReadsOperand])
  · exact endsInRegisters_implied unlocked implied

/-- Settles O57: each ends with new registers, status flags, DF and count of free values, and nothing else. -/
theorem frameRegisterForms : Obligations.FrameRegisterForms := by
  unfold Obligations.FrameRegisterForms
  intro s i unlocked form
  obtain ⟨g, f, n, ⟨d, flags⟩, run⟩ := registerOnly_ends unlocked form
  refine ⟨_, run, rfl, rfl, systemSame_finished (systemSame_access (accessFrame_refl s.begun)) s g f n s.mem, rfl, ?_⟩
  have status : f = { s.flags with cf := f.cf, pf := f.pf, af := f.af, zf := f.zf, sf := f.sf, of := f.of, df := d } :=
    flags
  rw [status]
  rfl

end Sys2Proof.Machine
end

