-- ==== Sys2Proof/Proofs/Faults.lean ====
section
/-! SUPPORT. An access that fails ends its instruction with its exception and undoes it, and the frame of a push. -/

namespace Sys2Proof.Machine

open Sys2Proof.Safety Sys2Proof.Claims

/-! Operands that cannot be accessed. -/

/-- An instruction that translates its operand for reading first fails with that translation. -/
theorem fetchesOperand_fails {s u : State} {i : Instr} {w : Width} {m : RM} {e : Stop} (h : FetchesOperand s i w m)
    (failed : locate w .read m s.begun = .error e u) :
    ∃ lockable act, exec i s = runInstr lockable act s ∧ act s.begun = .error e u := by
  have fetched (w' : Width) (failed : locate w' .read m s.begun = .error e u) (f : BitVec w'.bits → M Unit) :
      (readRM w' m >>= f) s.begun = .error e u := bind_run_error (readRM_run_error failed)
  rcases h with reads | ⟨wide, rfl, rfl | rfl⟩ | ⟨rfl, rfl | rfl | rfl⟩ | ⟨rfl, sr, code, rfl⟩
  · obtain ⟨lockable, act, arm, first⟩ := readsOperand_runs reads
    exact ⟨lockable, act, arm, first.fails failed⟩
  · cases wide
    · exact ⟨_, divAcc .b8 m, rfl, fetched _ failed _⟩
    · exact ⟨_, divAcc _ m, rfl, fetched _ failed _⟩
  · cases wide
    · exact ⟨_, idivAcc .b8 m, rfl, fetched _ failed _⟩
    · exact ⟨_, idivAcc _ m, rfl, fetched _ failed _⟩
  · exact ⟨_, pushRm _ m, rfl, fetched _ failed _⟩
  · exact ⟨_, jumpRm _ m, rfl, fetched _ failed _⟩
  · exact ⟨_, callRm _ m, rfl, fetched _ failed _⟩
  · exact ⟨_, movSregRm sr m, rfl, (congrFun (if_neg code) _).trans (fetched .w16 failed _)⟩

/-- An instruction that translates its operand for writing first fails with that translation. -/
theorem modifiesOperand_fails {s u : State} {i : Instr} {w : Width} {m : RM} {lockable : Bool} {e : Stop}
    (h : ModifiesOperand s i w m lockable) (failed : locate w .write m s.begun = .error e u) :
    ∃ act, exec i s = runInstr lockable act s ∧ act s.begun = .error e u := by
  rcases h with ⟨writes, count, counts⟩ | ⟨rfl, r, ⟨rfl, rfl⟩ | ⟨rfl, rfl⟩⟩
  · rcases writesOperand_runs writes with ⟨act, arm, first⟩ | ⟨zero, -⟩
    · exact ⟨act, arm, first.fails failed⟩
    · rcases zero with ⟨op, wide, c, form, zero⟩ | ⟨left, r, k, form, zero⟩
      · exact absurd zero (count op wide c form)
      · exact absurd zero (counts left r k form)
  · exact ⟨xchgRegRm .b8 r m, rfl, bind_run_error failed⟩
  · exact ⟨xchgRegRm _ r m, rfl, bind_run_error failed⟩

theorem locateMem_fails {w : Width} {kind : Access} {m : EA} {s u : State} {e : Stop}
    (failed : translate kind (s.pfx.seg.getD (eaSeg m)) (eaOffset s.regs m) w.bytes s = .error e u) :
    locate w kind (.mem m) s = .error e u :=
  bind_run_error (seq_error (get_run s) failed)

/-! Pairs in memory. -/

theorem memRead_fails {w : Width} {sr : SReg} {off : Word32} {s u : State} {e : Stop}
    (failed : translate .read sr off w.bytes s = .error e u) : memRead w sr off s = .error e u :=
  bind_run_error failed

/-- The first part of a pair stands at EA, the second `n` bytes past it (R287, R510); the reading of the pair fails
with either. -/
theorem readPair_fails {α : Type} {w second : Width} {m : EA} {s u : State} {e : Stop}
    (f : BitVec w.bits → BitVec second.bits → M α)
    (failed : translate .read (s.pfx.seg.getD (eaSeg m)) (eaOffset s.regs m) w.bytes s = .error e u ∨
      ∃ v s1, MemReads w (s.pfx.seg.getD (eaSeg m)) (eaOffset s.regs m) v s s1 ∧
        translate .read (s.pfx.seg.getD (eaSeg m)) (eaOffset s.regs m + Width.off w) second.bytes s1 = .error e u) :
    (do
      let a ← readEA w m 0
      let b ← readEA second m (Width.off w)
      f a b : M α) s = .error e u := by
  rcases failed with first | ⟨v, s1, first, later⟩
  · rw [← BitVec.add_zero (eaOffset s.regs m)] at first
    exact bind_run_error (seq_error (get_run s) (memRead_fails first))
  · have frame := memReads_frame first
    rw [bind_run_ok (readEA_first first)]
    rw [← frame_pfx frame, ← frame_regs frame] at later
    exact bind_run_error (seq_error (get_run s1) (memRead_fails later))

/-- An instruction that reads a pair at its operand fails with either part (R287, R472, R510). -/
theorem pairOperand_fails {s u : State} {i : Instr} {m : EA} {second : Width} {e : Stop}
    (pair : PairOperand s i m second)
    (failed : translate .read (s.pfx.seg.getD (eaSeg m)) (eaOffset s.regs m) s.osz.width.bytes s.begun = .error e u ∨
      ∃ v s1, MemReads s.osz.width (s.pfx.seg.getD (eaSeg m)) (eaOffset s.regs m) v s.begun s1 ∧
        translate .read (s.pfx.seg.getD (eaSeg m)) (eaOffset s.regs m + Width.off s.osz.width) second.bytes s1 =
          .error e u) :
    ∃ act, exec i s = runInstr false act s ∧ act s.begun = .error e u := by
  have loads (second : Width) (f : BitVec s.osz.width.bits → BitVec second.bits → M Unit) :=
    readPair_fails (s := s.begun) (w := s.osz.width) (second := second) (m := m) (u := u) (e := e) f
  have pointer (failed) : readFarPointer m s.begun = .error e u :=
    readPair_fails (s := s.begun) (w := s.osz.width) (second := .w16) (m := m)
      (fun off sel => pure (sel, off.setWidth 32)) failed
  rcases pair with ⟨rfl, ⟨r, rfl | rfl | rfl | rfl | rfl⟩ | rfl | rfl⟩ | ⟨rfl, r, rfl⟩
  · exact ⟨loadFar .ds r m, rfl, loads .w16 _ failed⟩
  · exact ⟨loadFar .es r m, rfl, loads .w16 _ failed⟩
  · exact ⟨loadFar .fs r m, rfl, loads .w16 _ failed⟩
  · exact ⟨loadFar .gs r m, rfl, loads .w16 _ failed⟩
  · exact ⟨loadFar .ss r m, rfl, loads .w16 _ failed⟩
  · exact ⟨jumpFarMem m, rfl, bind_run_error (pointer failed)⟩
  · exact ⟨callFarThrough m, rfl, bind_run_error (pointer failed)⟩
  · exact ⟨checkBounds r m, rfl, loads _ _ failed⟩

/-! How a translation fails. -/

theorem translate_linear_fails {kind : Access} {sr : SReg} {off : Word32} {n : Nat} {s : State} {e : Exn}
    (beyond : linear s kind sr off n = .error e) : translate kind sr off n s = .error (.exc e) s := by
  unfold translate
  rw [get_bind_run, beyond]
  rfl

/-- The pages up to the first that fails are translated, and no other. -/
theorem pages_fail {kind : Access} {user : Bool} {e : Stop} {u v : State} {k : Nat} : ∀ {n : Nat} {lin : Word32}
    {s : State} {ps : List Word32}, k < n → pages kind user lin k s = .ok ps u →
    page kind user (lin + BitVec.ofNat 32 k) u = .error e v → pages kind user lin n s = .error e v := by
  induction k with
  | zero =>
    intro n lin s ps within before here
    obtain ⟨n, rfl⟩ := Nat.exists_eq_succ_of_ne_zero (Nat.ne_of_gt within)
    cases before
    rw [BitVec.add_zero] at here
    exact bind_run_error here
  | succ k ih =>
    intro n lin s ps within before here
    obtain ⟨n, rfl⟩ := Nat.exists_eq_succ_of_ne_zero (Nat.ne_zero_of_lt within)
    obtain ⟨p, s', first, rest⟩ := bind_run_eq_ok before
    obtain ⟨ps', s'', others, last⟩ := bind_run_eq_ok rest
    cases last
    have next : lin + BitVec.ofNat 32 (k + 1) = lin + 1 + BitVec.ofNat 32 k := by
      rw [Nat.add_comm k 1, BitVec.ofNat_add, ← BitVec.add_assoc]
      rfl
    rw [next] at here
    exact seq_error first (bind_run_error (ih (Nat.lt_of_succ_lt_succ within) others here))

/-- The marks of a state are those of `s` and A and D bits (R129). -/
def MarksFrom (s t : State) : Prop := ∀ c ∈ t.adMarks, c ∈ s.adMarks ∨ c.2 = 0x20 ∨ c.2 = 0x60

/-- A walk marks A in both entries, and D in the table entry for a write (R129). -/
theorem pageWalk_marks_bits {s : State} {kind : Access} {user : Bool} {lin : Word32} {p : PageHit}
    (h : pageWalk s kind user lin = .ok p) : ∀ c ∈ p.marks, c.2 = 0x20 ∨ c.2 = 0x60 := by
  unfold pageWalk at h
  dsimp only at h
  split at h
  · split at h
    · split at h
      · cases h
        simp only [List.mem_cons, List.not_mem_nil, or_false]
        rintro c (rfl | rfl)
        · exact .inl rfl
        · exact (ite_eq_or_eq (kind.isWrite = true) (0x60 : Byte) 0x20).symm
      · cases h
    · cases h
  · cases h

theorem pageLookup_marks_bits {s : State} {kind : Access} {user : Bool} {lin : Word32} {p : PageHit}
    (h : pageLookup s kind user lin = .ok p) : ∀ c ∈ p.marks, c.2 = 0x20 ∨ c.2 = 0x60 := by
  unfold pageLookup at h
  split at h
  · split at h
    · split at h
      · exact pageWalk_marks_bits h
      · split at h <;> cases h
        simp
    · exact pageWalk_marks_bits h
  · cases h
    simp

theorem marksFrom_closed (s : State) : LoadClosed (MarksFrom s) where
  page kind user lin t h := by
    cases found : pageLookup t kind user lin with
    | error e =>
      rw [page_run_error found]
      exact h
    | ok p =>
      rw [page_run_ok found]
      intro c hc
      rcases List.mem_append.mp hc with new | old
      · exact .inr (pageLookup_marks_bits found c new)
      · exact h c old
  mem _ _ _ h := h
  seg _ _ _ h := h
  ldtr _ _ h := h

theorem keeps_translate_marks (s : State) (kind : Access) (sr : SReg) (off : Word32) (n : Nat) :
    Keeps (MarksFrom s) (translate kind sr off n) := by
  unfold translate
  refine keeps_bind keeps_get fun t => ?_
  split
  · exact keeps_raise _
  · exact keeps_bind ((marksFrom_closed s).pages _ _ _ _) fun _ =>
      keeps_bind (keeps_modify fun _ h => h) fun _ => keeps_pure _

/-! What undoing keeps. -/

/-- Setting bits in memory sets those bits and no other. -/
theorem read_foldl_orByte_getLsbD (x k : Nat) : ∀ (cs : List Host.Cell) (m : List Host.Cell),
    ((Memory.read (cs.foldl orByte m) x).getLsbD k = true ↔
      (Memory.read m x).getLsbD k = true ∨ ∃ b, (x, b) ∈ cs ∧ b.getLsbD k = true)
  | [], m => by simp
  | (a, b) :: cs, m => by
    rw [List.foldl_cons, read_foldl_orByte_getLsbD x k cs, read_orByte_or]
    by_cases same : x = a
    · simp [same, or_and_right, exists_or, or_assoc]
    · simp [same]

/-- Settles O59: the access that fails ends the actions with its exception, and undoing keeps the marked bits only. -/
theorem operandFaults : Obligations.OperandFaults := by
  unfold Obligations.OperandFaults
  refine ⟨fun s u i w m e unlocked fetches failed => ?_, fun s u i w m lockable e lock modifies failed => ?_,
    fun s u i m second e unlocked pair => ?_, fun w kind m s u e failed => locateMem_fails failed,
    fun kind sr off n s => ⟨fun e => translate_linear_fails, fun lin k ps u e v found within before here => ?_,
      fun u reached => ?_⟩, fun s u => ?_⟩
  · obtain ⟨lockable, act, arm, run⟩ := fetchesOperand_fails fetches failed
    exact arm.trans (runInstr_exc_noLock unlocked run)
  · obtain ⟨act, arm, run⟩ := modifiesOperand_fails modifies failed
    exact arm.trans (runInstr_exc lock run)
  · intro at_ failed
    obtain ⟨act, arm, run⟩ := pairOperand_fails pair failed
    exact arm.trans (runInstr_exc_noLock unlocked run)
  · unfold translate
    rw [get_bind_run, found]
    exact bind_run_error (pages_fail within before here)
  · have kept := keeps_translate_marks s kind sr off n s fun c hc => .inl hc
    rcases reached with ⟨ps, run⟩ | ⟨x, run⟩
    · rwa [run] at kept
    · rwa [run] at kept
  · intro t
    exact ⟨rfl, rfl, rfl, fun x k => read_foldl_orByte_getLsbD x k u.adMarks s.mem⟩

/-! Pushes. -/

/-- A push stores its item where the access to the stack gives, and then moves (E)SP (R140). -/
theorem push_translated {w : Width} {v : BitVec w.bits} {s s1 : State} {ps : List Word32}
    (room : s.mode ≠ .prot → topOffset s ≠ 1)
    (access : translate .write .ss (pushOffset s w) w.bytes s = .ok ps s1) :
    ∃ g, (∀ q, q ≠ .esp → g.get q = s1.regs.get q) ∧
      push w v s = .ok () { s1.storeAt w (.mem ps) v with regs := g } := by
  refine ⟨(s1.storeAt w (.mem ps) v).regsWithSp (pushOffset s w), fun q other => get_set_other _ _ _ _ other, ?_⟩
  unfold push
  rw [get_bind_run, pushShutsDown_eq_false room, if_neg Bool.false_ne_true, wrap_sp_sub]
  exact seq_ok (memWrite_run_ok v access) rfl

theorem push_fails {w : Width} {v : BitVec w.bits} {s u : State} {e : Stop}
    (room : s.mode ≠ .prot → topOffset s ≠ 1)
    (access : translate .write .ss (pushOffset s w) w.bytes s = .error e u) : push w v s = .error e u := by
  unfold push
  rw [get_bind_run, pushShutsDown_eq_false room, if_neg Bool.false_ne_true, wrap_sp_sub]
  exact bind_run_error (bind_run_error access)

/-- A push of a register, an immediate or the flags is the push of one value. -/
theorem plainPush_runs {s : State} {i : Instr} (h : PlainPush s i) :
    ∃ v, exec i s = runInstr false (push s.osz.width v) s := by
  rcases h with ⟨r, rfl⟩ | ⟨v, rfl⟩ | ⟨v, rfl⟩ | ⟨rfl, allowed⟩
  · exact ⟨readReg s.osz.width s.regs r, runInstr_congr rfl⟩
  · exact ⟨_, rfl⟩
  · exact ⟨_, rfl⟩
  · exact ⟨s.flags.pushImage.setWidth _, runInstr_congr (bind_run_ok (requireIoplV86_run (s := s.begun) allowed))⟩

/-- Settles O60: the one item is stored, then (E)SP moves; a failing access undoes the instruction. -/
theorem framePushes : Obligations.FramePushes := by
  unfold Obligations.FramePushes
  intro s i unlocked plain room access
  obtain ⟨v, arm⟩ := plainPush_runs plain
  refine ⟨fun ps s1 found => ?_, fun e u failed =>
    arm.trans (runInstr_exc_noLock unlocked (push_fails (s := s.begun) room failed))⟩
  obtain ⟨g, others, run⟩ := push_translated (s := s.begun) (v := v) room found
  have frame := translate_frame found
  have regs := frame_regs frame
  have eip := eip_access frame
  have flags : s1.flags = s.flags := (frame_flags frame).trans rfl
  have kept : s1.rfKept = false := by rw [frame.same]; rfl
  refine ⟨_, arm.trans (runInstr_ok_noLock unlocked run), bytesSame_storeAt frame s.osz.width (.mem ps) v,
    systemSame_finished (systemSame_access frame) s g s1.flags s1.free _, eip,
    fun q other => (others q other).trans (congrArg (·.get q) regs), ?_⟩
  have ended : ∀ t : State, t.flags = s.flags → t.rfKept = false →
      (finished s t).flags = { s.flags with rf := false } := by
    intro t flags kept
    simp [finished, flags, kept]
  exact ended _ flags kept

end Sys2Proof.Machine
end

