-- ==== Sys2Proof/Proofs/RoundTrip.lean ====
section
/-! SUPPORT. The decoder reads back what the encoder writes: fields, the memory operand, and the rows by their shape
(R170 to R196). -/

namespace Sys2Proof

/-- The reader takes exactly these bytes, whatever follows them, and gives this value. -/
def Parses {α : Type} (p : Parser α) (bs : List Byte) (v : α) : Prop := ∀ rest, p (bs ++ rest) = .ok v rest

section
variable {α β : Type}

theorem parses_pure (v : α) : Parses (pure v) [] v := fun _ => rfl

theorem parses_bind {p : Parser α} {f : α → Parser β} {bs cs : List Byte} {v : α} {w : β} (first : Parses p bs v)
    (second : Parses (f v) cs w) : Parses (p >>= f) (bs ++ cs) w := by
  intro rest
  have here := first (cs ++ rest)
  rw [← List.append_assoc] at here
  change EStateM.bind p f _ = _
  simp only [EStateM.bind, here]
  exact second rest

/-- A reader whose value is used up by a constructor. -/
theorem parses_map {p : Parser α} {bs : List Byte} {v : α} (g : α → β) (first : Parses p bs v) :
    Parses (do let x ← p; pure (g x)) bs (g v) := by
  have both := parses_bind (f := fun x => pure (g x)) first (parses_pure (g v))
  rwa [List.append_nil] at both

end

/-! Fields. -/

theorem parses_nextByte (b : Byte) : Parses nextByte [b] b := fun _ => rfl

theorem parses_nextWord (v : Word16) : Parses nextWord (bytes16 v) v := by
  intro rest
  have joined : word16 (byteOf 0 v) (byteOf 1 v) = v := by
    apply BitVec.eq_of_getLsbD_eq
    intro i hi
    simp only [word16, byteOf, BitVec.getLsbD_append, BitVec.getLsbD_extractLsb']
    grind
  exact congrArg (fun w => EStateM.Result.ok w rest) joined

theorem parses_nextDword (v : Word32) : Parses nextDword (bytes32 v) v := by
  intro rest
  have joined : word32 (byteOf 0 v) (byteOf 1 v) (byteOf 2 v) (byteOf 3 v) = v := by
    apply BitVec.eq_of_getLsbD_eq
    intro i hi
    simp only [word32, byteOf, BitVec.getLsbD_append, BitVec.getLsbD_extractLsb']
    grind
  exact congrArg (fun w => EStateM.Result.ok w rest) joined

theorem parses_nextSized {o : Size} {v : Sized} (has : v.has o = true) : Parses (nextSized o) (encodeSized v) v := by
  cases v with
  | w v =>
    obtain rfl : o = .s16 := by simpa [Sized.has] using has
    exact parses_map Sized.w (parses_nextWord v)
  | d v =>
    obtain rfl : o = .s32 := by simpa [Sized.has] using has
    exact parses_map Sized.d (parses_nextDword v)

theorem extract_fields233 (hi : BitVec 2) (mid lo : BitVec 3) :
    (fields233 hi mid lo).extractLsb' 6 2 = hi ∧ (fields233 hi mid lo).extractLsb' 3 3 = mid ∧
      (fields233 hi mid lo).extractLsb' 0 3 = lo := by
  refine ⟨?_, ?_, ?_⟩ <;>
    · apply BitVec.eq_of_getLsbD_eq
      intro i hi
      simp only [fields233, BitVec.getLsbD_append, BitVec.getLsbD_extractLsb']
      grind

/-- The three fields of a ModRM byte (R180). -/
theorem parses_nextModRM (m : ModRM) : Parses nextModRM [fields233 m.md m.reg m.rm] m := by
  intro rest
  obtain ⟨md, reg, rm⟩ := extract_fields233 m.md m.reg m.rm
  change EStateM.Result.ok (ModRM.mk _ _ _) rest = _
  rw [md, reg, rm]

@[simp] theorem reg_ofNum_num (r : Reg) : Reg.ofNum r.num = r := by cases r <;> rfl

@[simp] theorem base16_ofNum_num (b : Base16) : Base16.ofNum b.num = b := by cases b <;> rfl

theorem base16_num_eq_six (b : Base16) : b.num = 6 ↔ b = .bp := by cases b <;> decide

theorem reg_num_eq_four (r : Reg) : r.num = 4 ↔ r = .esp := by cases r <;> decide

theorem reg_num_eq_five (r : Reg) : r.num = 5 ↔ r = .ebp := by cases r <;> decide

/-! Memory operands (R182 to R185). -/

theorem mod_zero_ne : (0 : BitVec 2) ≠ 3 := by decide

theorem disp16_mod_ne (d : Disp16) : d.mod ≠ 3 := by cases d <;> simp [Disp16.mod]

theorem disp32_mod_ne (d : Disp32) : d.mod ≠ 3 := by cases d <;> simp [Disp32.mod]

theorem disp16_mod_eq_zero (d : Disp16) : d.mod = 0 ↔ d = .none := by cases d <;> simp [Disp16.mod]

theorem disp32_mod_eq_zero (d : Disp32) : d.mod = 0 ↔ d = .none := by cases d <;> simp [Disp32.mod]

theorem parses_nextDisp16 (d : Disp16) : Parses (nextDisp16 d.mod) d.bytes d := by
  cases d with
  | none => exact parses_pure Disp16.none
  | d8 d => exact parses_map Disp16.d8 (parses_nextByte d)
  | d16 d => exact parses_map Disp16.d16 (parses_nextWord d)

theorem parses_nextDisp32 (d : Disp32) : Parses (nextDisp32 d.mod) d.bytes d := by
  cases d with
  | none => exact parses_pure Disp32.none
  | d8 d => exact parses_map Disp32.d8 (parses_nextByte d)
  | d32 d => exact parses_map Disp32.d32 (parses_nextDword d)

theorem sibIndex_indexField {i : Option Reg} (h : i ≠ some .esp) : sibIndex (indexField i) = i := by
  cases i with
  | none => rfl
  | some r =>
    have : r.num ≠ 4 := fun four => h (congrArg some ((reg_num_eq_four r).mp four))
    exact (if_neg this).trans (congrArg some (reg_ofNum_num r))

/-- A SIB byte without a base is followed by a double word (R185). -/
theorem parses_nextSib_none (s : BitVec 2) {i : Option Reg} (h : i ≠ some .esp) (d : Word32) :
    Parses (nextSib 0) (fields233 s (indexField i) 5 :: bytes32 d) (.sib s i none (.d32 d)) := by
  obtain ⟨scale, index, base⟩ := extract_fields233 s (indexField i) 5
  refine parses_bind (bs := [_]) (parses_nextByte _) ?_
  simp only [scale, index, base, sibIndex_indexField h]
  exact parses_map (fun d => EA.sib s i none (.d32 d)) (parses_nextDword d)

/-- A SIB byte with a base is followed by the displacement mod selects (R185). -/
theorem parses_nextSib_some (s : BitVec 2) {i : Option Reg} (h : i ≠ some .esp) {b : Reg} {d : Disp32}
    (direct : ¬(b = .ebp ∧ d = .none)) :
    Parses (nextSib d.mod) (fields233 s (indexField i) b.num :: d.bytes) (.sib s i (some b) d) := by
  obtain ⟨scale, index, base⟩ := extract_fields233 s (indexField i) b.num
  rw [← reg_num_eq_five, ← disp32_mod_eq_zero] at direct
  refine parses_bind (bs := [_]) (parses_nextByte _) ?_
  simp only [scale, index, base, sibIndex_indexField h, reg_ofNum_num, if_neg direct]
  exact parses_map (fun d => EA.sib s i (some b) d) (parses_nextDisp32 d)

/-- A memory operand is a ModRM byte that does not name a register, and what its reader takes after it. -/
theorem parses_memOperand {a : Size} {e : EA} (wf : e.wf a = true) (reg : BitVec 3) :
    ∃ m : ModRM, m.reg = reg ∧ m.md ≠ 3 ∧ ∃ bs, encodeEA reg e = fields233 m.md m.reg m.rm :: bs ∧
      Parses (memOperand a m) bs e := by
  cases e with
  | m16 b d =>
    obtain ⟨rfl, direct⟩ : a = .s16 ∧ ¬(b = .bp ∧ d = .none) := by
      simpa [EA.wf, imp_iff_not_or] using wf
    refine ⟨⟨d.mod, reg, b.num⟩, rfl, disp16_mod_ne d, d.bytes, rfl, ?_⟩
    rw [← base16_num_eq_six, ← disp16_mod_eq_zero, and_comm] at direct
    simp only [memOperand, nextEA16, if_neg (disp16_mod_ne d), if_neg direct, base16_ofNum_num]
    exact parses_map (EA.m16 b) (parses_nextDisp16 d)
  | dir16 d =>
    obtain rfl : a = .s16 := by simpa [EA.wf] using wf
    exact ⟨⟨0, reg, 6⟩, rfl, mod_zero_ne, bytes16 d, rfl, parses_map EA.dir16 (parses_nextWord d)⟩
  | m32 b d =>
    obtain ⟨⟨rfl, esp⟩, direct⟩ : (a = .s32 ∧ b ≠ .esp) ∧ ¬(b = .ebp ∧ d = .none) := by
      simpa [EA.wf, imp_iff_not_or] using wf
    refine ⟨⟨d.mod, reg, b.num⟩, rfl, disp32_mod_ne d, d.bytes, rfl, ?_⟩
    rw [← reg_num_eq_five, ← disp32_mod_eq_zero, and_comm] at direct
    simp only [memOperand, nextEA32, if_neg (disp32_mod_ne d), if_neg (mt (reg_num_eq_four b).mp esp), if_neg direct,
      reg_ofNum_num]
    exact parses_map (EA.m32 b) (parses_nextDisp32 d)
  | dir32 d =>
    obtain rfl : a = .s32 := by simpa [EA.wf] using wf
    exact ⟨⟨0, reg, 5⟩, rfl, mod_zero_ne, bytes32 d, rfl, parses_map EA.dir32 (parses_nextDword d)⟩
  | sib s i b d =>
    cases b with
    | none =>
      cases d with
      | none => simp [EA.wf] at wf
      | d8 d => simp [EA.wf] at wf
      | d32 d =>
        obtain ⟨rfl, index⟩ : a = .s32 ∧ i ≠ some .esp := by simpa [EA.wf] using wf
        exact ⟨⟨0, reg, 4⟩, rfl, mod_zero_ne, _, rfl, parses_nextSib_none s index d⟩
    | some b =>
      obtain ⟨⟨rfl, index⟩, direct⟩ : (a = .s32 ∧ i ≠ some .esp) ∧ ¬(b = .ebp ∧ d = .none) := by
        simpa [EA.wf, imp_iff_not_or] using wf
      refine ⟨⟨d.mod, reg, 4⟩, rfl, disp32_mod_ne d, _, rfl, ?_⟩
      simp only [memOperand, nextEA32, if_neg (disp32_mod_ne d)]
      exact parses_nextSib_some s index direct

/-- An r/m operand is a ModRM byte and what its reader takes after it (R180). -/
theorem parses_operand {a : Size} {rm : RM} (wf : rm.wf a = true) (reg : BitVec 3) :
    ∃ m : ModRM, m.reg = reg ∧ ∃ bs, encodeRM reg rm = fields233 m.md m.reg m.rm :: bs ∧
      Parses (operand a m) bs rm := by
  cases rm with
  | reg r =>
    refine ⟨⟨3, reg, r.num⟩, rfl, [], rfl, ?_⟩
    have named : operand a ⟨3, reg, r.num⟩ = pure (.reg (Reg.ofNum r.num)) := rfl
    rw [named, reg_ofNum_num]
    exact parses_pure _
  | mem e =>
    obtain ⟨m, same, memory, bs, bytes, parses⟩ := parses_memOperand (e := e) wf reg
    refine ⟨m, same, bs, bytes, ?_⟩
    rw [operand, if_neg memory]
    exact parses_map RM.mem parses

/-! The rows, by what follows their opcode. -/

/-- A row with a ModRM byte: its reader takes the operand, whatever else ModRM.reg selects. -/
theorem parses_modRM {a : Size} {rm : RM} (wf : rm.wf a = true) {reg : BitVec 3} {g : ModRM → Parser Instr}
    {k : RM → Parser Instr} {cs : List Byte} {i : Instr}
    (row : ∀ m : ModRM, m.reg = reg → g m = (do let x ← operand a m; k x)) (after : Parses (k rm) cs i) :
    Parses (do let m ← nextModRM; g m) (encodeRM reg rm ++ cs) i := by
  obtain ⟨m, same, bs, bytes, operand⟩ := parses_operand wf reg
  rw [bytes]
  refine parses_bind (bs := [_]) (parses_nextModRM m) ?_
  rw [row m same]
  exact parses_bind operand after

theorem parses_item {o a : Size} {b : Byte} {bs : List Byte} {i : Instr} (row : Parses (decodeOneByte o a b) bs i) :
    Parses (decodeItem o a) (b :: bs) i :=
  parses_bind (bs := [b]) (parses_nextByte b) row

theorem parses_item2 {o a : Size} {b : Byte} {bs : List Byte} {i : Instr} (row : Parses (decodeTwoByte o a b) bs i) :
    Parses (decodeItem o a) (0x0F :: b :: bs) i :=
  parses_item (parses_bind (bs := [b]) (parses_nextByte b) row)

section
variable {o a : Size} {rm : RM} (wf : rm.wf a = true)
include wf

/-- `[n]`: the row of a group with an operand and nothing else. -/
theorem parses_group {n : BitVec 3} {g : ModRM → Parser Instr} {f : RM → Instr}
    (row : ∀ m : ModRM, m.reg = n → g m = (do let x ← operand a m; pure (f x))) :
    Parses (do let m ← nextModRM; g m) (encodeRM n rm) (f rm) := by
  have here := parses_modRM wf row (parses_pure (f rm))
  rwa [List.append_nil] at here

/-- `[n] ib`. -/
theorem parses_groupByte {n : BitVec 3} {g : ModRM → Parser Instr} {f : RM → Byte → Instr} {v : Byte}
    (row : ∀ m : ModRM, m.reg = n → g m = (do let x ← operand a m; let v ← nextByte; pure (f x v))) :
    Parses (do let m ← nextModRM; g m) (encodeRM n rm ++ [v]) (f rm v) :=
  parses_modRM wf row (parses_map (f rm) (parses_nextByte v))

/-- `[n] iw/id`. -/
theorem parses_groupSized {n : BitVec 3} {g : ModRM → Parser Instr} {f : RM → Sized → Instr} {v : Sized}
    (has : v.has o = true)
    (row : ∀ m : ModRM, m.reg = n → g m = (do let x ← operand a m; let v ← nextSized o; pure (f x v))) :
    Parses (do let m ← nextModRM; g m) (encodeRM n rm ++ encodeSized v) (f rm v) :=
  parses_modRM wf row (parses_map (f rm) (parses_nextSized has))

end

/-- The register a ModRM byte names by its number (R178). -/
theorem regName_eq {m : ModRM} {r : Reg} (h : m.reg = r.num) : m.regName = r := by
  rw [ModRM.regName, h, reg_ofNum_num]

section
variable {o a : Size} {rm : RM} (wf : rm.wf a = true)
include wf

/-- `[r]` with the r/m operand first. -/
theorem parses_rmReg {f : RM → Reg → Instr} {r : Reg} :
    Parses (do let m ← nextModRM; let x ← operand a m; pure (f x m.regName)) (encodeRM r.num rm) (f rm r) :=
  parses_group (f := fun x => f x r) (g := fun m => do let x ← operand a m; pure (f x m.regName)) wf
    fun m h => by rw [regName_eq h]

/-- `[r]` with the register first. -/
theorem parses_regRm {f : Reg → RM → Instr} {r : Reg} :
    Parses (do let m ← nextModRM; let x ← operand a m; pure (f m.regName x)) (encodeRM r.num rm) (f r rm) :=
  parses_group (f := f r) (g := fun m => do let x ← operand a m; pure (f m.regName x)) wf
    fun m h => by rw [regName_eq h]

/-- An operand, and a segment register in ModRM.reg (R179). -/
theorem parses_rmSeg {p : BitVec 3 → Parser SReg} {f : RM → SReg → Instr} {n : BitVec 3} {sr : SReg}
    (named : Parses (p n) [] sr) :
    Parses (do let m ← nextModRM; let x ← operand a m; let y ← p m.reg; pure (f x y)) (encodeRM n rm) (f rm sr) := by
  have here := parses_modRM (g := fun m => do let x ← operand a m; let y ← p m.reg; pure (f x y))
    (k := fun x => do let y ← p n; pure (f x y)) wf (fun m h => by rw [h]) (parses_map (f rm) named)
  rwa [List.append_nil] at here

/-- SETcc takes its condition from the opcode and any ModRM.reg (R415). -/
theorem parses_setcc {c : Cond} : Parses (decodeItem o a) (encode (.setcc c rm)) (.setcc c rm) := by
  cases c <;> exact parses_item2 (parses_group wf fun _ _ => rfl)

/-- An ESC takes three bits from its opcode and three from ModRM.reg (R539). -/
theorem parses_esc {n ext : BitVec 3} : Parses (decodeItem o a) (encode (.esc n ext rm)) (.esc n ext rm) := by
  have values : n = 0 ∨ n = 1 ∨ n = 2 ∨ n = 3 ∨ n = 4 ∨ n = 5 ∨ n = 6 ∨ n = 7 := by
    revert n
    decide
  rcases values with rfl | rfl | rfl | rfl | rfl | rfl | rfl | rfl <;>
    exact parses_item (parses_group wf (by rintro ⟨md, _, k⟩ rfl; rfl))

end

section
variable {a : Size} {e : EA} (wf : e.wf a = true)
include wf

/-- `[n]` with memory only. -/
theorem parses_memGroup {n : BitVec 3} {g : ModRM → Parser Instr} {f : EA → Instr}
    (row : ∀ m : ModRM, m.reg = n → g m = (do let x ← memOperand a m; pure (f x))) :
    Parses (do let m ← nextModRM; g m) (encodeRM n (.mem e)) (f e) := by
  obtain ⟨m, same, -, bs, bytes, operand⟩ := parses_memOperand wf n
  rw [encodeRM, bytes]
  refine parses_bind (bs := [_]) (parses_nextModRM m) ?_
  rw [row m same]
  exact parses_map f operand

/-- `[r]` with memory only. -/
theorem parses_regMem {f : Reg → EA → Instr} {r : Reg} :
    Parses (do let m ← nextModRM; let x ← memOperand a m; pure (f m.regName x)) (encodeRM r.num (.mem e)) (f r e) :=
  parses_memGroup (f := f r) (g := fun m => do let x ← memOperand a m; pure (f m.regName x)) wf
    fun m h => by rw [regName_eq h]

end

theorem parses_segReg (sr : SReg) : Parses (segReg sr.num) [] sr := by
  cases sr <;> exact fun _ => rfl

theorem parses_segRegNotCs {sr : SReg} (code : sr ≠ .cs) : Parses (segRegNotCs sr.num) [] sr := by
  cases sr
  case cs => exact absurd rfl code
  all_goals exact fun _ => rfl

/-- Every row of the opcode table reads back the bytes it stands for. -/
theorem parses_encode (o a : Size) (i : Instr) (wf : i.wf o a = true) : Parses (decodeItem o a) (encode i) i := by
  cases i
  case lock | repne | rep | segEs | segCs | segSs | segDs | segFs | segGs | opSize | addrSize | pushIb | pushCs |
      pushDs | pushEs | pushSs | popDs | popEs | popSs | pusha | popa | pushf | popf | xlat | inAlIb | inAxIb | inAlDx
      | inAxDx | outIbAl | outIbAx | outDxAl | outDxAx | lahf | sahf | cbw | cwd | aaa | aad | aam | aas | daa | das |
      addAlIb | orAlIb | adcAlIb | sbbAlIb | andAlIb | subAlIb | xorAlIb | cmpAlIb | testAlIb | movsb | movsv | cmpsb
      | cmpsv | stosb | stosv | lodsb | lodsv | scasb | scasv | insb | insv | outsb | outsv | jmpShort | jcxz | loop |
      loope | loopne | retNear | retFar | int3 | intIb | into | iret | leave | clc | stc | cmc | cld | std | cli | sti
      | hlt | wait | nop | pushFs | pushGs | popFs | popGs =>
    exact fun _ => rfl
  case movAlOff | movAxOff | movOffAl | movOffAx | pushIv | addAxIv | orAxIv | adcAxIv | sbbAxIv | andAxIv | subAxIv |
      xorAxIv | cmpAxIv | testAxIv | jmpNear | callNear =>
    exact parses_item (parses_map _ (parses_nextSized wf))
  case movRmbRb | movRmvRv | addRmbRb | addRmvRv | orRmbRb | orRmvRv | adcRmbRb | adcRmvRv | sbbRmbRb | sbbRmvRv |
      andRmbRb | andRmvRv | subRmbRb | subRmvRv | xorRmbRb | xorRmvRv | cmpRmbRb | cmpRmvRv | testRmbRb | testRmvRv =>
    exact parses_item (parses_rmReg wf)
  case movRbRmb | movRvRmv | xchgRbRmb | xchgRvRmv | addRbRmb | addRvRmv | orRbRmb | orRvRmv | adcRbRmb | adcRvRmv |
      sbbRbRmb | sbbRvRmv | andRbRmb | andRvRmv | subRbRmb | subRvRmv | xorRbRmb | xorRvRmv | cmpRbRmb | cmpRvRmv =>
    exact parses_item (parses_regRm wf)
  case shldCl | shrdCl | btRmvRv | btsRmvRv | btrRmvRv | btcRmvRv => exact parses_item2 (parses_rmReg wf)
  case movsxRvRmb | movsxRdRmw | movzxRvRmb | movzxRdRmw | imulRvRmv | bsf | bsr =>
    exact parses_item2 (parses_regRm wf)
  case lea | lds | les | bound => exact parses_item (parses_regMem wf)
  case lfs | lgs | lss => exact parses_item2 (parses_regMem wf)
  case popRmv | jmpFarMem | callFarMem => exact parses_item (parses_memGroup wf (by rintro ⟨md, _, k⟩ rfl; rfl))
  case pushRmv | incRmb | incRmv | decRmb | decRmv | notRmb | notRmv | negRmb | negRmv | mulRmb | mulRmv | imulRmb |
      imulRmv | divRmb | divRmv | idivRmb | idivRmv | rolRmbOne | rolRmbCl | rolRmvOne | rolRmvCl | rorRmbOne |
      rorRmbCl | rorRmvOne | rorRmvCl | rclRmbOne | rclRmbCl | rclRmvOne | rclRmvCl | rcrRmbOne | rcrRmbCl | rcrRmvOne
      | rcrRmvCl | shlRmbOne | shlRmbCl | shlRmvOne | shlRmvCl | shrRmbOne | shrRmbCl | shrRmvOne | shrRmvCl |
      sarRmbOne | sarRmbCl | sarRmvOne | sarRmvCl | jmpRmv | callRmv =>
    exact parses_item (parses_group wf (by rintro ⟨md, _, k⟩ rfl; rfl))
  case movRmbIb | addRmbIb | addRmvIb | orRmbIb | orRmvIb | adcRmbIb | adcRmvIb | sbbRmbIb | sbbRmvIb | andRmbIb |
      andRmvIb | subRmbIb | subRmvIb | xorRmbIb | xorRmvIb | cmpRmbIb | cmpRmvIb | testRmbIb | rolRmbIb | rolRmvIb |
      rorRmbIb | rorRmvIb | rclRmbIb | rclRmvIb | rcrRmbIb | rcrRmvIb | shlRmbIb | shlRmvIb | shrRmbIb | shrRmvIb |
      sarRmbIb | sarRmvIb =>
    exact parses_item (parses_groupByte wf (by rintro ⟨md, _, k⟩ rfl; rfl))
  case btRmvIb | btsRmvIb | btrRmvIb | btcRmvIb =>
    exact parses_item2 (parses_groupByte wf (by rintro ⟨md, _, k⟩ rfl; rfl))
  case movRmvIv | addRmvIv | orRmvIv | adcRmvIv | sbbRmvIv | andRmvIv | subRmvIv | xorRmvIv | cmpRmvIv | testRmvIv =>
    obtain ⟨operand, has⟩ := Bool.and_eq_true_iff.mp wf
    exact parses_item (parses_groupSized operand has (by rintro ⟨md, _, k⟩ rfl; rfl))
  case movRmwSreg rm sr => exact parses_item (parses_rmSeg wf (parses_segReg sr))
  case movSregRmw sr rm =>
    obtain ⟨code, operand⟩ := Bool.and_eq_true_iff.mp wf
    exact parses_item (parses_rmSeg (f := fun rm sr => .movSregRmw sr rm) operand
      (parses_segRegNotCs (bne_iff_ne.mp code)))
  case imulRvRmvIb r rm v =>
    exact parses_item (parses_groupByte (f := Instr.imulRvRmvIb r) wf fun m h => by rw [regName_eq h])
  case imulRvRmvIv r rm v =>
    obtain ⟨operand, has⟩ := Bool.and_eq_true_iff.mp wf
    exact parses_item (parses_groupSized (f := Instr.imulRvRmvIv r) operand has fun m h => by rw [regName_eq h])
  case shldIb rm r v =>
    exact parses_item2 (parses_groupByte (f := fun x => Instr.shldIb x r) wf fun m h => by rw [regName_eq h])
  case shrdIb rm r v =>
    exact parses_item2 (parses_groupByte (f := fun x => Instr.shrdIb x r) wf fun m h => by rw [regName_eq h])
  case setcc c rm => exact parses_setcc wf
  case esc n ext rm => exact parses_esc wf
  case movRbIb r _ | pushRv r | popRv r | incRv r | decRv r => cases r <;> exact fun _ => rfl
  case xchgAxRv r =>
    cases r
    case eax => exact absurd rfl (bne_iff_ne.mp wf)
    all_goals exact fun _ => rfl
  case jccShort c _ => cases c <;> exact fun _ => rfl
  case movRvIv r v => cases r <;> exact parses_item (parses_map (Instr.movRvIv _) (parses_nextSized wf))
  case jccNear c v => cases c <;> exact parses_item2 (parses_map (Instr.jccNear _) (parses_nextSized wf))
  case jmpFar off sel =>
    exact parses_item (parses_bind (parses_nextSized wf) (parses_map (Instr.jmpFar off) (parses_nextWord sel)))
  case callFar off sel =>
    exact parses_item (parses_bind (parses_nextSized wf) (parses_map (Instr.callFar off) (parses_nextWord sel)))
  case retNearIw | retFarIw => exact parses_item (parses_map _ (parses_nextWord _))
  case enter n level =>
    exact parses_item (parses_bind (parses_nextWord n) (parses_map (Instr.enter n) (parses_nextByte level)))

end Sys2Proof

namespace Sys2Proof.Machine

/-- Settles O1: the rows by shape, each field read back from its bytes. -/
theorem decodeEncode : Obligations.DecodeEncode := by
  unfold Obligations.DecodeEncode
  exact fun o a i rest wf => parses_encode o a i wf rest

end Sys2Proof.Machine
end

