-- ==== Sys2Proof/Proofs/WellFormedRows.lean ====
section
/-! SUPPORT. What each reader takes: how many bytes, and a value that is well formed; the rows by their shape
(R170 to R196). -/

namespace Sys2Proof

/-- Every value the reader gives is related to the number of bytes it took. -/
def Gives {α : Type} (p : Parser α) (P : α → Nat → Prop) : Prop :=
  ∀ bs v rest, p bs = .ok v rest → ∃ n, n + rest.length = bs.length ∧ P v n

section
variable {α β : Type}

theorem gives_pure {P : α → Nat → Prop} {v : α} (h : P v 0) : Gives (pure v) P := by
  intro bs _ rest run
  cases run
  exact ⟨0, Nat.zero_add _, h⟩

theorem gives_bind {p : Parser α} {f : α → Parser β} {P : α → Nat → Prop} {Q : β → Nat → Prop} (first : Gives p P)
    (second : ∀ v n, P v n → Gives (f v) fun w k => Q w (n + k)) : Gives (p >>= f) Q := by
  intro bs w rest run
  obtain ⟨v, mid, one, two⟩ := Machine.parser_bind_ok run
  obtain ⟨n, taken, hv⟩ := first bs v mid one
  obtain ⟨k, taken', hw⟩ := second v n hv mid w rest two
  exact ⟨n + k, by omega, hw⟩

theorem gives_invalid {P : α → Nat → Prop} : Gives (invalidOpcode : Parser α) P := by
  intro bs v rest run
  cases run

/-- A reader whose value is used up by a constructor. -/
theorem gives_map {p : Parser α} {g : α → β} {P : α → Nat → Prop} {Q : β → Nat → Prop} (first : Gives p P)
    (fits : ∀ v n, P v n → Q (g v) n) : Gives (do let x ← p; pure (g x)) Q :=
  gives_bind first fun v n h => gives_pure (fits v n h)

end

/-! Fields. -/

theorem gives_nextByte : Gives nextByte fun _ n => n = 1 := by
  intro bs v rest run
  cases bs with
  | nil => cases run
  | cons b bs =>
    cases run
    exact ⟨1, Nat.add_comm _ _, rfl⟩

theorem gives_nextWord : Gives nextWord fun _ n => n = 2 :=
  gives_bind gives_nextByte fun _ _ one => gives_map gives_nextByte fun _ _ two => by omega

theorem gives_nextDword : Gives nextDword fun _ n => n = 4 :=
  gives_bind gives_nextByte fun _ _ _ => gives_bind gives_nextByte fun _ _ _ =>
    gives_bind gives_nextByte fun _ _ _ => gives_map gives_nextByte fun _ _ _ => by omega

theorem gives_nextSized (o : Size) :
    Gives (nextSized o) fun v n => v.has o = true ∧ n = (encodeSized v).length := by
  cases o
  · exact gives_map gives_nextWord fun v n two => ⟨rfl, two⟩
  · exact gives_map gives_nextDword fun v n four => ⟨rfl, four⟩

theorem gives_nextModRM : Gives nextModRM fun _ n => n = 1 := gives_map gives_nextByte fun _ _ one => one

/-! Memory operands. -/

theorem gives_nextDisp16 (md : BitVec 2) :
    Gives (nextDisp16 md) fun d n => (d = .none → md = 0) ∧ n = d.bytes.length := by
  unfold nextDisp16
  split
  case h_1 zero => exact gives_pure ⟨fun _ => BitVec.eq_of_toNat_eq zero, rfl⟩
  case h_2 => exact gives_map gives_nextByte fun _ _ one => ⟨Disp16.noConfusion, one⟩
  case h_3 => exact gives_map gives_nextWord fun _ _ two => ⟨Disp16.noConfusion, two⟩

theorem gives_nextDisp32 (md : BitVec 2) :
    Gives (nextDisp32 md) fun d n => (d = .none → md = 0) ∧ n = d.bytes.length := by
  unfold nextDisp32
  split
  case h_1 zero => exact gives_pure ⟨fun _ => BitVec.eq_of_toNat_eq zero, rfl⟩
  case h_2 => exact gives_map gives_nextByte fun _ _ one => ⟨Disp32.noConfusion, one⟩
  case h_3 => exact gives_map gives_nextDword fun _ _ four => ⟨Disp32.noConfusion, four⟩

theorem base16_ofNum_eq_bp {k : BitVec 3} (h : Base16.ofNum k = .bp) : k = 6 := by
  revert k
  decide

theorem reg_ofNum_eq_ebp {k : BitVec 3} (h : Reg.ofNum k = .ebp) : k = 5 := by
  revert k
  decide

theorem reg_ofNum_eq_esp {k : BitVec 3} (h : Reg.ofNum k = .esp) : k = 4 := by
  revert k
  decide

theorem sibIndex_ne_esp (k : BitVec 3) : sibIndex k ≠ some .esp := by
  revert k
  decide

/-- The bytes of an operand after its ModRM byte. -/
def operandLength (rm : RM) : Nat := (encodeRM 0 rm).length - 1

theorem length_encodeRM (reg : BitVec 3) (rm : RM) : (encodeRM reg rm).length = 1 + operandLength rm := by
  unfold operandLength
  cases rm with
  | reg r => rfl
  | mem e =>
    cases e with
    | sib s i b d => cases b <;> simp [encodeRM, encodeEA] <;> omega
    | _ =>
      simp [encodeRM, encodeEA]
      omega

/-- A memory operand the address size allows, and the bytes it takes after its ModRM byte. -/
def FitsMem (a : Size) (e : EA) (n : Nat) : Prop := e.wf a = true ∧ n = operandLength (.mem e)

/-- An operand the address size allows, and the bytes it takes after its ModRM byte. -/
def FitsRM (a : Size) (rm : RM) (n : Nat) : Prop := rm.wf a = true ∧ n = operandLength rm

theorem gives_nextEA16 (m : ModRM) : Gives (nextEA16 m) (FitsMem .s16) := by
  unfold nextEA16
  split
  · exact gives_map gives_nextWord fun d n two => ⟨rfl, two⟩
  · next direct =>
    refine gives_map (gives_nextDisp16 m.md) fun d n ⟨zero, length⟩ => ⟨?_, length⟩
    simp only [EA.wf, beq_self_eq_true, Bool.true_and, Bool.not_eq_true', Bool.and_eq_false_imp, beq_iff_eq,
      beq_eq_false_iff_ne]
    exact fun bp none => direct ⟨zero none, base16_ofNum_eq_bp bp⟩

theorem gives_nextSib (md : BitVec 2) : Gives (nextSib md) (FitsMem .s32) := by
  unfold nextSib
  refine gives_bind gives_nextByte fun b n one => ?_
  dsimp only
  split
  · exact gives_map gives_nextDword fun d k four => ⟨by simp [EA.wf, sibIndex_ne_esp],
      (congrArg₂ (· + ·) one four).trans rfl⟩
  · next direct =>
    refine gives_map (gives_nextDisp32 md) fun d k ⟨zero, length⟩ => ⟨?_, ?_⟩
    · simp only [EA.wf, beq_self_eq_true, Bool.true_and, bne_iff_ne, ne_eq, sibIndex_ne_esp, not_false_eq_true,
        Bool.not_eq_true', Bool.and_eq_false_imp, beq_iff_eq, beq_eq_false_iff_ne, Bool.and_eq_true, true_and]
      exact fun ebp none => direct ⟨reg_ofNum_eq_ebp ebp, zero none⟩
    · rw [one, length, operandLength]
      simp [encodeRM, encodeEA, Nat.add_comm]

theorem gives_nextEA32 (m : ModRM) : Gives (nextEA32 m) (FitsMem .s32) := by
  unfold nextEA32
  split
  · exact gives_nextSib m.md
  · next sib =>
    split
    · exact gives_map gives_nextDword fun d n four => ⟨rfl, four⟩
    · next direct =>
      refine gives_map (gives_nextDisp32 m.md) fun d n ⟨zero, length⟩ => ⟨?_, length⟩
      simp only [EA.wf, beq_self_eq_true, Bool.true_and, bne_iff_ne, ne_eq, Bool.not_eq_true', Bool.and_eq_false_imp,
        beq_iff_eq, beq_eq_false_iff_ne, Bool.and_eq_true]
      exact ⟨fun esp => sib (reg_ofNum_eq_esp esp), fun ebp none => direct ⟨zero none, reg_ofNum_eq_ebp ebp⟩⟩

theorem gives_memOperand (a : Size) (m : ModRM) : Gives (memOperand a m) (FitsMem a) := by
  unfold memOperand
  split
  · exact gives_invalid
  · cases a
    · exact gives_nextEA16 m
    · exact gives_nextEA32 m

theorem gives_operand (a : Size) (m : ModRM) : Gives (operand a m) (FitsRM a) := by
  unfold operand
  split
  · exact gives_pure ⟨rfl, rfl⟩
  · exact gives_map (gives_memOperand a m) fun _ _ fits => fits

/-! The rows, by what follows their opcode. -/

/-- A well-formed instruction whose encoding has `n` bytes after its first `k`. -/
def Fits (o a : Size) (k : Nat) (i : Instr) (n : Nat) : Prop := i.wf o a = true ∧ (encode i).length = n + k

theorem and_true_intro {p q : Bool} (hp : p = true) (hq : q = true) : (p && q) = true := Bool.and_eq_true_iff.mpr ⟨hp, hq⟩

theorem regOf_ne_eax {b : Byte} (h : b.toNat % 8 ≠ 0) : regOf b ≠ .eax := by
  intro eax
  have zero : ∀ k : BitVec 3, Reg.ofNum k = .eax → k = 0 := by decide
  have low : (lowBits b).toNat = 0 := congrArg BitVec.toNat (zero _ eax)
  rw [lowBits, BitVec.extractLsb'_toNat] at low
  omega

section
variable {o a : Size} {k : Nat}

/-- A byte that selects a row belongs to the opcode. -/
theorem gives_opcode {p : Byte → Parser Instr} (row : ∀ b, Gives (p b) (Fits o a (k + 1))) :
    Gives (do let b ← nextByte; p b) (Fits o a k) :=
  gives_bind gives_nextByte fun b n one bs i rest run => by
    obtain ⟨j, taken, wf, length⟩ := row b bs i rest run
    exact ⟨j, taken, wf, by omega⟩

theorem gives_modRM {p : ModRM → Parser Instr} (row : ∀ m, Gives (p m) (Fits o a (k + 1))) :
    Gives (do let m ← nextModRM; p m) (Fits o a k) :=
  gives_bind gives_nextModRM fun m n one bs i rest run => by
    obtain ⟨j, taken, wf, length⟩ := row m bs i rest run
    exact ⟨j, taken, wf, by omega⟩

theorem gives_byte {f : Byte → Instr} (fits : ∀ v, (f v).wf o a = true ∧ (encode (f v)).length = 1 + k) :
    Gives (do let v ← nextByte; pure (f v)) (Fits o a k) :=
  gives_map gives_nextByte fun v _ one => ⟨(fits v).1, one ▸ (fits v).2⟩

theorem gives_word {f : Word16 → Instr} (fits : ∀ v, (f v).wf o a = true ∧ (encode (f v)).length = 2 + k) :
    Gives (do let v ← nextWord; pure (f v)) (Fits o a k) :=
  gives_map gives_nextWord fun v _ two => ⟨(fits v).1, two ▸ (fits v).2⟩

theorem gives_wordByte {f : Word16 → Byte → Instr}
    (fits : ∀ v u, (f v u).wf o a = true ∧ (encode (f v u)).length = 3 + k) :
    Gives (do let v ← nextWord; let u ← nextByte; pure (f v u)) (Fits o a k) :=
  gives_bind gives_nextWord fun v _ two => gives_map gives_nextByte fun u _ one => by
    obtain ⟨wf, length⟩ := fits v u
    exact ⟨wf, by omega⟩

theorem gives_sized {z : Size} {f : Sized → Instr}
    (fits : ∀ v, v.has z = true → (f v).wf o a = true ∧ (encode (f v)).length = (encodeSized v).length + k) :
    Gives (do let v ← nextSized z; pure (f v)) (Fits o a k) :=
  gives_map (gives_nextSized z) fun v _ ⟨has, length⟩ => length ▸ fits v has

theorem gives_sizedWord {z : Size} {f : Sized → Word16 → Instr}
    (fits : ∀ v u, v.has z = true → (f v u).wf o a = true ∧
      (encode (f v u)).length = (encodeSized v ++ bytes16 u).length + k) :
    Gives (do let v ← nextSized z; let u ← nextWord; pure (f v u)) (Fits o a k) :=
  gives_bind (gives_nextSized z) fun v _ ⟨has, first⟩ => gives_map gives_nextWord fun u _ second => by
    obtain ⟨wf, length⟩ := fits v u has
    rw [List.length_append] at length
    exact ⟨wf, by rw [length, first, second]; rfl⟩

/-- An operand, the ModRM byte of which is read, and what its row reads after it. -/
theorem gives_afterRM {α : Type} {m : ModRM} {p : Parser α} {P : α → Nat → Prop} {f : RM → α → Instr}
    (after : Gives p P)
    (fits : ∀ rm v n, rm.wf a = true → P v n →
      (f rm v).wf o a = true ∧ ∃ reg, (encode (f rm v)).length = (encodeRM reg rm).length + n + k) :
    Gives (do let x ← operand a m; let v ← p; pure (f x v)) (Fits o a (k + 1)) :=
  gives_bind (gives_operand a m) fun rm _ ⟨operand, first⟩ => gives_map after fun v n second => by
    obtain ⟨wf, reg, length⟩ := fits rm v n operand second
    rw [length_encodeRM, ← first] at length
    exact ⟨wf, by omega⟩

theorem gives_rm {m : ModRM} {f : RM → Instr}
    (fits : ∀ rm, rm.wf a = true → (f rm).wf o a = true ∧ ∃ reg, (encode (f rm)).length = (encodeRM reg rm).length + k) :
    Gives (do let x ← operand a m; pure (f x)) (Fits o a (k + 1)) :=
  gives_map (gives_operand a m) fun rm _ ⟨operand, first⟩ => by
    obtain ⟨wf, reg, length⟩ := fits rm operand
    rw [length_encodeRM, ← first] at length
    exact ⟨wf, by omega⟩

theorem gives_rmByte {m : ModRM} {f : RM → Byte → Instr}
    (fits : ∀ rm v, rm.wf a = true → (f rm v).wf o a = true ∧
      ∃ reg, (encode (f rm v)).length = (encodeRM reg rm ++ [v]).length + k) :
    Gives (do let x ← operand a m; let v ← nextByte; pure (f x v)) (Fits o a (k + 1)) :=
  gives_afterRM gives_nextByte fun rm v n operand one => by
    obtain ⟨wf, reg, length⟩ := fits rm v operand
    rw [List.length_append] at length
    exact ⟨wf, reg, one ▸ length⟩

theorem gives_rmSized {m : ModRM} {f : RM → Sized → Instr}
    (fits : ∀ rm v, rm.wf a = true → v.has o = true → (f rm v).wf o a = true ∧
      ∃ reg, (encode (f rm v)).length = (encodeRM reg rm ++ encodeSized v).length + k) :
    Gives (do let x ← operand a m; let v ← nextSized o; pure (f x v)) (Fits o a (k + 1)) :=
  gives_afterRM (gives_nextSized o) fun rm v n operand ⟨has, last⟩ => by
    obtain ⟨wf, reg, length⟩ := fits rm v operand has
    rw [List.length_append] at length
    exact ⟨wf, reg, last ▸ length⟩

theorem gives_segReg (n : BitVec 3) : Gives (segReg n) fun _ j => j = 0 := by
  unfold segReg
  split
  · exact gives_pure rfl
  · exact gives_invalid

theorem gives_segRegNotCs (n : BitVec 3) : Gives (segRegNotCs n) fun sr j => sr ≠ .cs ∧ j = 0 := by
  refine gives_bind (gives_segReg n) fun sr j zero => ?_
  by_cases cs : sr = .cs
  · rw [if_pos cs]
    exact gives_invalid
  · rw [if_neg cs]
    exact gives_pure ⟨cs, zero⟩

theorem gives_rmSeg {m : ModRM} {f : RM → SReg → Instr}
    (fits : ∀ rm sr, rm.wf a = true → (f rm sr).wf o a = true ∧
      ∃ reg, (encode (f rm sr)).length = (encodeRM reg rm).length + k) :
    Gives (do let x ← operand a m; let sr ← segReg m.reg; pure (f x sr)) (Fits o a (k + 1)) :=
  gives_afterRM (gives_segReg m.reg) fun rm sr n operand zero => by
    obtain ⟨wf, reg, length⟩ := fits rm sr operand
    exact ⟨wf, reg, zero ▸ length⟩

theorem gives_rmSegNotCs {m : ModRM} {f : RM → SReg → Instr}
    (fits : ∀ rm sr, sr ≠ .cs → rm.wf a = true → (f rm sr).wf o a = true ∧
      ∃ reg, (encode (f rm sr)).length = (encodeRM reg rm).length + k) :
    Gives (do let x ← operand a m; let sr ← segRegNotCs m.reg; pure (f x sr)) (Fits o a (k + 1)) :=
  gives_afterRM (gives_segRegNotCs m.reg) fun rm sr n operand ⟨code, zero⟩ => by
    obtain ⟨wf, reg, length⟩ := fits rm sr code operand
    exact ⟨wf, reg, zero ▸ length⟩

theorem gives_mem {m : ModRM} {f : EA → Instr}
    (fits : ∀ e, e.wf a = true → (f e).wf o a = true ∧
      ∃ reg, (encode (f e)).length = (encodeRM reg (.mem e)).length + k) :
    Gives (do let x ← memOperand a m; pure (f x)) (Fits o a (k + 1)) :=
  gives_map (gives_memOperand a m) fun e _ ⟨operand, first⟩ => by
    obtain ⟨wf, reg, length⟩ := fits e operand
    rw [length_encodeRM, ← first] at length
    exact ⟨wf, by omega⟩

end

section
variable {o a : Size}

theorem gives_group80 (m : ModRM) : Gives (group80 a m) (Fits o a 2) := by
  unfold group80
  split
  case h_1 | h_2 | h_3 | h_4 | h_5 | h_6 | h_7 | h_8 => exact gives_rmByte fun rm v wf => ⟨wf, _, rfl⟩

theorem gives_group81 (m : ModRM) : Gives (group81 o a m) (Fits o a 2) := by
  unfold group81
  split
  case h_1 | h_2 | h_3 | h_4 | h_5 | h_6 | h_7 | h_8 =>
    exact gives_rmSized fun rm v wf has => ⟨and_true_intro wf has, _, rfl⟩

theorem gives_group83 (m : ModRM) : Gives (group83 a m) (Fits o a 2) := by
  unfold group83
  split
  case h_1 | h_2 | h_3 | h_4 | h_5 | h_6 | h_7 | h_8 => exact gives_rmByte fun rm v wf => ⟨wf, _, rfl⟩

theorem gives_group8F (m : ModRM) : Gives (group8F a m) (Fits o a 2) := by
  unfold group8F
  split
  case h_1 => exact gives_mem fun e wf => ⟨wf, _, rfl⟩
  case h_2 => exact gives_invalid

theorem gives_groupC0 (m : ModRM) : Gives (groupC0 a m) (Fits o a 2) := by
  unfold groupC0
  split
  case h_1 | h_2 | h_3 | h_4 | h_5 | h_6 | h_7 => exact gives_rmByte fun rm v wf => ⟨wf, _, rfl⟩
  case h_8 => exact gives_invalid

theorem gives_groupC1 (m : ModRM) : Gives (groupC1 a m) (Fits o a 2) := by
  unfold groupC1
  split
  case h_1 | h_2 | h_3 | h_4 | h_5 | h_6 | h_7 => exact gives_rmByte fun rm v wf => ⟨wf, _, rfl⟩
  case h_8 => exact gives_invalid

theorem gives_groupC6 (m : ModRM) : Gives (groupC6 a m) (Fits o a 2) := by
  unfold groupC6
  split
  case h_1 => exact gives_rmByte fun rm v wf => ⟨wf, _, rfl⟩
  case h_2 => exact gives_invalid

theorem gives_groupC7 (m : ModRM) : Gives (groupC7 o a m) (Fits o a 2) := by
  unfold groupC7
  split
  case h_1 => exact gives_rmSized fun rm v wf has => ⟨and_true_intro wf has, _, rfl⟩
  case h_2 => exact gives_invalid

theorem gives_groupD0 (m : ModRM) : Gives (groupD0 a m) (Fits o a 2) := by
  unfold groupD0
  split
  case h_1 | h_2 | h_3 | h_4 | h_5 | h_6 | h_7 => exact gives_rm fun rm wf => ⟨wf, _, rfl⟩
  case h_8 => exact gives_invalid

theorem gives_groupD1 (m : ModRM) : Gives (groupD1 a m) (Fits o a 2) := by
  unfold groupD1
  split
  case h_1 | h_2 | h_3 | h_4 | h_5 | h_6 | h_7 => exact gives_rm fun rm wf => ⟨wf, _, rfl⟩
  case h_8 => exact gives_invalid

theorem gives_groupD2 (m : ModRM) : Gives (groupD2 a m) (Fits o a 2) := by
  unfold groupD2
  split
  case h_1 | h_2 | h_3 | h_4 | h_5 | h_6 | h_7 => exact gives_rm fun rm wf => ⟨wf, _, rfl⟩
  case h_8 => exact gives_invalid

theorem gives_groupD3 (m : ModRM) : Gives (groupD3 a m) (Fits o a 2) := by
  unfold groupD3
  split
  case h_1 | h_2 | h_3 | h_4 | h_5 | h_6 | h_7 => exact gives_rm fun rm wf => ⟨wf, _, rfl⟩
  case h_8 => exact gives_invalid

theorem gives_groupF6 (m : ModRM) : Gives (groupF6 a m) (Fits o a 2) := by
  unfold groupF6
  split
  case h_1 => exact gives_rmByte fun rm v wf => ⟨wf, _, rfl⟩
  case h_2 | h_3 | h_4 | h_5 | h_6 | h_7 => exact gives_rm fun rm wf => ⟨wf, _, rfl⟩
  case h_8 => exact gives_invalid

theorem gives_groupF7 (m : ModRM) : Gives (groupF7 o a m) (Fits o a 2) := by
  unfold groupF7
  split
  case h_1 => exact gives_rmSized fun rm v wf has => ⟨and_true_intro wf has, _, rfl⟩
  case h_2 | h_3 | h_4 | h_5 | h_6 | h_7 => exact gives_rm fun rm wf => ⟨wf, _, rfl⟩
  case h_8 => exact gives_invalid

theorem gives_groupFE (m : ModRM) : Gives (groupFE a m) (Fits o a 2) := by
  unfold groupFE
  split
  case h_1 | h_2 => exact gives_rm fun rm wf => ⟨wf, _, rfl⟩
  case h_3 => exact gives_invalid

theorem gives_groupFF (m : ModRM) : Gives (groupFF a m) (Fits o a 2) := by
  unfold groupFF
  split
  case h_1 | h_2 | h_3 | h_5 | h_7 => exact gives_rm fun rm wf => ⟨wf, _, rfl⟩
  case h_4 | h_6 => exact gives_mem fun e wf => ⟨wf, _, rfl⟩
  case h_8 => exact gives_invalid

theorem gives_group0FBA (m : ModRM) : Gives (group0FBA a m) (Fits o a 3) := by
  unfold group0FBA
  split
  case h_1 | h_2 | h_3 | h_4 => exact gives_rmByte fun rm v wf => ⟨wf, _, rfl⟩
  case h_5 => exact gives_invalid

theorem gives_row0FA (b : Byte) : Gives (row0FA a b) (Fits o a 2) := by
  unfold row0FA
  split
  case h_1 | h_2 | h_6 | h_7 => exact gives_pure ⟨rfl, rfl⟩
  case h_3 | h_5 | h_8 | h_10 | h_11 => exact gives_modRM fun m => gives_rm fun rm wf => ⟨wf, _, rfl⟩
  case h_4 | h_9 => exact gives_modRM fun m => gives_rmByte fun rm v wf => ⟨wf, _, rfl⟩
  case h_12 => exact gives_invalid

theorem gives_row0FB (b : Byte) : Gives (row0FB a b) (Fits o a 2) := by
  unfold row0FB
  split
  case h_1 | h_3 | h_4 => exact gives_modRM fun m => gives_mem fun e wf => ⟨wf, _, rfl⟩
  case h_2 | h_5 | h_6 | h_8 | h_9 | h_10 | h_11 | h_12 =>
    exact gives_modRM fun m => gives_rm fun rm wf => ⟨wf, _, rfl⟩
  case h_7 => exact gives_modRM fun m => gives_group0FBA m
  case h_13 => exact gives_invalid

theorem gives_row0F8 (b : Byte) : Gives (row0F8 o b) (Fits o a 2) :=
  gives_sized fun _ has => ⟨has, rfl⟩

theorem gives_row0F9 (b : Byte) : Gives (row0F9 a b) (Fits o a 2) :=
  gives_modRM fun _ => gives_rm fun _ wf => ⟨wf, _, rfl⟩

theorem gives_decodeTwoByte (b : Byte) : Gives (decodeTwoByte o a b) (Fits o a 2) := by
  unfold decodeTwoByte
  split
  case h_1 => exact gives_row0F8 b
  case h_2 => exact gives_row0F9 b
  case h_3 => exact gives_row0FA b
  case h_4 => exact gives_row0FB b
  case h_5 => exact gives_invalid

theorem gives_row0 (b : Byte) : Gives (row0 o a b) (Fits o a 1) := by
  unfold row0
  split
  case h_1 | h_2 | h_3 | h_4 | h_9 | h_10 | h_11 | h_12 =>
    exact gives_modRM fun m => gives_rm fun rm wf => ⟨wf, _, rfl⟩
  case h_5 | h_13 => exact gives_byte fun v => ⟨rfl, rfl⟩
  case h_6 | h_14 => exact gives_sized fun v has => ⟨has, rfl⟩
  case h_7 | h_8 | h_15 => exact gives_pure ⟨rfl, rfl⟩
  case h_16 => exact gives_opcode gives_decodeTwoByte

theorem gives_row1 (b : Byte) : Gives (row1 o a b) (Fits o a 1) := by
  unfold row1
  split
  case h_1 | h_2 | h_3 | h_4 | h_9 | h_10 | h_11 | h_12 =>
    exact gives_modRM fun m => gives_rm fun rm wf => ⟨wf, _, rfl⟩
  case h_5 | h_13 => exact gives_byte fun v => ⟨rfl, rfl⟩
  case h_6 | h_14 => exact gives_sized fun v has => ⟨has, rfl⟩
  case h_7 | h_8 | h_15 | h_16 => exact gives_pure ⟨rfl, rfl⟩

theorem gives_row2 (b : Byte) : Gives (row2 o a b) (Fits o a 1) := by
  unfold row2
  split
  case h_1 | h_2 | h_3 | h_4 | h_9 | h_10 | h_11 | h_12 =>
    exact gives_modRM fun m => gives_rm fun rm wf => ⟨wf, _, rfl⟩
  case h_5 | h_13 => exact gives_byte fun v => ⟨rfl, rfl⟩
  case h_6 | h_14 => exact gives_sized fun v has => ⟨has, rfl⟩
  case h_7 | h_8 | h_15 | h_16 => exact gives_pure ⟨rfl, rfl⟩

theorem gives_row3 (b : Byte) : Gives (row3 o a b) (Fits o a 1) := by
  unfold row3
  split
  case h_1 | h_2 | h_3 | h_4 | h_9 | h_10 | h_11 | h_12 =>
    exact gives_modRM fun m => gives_rm fun rm wf => ⟨wf, _, rfl⟩
  case h_5 | h_13 => exact gives_byte fun v => ⟨rfl, rfl⟩
  case h_6 | h_14 => exact gives_sized fun v has => ⟨has, rfl⟩
  case h_7 | h_8 | h_15 | h_16 => exact gives_pure ⟨rfl, rfl⟩

theorem gives_row4 (b : Byte) : Gives (row4 b) (Fits o a 1) := by
  unfold row4
  split
  case h_1 | h_2 | h_3 | h_4 | h_5 | h_6 | h_7 | h_8 | h_9 => exact gives_pure ⟨rfl, rfl⟩

theorem gives_row5 (b : Byte) : Gives (row5 b) (Fits o a 1) := by
  unfold row5
  split
  case h_1 | h_2 | h_3 | h_4 | h_5 | h_6 | h_7 | h_8 | h_9 => exact gives_pure ⟨rfl, rfl⟩

theorem gives_row6 (b : Byte) : Gives (row6 o a b) (Fits o a 1) := by
  unfold row6
  split
  case h_1 | h_2 | h_4 | h_5 | h_6 | h_7 | h_12 | h_13 | h_14 | h_15 => exact gives_pure ⟨rfl, rfl⟩
  case h_3 => exact gives_modRM fun m => gives_mem fun e wf => ⟨wf, _, rfl⟩
  case h_8 => exact gives_sized fun v has => ⟨has, rfl⟩
  case h_9 => exact gives_modRM fun m => gives_rmSized fun rm v wf has => ⟨and_true_intro wf has, _, rfl⟩
  case h_10 => exact gives_byte fun v => ⟨rfl, rfl⟩
  case h_11 => exact gives_modRM fun m => gives_rmByte fun rm v wf => ⟨wf, _, rfl⟩
  case h_16 => exact gives_invalid

theorem gives_row8 (b : Byte) : Gives (row8 o a b) (Fits o a 1) := by
  unfold row8
  split
  case h_1 => exact gives_modRM fun m => gives_group80 m
  case h_2 => exact gives_modRM fun m => gives_group81 m
  case h_3 => exact gives_modRM fun m => gives_group83 m
  case h_4 | h_5 | h_6 | h_7 | h_8 | h_9 | h_10 | h_11 =>
    exact gives_modRM fun m => gives_rm fun rm wf => ⟨wf, _, rfl⟩
  case h_12 => exact gives_modRM fun m => gives_rmSeg fun rm sr wf => ⟨wf, _, rfl⟩
  case h_13 => exact gives_modRM fun m => gives_mem fun e wf => ⟨wf, _, rfl⟩
  case h_14 =>
    exact gives_modRM fun m => gives_rmSegNotCs fun rm sr code wf => ⟨and_true_intro (bne_iff_ne.mpr code) wf, _, rfl⟩
  case h_15 => exact gives_modRM fun m => gives_group8F m
  case h_16 => exact gives_invalid

theorem gives_row9 (b : Byte) : Gives (row9 o b) (Fits o a 1) := by
  unfold row9
  split
  case h_1 | h_9 | h_10 | h_12 | h_13 | h_14 | h_15 | h_16 => exact gives_pure ⟨rfl, rfl⟩
  case h_2 low | h_3 low | h_4 low | h_5 low | h_6 low | h_7 low | h_8 low =>
    exact gives_pure ⟨bne_iff_ne.mpr (regOf_ne_eax (by omega)), rfl⟩
  case h_11 => exact gives_sizedWord fun v u has => ⟨has, rfl⟩

theorem gives_rowA (b : Byte) : Gives (rowA o a b) (Fits o a 1) := by
  unfold rowA
  split
  case h_1 | h_2 | h_3 | h_4 | h_10 => exact gives_sized fun v has => ⟨has, rfl⟩
  case h_5 | h_6 | h_7 | h_8 | h_11 | h_12 | h_13 | h_14 | h_15 | h_16 => exact gives_pure ⟨rfl, rfl⟩
  case h_9 => exact gives_byte fun v => ⟨rfl, rfl⟩

theorem gives_rowB (b : Byte) : Gives (rowB o b) (Fits o a 1) := by
  unfold rowB
  split
  case h_1 | h_2 | h_3 | h_4 | h_5 | h_6 | h_7 | h_8 => exact gives_byte fun v => ⟨rfl, rfl⟩
  case h_9 => exact gives_sized fun v has => ⟨has, rfl⟩

theorem gives_rowC (b : Byte) : Gives (rowC o a b) (Fits o a 1) := by
  unfold rowC
  split
  case h_1 => exact gives_modRM fun m => gives_groupC0 m
  case h_2 => exact gives_modRM fun m => gives_groupC1 m
  case h_3 | h_11 => exact gives_word fun v => ⟨rfl, rfl⟩
  case h_4 | h_10 | h_12 | h_13 | h_15 | h_16 => exact gives_pure ⟨rfl, rfl⟩
  case h_5 | h_6 => exact gives_modRM fun m => gives_mem fun e wf => ⟨wf, _, rfl⟩
  case h_7 => exact gives_modRM fun m => gives_groupC6 m
  case h_8 => exact gives_modRM fun m => gives_groupC7 m
  case h_9 => exact gives_wordByte fun v u => ⟨rfl, rfl⟩
  case h_14 => exact gives_byte fun v => ⟨rfl, rfl⟩

theorem gives_rowD (b : Byte) : Gives (rowD a b) (Fits o a 1) := by
  unfold rowD
  split
  case h_1 => exact gives_modRM fun m => gives_groupD0 m
  case h_2 => exact gives_modRM fun m => gives_groupD1 m
  case h_3 => exact gives_modRM fun m => gives_groupD2 m
  case h_4 => exact gives_modRM fun m => gives_groupD3 m
  case h_5 | h_6 => exact gives_byte fun v => ⟨rfl, rfl⟩
  case h_7 => exact gives_pure ⟨rfl, rfl⟩
  case h_8 | h_9 | h_10 | h_11 | h_12 | h_13 | h_14 | h_15 =>
    exact gives_modRM fun m => gives_rm fun rm wf => ⟨wf, _, rfl⟩
  case h_16 => exact gives_invalid

theorem gives_rowE (b : Byte) : Gives (rowE o b) (Fits o a 1) := by
  unfold rowE
  split
  case h_1 | h_2 | h_3 | h_4 | h_5 | h_6 | h_7 | h_8 | h_12 => exact gives_byte fun v => ⟨rfl, rfl⟩
  case h_9 | h_10 => exact gives_sized fun v has => ⟨has, rfl⟩
  case h_11 => exact gives_sizedWord fun v u has => ⟨has, rfl⟩
  case h_13 | h_14 | h_15 | h_16 => exact gives_pure ⟨rfl, rfl⟩

theorem gives_rowF (b : Byte) : Gives (rowF o a b) (Fits o a 1) := by
  unfold rowF
  split
  case h_1 | h_2 | h_3 | h_4 | h_5 | h_8 | h_9 | h_10 | h_11 | h_12 | h_13 => exact gives_pure ⟨rfl, rfl⟩
  case h_6 => exact gives_modRM fun m => gives_groupF6 m
  case h_7 => exact gives_modRM fun m => gives_groupF7 m
  case h_14 => exact gives_modRM fun m => gives_groupFE m
  case h_15 => exact gives_modRM fun m => gives_groupFF m
  case h_16 => exact gives_invalid

theorem gives_row7 (b : Byte) : Gives (row7 b) (Fits o a 1) :=
  gives_byte fun _ => ⟨rfl, rfl⟩

theorem gives_decodeOneByte (b : Byte) : Gives (decodeOneByte o a b) (Fits o a 1) := by
  unfold decodeOneByte
  split
  case h_1 => exact gives_row0 b
  case h_2 => exact gives_row1 b
  case h_3 => exact gives_row2 b
  case h_4 => exact gives_row3 b
  case h_5 => exact gives_row4 b
  case h_6 => exact gives_row5 b
  case h_7 => exact gives_row6 b
  case h_8 => exact gives_row7 b
  case h_9 => exact gives_row8 b
  case h_10 => exact gives_row9 b
  case h_11 => exact gives_rowA b
  case h_12 => exact gives_rowB b
  case h_13 => exact gives_rowC b
  case h_14 => exact gives_rowD b
  case h_15 => exact gives_rowE b
  case h_16 => exact gives_rowF b

end

/-- What one item's reader gives: a well-formed item as long as the bytes it took. -/
theorem gives_decodeItem (o a : Size) :
    Gives (decodeItem o a) fun i n => i.wf o a = true ∧ (encode i).length = n :=
  gives_bind gives_nextByte fun b n one bs i rest run => by
    obtain ⟨k, taken, wf, length⟩ := gives_decodeOneByte b bs i rest run
    exact ⟨k, taken, wf, by omega⟩

end Sys2Proof

namespace Sys2Proof.Machine

/-- Settles O2: every row gives a well-formed item, as long as the bytes it took. -/
theorem decodedWellFormed : Obligations.DecodedWellFormed := by
  unfold Obligations.DecodedWellFormed
  intro o a bs rest i run
  obtain ⟨n, taken, wf, length⟩ := gives_decodeItem o a bs i rest run
  exact ⟨wf, length.symm ▸ taken⟩

end Sys2Proof.Machine
end

