-- ==== Sys2Proof/Proofs/SoundActions.lean ====
section
/-! SUPPORT. Canonical memory, an aligned CR3, the TLB's geometry and marks within the address space: every action of
every instruction keeps them (R47, R62, R100, R129). -/

namespace Sys2Proof.Machine

open Sys2Proof.Safety Sys2Proof.Claims

/-- What the invariant says while an instruction runs, of the parts of the state it is about. -/
structure SoundParts (mem : List Host.Cell) (cr3 : Word32) (tlb : List TlbEntry) (marks : List Host.Cell) : Prop where
  mem : Memory.wf mem = true
  cr3 : cr3 &&& 0xFFF = 0
  tlb : TlbWf tlb
  marks : ∀ c ∈ marks, c.1 < 2 ^ 32

/-- The invariant of the states within a step. -/
def Sound (s : State) : Prop := SoundParts s.mem s.cr3 s.tlb s.adMarks

/-! The TLB (R62). -/

theorem tlbKeep_sublist (row : BitVec 3) : ∀ (n : Nat) (t : List TlbEntry), (tlbKeep row n t).Sublist t
  | _, [] => by simp [tlbKeep]
  | 0, e :: t => by
    unfold tlbKeep
    split
    · exact (tlbKeep_sublist row 0 t).cons e
    · exact (tlbKeep_sublist row 0 t).cons_cons e
  | n + 1, e :: t => by
    unfold tlbKeep
    split
    · exact (tlbKeep_sublist row n t).cons_cons e
    · exact (tlbKeep_sublist row (n + 1) t).cons_cons e

/-- Of the row only so many entries are kept. -/
theorem tlbKeep_row (row : BitVec 3) : ∀ (n : Nat) (t : List TlbEntry),
    ((tlbKeep row n t).filter fun e => e.row == row).length ≤ n
  | n, [] => by simp [tlbKeep]
  | 0, e :: t => by
    have rest := tlbKeep_row row 0 t
    unfold tlbKeep
    split
    · exact rest
    · next other => rwa [List.filter_cons_of_neg (by simpa using other)]
  | n + 1, e :: t => by
    unfold tlbKeep
    split
    · next same =>
      rw [List.filter_cons_of_pos (by simpa using same)]
      exact Nat.succ_le_succ (tlbKeep_row row n t)
    · next other =>
      rw [List.filter_cons_of_neg (by simpa using other)]
      exact tlbKeep_row row (n + 1) t

theorem tlbOthers_sublist (t : List TlbEntry) (e : TlbEntry) : (tlbOthers t e).Sublist t :=
  (tlbKeep_sublist _ _ _).trans List.filter_sublist

/-- Using an entry keeps four entries of a row and one of a page (R62; log entry 6). -/
theorem tlbWf_tlbUse {t : List TlbEntry} (wf : TlbWf t) (e : TlbEntry) : TlbWf (tlbUse t e) := by
  rw [tlbUse_eq]
  refine ⟨fun row => ?_, ?_⟩
  · by_cases same : e.row = row
    · subst same
      rw [List.filter_cons_of_pos (by simp)]
      exact Nat.succ_le_succ (tlbKeep_row e.row 3 _)
    · rw [List.filter_cons_of_neg (by simpa using same)]
      exact ((tlbOthers_sublist t e).filter _).length_le.trans (wf.1 row)
  · rw [List.map_cons, List.nodup_cons]
    refine ⟨fun found => ?_, wf.2.sublist ((tlbOthers_sublist t e).map _)⟩
    obtain ⟨x, others, page⟩ := List.mem_map.mp found
    exact (mem_tlbOthers others).2 page

theorem pageWalk_tlb {s : State} {kind : Access} {user : Bool} {lin : Word32} {p : PageHit}
    (h : pageWalk s kind user lin = .ok p) : ∃ e, p.tlb = tlbUse s.tlb e := by
  unfold pageWalk at h
  dsimp only at h
  split at h
  · split at h
    · split at h <;> cases h
      exact ⟨_, rfl⟩
    · cases h
  · cases h

/-- A translation leaves the TLB or uses one entry of it (R62, R128). -/
theorem pageLookup_tlb {s : State} {kind : Access} {user : Bool} {lin : Word32} {p : PageHit}
    (h : pageLookup s kind user lin = .ok p) : p.tlb = s.tlb ∨ ∃ e, p.tlb = tlbUse s.tlb e := by
  unfold pageLookup at h
  split at h
  · split at h
    · split at h
      · exact .inr (pageWalk_tlb h)
      · split at h <;> cases h
        exact .inr ⟨_, rfl⟩
    · exact .inr (pageWalk_tlb h)
  · cases h
    exact .inl rfl

theorem sound_apply {s : State} {p : PageHit} {kind : Access} {user : Bool} {lin : Word32} (h : Sound s)
    (found : pageLookup s kind user lin = .ok p) : Sound (p.apply s) where
  mem := wf_foldl_orByte _ _ (fun c hc => (pageLookup_marks found c hc).1) h.mem
  cr3 := h.cr3
  tlb := by
    change TlbWf p.tlb
    rcases pageLookup_tlb found with same | ⟨e, used⟩
    · exact same ▸ h.tlb
    · exact used ▸ tlbWf_tlbUse h.tlb e
  marks c hc := by
    rcases List.mem_append.mp hc with new | old
    · exact (pageLookup_marks found c new).1
    · exact h.marks c old

/-! The accesses of the processor and the loads of segment registers. -/

theorem sound_closed : LoadClosed Sound where
  page kind user lin s h := by
    cases found : pageLookup s kind user lin with
    | error e =>
      rw [page_run_error found]
      exact h
    | ok p =>
      rw [page_run_ok found]
      exact sound_apply h found
  mem s ps bs h := { h with mem := wf_writePhys ps bs s.mem h.mem }
  seg _ _ _ h := h
  ldtr _ _ h := h

theorem sound_setMem {s : State} (h : Sound s) (ps : List Word32) (bs : List Byte) :
    Sound (s.setMem (writePhys s.mem ps bs)) :=
  sound_closed.mem s ps bs h

theorem sound_withCr3 {s : State} (h : Sound s) (v : Word32) : Sound (s.withCr3 v) where
  mem := h.mem
  cr3 := by
    change v &&& 0xFFFFF000 &&& 0xFFF = 0
    rw [BitVec.and_assoc]
    exact BitVec.and_zero
  tlb := ⟨fun _ => by simp [State.withCr3], List.nodup_nil⟩
  marks := h.marks

/-! Operands and the stack. -/

theorem sound_translate (kind : Access) (sr : SReg) (off : Word32) (n : Nat) :
    Keeps Sound (translate kind sr off n) := by
  unfold translate
  refine keeps_bind keeps_get fun s => ?_
  split
  · exact keeps_raise _
  · exact keeps_bind (sound_closed.pages _ _ _ _) fun _ =>
      keeps_bind (keeps_modify fun _ h => h) fun _ => keeps_pure _

theorem sound_memRead (w : Width) (sr : SReg) (off : Word32) : Keeps Sound (memRead w sr off) :=
  keeps_bind (sound_translate _ _ _ _) fun _ => keeps_bind (keeps_loadBytes_any _) fun _ => keeps_pure _

theorem sound_memWrite (w : Width) (sr : SReg) (off : Word32) (v : BitVec w.bits) : Keeps Sound (memWrite w sr off v) :=
  keeps_bind (sound_translate _ _ _ _) fun _ => sound_closed.storeBytes _ _

theorem sound_locate (w : Width) (kind : Access) (m : RM) : Keeps Sound (locate w kind m) := by
  cases m with
  | reg r => exact keeps_pure _
  | mem e =>
    exact keeps_bind (keeps_bind keeps_get fun _ => sound_translate _ _ _ _) fun _ => keeps_pure _

theorem sound_readLoc (w : Width) (l : Loc) : Keeps Sound (readLoc w l) := fun _ h => h

theorem sound_writeLoc (w : Width) (l : Loc) (v : BitVec w.bits) : Keeps Sound (writeLoc w l v) := by
  intro s h
  cases l with
  | reg r => exact h
  | mem ps => exact sound_setMem h ps _

theorem sound_readRM (w : Width) (m : RM) : Keeps Sound (readRM w m) :=
  keeps_bind (sound_locate _ _ _) fun _ => sound_readLoc _ _

theorem sound_writeRM (w : Width) (m : RM) (v : BitVec w.bits) : Keeps Sound (writeRM w m v) :=
  keeps_bind (sound_locate _ _ _) fun _ => sound_writeLoc _ _ _

theorem sound_readEA (w : Width) (m : EA) (delta : Word32) : Keeps Sound (readEA w m delta) :=
  keeps_bind keeps_get fun _ => sound_memRead _ _ _

theorem sound_push (w : Width) (v : BitVec w.bits) : Keeps Sound (push w v) :=
  keeps_bind keeps_get fun _ => keeps_ite (keeps_throw _) (keeps_bind (sound_memWrite _ _ _ _) fun _ _ h => h)

theorem sound_pop (w : Width) : Keeps Sound (pop w) :=
  keeps_bind keeps_get fun _ => keeps_bind (sound_memRead _ _ _) fun _ _ h => h

theorem sound_pushSelector (z : Size) (sel : Word16) : Keeps Sound (pushSelector z sel) := by
  refine keeps_bind ?_ fun _ => sound_push _ _
  cases z <;> exact fun _ h => h

theorem sound_pushReturn (z : Size) (cs : Word16) (ret : Word32) : Keeps Sound (pushReturn z cs ret) :=
  keeps_bind (sound_pushSelector _ _) fun _ => sound_push _ _

theorem sound_pushAll (w : Width) : ∀ vs : List (BitVec w.bits), Keeps Sound (pushAll w vs)
  | [] => keeps_pure _
  | v :: vs => keeps_bind (sound_push w v) fun _ => sound_pushAll w vs

theorem sound_readParams (w : Width) : ∀ (n : Nat) (sp : Word32), Keeps Sound (readParams w sp n)
  | 0, _ => keeps_pure _
  | n + 1, _ => keeps_bind keeps_get fun _ => keeps_bind (sound_memRead _ _ _) fun _ =>
      keeps_bind (sound_readParams w n _) fun _ => keeps_pure _

/-! Ports. -/

theorem sound_ioBitsClear (base : Word32) (limit map : Nat) : ∀ n port,
    Keeps Sound (ioBitsClear base limit map port n)
  | 0, _ => keeps_pure _
  | n + 1, _ => keeps_ite (keeps_pure _) (keeps_bind (sound_closed.sysRead _ _) fun _ =>
      keeps_bind (sound_ioBitsClear base limit map n _) fun _ => keeps_pure _)

theorem sound_ioCheck (port : Word16) (n : Nat) : Keeps Sound (ioCheck port n) := by
  refine keeps_bind keeps_get fun s => ?_
  split
  · exact keeps_pure _
  · exact keeps_require _ _
  · exact keeps_bind (keeps_bind keeps_get fun _ => keeps_ite (keeps_pure _)
      (keeps_bind (sound_closed.sysRead16 _) fun _ => sound_ioBitsClear _ _ _ _ _)) fun _ => keeps_require _ _

theorem sound_portIn (w : Width) (port : Word16) : Keeps Sound (portIn w port) := fun _ h => h

theorem sound_ioWrite (w : Width) (port : Word16) (v : BitVec w.bits) : Keeps Sound (ioWrite w port v) :=
  keeps_bind (sound_ioCheck _ _) fun _ _ h => h

/-! Segment registers in every mode. -/

theorem sound_loadSeg (sr : SReg) (sel : Word16) : Keeps Sound (loadSeg sr sel) := by
  refine keeps_bind keeps_get fun s => ?_
  split
  · exact keeps_ite (sound_closed.loadStackSeg _ _ _ _ _) (sound_closed.loadDataSeg _ _ _ _ _)
  · exact sound_closed.loadSegReal _ _

theorem sound_loadCodeSeg (d : Desc) (sel : Word16) (cpl : BitVec 2) : Keeps Sound (loadCodeSeg d sel cpl) :=
  keeps_bind (sound_closed.markAccessed _) fun _ _ h => h

/-! Task switches (R596). -/

theorem sound_inNewTask {α : Type} {m : M α} (h : Keeps Sound m) : Keeps Sound (inNewTask m) := by
  intro s hs
  have here := h s hs
  unfold inNewTask
  split
  · next e s' run => rwa [run] at here
  · exact here

theorem sound_loadTaskCr3 (base : Word32) : Keeps Sound (loadTaskCr3 base) :=
  keeps_bind keeps_get fun _ => keeps_ite (keeps_bind (sound_closed.sysRead32 _) fun v =>
    keeps_modify fun _ h => sound_withCr3 h v) (keeps_pure _)

theorem sound_noteTaskTrap (base : Word32) : Keeps Sound (noteTaskTrap base) :=
  keeps_bind (sound_closed.sysRead16 _) fun _ => keeps_ite (keeps_modify fun _ h => h) (keeps_pure _)

theorem sound_taskSwitch (cause : TaskCause) (direct : Bool) (sel : Word16) (ret img : Word32) (ext : Word16) :
    Keeps Sound (taskSwitch cause direct sel ret img ext) :=
  keeps_bind (sound_closed.checkTask _ _ _ _) fun _ => keeps_bind keeps_get fun _ =>
    keeps_bind (sound_closed.saveTss _ _) fun _ => keeps_bind (keeps_onlyIf (sound_closed.setBusy _ _)) fun _ =>
      keeps_bind (keeps_onlyIf (sound_closed.sysWrite _ _)) fun _ =>
        keeps_bind (keeps_onlyIf (sound_closed.setBusy _ _)) fun _ => keeps_bind (keeps_modify fun _ h => h) fun _ =>
          keeps_bind (sound_loadTaskCr3 _) fun _ => keeps_bind (sound_closed.readTss _) fun _ =>
            keeps_bind (keeps_modify fun _ h => h) fun _ => sound_inNewTask
              (keeps_bind (sound_closed.loadTaskSegs _ _) fun _ => sound_noteTaskTrap _)

theorem sound_taskTransfer (cause : TaskCause) (sel : Word16) (d : Desc) (ret : Word32) :
    Keeps Sound (taskTransfer cause sel d ret) :=
  keeps_bind keeps_get fun _ => keeps_ite (keeps_bind (keeps_require _ _) fun _ =>
    keeps_bind (keeps_require _ _) fun _ => sound_taskSwitch _ _ _ _ _ _) (sound_taskSwitch _ _ _ _ _ _)

/-! Near and far transfers (R470, R490). -/

theorem sound_nearTarget (t : Word32) : Keeps Sound (nearTarget t) := by
  refine keeps_bind keeps_get fun s => ?_
  dsimp only
  split
  · exact keeps_bind (keeps_require _ _) fun _ => keeps_pure _
  · exact keeps_bind (keeps_require _ _) fun _ => keeps_pure _

theorem sound_nearJump (t : Word32) : Keeps Sound (nearJump t) := keeps_bind (sound_nearTarget _) fun _ _ h => h

theorem sound_jumpRel (disp : Word32) : Keeps Sound (jumpRel disp) :=
  keeps_bind (fun _ h => h) fun _ => sound_nearJump _

theorem sound_farReal (sel : Word16) (off : Word32) : Keeps Sound (farReal sel off) :=
  keeps_bind keeps_get fun _ => keeps_bind (keeps_require _ _) fun _ _ h => h

theorem sound_innerStack (level : BitVec 2) (ext : Word16) : Keeps Sound (innerStack level ext) := by
  have stack : Keeps Sound (tssStack level ext) :=
    keeps_bind keeps_get fun _ => keeps_ite (keeps_raise _) (keeps_bind (sound_closed.sysRead16 _) fun _ =>
      keeps_bind (sound_closed.sysRead32 _) fun _ => keeps_pure _)
  exact keeps_bind stack fun _ => keeps_bind (keeps_require _ _) fun _ =>
    keeps_bind (sound_closed.readDescriptor _ _) fun _ => keeps_bind (keeps_require _ _) fun _ => keeps_pure _

theorem sound_gateFrame (z : Size) (count : Nat) (c : Desc) : Keeps Sound (gateFrame z count c) :=
  keeps_bind keeps_get fun _ => keeps_ite (keeps_bind (sound_innerStack _ _) fun _ =>
    keeps_bind (sound_readParams _ _ _) fun _ => keeps_bind (keeps_modify fun _ h => h) fun _ =>
      keeps_bind (sound_pushSelector _ _) fun _ => keeps_bind (sound_push _ _) fun _ =>
        keeps_bind (sound_pushAll _ _) fun _ => keeps_bind (sound_pushReturn _ _ _) fun _ =>
          sound_closed.markAccessed _) (sound_pushReturn _ _ _)

theorem sound_gateCall (call : Bool) (sel : Word16) (g : Desc) : Keeps Sound (gateCall call sel g) :=
  keeps_bind keeps_get fun _ => keeps_bind (keeps_require _ _) fun _ => keeps_bind (keeps_require _ _) fun _ =>
    keeps_bind (keeps_require _ _) fun _ => keeps_bind (sound_closed.readDescriptor _ _) fun _ =>
      keeps_bind (keeps_require _ _) fun _ => keeps_bind (keeps_require _ _) fun _ =>
        keeps_bind (keeps_require _ _) fun _ => keeps_bind (keeps_onlyIf (sound_gateFrame _ _ _)) fun _ =>
          keeps_bind (keeps_require _ _) fun _ => keeps_bind (sound_loadCodeSeg _ _ _) fun _ _ h => h

theorem sound_farProt (call : Bool) (sel : Word16) (off : Word32) : Keeps Sound (farProt call sel off) :=
  keeps_bind keeps_get fun _ => keeps_bind (keeps_require _ _) fun _ =>
    keeps_bind (sound_closed.readDescriptor _ _) fun _ => keeps_ite
      (keeps_bind (keeps_require _ _) fun _ => keeps_bind (keeps_require _ _) fun _ =>
        keeps_bind (keeps_require _ _) fun _ => keeps_bind (keeps_onlyIf (sound_pushReturn _ _ _)) fun _ =>
          keeps_bind (sound_loadCodeSeg _ _ _) fun _ _ h => h)
      (keeps_ite (sound_gateCall _ _ _) (keeps_ite (sound_taskTransfer _ _ _ _) (keeps_raise _)))

theorem sound_farJump (sel : Word16) (off : Word32) : Keeps Sound (farJump sel off) := by
  refine keeps_bind keeps_get fun s => ?_
  split
  · exact sound_farProt _ _ _
  · exact sound_farReal _ _

theorem sound_farCall (sel : Word16) (off : Word32) : Keeps Sound (farCall sel off) := by
  refine keeps_bind keeps_get fun s => ?_
  split
  · exact sound_farProt _ _ _
  · exact keeps_bind (sound_pushReturn _ _ _) fun _ => sound_farReal _ _

theorem sound_dropInaccessible (sr : SReg) (cpl : BitVec 2) : Keeps Sound (dropInaccessible sr cpl) :=
  keeps_bind keeps_get fun _ => keeps_ite (keeps_pure _) (sound_closed.putSeg _ _)

theorem sound_returnOuter (z : Size) (rpl : BitVec 2) (n : Word16) : Keeps Sound (returnOuter z rpl n) :=
  keeps_bind (sound_pop _) fun _ => keeps_bind (sound_pop _) fun _ =>
    keeps_bind (sound_closed.loadStackSeg _ _ _ _ _) fun _ => keeps_bind (keeps_modify fun _ h => h) fun _ =>
      keeps_bind (sound_dropInaccessible _ _) fun _ => keeps_bind (sound_dropInaccessible _ _) fun _ =>
        keeps_bind (sound_dropInaccessible _ _) fun _ => sound_dropInaccessible _ _

theorem sound_returnDescriptor (sel : Word16) : Keeps Sound (returnDescriptor sel) :=
  keeps_bind keeps_get fun _ => keeps_bind (keeps_require _ _) fun _ => keeps_bind (keeps_require _ _) fun _ =>
    keeps_bind (sound_closed.readDescriptor _ _) fun _ => keeps_bind (keeps_require _ _) fun _ =>
      keeps_bind (keeps_require _ _) fun _ => keeps_pure _

theorem sound_farReturn (n : Word16) : Keeps Sound (farReturn n) := by
  refine keeps_bind keeps_get fun s => ?_
  split
  · exact keeps_bind keeps_get fun _ => keeps_bind (sound_pop _) fun _ => keeps_bind (sound_pop _) fun _ =>
      keeps_bind (sound_returnDescriptor _) fun _ => keeps_bind (fun _ h => h) fun _ =>
        keeps_bind (keeps_onlyIf (sound_returnOuter _ _ _)) fun _ => keeps_bind (keeps_require _ _) fun _ =>
          keeps_bind (sound_loadCodeSeg _ _ _) fun _ _ h => h
  · exact keeps_bind keeps_get fun _ => keeps_bind (sound_pop _) fun _ => keeps_bind (sound_pop _) fun _ =>
      keeps_bind (keeps_require _ _) fun _ _ h => h

/-! Entry to a handler and the return from it (R495, R500, R570, R580). -/

theorem sound_enterReal (v : Byte) (kind : ExnKind) : Keeps Sound (enterReal v kind) :=
  keeps_bind keeps_get fun _ => keeps_bind (sound_push _ _) fun _ => keeps_bind (sound_push _ _) fun _ =>
    keeps_bind (sound_push _ _) fun _ => keeps_bind (keeps_modify fun _ h => h) fun _ =>
      keeps_bind (sound_closed.sysRead16 _) fun _ => keeps_bind (sound_closed.sysRead16 _) fun _ _ h => h

theorem sound_pushCode (z : Size) (code : Option Word16) : Keeps Sound (pushCode z code) := by
  cases code with
  | none => exact keeps_pure _
  | some c => exact sound_push _ _

theorem sound_leaveV86 (segs : SegRegs) : Keeps Sound (leaveV86 segs) :=
  keeps_bind (sound_push _ _) fun _ => keeps_bind (sound_push _ _) fun _ => keeps_bind (sound_push _ _) fun _ =>
    keeps_bind (sound_push _ _) fun _ _ h => h

theorem sound_frameStack (z : Size) (c : Desc) (ext : Word16) (bad : Exn) : Keeps Sound (frameStack z c ext bad) :=
  keeps_bind keeps_get fun _ => keeps_ite (keeps_bind (sound_innerStack _ _) fun _ =>
    keeps_bind (keeps_require _ _) fun _ => keeps_bind (keeps_modify fun _ h => h) fun _ =>
      keeps_bind (keeps_onlyIf (sound_leaveV86 _)) fun _ => keeps_bind (sound_pushSelector _ _) fun _ =>
        keeps_bind (sound_push _ _) fun _ => sound_closed.markAccessed _) (keeps_require _ _)

theorem sound_enterGate (kind : ExnKind) (code : Option Word16) (g : Desc) (ext : Word16) :
    Keeps Sound (enterGate kind code g ext) :=
  keeps_bind keeps_get fun _ => keeps_bind (keeps_require _ _) fun _ =>
    keeps_bind (sound_closed.readDescriptor _ _) fun _ => keeps_bind (keeps_require _ _) fun _ =>
      keeps_bind (keeps_require _ _) fun _ => keeps_bind (sound_frameStack _ _ _ _) fun _ =>
        keeps_bind (sound_push _ _) fun _ => keeps_bind (sound_pushReturn _ _ _) fun _ =>
          keeps_bind (sound_pushCode _ _) fun _ => keeps_bind (keeps_modify fun _ h => h) fun _ =>
            keeps_bind (keeps_require _ _) fun _ => keeps_bind (sound_loadCodeSeg _ _ _) fun _ _ h => h

theorem sound_interrupt (v : Byte) (kind : ExnKind) (code : Option Word16) : Keeps Sound (interrupt v kind code) := by
  refine keeps_bind keeps_get fun s => ?_
  split
  · exact keeps_bind keeps_get fun _ => keeps_ite (sound_enterReal _ _) (keeps_ite (sound_enterReal _ _)
      (keeps_throw _))
  · exact keeps_bind keeps_get fun _ => keeps_bind (keeps_require _ _) fun _ =>
      keeps_bind (sound_closed.readEntry _) fun _ => keeps_bind (keeps_require _ _) fun _ =>
        keeps_bind (keeps_require _ _) fun _ => keeps_bind (keeps_require _ _) fun _ => keeps_ite
          (keeps_bind (sound_taskSwitch _ _ _ _ _ _) fun _ => sound_inNewTask (sound_pushCode _ _))
          (sound_enterGate _ _ _ _)

theorem sound_iretReal : Keeps Sound iretReal :=
  keeps_bind keeps_get fun _ => keeps_bind (sound_pop _) fun _ => keeps_bind (sound_pop _) fun _ =>
    keeps_bind (sound_pop _) fun _ => keeps_bind (keeps_require _ _) fun _ _ h => h

theorem sound_iretToV86 (off : Word32) (sel : Word16) (f : Word32) : Keeps Sound (iretToV86 off sel f) :=
  keeps_bind (sound_pop _) fun _ => keeps_bind (sound_pop _) fun _ => keeps_bind (sound_pop _) fun _ =>
    keeps_bind (sound_pop _) fun _ => keeps_bind (sound_pop _) fun _ => keeps_bind (sound_pop _) fun _ _ h => h

theorem sound_iretProt : Keeps Sound iretProt :=
  keeps_bind keeps_get fun _ => keeps_bind (sound_pop _) fun _ => keeps_bind (sound_pop _) fun _ =>
    keeps_bind (sound_pop _) fun _ => keeps_ite (sound_iretToV86 _ _ _)
      (keeps_bind (sound_returnDescriptor _) fun _ => keeps_bind (fun _ h => h) fun _ =>
        keeps_bind (keeps_onlyIf (sound_returnOuter _ _ _)) fun _ => keeps_bind (keeps_require _ _) fun _ =>
          keeps_bind (sound_loadCodeSeg _ _ _) fun _ _ h => h)

theorem sound_iretTask : Keeps Sound iretTask :=
  keeps_bind keeps_get fun _ => keeps_bind (keeps_require _ _) fun _ => keeps_bind (sound_closed.sysRead16 _) fun _ =>
    sound_taskSwitch _ _ _ _ _ _

theorem sound_interruptReturn : Keeps Sound interruptReturn := by
  refine keeps_bind keeps_get fun s => ?_
  dsimp only
  split
  · exact keeps_bind sound_iretReal fun _ _ h => h
  · exact keeps_bind (keeps_require _ _) fun _ => keeps_bind sound_iretReal fun _ _ h => h
  · split
    · exact keeps_bind sound_iretTask fun _ _ h => h
    · exact keeps_bind sound_iretProt fun _ _ h => h

/-! The remaining instructions. An action that only computes leaves the parts of the state the invariant is about. -/

theorem ReadsFirst.sound {w : Width} {m : RM} {act : M Unit} (first : ReadsFirst w m act) : Keeps Sound act := by
  intro s h
  have here := sound_locate w .read m s h
  cases located : locate w .read m s with
  | ok l s1 =>
    rw [located] at here
    obtain ⟨g, f, n, -, run⟩ := first.ends located
    rw [run]
    exact here
  | error e u =>
    rw [located] at here
    rw [first.fails located]
    exact here

theorem sound_storeAt {s : State} (h : Sound s) (w : Width) (l : Loc) (v : BitVec w.bits) : Sound (s.storeAt w l v) :=
  sound_writeLoc w l v s h

theorem StoresFirst.sound {w : Width} {m : RM} {act : M Unit} (first : StoresFirst w m act) : Keeps Sound act := by
  intro s h
  have here := sound_locate w .write m s h
  cases located : locate w .write m s with
  | ok l s1 =>
    rw [located] at here
    obtain ⟨v, f, n, -, run⟩ := first.ends located
    rw [run]
    exact sound_storeAt here w l v
  | error e u =>
    rw [located] at here
    rw [first.fails located]
    exact here

theorem sound_aluRm (op : AluOp) (w : Width) (m : RM) (b : BitVec w.bits) : Keeps Sound (aluRm op w m b) := by
  by_cases cmp : op = .cmp
  · exact cmp ▸ (readsFirst_cmp w m b).sound
  · exact (storesFirst_aluRm cmp w m b).sound

theorem sound_aluReg (op : AluOp) (w : Width) (r : Reg) (b : BitVec w.bits) : Keeps Sound (aluReg op w r b) := by
  intro s h
  rw [aluReg_run]
  exact h

theorem sound_bitRm (op : BitOp) (w : Width) (m : RM) (i : Nat) : Keeps Sound (bitRm op w m i) := by
  by_cases bt : op = .bt
  · exact bt ▸ (readsFirst_bt w m i).sound
  · exact (storesFirst_bitRm bt w m i).sound

theorem sound_shiftRm (op : ShiftOp) (w : Width) (m : RM) (c : Nat) : Keeps Sound (shiftRm op w m c) := by
  by_cases zero : c = 0
  · exact zero ▸ keeps_pure _
  · exact (storesFirst_shiftRm op w m zero).sound

theorem sound_doubleShiftRm (left : Bool) (w : Width) (m : RM) (q : Reg) (c : Nat) :
    Keeps Sound (doubleShiftRm left w m q c) := by
  by_cases zero : c = 0
  · exact zero ▸ keeps_pure _
  · exact (storesFirst_doubleShiftRm left w m q zero).sound

theorem sound_convertAcc : Keeps Sound convertAcc := by
  refine keeps_bind keeps_get fun s => ?_
  split <;> exact fun _ h => h

theorem sound_asciiAfterMul (base : Byte) : Keeps Sound (asciiAfterMul base) :=
  keeps_bind keeps_get fun _ => keeps_bind (keeps_require _ _) fun _ _ h => h

theorem sound_requireIopl : Keeps Sound requireIopl := keeps_bind keeps_get fun _ => keeps_require _ _

theorem sound_requireIoplV86 : Keeps Sound requireIoplV86 := keeps_bind keeps_get fun _ => keeps_require _ _

theorem sound_setInterrupts : Keeps Sound setInterrupts :=
  keeps_bind sound_requireIopl fun _ => keeps_bind (fun _ h => h) fun _ =>
    keeps_ite (fun _ h => h) (keeps_bind (fun _ h => h) fun _ _ h => h)

theorem sound_waitCoprocessor : Keeps Sound waitCoprocessor :=
  keeps_bind keeps_get fun _ => keeps_bind (keeps_require _ _) fun _ =>
    keeps_ite (keeps_bind (keeps_require _ _) fun _ => keeps_throw _) (keeps_pure _)

theorem sound_xchgRegRm (w : Width) (r : Reg) (m : RM) : Keeps Sound (xchgRegRm w r m) :=
  keeps_bind (sound_locate _ _ _) fun _ => keeps_bind (sound_readLoc _ _) fun _ => keeps_bind (fun _ h => h) fun _ =>
    keeps_bind (sound_writeLoc _ _ _) fun _ _ h => h

/-! Segment loads, pushes and pops. -/

theorem sound_inhibitFor (sr : SReg) : Keeps Sound (if sr = .ss then setInhibit else pure ()) :=
  keeps_ite (fun _ h => h) (keeps_pure _)

theorem sound_movSregRm (sr : SReg) (m : RM) : Keeps Sound (movSregRm sr m) :=
  keeps_ite (keeps_raise _) (keeps_bind (sound_readRM _ _) fun _ => keeps_bind (sound_loadSeg _ _) fun _ =>
    sound_inhibitFor sr)

theorem sound_popSreg (sr : SReg) : Keeps Sound (popSreg sr) :=
  keeps_bind keeps_get fun _ => keeps_bind (sound_memRead _ _ _) fun _ => keeps_bind (sound_loadSeg _ _) fun _ =>
    keeps_bind (keeps_modify fun _ h => h) fun _ => sound_inhibitFor sr

theorem sound_loadFar (sr : SReg) (r : Reg) (m : EA) : Keeps Sound (loadFar sr r m) :=
  keeps_bind keeps_get fun _ => keeps_bind (sound_readEA _ _ _) fun _ => keeps_bind (sound_readEA _ _ _) fun _ =>
    keeps_bind (sound_loadSeg _ _) fun _ _ h => h

theorem sound_popReg (w : Width) (r : Reg) : Keeps Sound (popReg w r) :=
  keeps_bind (sound_pop _) fun _ _ h => h

theorem sound_allOrNothing {m : M Unit} (kept : Keeps Sound m) : Keeps Sound (allOrNothing m) := by
  intro s h
  have here := kept s h
  unfold allOrNothing
  split
  · exact h
  · exact here

theorem sound_pushAllRegs : Keeps Sound pushAllRegs :=
  keeps_bind keeps_get fun _ => keeps_ite (keeps_throw _) (keeps_ite (keeps_raise _)
    (sound_allOrNothing (sound_pushAll _ _)))

theorem sound_popAllRegs : Keeps Sound popAllRegs :=
  keeps_bind keeps_get fun _ => keeps_bind (sound_popReg _ _) fun _ => keeps_bind (sound_popReg _ _) fun _ =>
    keeps_bind (sound_popReg _ _) fun _ => keeps_bind (sound_pop _) fun _ => keeps_bind (sound_popReg _ _) fun _ =>
      keeps_bind (sound_popReg _ _) fun _ => keeps_bind (sound_popReg _ _) fun _ => sound_popReg _ _

/-! Strings (R430 to R440). -/

theorem sound_readSource (w : Width) : Keeps Sound (readSource w) :=
  keeps_bind keeps_get fun _ => keeps_bind (fun _ h => h) fun _ => sound_memRead _ _ _

theorem sound_readDest (w : Width) : Keeps Sound (readDest w) :=
  keeps_bind (fun _ h => h) fun _ => sound_memRead _ _ _

theorem sound_movsOnce (w : Width) : Keeps Sound (movsOnce w) :=
  keeps_bind (sound_readSource _) fun _ => keeps_bind (fun _ h => h) fun _ =>
    keeps_bind (sound_memWrite _ _ _ _) fun _ _ h => h

theorem sound_cmpsOnce (w : Width) : Keeps Sound (cmpsOnce w) :=
  keeps_bind (sound_readSource _) fun _ => keeps_bind (sound_readDest _) fun _ _ h => h

theorem sound_scasOnce (w : Width) : Keeps Sound (scasOnce w) := keeps_bind (sound_readDest _) fun _ _ h => h

theorem sound_lodsOnce (w : Width) : Keeps Sound (lodsOnce w) := keeps_bind (sound_readSource _) fun _ _ h => h

theorem sound_stosOnce (w : Width) : Keeps Sound (stosOnce w) :=
  keeps_bind (fun _ h => h) fun _ => keeps_bind (fun _ h => h) fun _ =>
    keeps_bind (sound_memWrite _ _ _ _) fun _ _ h => h

theorem sound_insOnce (w : Width) : Keeps Sound (insOnce w) :=
  keeps_bind (fun _ h => h) fun _ => keeps_bind (sound_ioCheck _ _) fun _ => keeps_bind (fun _ h => h) fun _ =>
    keeps_bind (sound_translate _ _ _ _) fun _ => keeps_bind (sound_portIn _ _) fun _ =>
      keeps_bind (sound_closed.storeBytes _ _) fun _ _ h => h

theorem sound_outsOnce (w : Width) : Keeps Sound (outsOnce w) :=
  keeps_bind (sound_readSource _) fun _ => keeps_bind (fun _ h => h) fun _ =>
    keeps_bind (sound_ioWrite _ _ _) fun _ _ h => h

theorem sound_repeated (compares : Bool) {once : M Unit} (kept : Keeps Sound once) :
    Keeps Sound (repeated compares once) := by
  refine keeps_bind keeps_get fun s => ?_
  split
  · exact kept
  · exact keeps_ite (keeps_pure _) (keeps_bind kept fun _ => keeps_bind (keeps_modify fun _ h => h) fun _ =>
      keeps_bind keeps_get fun _ => keeps_ite (keeps_pure _) fun _ h => h)

/-! Near transfers and frames. -/

theorem sound_loopWhile (cond : Bool → Bool) (disp : Word32) : Keeps Sound (loopWhile cond disp) :=
  keeps_bind (keeps_modify fun _ h => h) fun _ => keeps_bind (fun _ h => h) fun _ => keeps_bind (fun _ h => h) fun _ =>
    keeps_ite (sound_jumpRel _) (keeps_pure _)

theorem sound_callNearTo (t : Word32) : Keeps Sound (callNearTo t) :=
  keeps_bind keeps_get fun _ => keeps_bind (sound_nearTarget _) fun _ => keeps_bind (sound_push _ _) fun _ _ h => h

theorem sound_returnNear (n : Word16) : Keeps Sound (returnNear n) :=
  keeps_bind keeps_get fun _ => keeps_bind (sound_pop _) fun _ => keeps_bind (sound_nearJump _) fun _ _ h => h

theorem sound_readFarPointer (m : EA) : Keeps Sound (readFarPointer m) :=
  keeps_bind keeps_get fun _ => keeps_bind (sound_readEA _ _ _) fun _ => keeps_bind (sound_readEA _ _ _) fun _ =>
    keeps_pure _

theorem sound_copyDisplay (z : Size) : ∀ n, Keeps Sound (copyDisplay z n)
  | 0 => keeps_pure _
  | n + 1 => keeps_bind (keeps_modify fun _ h => h) fun _ => keeps_bind keeps_get fun _ =>
      keeps_bind (sound_memRead _ _ _) fun _ => keeps_bind (sound_push _ _) fun _ => sound_copyDisplay z n

theorem sound_enterFrame (size : Word16) (level : Byte) : Keeps Sound (enterFrame size level) := by
  have last (z : Size) (frame : Word32) : Keeps Sound (do
      modify fun s => s.setReg .ebp (setSized z s.regs.ebp frame)
      let s ← get
      putSp (s.sp - size.setWidth 32)) := fun _ h => h
  exact keeps_bind keeps_get fun _ => keeps_bind (sound_push _ _) fun _ => keeps_bind keeps_get fun _ =>
    keeps_ite (keeps_bind (sound_copyDisplay _ _) fun _ => keeps_bind (sound_push _ _) fun _ => last _ _) (last _ _)

theorem sound_checkBounds (r : Reg) (m : EA) : Keeps Sound (checkBounds r m) :=
  keeps_bind keeps_get fun _ => keeps_bind (sound_readEA _ _ _) fun _ => keeps_bind (sound_readEA _ _ _) fun _ =>
    keeps_require _ _

/-! Every instruction. -/

/-- Every instruction is actions that keep the invariant, under the rule for LOCK. -/
theorem exec_sound (i : Instr) (s : State) (item : i.isPrefix = false) :
    ∃ lockable m, exec i s = runInstr lockable m s ∧ Keeps Sound m := by
  cases i
  case lock | repne | rep | segEs | segCs | segSs | segDs | segFs | segGs | opSize | addrSize => cases item
  case movRbIb | movRvIv | lahf | sahf | nop | lea | clc | stc | cmc | cld | std | cwd | aaa | aas | aad | daa | das
      =>
    exact ⟨_, _, rfl, fun _ h => h⟩
  case cbw => exact ⟨_, _, rfl, sound_convertAcc⟩
  case aam => exact ⟨_, _, rfl, sound_asciiAfterMul _⟩
  case cli => exact ⟨_, _, rfl, keeps_bind sound_requireIopl fun _ _ h => h⟩
  case sti => exact ⟨_, _, rfl, sound_setInterrupts⟩
  case hlt => exact ⟨_, _, rfl, keeps_bind (keeps_bind keeps_get fun _ => keeps_require _ _) fun _ _ h => h⟩
  case wait => exact ⟨_, _, rfl, sound_waitCoprocessor⟩
  case esc => exact ⟨_, _, rfl, keeps_bind keeps_get fun _ => keeps_bind (keeps_require _ _) fun _ => keeps_require _ _⟩
  case movRbRmb | movRvRmv => exact ⟨_, _, rfl, (readsFirst_movRegRm _ _ _).sound⟩
  case movsxRvRmb | movsxRdRmw | movzxRvRmb | movzxRdRmw => exact ⟨_, _, rfl, (readsFirst_movExtend _ _ _ _ _).sound⟩
  case addRbRmb | addRvRmv | orRbRmb | orRvRmv | adcRbRmb | adcRvRmv | sbbRbRmb | sbbRvRmv | andRbRmb | andRvRmv |
      subRbRmb | subRvRmv | xorRbRmb | xorRvRmv | cmpRbRmb | cmpRvRmv =>
    exact ⟨_, _, rfl, (readsFirst_aluRegRm _ _ _ _).sound⟩
  case testRmbIb | testRmvIv | testAlIb | testAxIv => exact ⟨_, _, rfl, (readsFirst_testRm _ _ _).sound⟩
  case mulRmb | mulRmv => exact ⟨_, _, rfl, (readsFirst_mulAcc _ _).sound⟩
  case imulRmb | imulRmv => exact ⟨_, _, rfl, (readsFirst_imulAcc _ _).sound⟩
  case imulRvRmv => exact ⟨_, _, rfl, (readsFirst_imulRegRm _ _ _).sound⟩
  case imulRvRmvIb | imulRvRmvIv => exact ⟨_, _, rfl, (readsFirst_imulRegRmImm _ _ _ _).sound⟩
  case bsf | bsr => exact ⟨_, _, rfl, (readsFirst_bitScan _ _ _ _).sound⟩
  case testRmbRb | testRmvRv => exact ⟨_, _, rfl, keeps_bind (fun _ h => h) fun _ => (readsFirst_testRm _ _ _).sound⟩
  case addRmbIb | addRmvIv | addRmvIb | orRmbIb | orRmvIv | orRmvIb | adcRmbIb | adcRmvIv | adcRmvIb | sbbRmbIb |
      sbbRmvIv | sbbRmvIb | andRmbIb | andRmvIv | andRmvIb | subRmbIb | subRmvIv | subRmvIb | xorRmbIb | xorRmvIv |
      xorRmvIb | cmpRmbIb | cmpRmvIv | cmpRmvIb =>
    exact ⟨_, _, rfl, sound_aluRm _ _ _ _⟩
  case addRmbRb | addRmvRv | orRmbRb | orRmvRv | adcRmbRb | adcRmvRv | sbbRmbRb | sbbRmvRv | andRmbRb | andRmvRv |
      subRmbRb | subRmvRv | xorRmbRb | xorRmvRv | cmpRmbRb | cmpRmvRv =>
    exact ⟨_, _, rfl, keeps_bind (fun _ h => h) fun _ => sound_aluRm _ _ _ _⟩
  case addAlIb | addAxIv | orAlIb | orAxIv | adcAlIb | adcAxIv | sbbAlIb | sbbAxIv | andAlIb | andAxIv | subAlIb |
      subAxIv | xorAlIb | xorAxIv | cmpAlIb | cmpAxIv =>
    exact ⟨_, _, rfl, sound_aluReg _ _ _ _⟩
  case incRmb | incRmv | decRmb | decRmv | notRmb | notRmv | negRmb | negRmv =>
    exact ⟨_, _, rfl, (storesFirst_unRm _ _ _).sound⟩
  case incRv | decRv => exact ⟨_, _, rfl, (storesFirst_unRm _ _ _).sound⟩
  case movRmbIb | movRmvIv => exact ⟨_, _, rfl, (storesFirst_writeRM _ _ _).sound⟩
  case movRmbRb | movRmvRv => exact ⟨_, _, rfl, keeps_bind (fun _ h => h) fun _ => (storesFirst_writeRM _ _ _).sound⟩
  case movRmwSreg => exact ⟨_, _, rfl, keeps_bind (fun _ h => h) fun _ => (storesFirst_writeRM _ _ _).sound⟩
  case setcc => exact ⟨_, _, rfl, keeps_bind (fun _ h => h) fun _ => (storesFirst_writeRM _ _ _).sound⟩
  case btRmvIb | btsRmvIb | btrRmvIb | btcRmvIb => exact ⟨_, _, rfl, sound_bitRm _ _ _ _⟩
  case btRmvRv | btsRmvRv | btrRmvRv | btcRmvRv =>
    exact ⟨_, _, rfl, keeps_bind (fun _ h => h) fun _ => sound_bitRm _ _ _ _⟩
  case rolRmbOne | rolRmbIb | rolRmvOne | rolRmvIb | rorRmbOne | rorRmbIb | rorRmvOne | rorRmvIb | rclRmbOne |
      rclRmbIb | rclRmvOne | rclRmvIb | rcrRmbOne | rcrRmbIb | rcrRmvOne | rcrRmvIb | shlRmbOne | shlRmbIb | shlRmvOne
      | shlRmvIb | shrRmbOne | shrRmbIb | shrRmvOne | shrRmvIb | sarRmbOne | sarRmbIb | sarRmvOne | sarRmvIb =>
    exact ⟨_, _, rfl, sound_shiftRm _ _ _ _⟩
  case rolRmbCl | rolRmvCl | rorRmbCl | rorRmvCl | rclRmbCl | rclRmvCl | rcrRmbCl | rcrRmvCl | shlRmbCl | shlRmvCl |
      shrRmbCl | shrRmvCl | sarRmbCl | sarRmvCl =>
    exact ⟨_, _, rfl, keeps_bind (fun _ h => h) fun _ => sound_shiftRm _ _ _ _⟩
  case shldIb | shrdIb => exact ⟨_, _, rfl, sound_doubleShiftRm _ _ _ _ _⟩
  case shldCl | shrdCl => exact ⟨_, _, rfl, keeps_bind (fun _ h => h) fun _ => sound_doubleShiftRm _ _ _ _ _⟩
  case divRmb | divRmv | idivRmb | idivRmv =>
    exact ⟨_, _, rfl, keeps_bind (sound_readRM _ _) fun _ => keeps_bind (fun _ h => h) fun _ =>
      keeps_bind (fun _ h => h) fun _ => keeps_bind (keeps_require _ _) fun _ =>
        keeps_bind (keeps_require _ _) fun _ _ h => h⟩
  case xchgAxRv | xchgRbRmb | xchgRvRmv => exact ⟨_, _, rfl, sound_xchgRegRm _ _ _⟩
  case movAlOff | movAxOff =>
    exact ⟨_, _, rfl, keeps_bind keeps_get fun _ => keeps_bind (sound_memRead _ _ _) fun _ _ h => h⟩
  case movOffAl | movOffAx => exact ⟨_, _, rfl, keeps_bind keeps_get fun _ => sound_memWrite _ _ _ _⟩
  case movSregRmw => exact ⟨_, _, rfl, sound_movSregRm _ _⟩
  case pushRv => exact ⟨_, _, rfl, keeps_bind (fun _ h => h) fun _ => sound_push _ _⟩
  case pushRmv => exact ⟨_, _, rfl, keeps_bind (sound_readRM _ _) fun _ => sound_push _ _⟩
  case pushIb | pushIv => exact ⟨_, _, rfl, sound_push _ _⟩
  case pushCs | pushDs | pushEs | pushSs | pushFs | pushGs =>
    exact ⟨_, _, rfl, keeps_bind keeps_get fun _ => sound_pushSelector _ _⟩
  case popRv => exact ⟨_, _, rfl, sound_popReg _ _⟩
  case popRmv =>
    exact ⟨_, _, rfl, keeps_bind (sound_pop _) fun _ => keeps_bind keeps_get fun _ => sound_memWrite _ _ _ _⟩
  case popDs | popEs | popSs | popFs | popGs => exact ⟨_, _, rfl, sound_popSreg _⟩
  case pusha => exact ⟨_, _, rfl, sound_pushAllRegs⟩
  case popa => exact ⟨_, _, rfl, sound_popAllRegs⟩
  case pushf => exact ⟨_, _, rfl, keeps_bind sound_requireIoplV86 fun _ => keeps_bind keeps_get fun _ => sound_push _ _⟩
  case popf =>
    exact ⟨_, _, rfl, keeps_bind sound_requireIoplV86 fun _ => keeps_bind keeps_get fun _ =>
      keeps_bind (sound_pop _) fun _ _ h => h⟩
  case lds | les | lfs | lgs | lss => exact ⟨_, _, rfl, sound_loadFar _ _ _⟩
  case xlat => exact ⟨_, _, rfl, keeps_bind keeps_get fun _ => keeps_bind (sound_memRead _ _ _) fun _ _ h => h⟩
  case inAlIb | inAxIb | inAlDx | inAxDx =>
    exact ⟨_, _, rfl, keeps_bind (keeps_bind (sound_ioCheck _ _) fun _ => sound_portIn _ _) fun _ _ h => h⟩
  case outIbAl | outIbAx | outDxAl | outDxAx =>
    exact ⟨_, _, rfl, keeps_bind (fun _ h => h) fun _ => sound_ioWrite _ _ _⟩
  case movsb | movsv => exact ⟨_, _, rfl, sound_repeated _ (sound_movsOnce _)⟩
  case cmpsb | cmpsv => exact ⟨_, _, rfl, sound_repeated _ (sound_cmpsOnce _)⟩
  case stosb | stosv => exact ⟨_, _, rfl, sound_repeated _ (sound_stosOnce _)⟩
  case lodsb | lodsv => exact ⟨_, _, rfl, sound_repeated _ (sound_lodsOnce _)⟩
  case scasb | scasv => exact ⟨_, _, rfl, sound_repeated _ (sound_scasOnce _)⟩
  case insb | insv => exact ⟨_, _, rfl, sound_repeated _ (sound_insOnce _)⟩
  case outsb | outsv => exact ⟨_, _, rfl, sound_repeated _ (sound_outsOnce _)⟩
  case jmpShort | jmpNear => exact ⟨_, _, rfl, sound_jumpRel _⟩
  case jmpRmv => exact ⟨_, _, rfl, keeps_bind (sound_readRM _ _) fun _ => sound_nearJump _⟩
  case jccShort | jccNear =>
    exact ⟨_, _, rfl, keeps_bind (fun _ h => h) fun _ => keeps_ite (sound_jumpRel _) (keeps_pure _)⟩
  case jcxz => exact ⟨_, _, rfl, keeps_bind (fun _ h => h) fun _ => keeps_ite (sound_jumpRel _) (keeps_pure _)⟩
  case loop | loope | loopne => exact ⟨_, _, rfl, sound_loopWhile _ _⟩
  case callNear => exact ⟨_, _, rfl, keeps_bind (fun _ h => h) fun _ => sound_callNearTo _⟩
  case callRmv => exact ⟨_, _, rfl, keeps_bind (sound_readRM _ _) fun _ => sound_callNearTo _⟩
  case retNearIw | retNear => exact ⟨_, _, rfl, sound_returnNear _⟩
  case jmpFar => exact ⟨_, _, rfl, sound_farJump _ _⟩
  case jmpFarMem => exact ⟨_, _, rfl, keeps_bind (sound_readFarPointer _) fun _ => sound_farJump _ _⟩
  case callFar => exact ⟨_, _, rfl, sound_farCall _ _⟩
  case callFarMem => exact ⟨_, _, rfl, keeps_bind (sound_readFarPointer _) fun _ => sound_farCall _ _⟩
  case retFarIw | retFar => exact ⟨_, _, rfl, sound_farReturn _⟩
  case int3 => exact ⟨_, _, rfl, sound_interrupt _ _ _⟩
  case intIb =>
    exact ⟨_, _, rfl, keeps_bind keeps_get fun _ => keeps_bind (keeps_require _ _) fun _ => sound_interrupt _ _ _⟩
  case into => exact ⟨_, _, rfl, keeps_bind (fun _ h => h) fun _ => keeps_ite (sound_interrupt _ _ _) (keeps_pure _)⟩
  case iret => exact ⟨_, _, rfl, sound_interruptReturn⟩
  case enter => exact ⟨_, _, rfl, sound_enterFrame _ _⟩
  case leave =>
    exact ⟨_, _, rfl, keeps_bind keeps_get fun _ => keeps_bind (fun _ h => h) fun _ =>
      keeps_bind (sound_pop _) fun _ _ h => h⟩
  case bound => exact ⟨_, _, rfl, sound_checkBounds _ _⟩

end Sys2Proof.Machine
end

