-- ==== Sys2Proof/Proofs/StepInvariant.lean ====
section
/-! SUPPORT. What ends a step settles the state: delivery, the end of an instruction, and each event of a boundary
keep the invariant (R559, R567, R590, R640). -/

namespace Sys2Proof.Machine

open Sys2Proof.Safety Sys2Proof.Claims

/-! Between steps and within one. -/

theorem sound_of_inv {s : State} (h : Inv s) : Sound s where
  mem := h.mem
  cr3 := h.cr3
  tlb := h.tlb
  marks _ hc := absurd (h.marks ▸ hc) List.not_mem_nil

/-- A state with nothing left of an instruction meets the invariant of the states between steps. -/
theorem Sound.inv {s : State} (h : Sound s) (pfx : s.pfx = Pfx.none) (kept : s.rfKept = false)
    (marks : s.adMarks = []) : Inv s :=
  ⟨h.mem, h.cr3, h.tlb, pfx, kept, marks⟩

theorem Sound.settled {s : State} (h : Sound s) : Sound s.settled :=
  { mem := h.mem, cr3 := h.cr3, tlb := h.tlb, marks := fun _ hc => absurd hc List.not_mem_nil }

/-- An undone instruction leaves page marks on sound memory, and the TLB it filled or none. -/
theorem Sound.undo {s t : State} (before : Sound s) (reached : Sound t) : Sound (undo s t) where
  mem := wf_foldl_orByte _ _ reached.marks before.mem
  cr3 := before.cr3
  tlb := by
    change TlbWf (if t.cr3 = s.cr3 then t.tlb else [])
    split
    · exact reached.tlb
    · exact tlbWf_nil
  marks := reached.marks

/-! Delivery. -/

theorem inv_faultShutdown {s : State} (h : Sound s) (e : Exn) : Inv (faultShutdown e s) :=
  Sound.inv (s := faultShutdown e s) h.settled rfl rfl rfl

/-- A delivery ends in a state between steps, however many exceptions it meets (R567, R590). -/
theorem inv_deliverWithin : ∀ (n : Nat) (e : Exn) (s : State), Sound s → Inv (deliverWithin n e s)
  | 0, _, s, h => by
    rw [deliverWithin]
    exact Sound.inv (s := { s.settled with shutdown := true }) h.settled rfl rfl rfl
  | n + 1, e, s, h => by
    have reach := sound_interrupt e.vector e.kind e.code (report e s) h
    rw [deliverWithin]
    dsimp only
    generalize interrupt e.vector e.kind e.code (report e s) = r at reach ⊢
    have reported : Sound (report e s) := h
    match r, reach with
    | .ok _ t, reach => exact reach.settled.inv rfl rfl rfl
    | .error .shutdown t, reach => exact Sound.inv (s := { t.settled with shutdown := true }) reach.settled rfl rfl rfl
    | .error .waiting t, reach => exact reach.settled.inv rfl rfl rfl
    | .error (.excNew x) t, reach =>
      dsimp only
      split
      · exact inv_faultShutdown reach x
      · exact inv_deliverWithin n _ _ reach
    | .error (.exc x) t, reach =>
      dsimp only
      split
      · exact inv_faultShutdown reported x
      · exact inv_deliverWithin n _ _ (reported.undo reach)

theorem inv_deliver {s : State} (h : Sound s) (e : Exn) : Inv (deliver e s) := inv_deliverWithin _ e s h

/-! The end of an instruction. -/

theorem inv_conclude {s : State} (h : Sound s) : ∀ r : EStateM.Result Stop State Unit, Sound (endState r) →
    Inv (conclude s r)
  | .ok _ t, reach => Sound.inv (s := finished s t) reach.settled rfl rfl rfl
  | .error (.exc e) _, reach => inv_deliver (h.undo reach) e
  | .error (.excNew e) _, reach => inv_deliver reach e
  | .error .shutdown t, reach => Sound.inv (s := { t.settled with shutdown := true }) reach.settled rfl rfl rfl
  | .error .waiting t, reach => Sound.inv (s := t.settled.setEip t.curEip) reach.settled rfl rfl rfl

theorem sound_checkLock (lockable : Bool) : Keeps Sound (checkLock lockable) := by
  intro s h
  rcases checkLock_run_cases lockable s with run | ⟨e, run⟩ <;> rw [run] <;> exact h

/-- Every instruction ends in a state between steps. -/
theorem inv_exec {i : Instr} {s t : State} (item : i.isPrefix = false) (h : Sound s) (run : exec i s = .next t) :
    Inv t := by
  obtain ⟨lockable, m, arm, kept⟩ := exec_sound i s item
  rw [arm] at run
  cases run
  exact inv_conclude h _ (keeps_bind (sound_checkLock lockable) (fun _ => kept) s.begun h)

/-! Fetching. -/

theorem sound_touchCode (n : Nat) : Keeps Sound (touchCode n) :=
  keeps_bind keeps_get fun _ => keeps_bind (sound_closed.pages _ _ _ _) fun _ => keeps_pure _

/-- A sequence fails in its first part, or in its second. -/
theorem bind_run_eq_error {α β : Type} {x : M α} {f : α → M β} {s t : State} {e : Stop}
    (h : (x >>= f) s = .error e t) : x s = .error e t ∨ ∃ a s', x s = .ok a s' ∧ f a s' = .error e t := by
  rw [bind_run] at h
  split at h
  · exact .inr ⟨_, _, by assumption, h⟩
  · cases h
    exact .inl (by assumption)

/-- What stops the translation of a byte is an exception. -/
theorem page_error_exc {kind : Access} {user : Bool} {lin : Word32} {s t : State} {x : Stop}
    (run : page kind user lin s = .error x t) : ∃ e, x = .exc e := by
  cases found : pageLookup s kind user lin with
  | error e =>
    rw [page_run_error found] at run
    cases run
    exact ⟨e, rfl⟩
  | ok p =>
    rw [page_run_ok found] at run
    cases run

theorem pages_error_exc {kind : Access} {user : Bool} : ∀ {n : Nat} {lin : Word32} {s t : State} {x : Stop},
    pages kind user lin n s = .error x t → ∃ e, x = .exc e
  | 0, _, _, _, _, run => by cases run
  | n + 1, _, _, _, _, run => by
    rcases bind_run_eq_error run with first | ⟨p, u, -, rest⟩
    · exact page_error_exc first
    · rcases bind_run_eq_error rest with others | ⟨ps, v, -, last⟩
      · exact pages_error_exc others
      · cases last

theorem touchCode_error_exc {n : Nat} {s t : State} {x : Stop} (run : touchCode n s = .error x t) :
    ∃ e, x = .exc e := by
  rcases bind_run_eq_error run with read | ⟨_, _, read, rest⟩
  · cases read
  · cases read
    rcases bind_run_eq_error rest with fails | ⟨ps, u, -, last⟩
    · exact pages_error_exc fails
    · cases last

theorem inv_fetchFault {s : State} (h : Sound s) (e : Exn) (n : Nat) : Inv (fetchFault e n s) := by
  unfold fetchFault
  split
  · next touched => exact inv_deliver (keeps_ok (sound_touchCode n) h touched) e
  · next x t touched => exact inv_deliver (keeps_error (sound_touchCode n) h touched) x
  · next touched => exact inv_deliver (keeps_error (sound_touchCode n) h touched) e

/-! The boundary. -/

/-- What a boundary leads to keeps the invariant: the next state meets it, or an instruction is to run after its
prefixes, from a state that meets its part within a step. -/
def BoundarySound : Boundary → Prop
  | .done t => Inv t
  | .run pre i t => Sound t ∧ i.isPrefix = false ∧ ∀ p ∈ pre, p.isPrefix = true

theorem boundarySound_fetchDecode {s : State} (h : Sound s) : BoundarySound (fetchDecode s) := by
  unfold fetchDecode
  split
  · exact inv_deliver h _
  · dsimp only
    split
    · exact inv_fetchFault h _ _
    · exact inv_fetchFault h _ _
    · next pre i n read =>
      split
      · next t touched =>
        obtain ⟨rest, items, -⟩ := decode_ok read
        have reach : Sound t := keeps_ok (sound_touchCode n) h touched
        exact ⟨reach, decodeItems_prefixes items⟩
      · next e t touched => exact inv_deliver (keeps_error (sound_touchCode n) h touched) e
      · next x t notExc touched =>
        obtain ⟨e, rfl⟩ := touchCode_error_exc touched
        exact absurd rfl (notExc e)

theorem inv_afterReset {s : State} (h : Inv s) : Inv (afterReset s) :=
  { resetInvariant with mem := h.mem }

/-- Every event of a boundary, and the fetch that follows none, keeps the invariant (R559). -/
theorem boundarySound_boundary {s : State} (h : Inv s) : BoundarySound (boundary s) := by
  have sound : Sound s := sound_of_inv h
  unfold boundary
  split
  · exact inv_afterReset h
  split
  · exact h
  split
  · exact inv_deliver (s := { atBoundary s with dbg := DebugCauses.none }) sound _
  dsimp only
  split
  · exact inv_deliver (s := acceptNmi (atBoundary s)) sound _
  split
  · exact inv_deliver (s := acceptIntr (atBoundary s)) sound _
  split
  · exact Sound.inv (s := atBoundary s) sound h.pfx h.kept h.marks
  · exact boundarySound_fetchDecode (s := atBoundary s) sound

/-- Settles O6: by the events of the boundary, and by the actions of the instruction it begins. -/
theorem stepKeepsInvariant : Obligations.StepKeepsInvariant := by
  unfold Obligations.StepKeepsInvariant
  intro s t h run
  have sound := boundarySound_boundary h
  unfold step at run
  split at run
  · next found =>
    cases run
    rwa [found] at sound
  · next pre i s1 found =>
    rw [found] at sound
    obtain ⟨reach, item, pres⟩ := sound
    rw [runItems_latches i pre s1 pres] at run
    exact inv_exec (s := { s1 with pfx := pre.foldl (fun p j => latched j p) s1.pfx }) item reach run

end Sys2Proof.Machine
end
